-- ==== Sys2Proof/Word.lean ====
section
/-! DEFINITION. The value widths of the machine (rule R7 of 00_scope.md: `XLEN` = 32, `DLINE` = 16). -/

namespace Sys2Proof

/-- A register, an offset, a segment selector or an instruction word: `XLEN` = 32 bits (R7, R9, R120). -/
abbrev Word := BitVec 32

/-- A granule value (`DLINE` = 16 bits, R7, R37) or an immediate field (R122). -/
abbrev Half := BitVec 16

/-- One byte of memory (R61). -/
abbrev Byte := BitVec 8

end Sys2Proof
end

