-- ==== Sys2Proof/Syntax.lean ====
section
/-! DEFINITION. The syntax of the baseline table DK0 (30_encoding.md): register names and instructions.
An operand is the register it names, so an instruction that names register 15 cannot be written down
(R20, R124); the field checks on raw words are in `Sys2Proof.WellFormed`. -/

namespace Sys2Proof

/-- The fifteen registers of the register file, in index order 0 to 14 (R20). -/
inductive Reg where
  | r0 | r1 | r2 | r3 | r4 | r5 | r6 | r7
  | fp | sp | ds | cs | ip | flags | cnt
deriving DecidableEq, Repr, Inhabited

/-- The 55 instructions of DK0, one constructor per row of rule R126, in the table's order.
`ra` is the field in bits 23:20, `rb` in bits 19:16, `imm` in bits 15:0 (R122). -/
inductive Instr where
  | nop
  | li (ra : Reg) (imm : Half)
  | liu (ra : Reg) (imm : Half)
  | mov (ra rb : Reg)
  | lb (ra rb : Reg) (imm : Half)
  | lw (ra rb : Reg) (imm : Half)
  | ld (ra rb : Reg) (imm : Half)
  | stb (ra rb : Reg) (imm : Half)
  | stw (ra rb : Reg) (imm : Half)
  | std (ra rb : Reg) (imm : Half)
  | push (ra : Reg)
  | pop (ra : Reg)
  | add (ra rb : Reg)
  | addi (ra : Reg) (imm : Half)
  | sub (ra rb : Reg)
  | subi (ra : Reg) (imm : Half)
  | mul (ra rb : Reg)
  | muli (ra : Reg) (imm : Half)
  | div (ra rb : Reg)
  | divi (ra : Reg) (imm : Half)
  | mod (ra rb : Reg)
  | modi (ra : Reg) (imm : Half)
  | and (ra rb : Reg)
  | andi (ra : Reg) (imm : Half)
  | or (ra rb : Reg)
  | ori (ra : Reg) (imm : Half)
  | xor (ra rb : Reg)
  | xori (ra : Reg) (imm : Half)
  | not (ra : Reg)
  | shl (ra rb : Reg)
  | shli (ra : Reg) (imm : Half)
  | shr (ra rb : Reg)
  | shri (ra : Reg) (imm : Half)
  | cmp (ra rb : Reg)
  | cmpi (ra : Reg) (imm : Half)
  | j (ra : Reg)
  | jr (imm : Half)
  | be (imm : Half)
  | bne (imm : Half)
  | bz (imm : Half)
  | bnz (imm : Half)
  | bo (imm : Half)
  | bno (imm : Half)
  | bs (imm : Half)
  | bns (imm : Half)
  | call (ra : Reg)
  | callr (imm : Half)
  | ret
  | int (imm : Half)
  | retint
  | cli
  | sti
  | lpm
  | hlt (ra : Reg)
  | sis (imm : Half)
deriving DecidableEq, Repr, Inhabited

end Sys2Proof
end

