-- ==== Sys2Proof/Machine/Faults.lean ====
section
/-! DEFINITION. The fault kinds of the hardware (R283 of 60_exceptions.md). A fault of this type is an event INSIDE
the machine: the step or host operation that raises it ends in `die`, a next state (R281). It is not the
`Fault` of `State.lean`, which stops the model. -/

namespace Sys2Proof.Machine

/-- A decoded instruction (R151): one of DK0, or one of a replacement table, which the model knows by the number
of the table and the code the table gives it (R158; log entry 21). -/
inductive Insn where
  | dk0 (i : Instr)
  | other (table code : Nat)
deriving DecidableEq, Repr

/-- The eight fault kinds of R283 with the information each records. Physical addresses are numbers. -/
inductive CoreFault where
  /-- Code 1: the fetched word does not decode (R124); the word and its physical address. -/
  | invalidOpcode (word : Word) (pa : Nat)
  /-- Code 2: a switch to a set number not below `NISETS` (R266); the number, of 16 bits where `SIS` asked for it, of any
  size where a replacement table did (log entry 21). -/
  | invalidInstructionSet (number : Nat)
  /-- Code 3 (a): an operand write to a protected register while unprivileged (R27); the register. -/
  | accessViolationRegister (reg : Reg)
  /-- Code 3 (b): a privileged instruction while unprivileged (R154); the instruction. -/
  | accessViolationInstruction (insn : Insn)
  /-- Code 3 (c): a protected port. No DK0 instruction raises it (R5, R283); a host may pass it to `die`. R283 names
  no information for this cause: that a port number is recorded, a number of any size, is the model's choice.
  DESIGN CHOICE, log entry 20. -/
  | accessViolationPort (port : Nat)
  /-- Code 4: the divisor is 0 (R207 to R210). -/
  | divideByZero
  /-- Code 5: the physical address is not a multiple of the access size (R64). -/
  | unalignedAccess (pa : Nat)
  /-- Code 6: frame destruction with no record or with another `SP` (R246); the value of `SP`. -/
  | invalidFrame (sp : Word)
  /-- Code 7: the backend reported a fault (R62); the physical address or page. -/
  | backendFault (pa : Nat)
  /-- Code 8: anything else a replacement table or a virtual interrupt handler raises (R283). Its information is
  free in the spec: that it is a number is the model's choice. DESIGN CHOICE, log entry 20. -/
  | unexpected (info : Nat)
deriving DecidableEq, Repr

/-- The numeric code recorded with a fault (R283). -/
def CoreFault.code : CoreFault → Nat
  | .invalidOpcode _ _ => 1
  | .invalidInstructionSet _ => 2
  | .accessViolationRegister _ => 3
  | .accessViolationInstruction _ => 3
  | .accessViolationPort _ => 3
  | .divideByZero => 4
  | .unalignedAccess _ => 5
  | .invalidFrame _ => 6
  | .backendFault _ => 7
  | .unexpected _ => 8

end Sys2Proof.Machine
end

