-- ==== Sys2Proof/Config.lean ====
section
/-! DEFINITION. The parameters of rule R7 (00_scope.md) and the free values of the model.

The parameters the spec fixes are constants here. The parameters it leaves open are fields of `Config`, plain
data that a state carries and no step changes (R41), so that a theorem about every state is a theorem about
every value of every parameter. `NCORES` is the number of cores a state holds. The backend, the instruction table
and the virtual handlers are parameters too: their reference values, and any other as a free value. -/

namespace Sys2Proof

/-- The width of a data-path access (R72). -/
inductive Width where
  | byte | word | dword
deriving DecidableEq, Repr

/-- Which memory backend the machine has (R39, R62, U8). What a backend does is `Backend` in Machine/Backend.lean. -/
inductive BackendRef where
  /-- RefBackend (R63). -/
  | reference
  /-- Another backend with the contract of R62, a free value. -/
  | other (n : Nat)
deriving DecidableEq, Repr

/-- Which instruction table the machine has (R41, R158, U12). What a table does is `Table` in Machine/Programs.lean. -/
inductive TableRef where
  /-- DK0, the reference value (R126). -/
  | dk0
  /-- A replacement table with the contract of R158, a free value. -/
  | other (n : Nat)
deriving DecidableEq, Repr

/-- A value that a virtual interrupt handler given as data computes. -/
inductive HandlerExpr where
  | const (v : Word)
  | reg (r : Reg)
  /-- What the `k`-th read or pop of the handler answered, counted from 0, and 0 where there was none. -/
  | got (k : Nat)
  | add (a b : HandlerExpr)
deriving DecidableEq, Repr

/-- One action of a virtual interrupt handler given as data: a register write, a memory primitive or a raise
(R11, R295). -/
inductive HandlerAct where
  | setReg (r : Reg) (v : HandlerExpr)
  | memRead (width : Width) (pa : HandlerExpr)
  | memWrite (width : Width) (pa v : HandlerExpr)
  | push (v : HandlerExpr)
  | pop
  | raise (f : Machine.CoreFault)
deriving DecidableEq, Repr

/-- A handler of the virtual interrupt table (R295, U11): given as data, or an arbitrary function on the core's state,
a free value (`Config.virtHandler`). -/
inductive Handler where
  | given (acts : List HandlerAct)
  | free (n : Nat)
deriving DecidableEq, Repr

/-- The open parameters of R7, except `NCORES`, which is the number of cores in the state. -/
structure Config where
  /-- `DCACHE_SIZE`, at least 1. -/
  dcacheSize : Nat
  /-- `ICACHE_SIZE`, at least 1. -/
  icacheSize : Nat
  /-- `PAGE_SIZE`, a power of two, at least 64. -/
  pageSize : Nat
  /-- `MEM_SIZE`, at most 2^32. -/
  memSize : Nat
  /-- `IRQ_TABLE`, a physical address. -/
  irqTable : Word
  /-- `INT_TABLE`, a physical address. -/
  intTable : Word
  /-- `CHECK_FRAMES`. -/
  checkFrames : Bool
  /-- `VIRT`, the partial map from software-interrupt indices to virtual handlers (R295): of two pairs with one
  index the first counts. -/
  virt : List (Half × Handler)
  /-- The memory backend (R39, R62). -/
  backend : BackendRef
  /-- The instruction table (R41, R158). -/
  table : TableRef
deriving DecidableEq, Repr

/-- The default values of R7. -/
def Config.default : Config where
  dcacheSize := 1024
  icacheSize := 256
  pageSize := 256
  memSize := 0x01000000
  irqTable := 0x00000000
  intTable := 0x00000100
  checkFrames := true
  virt := []
  backend := .reference
  table := .dk0

/-- The constraints R7 puts on the open parameters. -/
def Config.wf (c : Config) : Bool :=
  decide (1 ≤ c.dcacheSize) && decide (1 ≤ c.icacheSize)
    && decide (64 ≤ c.pageSize) && decide (c.pageSize.isPowerOfTwo)
    && decide (c.memSize ≤ 2 ^ 32)

/-- `SEG_SHIFT` (R7, R60). -/
def segShift : Nat := 16

/-- `NISETS` of DK0 (R7, R34, R127). -/
def nIsets : Nat := 1

/-- `VIRT[index]`, if there is one (R295). -/
def Config.handler (c : Config) (index : Half) : Option Handler := (c.virt.find? (·.1 == index)).map (·.2)

/-- FREE VALUE (U3, R100): the external scheduler's choice, read at a counter, where no host operation is pending
and more than one core may step. DESIGN CHOICE, log entry 5. Safe. -/
opaque Config.schedule : Nat → Nat

/-- FREE VALUE (R12, R62, R95, R281): which of several cores dies, read at a counter, where a host operation that is
asked of no core meets a backend fault: a memory-structure change or a page call. The fault is raised, every raised fault
ends in `die`, and the spec does not say of which core. DESIGN CHOICE, log entry 12. Safe. -/
opaque Config.blamedCore : Nat → Nat

end Sys2Proof
end

