-- ==== Sys2Proof/Machine/State.lean ====
section
/-! DEFINITION. The state of the machine (10_state.md), as plain data, and its value at reset (R40, R340). -/

namespace Sys2Proof.Machine

/-- The six flags (R26). -/
structure Flags where
  privileged : Bool
  hwintEnabled : Bool
  equal : Bool
  zero : Bool
  overflow : Bool
  sign : Bool
deriving DecidableEq, Repr

/-- The register file of a core (R20): eight general registers and the special registers. -/
structure Regs where
  r0 : Word
  r1 : Word
  r2 : Word
  r3 : Word
  r4 : Word
  r5 : Word
  r6 : Word
  r7 : Word
  /-- Frame pointer. -/
  fp : Word
  /-- Stack pointer: offset, in segment `DS`, of the last pushed slot (R75). -/
  sp : Word
  /-- Data segment selector (R24). -/
  ds : Word
  /-- Code segment selector (R24). -/
  cs : Word
  /-- Instruction pointer: an offset in segment `CS` (R25). -/
  ip : Word
  /-- The six flags; as a register, their zero-extended 32-bit value (R26). -/
  flags : Flags
  /-- Instruction counter (R28). -/
  cnt : Word
deriving DecidableEq, Repr

/-- The lifecycle state of a core (R33, R311). `exit_code` is defined once the core is Halted (R33, U14), so it
stands in that constructor and nothing can read it before. -/
inductive Lifecycle where
  | reset
  | booted
  | suspended
  | halted (exitCode : Word)
deriving DecidableEq, Repr

/-- A record of the shadow frame stack (R35). `fp` is the value of `SP` when the frame was created. -/
structure StackFrame where
  cs : Word
  ds : Word
  fp : Word
  ip : Word
deriving DecidableEq, Repr

/-- An instruction-cache entry (R36): a physical address and the decoded instruction. -/
structure IEntry where
  addr : Nat
  insn : Insn
deriving DecidableEq, Repr

/-- A data-cache entry (R37): the physical address of a granule, whether it is dirty, and its value. -/
structure DEntry where
  addr : Nat
  dirty : Bool
  value : Half
deriving DecidableEq, Repr

/-- Everything private to one core (R33 to R37, R322). -/
structure Core where
  regs : Regs
  life : Lifecycle
  /-- The recorded fault, or none (R33); its code is `CoreFault.code` (R283). -/
  lastException : Option CoreFault
  /-- The number of the active instruction-set table (R34). -/
  iset : Nat
  /-- The shadow frame stack, newest last (R35). -/
  frames : List StackFrame
  /-- Least recently used first (R36). -/
  icache : List IEntry
  /-- Least recently used first (R37). -/
  dcache : List DEntry
  /-- Whether the core is in the coherency registry (R38): the registry is the set of the cores with this flag. -/
  registered : Bool
deriving DecidableEq, Repr

/-- Which data-cache entries a `release` acts on (R88). -/
inductive Selector where
  | single (addr : Nat)
  | page (pg : Nat)
  | range (addr size : Nat)
  | all
deriving DecidableEq, Repr

/-- The arguments of `boot` (R312). -/
structure BootArgs where
  cs : Word
  ds : Word
  sp : Word
  ip : Word
  privileged : Bool
deriving DecidableEq, Repr

/-- A transition the world outside the cores asks for (R100, R310): a step of a core the scheduler chose, a host
operation, or a backend event. `core` is the core's number. -/
inductive HostOp where
  /-- The scheduler steps this core (R150). -/
  | step (core : Nat)
  | boot (core : Nat) (args : BootArgs)
  | suspend (core : Nat)
  | wakeUp (core : Nat)
  | halt (core : Nat) (code : Word)
  | die (core : Nat) (exception : CoreFault)
  | irq (core : Nat) (index : Nat)
  /-- The CPU-level operations of R317. -/
  | cpuBoot (args : List BootArgs)
  | cpuSuspend
  | cpuWakeUp
  | cpuHalt
  /-- The host calls page functions of the backend (`alloc_page`, `get_page`, `free_page`, R62): the backend's state
  beside its bytes is `pages` afterwards, and `fault` is the address or page of the fault it reports, if it does. -/
  | pageCall (pages : List Nat) (fault : Option Nat)
  /-- A memory-structure change raised by the backend or the host (R92). -/
  | memoryStructureChange (addr size : Nat) (writeback : Bool)
  /-- `dcache.release`, callable by the host (R109). -/
  | release (core : Nat) (sel : Selector) (writeback remove : Bool)
deriving DecidableEq, Repr

/-- The bytes of the backend (R63), in one canonical form: addresses strictly rising, no entry with the value an
unlisted address reads as. -/
abbrev Memory := List Host.Cell

/-- The whole machine: the CPU of R2 and R317 with its memory backend (R39).

The cores stand as `before ++ self :: after` in registration order, so a core's number is its position and
there is at least one (R7, R322). `self` is the core that is executing or was the last to execute: which core
it is carries no other meaning. -/
structure State where
  /-- The open parameters of R7; no step changes them (R41). -/
  cfg : Config
  before : List Core
  self : Core
  after : List Core
  /-- `mem` of R63. -/
  mem : Memory
  /-- `allocated` of R63: the numbers of the pages marked allocated, strictly rising. For another backend than the
  reference one, its state beside its bytes, as a list of numbers, which every operation but a read may change
  (R62). -/
  allocated : List Nat
  /-- MODEL FIELD: the transitions the outside world asks for, oldest first (R100, R310). -/
  inputs : List HostOp
  /-- MODEL FIELD: the counter at which the next free choice is read (`Config.schedule`, `Config.blamedCore`). -/
  tick : Nat
deriving DecidableEq, Repr

/-- Why the model stops with a fault. Faults of the hardware are not here: they end in `die` (R281). -/
inductive Fault where
  /-- Raised by `step` and by a host's `step` of a core that is not Booted: no step is enabled there, the
  `stuck` of R161, U18 and U19. Safe. -/
  | noEnabledStep
  /-- Raised by a host operation that names a core the CPU does not have (R322). Safe. -/
  | noSuchCore
deriving DecidableEq, Repr

/-- Why the model refuses an instruction. -/
inductive Refusal where
  /-- Raised by `exec` for an instruction that has no meaning yet; no arm does. Safe. -/
  | notModelled (mnemonic : String)
deriving DecidableEq, Repr

/-- The flags after `reset` (R32): only `hwint_enabled` is set. -/
def Flags.reset : Flags := ⟨false, true, false, false, false, false⟩

/-- The register file after `reset(ip)` (R32). -/
def Regs.reset (ip : Word) : Regs where
  r0 := 0
  r1 := 0
  r2 := 0
  r3 := 0
  r4 := 0
  r5 := 0
  r6 := 0
  r7 := 0
  fp := 0
  sp := 0
  ds := 0
  cs := 0
  ip := ip
  flags := Flags.reset
  cnt := 0

/-- A core after reset (R40, R340). -/
def Core.reset : Core where
  regs := Regs.reset 0
  life := .reset
  lastException := none
  iset := 0
  frames := []
  icache := []
  dcache := []
  registered := false

/-- The CPU after reset with the given parameters, `siblings + 1` cores and launch memory `mem` (R340; the backend
is not reset by the block, R40). -/
def State.resetOf (cfg : Config) (siblings : Nat) (mem : Memory) : State where
  cfg := cfg
  before := []
  self := Core.reset
  after := List.replicate siblings Core.reset
  mem := mem
  allocated := []
  inputs := []
  tick := 0

/-- The machine right after reset: the defaults of R7 (one core), nothing listed in memory. -/
def State.reset : State := State.resetOf Config.default 0 []

end Sys2Proof.Machine
end

