-- ==== Sys2Proof/Machine/Backend.lean ====
section
/-! DEFINITION. The memory backend (R39, R62, R63): the byte store in canonical form, what a backend with the contract
of R62 decides beside its bytes, the reference backend, and the accesses. Addresses here are physical, plain
numbers. -/

namespace Sys2Proof.Machine

/-- What an unlisted address reads as. DESIGN CHOICE (log entry 1), unsafe: the spec leaves the launch memory to
the loader (R40); its vectors take zero (95_test_vectors.md). -/
def Memory.unlisted : Byte := 0

/-- The byte at an address. -/
def Memory.get : Memory → Nat → Byte
  | [], _ => Memory.unlisted
  | (k, v) :: rest, a => if k = a then v else Memory.get rest a

/-- Put a cell at the head, unless it says what an unlisted address says. -/
def Memory.cell (a : Nat) (v : Byte) (rest : Memory) : Memory :=
  if v = Memory.unlisted then rest else (a, v) :: rest

/-- Write one byte, keeping the canonical form. -/
def Memory.set : Memory → Nat → Byte → Memory
  | [], a, v => Memory.cell a v []
  | (k, u) :: rest, a, v =>
    if a < k then Memory.cell a v ((k, u) :: rest)
    else if a = k then Memory.cell a v rest
    else (k, u) :: Memory.set rest a v

/-- Every listed address lies above `lo`, addresses rise strictly, and no entry says what an unlisted address
says. -/
def Memory.wfAbove (lo : Nat) : Memory → Bool
  | [] => true
  | (k, v) :: rest => decide (lo ≤ k) && v != Memory.unlisted && Memory.wfAbove (k + 1) rest

/-- The canonical form of a memory. -/
def Memory.wf (m : Memory) : Bool := Memory.wfAbove 0 m

/-- The granule at an address, little-endian (R65). -/
def Memory.half (m : Memory) (a : Nat) : Half := m.get (a + 1) ++ m.get a

/-- The dword at an address, little-endian (R65). -/
def Memory.dword (m : Memory) (a : Nat) : Word := m.half (a + 2) ++ m.half a

/-- Write a granule, little-endian (R65). -/
def Memory.setHalf (m : Memory) (a : Nat) (v : Half) : Memory :=
  (m.set a (v.extractLsb' 0 8)).set (a + 1) (v.extractLsb' 8 8)

/-- Write a dword, little-endian (R65). -/
def Memory.setDword (m : Memory) (a : Nat) (v : Word) : Memory :=
  (m.setHalf a (v.extractLsb' 0 16)).setHalf (a + 2) (v.extractLsb' 16 16)

/-- `page_index(pa)` (R63). -/
def pageIndex (cfg : Config) (a : Nat) : Nat := a / cfg.pageSize

/-- `page_base(pg)` (R63). -/
def pageBase (cfg : Config) (pg : Nat) : Nat := pg * cfg.pageSize

/-- The page numbers rise strictly and lie above `lo`. -/
def pagesWfAbove (lo : Nat) : List Nat → Bool
  | [] => true
  | p :: rest => decide (lo ≤ p) && pagesWfAbove (p + 1) rest

/-- `allocated[pg] <- true` (R63). -/
def markPage : List Nat → Nat → List Nat
  | [], pg => [pg]
  | p :: rest, pg => if pg < p then pg :: p :: rest else if pg = p then p :: rest else p :: markPage rest pg

/-- The marks of the pages of a list, whatever its order. -/
def markPages (pages : List Nat) : List Nat := pages.foldl markPage []

/-- `allocated[pg] <- false` (R63). -/
def unmarkPage (pages : List Nat) (pg : Nat) : List Nat := pages.filter (· != pg)

/-- The physical address of vector entry `index` (R63, R289): 16 bytes an entry, modulo 2^32. -/
def vectorAddr (table : Word) (index : Nat) : Nat := (table.toNat + 16 * index) % 2 ^ 32

/-- A vector entry (R289). -/
structure Vec where
  cs : Word
  ds : Word
  ip : Word
  sp : Word
deriving DecidableEq, Repr

/-! ## What a backend decides -/

/-- A memory-structure change that a backend raises (R92). -/
structure StructureChange where
  addr : Nat
  size : Nat
  writeback : Bool
deriving DecidableEq, Repr

/-- What a backend decides under the contract of R62. A read that is served answers the bytes last written and has no
side effect, and a backend changes no byte by itself, so the bytes themselves are not here. The first list of numbers is
the backend's state beside its bytes (`State.allocated`) before the operation, the one answered, by all but a read, is
that state after it: what a backend answers may depend on its bytes, on what was done to it before, and on the value
written. An `error` is a reported fault with the address or page recorded (R283). -/
structure Backend where
  /-- `BRead(pa, n)`: whether it reports a fault. -/
  read : Memory → List Nat → Nat → Nat → Bool
  /-- `BWrite(pa, n, v)`: whether it reports a fault. -/
  write : Memory → List Nat → Nat → Nat → Word → Bool × List Nat
  /-- `load_interrupt_vector(table, index)`. -/
  loadVector : Memory → List Nat → Word → Nat → Except Nat Vec × List Nat
  /-- `free_page(pg)`, with the memory-structure change it raises, if it does. -/
  freePage : Memory → List Nat → Nat → Except Nat (Option StructureChange) × List Nat
deriving Inhabited

/-! ## The reference backend -/

/-- `BRead(a, 4)` of RefBackend (R63). -/
def refRead32 (cfg : Config) (m : Memory) (a : Nat) : Except Nat Word :=
  if a + 4 > cfg.memSize then .error a else .ok (m.dword a)

/-- `load_interrupt_vector` of RefBackend (R63, R289): four reads, the first that faults ends it. -/
def refLoadVector (cfg : Config) (m : Memory) (table : Word) (index : Nat) : Except Nat Vec :=
  (refRead32 cfg m (vectorAddr table index)).bind fun cs =>
    (refRead32 cfg m (vectorAddr table index + 4)).bind fun ds =>
      (refRead32 cfg m (vectorAddr table index + 8)).bind fun ip =>
        (refRead32 cfg m (vectorAddr table index + 12)).bind fun sp => .ok ⟨cs, ds, ip, sp⟩

/-- RefBackend (R63): its one fault is an access past `MEM_SIZE`, and `free_page` alone changes its page marks. -/
def Backend.reference (cfg : Config) : Backend where
  read _ _ a n := decide (a + n > cfg.memSize)
  write _ pages a n _ := (decide (a + n > cfg.memSize), pages)
  loadVector m pages table index := (refLoadVector cfg m table index, pages)
  freePage _ pages pg := (.ok (some ⟨pageBase cfg pg, cfg.pageSize, false⟩), unmarkPage pages pg)

end Sys2Proof.Machine

namespace Sys2Proof

open Machine

/-- FREE VALUE (U8, R62): the backends other than the reference one. DESIGN CHOICE, log entry 9. Safe. -/
opaque Config.freeBackend : Nat → Backend

/-- The backend of a machine with these parameters (R39, U8). -/
def Config.backendOf (cfg : Config) : Backend :=
  match cfg.backend with
  | .reference => Backend.reference cfg
  | .other n => Config.freeBackend n

end Sys2Proof

namespace Sys2Proof.Machine

/-! ## The accesses of R62

A read answers the value read, a write the bytes after it, none where the backend reports a fault; a write also answers
the backend's state beside its bytes after it. -/

/-- `BRead(pa, 1)`. -/
def Memory.bread8 (cfg : Config) (pages : List Nat) (m : Memory) (a : Nat) : Option Byte :=
  if cfg.backendOf.read m pages a 1 then none else some (m.get a)

/-- `BRead(pa, 2)`. -/
def Memory.bread16 (cfg : Config) (pages : List Nat) (m : Memory) (a : Nat) : Option Half :=
  if cfg.backendOf.read m pages a 2 then none else some (m.half a)

/-- `BRead(pa, 4)`. -/
def Memory.bread32 (cfg : Config) (pages : List Nat) (m : Memory) (a : Nat) : Option Word :=
  if cfg.backendOf.read m pages a 4 then none else some (m.dword a)

/-- `BWrite(pa, 1, v)`. -/
def Memory.bwrite8 (cfg : Config) (pages : List Nat) (m : Memory) (a : Nat) (v : Byte) : Option Memory × List Nat :=
  let r := cfg.backendOf.write m pages a 1 (v.zeroExtend 32)
  (if r.1 then none else some (m.set a v), r.2)

/-- `BWrite(pa, 2, v)`. -/
def Memory.bwrite16 (cfg : Config) (pages : List Nat) (m : Memory) (a : Nat) (v : Half) : Option Memory × List Nat :=
  let r := cfg.backendOf.write m pages a 2 (v.zeroExtend 32)
  (if r.1 then none else some (m.setHalf a v), r.2)

/-- `BWrite(pa, 4, v)`. -/
def Memory.bwrite32 (cfg : Config) (pages : List Nat) (m : Memory) (a : Nat) (v : Word) : Option Memory × List Nat :=
  let r := cfg.backendOf.write m pages a 4 v
  (if r.1 then none else some (m.setDword a v), r.2)

end Sys2Proof.Machine
end

