-- ==== Sys2Proof/WellFormed.lean ====
section
/-! DEFINITION. The fields of an instruction word (R122), the operand forms (R123) and the check that makes a
field tuple a legal instruction (R124). `Decode.lean` builds an instruction from exactly the tuples this
check accepts. -/

namespace Sys2Proof

/-- The four fields every DK0 word has (R122): `op` 31:24, `ra` 23:20, `rb` 19:16, `imm` 15:0. -/
structure Fields where
  op : BitVec 8
  ra : BitVec 4
  rb : BitVec 4
  imm : Half
deriving DecidableEq, Repr

/-- The operand forms of R123: which of the three operand fields an instruction uses. -/
inductive Form where
  | n | a | ab | ai | abi | i
deriving DecidableEq, Repr

/-- The form uses the field `ra` (R123). -/
def Form.usesRa : Form → Bool
  | .n => false | .a => true | .ab => true | .ai => true | .abi => true | .i => false

/-- The form uses the field `rb` (R123). -/
def Form.usesRb : Form → Bool
  | .n => false | .a => false | .ab => true | .ai => false | .abi => true | .i => false

/-- The form uses the field `imm` (R123). -/
def Form.usesImm : Form → Bool
  | .n => false | .a => false | .ab => false | .ai => true | .abi => true | .i => true

/-- The opcode map of R126: the form of each assigned opcode, none for the unassigned values of R127. -/
def formOf (op : BitVec 8) : Option Form :=
  match op.toNat with
  | 0x00 => some .n
  | 0x01 => some .ai | 0x02 => some .ai | 0x03 => some .ab
  | 0x04 => some .abi | 0x05 => some .abi | 0x06 => some .abi
  | 0x07 => some .abi | 0x08 => some .abi | 0x09 => some .abi
  | 0x0A => some .a | 0x0B => some .a
  | 0x10 => some .ab | 0x11 => some .ai | 0x12 => some .ab | 0x13 => some .ai
  | 0x14 => some .ab | 0x15 => some .ai | 0x16 => some .ab | 0x17 => some .ai
  | 0x18 => some .ab | 0x19 => some .ai | 0x1A => some .ab | 0x1B => some .ai
  | 0x1C => some .ab | 0x1D => some .ai | 0x1E => some .ab | 0x1F => some .ai
  | 0x20 => some .a
  | 0x22 => some .ab | 0x23 => some .ai | 0x24 => some .ab | 0x25 => some .ai
  | 0x26 => some .ab | 0x27 => some .ai
  | 0x30 => some .a | 0x31 => some .i
  | 0x32 => some .i | 0x33 => some .i | 0x34 => some .i | 0x35 => some .i
  | 0x36 => some .i | 0x37 => some .i | 0x38 => some .i | 0x39 => some .i
  | 0x3A => some .a | 0x3B => some .i | 0x3C => some .n
  | 0x40 => some .i | 0x41 => some .n | 0x42 => some .n | 0x43 => some .n
  | 0x44 => some .n | 0x45 => some .a | 0x46 => some .i
  | _ => none

/-- A field that the form does not use is zero (R123, R124). -/
def Fields.unusedZero (form : Form) (f : Fields) : Bool :=
  (form.usesRa || f.ra == 0) && (form.usesRb || f.rb == 0) && (form.usesImm || f.imm == 0)

/-- A register field that the form uses does not hold 15 (R20, R124). -/
def Fields.registersNamed (form : Form) (f : Fields) : Bool :=
  !(form.usesRa && f.ra == 15) && !(form.usesRb && f.rb == 15)

/-- The tuple is a legal instruction (R124): its opcode is assigned, its unused fields are zero and its used
register fields name a register. -/
def Fields.wellFormed (f : Fields) : Bool :=
  match formOf f.op with
  | none => false
  | some form => f.unusedZero form && f.registersNamed form

end Sys2Proof
end

