-- ==== Sys2Proof/Decode.lean ====
section
/-! DEFINITION. The decoder of DK0 (R132), total on every word and every byte sequence, rejecting by name, and
the encoder, written from the same opcode map (R126). An instruction is one 32-bit word, stored
little-endian (R65, R120). -/

namespace Sys2Proof

/-- Why a word or a byte sequence is no instruction (R124, R34). -/
inductive DecodeReject where
  /-- `op` is not one of the 55 opcodes of R126. -/
  | unassignedOpcode
  /-- A field that the form does not use is not zero. -/
  | unusedFieldNotZero
  /-- A register field that the form uses holds 15. -/
  | registerFifteen
  /-- Fewer than four bytes are given. -/
  | truncated
  /-- The active instruction set has no table: only set 0 exists (R121). -/
  | unknownInstructionSet
deriving DecidableEq, Repr

/-- What decoding answers. -/
inductive Decoded where
  | ok (i : Instr)
  | rejected (r : DecodeReject)
deriving DecidableEq, Repr

/-- The instruction, where there is one. -/
def Decoded.instr? : Decoded → Option Instr
  | .ok i => some i
  | .rejected _ => none

/-- The index of a register (R20). -/
def Reg.index : Reg → BitVec 4
  | .r0 => 0 | .r1 => 1 | .r2 => 2 | .r3 => 3 | .r4 => 4 | .r5 => 5 | .r6 => 6 | .r7 => 7
  | .fp => 8 | .sp => 9 | .ds => 10 | .cs => 11 | .ip => 12 | .flags => 13 | .cnt => 14

/-- The register of an index; index 15 names none (R20). -/
def Reg.ofIndex (n : BitVec 4) : Option Reg :=
  match n.toNat with
  | 0 => some .r0 | 1 => some .r1 | 2 => some .r2 | 3 => some .r3
  | 4 => some .r4 | 5 => some .r5 | 6 => some .r6 | 7 => some .r7
  | 8 => some .fp | 9 => some .sp | 10 => some .ds | 11 => some .cs
  | 12 => some .ip | 13 => some .flags | 14 => some .cnt
  | _ => none

/-- The fields of a word (R122). -/
def Fields.ofWord (w : Word) : Fields :=
  ⟨w.extractLsb' 24 8, w.extractLsb' 20 4, w.extractLsb' 16 4, w.extractLsb' 0 16⟩

/-- The word of a field tuple (R122). -/
def Fields.toWord (f : Fields) : Word := f.op ++ (f.ra ++ (f.rb ++ f.imm))

/-- Form N: no operand field is used. -/
def decodeN (f : Fields) (k : Instr) : Decoded :=
  if f.unusedZero .n then .ok k else .rejected .unusedFieldNotZero

/-- Form I: `imm` is used. -/
def decodeI (f : Fields) (k : Half → Instr) : Decoded :=
  if f.unusedZero .i then .ok (k f.imm) else .rejected .unusedFieldNotZero

/-- Form A: `ra` is used. -/
def decodeA (f : Fields) (k : Reg → Instr) : Decoded :=
  if f.unusedZero .a then
    match Reg.ofIndex f.ra with
    | some ra => .ok (k ra)
    | none => .rejected .registerFifteen
  else .rejected .unusedFieldNotZero

/-- Form AI: `ra` and `imm` are used. -/
def decodeAI (f : Fields) (k : Reg → Half → Instr) : Decoded :=
  if f.unusedZero .ai then
    match Reg.ofIndex f.ra with
    | some ra => .ok (k ra f.imm)
    | none => .rejected .registerFifteen
  else .rejected .unusedFieldNotZero

/-- Form AB: `ra` and `rb` are used. -/
def decodeAB (f : Fields) (k : Reg → Reg → Instr) : Decoded :=
  if f.unusedZero .ab then
    match Reg.ofIndex f.ra, Reg.ofIndex f.rb with
    | some ra, some rb => .ok (k ra rb)
    | _, _ => .rejected .registerFifteen
  else .rejected .unusedFieldNotZero

/-- Form ABI: all three operand fields are used. -/
def decodeABI (f : Fields) (k : Reg → Reg → Half → Instr) : Decoded :=
  match Reg.ofIndex f.ra, Reg.ofIndex f.rb with
  | some ra, some rb => .ok (k ra rb f.imm)
  | _, _ => .rejected .registerFifteen

/-- The opcode map of R126, read as a decoder of field tuples (R132). -/
def decodeFields (f : Fields) : Decoded :=
  match f.op.toNat with
  | 0x00 => decodeN f .nop
  | 0x01 => decodeAI f .li
  | 0x02 => decodeAI f .liu
  | 0x03 => decodeAB f .mov
  | 0x04 => decodeABI f .lb
  | 0x05 => decodeABI f .lw
  | 0x06 => decodeABI f .ld
  | 0x07 => decodeABI f .stb
  | 0x08 => decodeABI f .stw
  | 0x09 => decodeABI f .std
  | 0x0A => decodeA f .push
  | 0x0B => decodeA f .pop
  | 0x10 => decodeAB f .add
  | 0x11 => decodeAI f .addi
  | 0x12 => decodeAB f .sub
  | 0x13 => decodeAI f .subi
  | 0x14 => decodeAB f .mul
  | 0x15 => decodeAI f .muli
  | 0x16 => decodeAB f .div
  | 0x17 => decodeAI f .divi
  | 0x18 => decodeAB f .mod
  | 0x19 => decodeAI f .modi
  | 0x1A => decodeAB f .and
  | 0x1B => decodeAI f .andi
  | 0x1C => decodeAB f .or
  | 0x1D => decodeAI f .ori
  | 0x1E => decodeAB f .xor
  | 0x1F => decodeAI f .xori
  | 0x20 => decodeA f .not
  | 0x22 => decodeAB f .shl
  | 0x23 => decodeAI f .shli
  | 0x24 => decodeAB f .shr
  | 0x25 => decodeAI f .shri
  | 0x26 => decodeAB f .cmp
  | 0x27 => decodeAI f .cmpi
  | 0x30 => decodeA f .j
  | 0x31 => decodeI f .jr
  | 0x32 => decodeI f .be
  | 0x33 => decodeI f .bne
  | 0x34 => decodeI f .bz
  | 0x35 => decodeI f .bnz
  | 0x36 => decodeI f .bo
  | 0x37 => decodeI f .bno
  | 0x38 => decodeI f .bs
  | 0x39 => decodeI f .bns
  | 0x3A => decodeA f .call
  | 0x3B => decodeI f .callr
  | 0x3C => decodeN f .ret
  | 0x40 => decodeI f .int
  | 0x41 => decodeN f .retint
  | 0x42 => decodeN f .cli
  | 0x43 => decodeN f .sti
  | 0x44 => decodeN f .lpm
  | 0x45 => decodeA f .hlt
  | 0x46 => decodeI f .sis
  | _ => .rejected .unassignedOpcode

/-- `decode(0, w)` of R132. -/
def decodeWord (w : Word) : Decoded := decodeFields (Fields.ofWord w)

/-- `decode(iset, w)` of R151: set 0 is DK0 and no other set exists (R121, R127). -/
def decode (iset : Nat) (w : Word) : Decoded :=
  if iset = 0 then decodeWord w else .rejected .unknownInstructionSet

/-- The dword of four bytes, the byte at the lowest address the least significant (R65). -/
def wordOfBytes (b0 b1 b2 b3 : Byte) : Word := b3 ++ (b2 ++ (b1 ++ b0))

/-- The four bytes of a word, the byte for the lowest address first (R65). -/
def bytesOfWord (w : Word) : List Byte :=
  [w.extractLsb' 0 8, w.extractLsb' 8 8, w.extractLsb' 16 8, w.extractLsb' 24 8]

/-- Decode the instruction at the head of a byte sequence (R120: four bytes, little-endian). -/
def decodeBytes : List Byte → Decoded
  | b0 :: b1 :: b2 :: b3 :: _ => decodeWord (wordOfBytes b0 b1 b2 b3)
  | _ => .rejected .truncated

/-- The instruction the decoder reads from a table word: the low `nbits` bits of `w` as one 32-bit word, laid
out in memory order and decoded. -/
def decodeTableWord (nbits w : Nat) : Option Instr :=
  (decodeBytes (bytesOfWord (BitVec.ofNat 32 (w % 2 ^ nbits)))).instr?

/-- The fields of an instruction, by the opcode map of R126; an unused field is zero (R123). -/
def Instr.fields : Instr → Fields
  | .nop => ⟨0x00, 0, 0, 0⟩
  | .li ra imm => ⟨0x01, ra.index, 0, imm⟩
  | .liu ra imm => ⟨0x02, ra.index, 0, imm⟩
  | .mov ra rb => ⟨0x03, ra.index, rb.index, 0⟩
  | .lb ra rb imm => ⟨0x04, ra.index, rb.index, imm⟩
  | .lw ra rb imm => ⟨0x05, ra.index, rb.index, imm⟩
  | .ld ra rb imm => ⟨0x06, ra.index, rb.index, imm⟩
  | .stb ra rb imm => ⟨0x07, ra.index, rb.index, imm⟩
  | .stw ra rb imm => ⟨0x08, ra.index, rb.index, imm⟩
  | .std ra rb imm => ⟨0x09, ra.index, rb.index, imm⟩
  | .push ra => ⟨0x0A, ra.index, 0, 0⟩
  | .pop ra => ⟨0x0B, ra.index, 0, 0⟩
  | .add ra rb => ⟨0x10, ra.index, rb.index, 0⟩
  | .addi ra imm => ⟨0x11, ra.index, 0, imm⟩
  | .sub ra rb => ⟨0x12, ra.index, rb.index, 0⟩
  | .subi ra imm => ⟨0x13, ra.index, 0, imm⟩
  | .mul ra rb => ⟨0x14, ra.index, rb.index, 0⟩
  | .muli ra imm => ⟨0x15, ra.index, 0, imm⟩
  | .div ra rb => ⟨0x16, ra.index, rb.index, 0⟩
  | .divi ra imm => ⟨0x17, ra.index, 0, imm⟩
  | .mod ra rb => ⟨0x18, ra.index, rb.index, 0⟩
  | .modi ra imm => ⟨0x19, ra.index, 0, imm⟩
  | .and ra rb => ⟨0x1A, ra.index, rb.index, 0⟩
  | .andi ra imm => ⟨0x1B, ra.index, 0, imm⟩
  | .or ra rb => ⟨0x1C, ra.index, rb.index, 0⟩
  | .ori ra imm => ⟨0x1D, ra.index, 0, imm⟩
  | .xor ra rb => ⟨0x1E, ra.index, rb.index, 0⟩
  | .xori ra imm => ⟨0x1F, ra.index, 0, imm⟩
  | .not ra => ⟨0x20, ra.index, 0, 0⟩
  | .shl ra rb => ⟨0x22, ra.index, rb.index, 0⟩
  | .shli ra imm => ⟨0x23, ra.index, 0, imm⟩
  | .shr ra rb => ⟨0x24, ra.index, rb.index, 0⟩
  | .shri ra imm => ⟨0x25, ra.index, 0, imm⟩
  | .cmp ra rb => ⟨0x26, ra.index, rb.index, 0⟩
  | .cmpi ra imm => ⟨0x27, ra.index, 0, imm⟩
  | .j ra => ⟨0x30, ra.index, 0, 0⟩
  | .jr imm => ⟨0x31, 0, 0, imm⟩
  | .be imm => ⟨0x32, 0, 0, imm⟩
  | .bne imm => ⟨0x33, 0, 0, imm⟩
  | .bz imm => ⟨0x34, 0, 0, imm⟩
  | .bnz imm => ⟨0x35, 0, 0, imm⟩
  | .bo imm => ⟨0x36, 0, 0, imm⟩
  | .bno imm => ⟨0x37, 0, 0, imm⟩
  | .bs imm => ⟨0x38, 0, 0, imm⟩
  | .bns imm => ⟨0x39, 0, 0, imm⟩
  | .call ra => ⟨0x3A, ra.index, 0, 0⟩
  | .callr imm => ⟨0x3B, 0, 0, imm⟩
  | .ret => ⟨0x3C, 0, 0, 0⟩
  | .int imm => ⟨0x40, 0, 0, imm⟩
  | .retint => ⟨0x41, 0, 0, 0⟩
  | .cli => ⟨0x42, 0, 0, 0⟩
  | .sti => ⟨0x43, 0, 0, 0⟩
  | .lpm => ⟨0x44, 0, 0, 0⟩
  | .hlt ra => ⟨0x45, ra.index, 0, 0⟩
  | .sis imm => ⟨0x46, 0, 0, imm⟩

/-- The word of an instruction (R122, R126). -/
def encode (i : Instr) : Word := i.fields.toWord

/-- Every instruction that can be written down passes the check of R124 (`Laws/PerInstr.lean` proves it for
each constructor). -/
def Instr.wellFormed (i : Instr) : Bool := i.fields.wellFormed

end Sys2Proof
end

