-- ==== Sys2Proof/Machine/Programs.lean ====
section
/-! DEFINITION. What a replacement instruction table and a virtual interrupt handler are (R151, R155, R158, R295): a
table whose instructions are programs over the primitives of R155, a handler that is an arbitrary function on its
core's state, and the free values that stand for them. -/

namespace Sys2Proof.Machine

/-! ## Instruction tables -/

/-- The registers that `execute` may write as internal writes (R155). -/
inductive InternalReg where
  | ip | sp | fp | flags
deriving DecidableEq, Repr

/-- The register of the file that an internal write names. -/
def InternalReg.reg : InternalReg → Reg
  | .ip => .ip
  | .sp => .sp
  | .fp => .fp
  | .flags => .flags

/-- What `execute` of a replacement table may do: a program over the primitives of R155, each next action depending on
everything read before. Only `done` and a raise end it (R12): after `halt` of its own core it goes on. -/
inductive TableProg where
  | done
  | raise (f : CoreFault)
  | readReg (r : Reg) (k : Word → TableProg)
  /-- An operand write, after `CheckDest` (R10, R27). -/
  | operandWrite (r : Reg) (v : Word) (k : TableProg)
  | internalWrite (r : InternalReg) (v : Word) (k : TableProg)
  | memRead (width : Width) (pa : Word) (k : Word → TableProg)
  | memWrite (width : Width) (pa : Word) (v : Word) (k : TableProg)
  | push (v : Word) (k : TableProg)
  | pop (k : Word → TableProg)
  | createFrame (k : TableProg)
  | destroyFrame (k : TableProg)
  | doInt (index : Half) (k : TableProg)
  | exitInterrupt (k : TableProg)
  /-- A change of `iset`, checked as R266 checks it, with the instruction cache cleared. R266 gives the number 16 bits in
  `SIS` alone: that here it is a natural number of any size is the model's choice. DESIGN CHOICE, log entry 21. -/
  | switchSet (number : Nat) (k : TableProg)
  /-- `halt` of its own core (R315). -/
  | halt (code : Word) (k : TableProg)
deriving Inhabited

/-- An instruction table with the contract of R158 (R151): `decode` is total and depends on `iset` and the word alone,
and `execute` is a program over the primitives of R155. An instruction of its own is known by a code. -/
structure Table where
  /-- `NISETS` (R7), at least 1. -/
  nIsets : Nat
  decode : Nat → Word → Option Insn
  isPrivileged : Nat → Bool
  execute : Nat → TableProg
  disassemble : Nat → String
deriving Inhabited

end Sys2Proof.Machine

namespace Sys2Proof

open Machine

/-- FREE VALUE (U12, R158): the replacement tables. DESIGN CHOICE, log entry 21. Safe. -/
opaque Config.freeTable : Nat → Table

/-- `NISETS` of the machine's table (R7, R34). -/
def Config.nIsets (cfg : Config) : Nat :=
  match cfg.table with
  | .dk0 => Sys2Proof.nIsets
  | .other n => (Config.freeTable n).nIsets

/-- `decode(iset, w)` of the machine's table (R151): none is invalid. -/
def Config.decodeInsn (cfg : Config) (iset : Nat) (w : Word) : Option Insn :=
  match cfg.table with
  | .dk0 =>
    match decode iset w with
    | .ok i => some (.dk0 i)
    | .rejected _ => none
  | .other n => (Config.freeTable n).decode iset w

end Sys2Proof

namespace Sys2Proof.Machine

/-! ## Virtual interrupt handlers -/

/-- What a virtual interrupt handler does (R295, U11): an arbitrary function on its core's state that may use the memory
primitives of R11 (`PA` is a function of its arguments) and may raise a fault of the step. Each action may depend on
everything read before, so this covers every such function that ends. -/
inductive VirtProg where
  /-- The handler returns. -/
  | done
  /-- Raise a fault. -/
  | raise (f : CoreFault)
  /-- Read the whole state of the core. -/
  | readCore (k : Core → VirtProg)
  /-- Replace the whole state of the core, its own entry in the coherency registry with it. U11 gives a handler the
  core's state, and R322 counts the registry as shared: that the entry is the handler's to change is the model's choice.
  DESIGN CHOICE, log entry 8. -/
  | writeCore (c : Core) (k : VirtProg)
  /-- Read a register. -/
  | readReg (r : Reg) (k : Word → VirtProg)
  /-- Write a register, without the operand-write check (R10). -/
  | writeReg (r : Reg) (v : Word) (k : VirtProg)
  /-- `MemRead`, the value zero-extended. -/
  | memRead (width : Width) (pa : Word) (k : Word → VirtProg)
  /-- `MemWrite`. -/
  | memWrite (width : Width) (pa : Word) (v : Word) (k : VirtProg)
  /-- `BRead`, the value zero-extended. -/
  | bread (width : Width) (pa : Word) (k : Word → VirtProg)
  /-- `BWrite`, behind the caches (R105). -/
  | bwrite (width : Width) (pa : Word) (v : Word) (k : VirtProg)
  /-- `Push`. -/
  | push (v : Word) (k : VirtProg)
  /-- `Pop`. -/
  | pop (k : Word → VirtProg)
  /-- `IGet`. -/
  | iget (pa : Word) (k : Insn → VirtProg)
deriving Inhabited

end Sys2Proof.Machine

namespace Sys2Proof

open Machine

/-- FREE VALUE (U11, R295): the handlers that are not given as data. DESIGN CHOICE, log entry 8. Safe. -/
opaque Config.virtHandler : Nat → VirtProg

end Sys2Proof
end

