-- ==== Sys2Proof/Machine/Flags.lean ====
section
/-! DEFINITION. The flags as a register value (R26, R30) and every flag computation of the spec (R182, R200,
R226). -/

namespace Sys2Proof.Machine

/-- The six flag bits, `privileged` in bit 0 up to `sign` in bit 5 (R26). -/
def Flags.bits (f : Flags) : BitVec 6 :=
  BitVec.ofBool f.sign ++ (BitVec.ofBool f.overflow ++ (BitVec.ofBool f.zero
    ++ (BitVec.ofBool f.equal ++ (BitVec.ofBool f.hwintEnabled ++ BitVec.ofBool f.privileged))))

/-- A read of `FLAGS` as a register: bits 31 to 6 read as zero (R26). -/
def Flags.toWord (f : Flags) : Word := f.bits.zeroExtend 32

/-- A write of `FLAGS` as a register stores bits 5 to 0 and discards the rest (R30). -/
def Flags.ofWord (v : Word) : Flags where
  privileged := v.getLsbD 0
  hwintEnabled := v.getLsbD 1
  equal := v.getLsbD 2
  zero := v.getLsbD 3
  overflow := v.getLsbD 4
  sign := v.getLsbD 5

/-- `SetZS(v)` of R182. -/
def Flags.setZS (f : Flags) (v : Word) : Flags :=
  { f with zero := v == 0, sign := v.msb }

/-- The flag updates of the arithmetic-logic template (R200): `equal` is not written. -/
def Flags.setResult (f : Flags) (r : Word) (ov : Bool) : Flags :=
  { f with zero := r == 0, sign := r.msb, overflow := ov }

/-- The flag updates of a compare (R226): unsigned, on the difference modulo 2^32. -/
def Flags.setCompare (f : Flags) (a b : Word) : Flags :=
  { f with equal := a == b, zero := a - b == 0, sign := (a - b).msb, overflow := decide (a.toNat < b.toNat) }

end Sys2Proof.Machine
end

