-- ==== Sys2Proof/Machine/Registers.lean ====
section
/-! DEFINITION. The one access path to the register file (R20, R22), the internal writes of R10, and `Res`, what an
operation of the machine answers: it ends, or it raises a fault, and either way the state it left (R12). -/

namespace Sys2Proof.Machine

/-- What an operation answers. Everything done before a `raise` stays done (R12). -/
inductive Res (α : Type) where
  | ok (a : α) (s : State)
  | raise (f : CoreFault) (s : State)

/-- Go on with the answer and the state of an operation that ended; a raised fault stops here (R12). -/
def Res.bind {α β : Type} (r : Res α) (k : α → State → Res β) : Res β :=
  match r with
  | .ok a s => k a s
  | .raise f s => .raise f s

/-- The state an operation leaves, however it ended. -/
def Res.state {α : Type} : Res α → State
  | .ok _ s => s
  | .raise _ s => s

/-- The value of a register (R22): `FLAGS` reads as the 32-bit value of R26. -/
def Regs.read (g : Regs) : Reg → Word
  | .r0 => g.r0 | .r1 => g.r1 | .r2 => g.r2 | .r3 => g.r3
  | .r4 => g.r4 | .r5 => g.r5 | .r6 => g.r6 | .r7 => g.r7
  | .fp => g.fp | .sp => g.sp | .ds => g.ds | .cs => g.cs
  | .ip => g.ip | .flags => g.flags.toWord | .cnt => g.cnt

/-- Write a register (R22): a write to `FLAGS` keeps bits 5 to 0 (R30). -/
def Regs.write (g : Regs) (r : Reg) (v : Word) : Regs :=
  match r with
  | .r0 => { g with r0 := v }
  | .r1 => { g with r1 := v }
  | .r2 => { g with r2 := v }
  | .r3 => { g with r3 := v }
  | .r4 => { g with r4 := v }
  | .r5 => { g with r5 := v }
  | .r6 => { g with r6 := v }
  | .r7 => { g with r7 := v }
  | .fp => { g with fp := v }
  | .sp => { g with sp := v }
  | .ds => { g with ds := v }
  | .cs => { g with cs := v }
  | .ip => { g with ip := v }
  | .flags => { g with flags := Flags.ofWord v }
  | .cnt => { g with cnt := v }

/-- The executing core with another register file. -/
def State.setRegs (s : State) (g : Regs) : State := { s with self := { s.self with regs := g } }

/-- `x[i]` of the executing core (R10). -/
def State.reg (s : State) (r : Reg) : Word := s.self.regs.read r

/-- Write a register of the executing core: an internal write, or an operand write that `CheckDest` let pass
(R10). -/
def State.setReg (s : State) (r : Reg) (v : Word) : State := s.setRegs (s.self.regs.write r v)

/-- The flags of the executing core. -/
def State.flags (s : State) : Flags := s.self.regs.flags

/-- Write the flags of the executing core, an internal write (R10). -/
def State.setFlags (s : State) (f : Flags) : State := s.setRegs { s.self.regs with flags := f }

/-- `IP <- v`, an internal write. -/
def State.jump (s : State) (target : Word) : State := s.setReg .ip target

/-- The advance of `IP` after the fetch (R25, R150). -/
def State.advance (s : State) : State := s.setReg .ip (s.reg .ip + 4)

/-- Retire: `CNT` counts the instruction (R28, R156). -/
def State.retire (s : State) : State := s.setReg .cnt (s.reg .cnt + 1)

end Sys2Proof.Machine
end

