-- ==== Sys2Proof/Machine/Caches.lean ====
section
/-! DEFINITION. The two caches of a core and the coherency controller (20_memory.md, sections 4 to 6). Both caches
are lists in strict recency order, least recently used first (R36, R37, R89). -/

namespace Sys2Proof.Machine

/-- The executing core with another data cache. -/
def State.setDcache (s : State) (d : List DEntry) : State := { s with self := { s.self with dcache := d } }

/-- The executing core with another instruction cache. -/
def State.setIcache (s : State) (c : List IEntry) : State := { s with self := { s.self with icache := c } }

/-- The state with another backend memory. -/
def State.setMem (s : State) (m : Memory) : State := { s with mem := m }

/-- The state with another state of the backend beside its bytes. -/
def State.setPages (s : State) (pages : List Nat) : State := { s with allocated := pages }

/-- The end of a read of the backend at an address: a reported fault is raised (R62). -/
def State.fromRead {α : Type} (a : Nat) (r : Option α) (s : State) : Res α :=
  match r with
  | none => .raise (.backendFault a) s
  | some v => .ok v s

/-- The end of a write of the backend at an address: a reported fault is raised (R62). -/
def State.fromWrite (a : Nat) (r : Option Memory × List Nat) (s : State) : Res Unit :=
  match r.1 with
  | none => .raise (.backendFault a) (s.setPages r.2)
  | some m => .ok () ((s.setMem m).setPages r.2)

/-- `BRead(a, 2)` in a step or host operation. -/
def State.bread16 (a : Nat) (s : State) : Res Half := s.fromRead a (s.mem.bread16 s.cfg s.allocated a)

/-- `BRead(a, 4)` in a step or host operation. -/
def State.bread32 (a : Nat) (s : State) : Res Word := s.fromRead a (s.mem.bread32 s.cfg s.allocated a)

/-- `BWrite(a, 2, v)` in a step or host operation. -/
def State.bwrite16 (a : Nat) (v : Half) (s : State) : Res Unit :=
  s.fromWrite a (s.mem.bwrite16 s.cfg s.allocated a v)

/-- The entry for an address in an instruction cache. -/
def icacheFind (c : List IEntry) (a : Nat) : Option IEntry := c.find? (·.addr == a)

/-- The instruction cache without the entry for an address. -/
def icacheWithout (c : List IEntry) (a : Nat) : List IEntry := c.filter (·.addr != a)

/-- The entry for a granule address in a data cache. -/
def dcacheFind (d : List DEntry) (a : Nat) : Option DEntry := d.find? (·.addr == a)

/-- The data cache without the entry for a granule address. -/
def dcacheWithout (d : List DEntry) (a : Nat) : List DEntry := d.filter (·.addr != a)

/-- Which entry addresses a selector matches (R88). -/
def Selector.hits (cfg : Config) : Selector → Nat → Bool
  | .single a, x => x == a
  | .page pg, x => pageIndex cfg x == pg
  | .range a size, x => decide (a ≤ x) && decide (x < a + size)
  | .all, _ => true

/-- What a `release` of one cache leaves: its entries, the backend's bytes and its state beside them, and the address
whose write-back faulted. -/
structure Released where
  entries : List DEntry
  mem : Memory
  pages : List Nat
  fault : Option Nat
deriving DecidableEq, Repr

/-- `release(selector, writeback, remove)` on one data cache (R88), from least to most recently used; the list of
numbers is the backend's state beside its bytes. It stops at a write-back that faults: what was done before stays done, and that
entry and the later ones stay (R12). -/
def releaseEntries (cfg : Config) (sel : Selector) (writeback remove : Bool) :
    List Nat → List DEntry → Memory → Released
  | pages, [], m => ⟨[], m, pages, none⟩
  | pages, e :: rest, m =>
    if sel.hits cfg e.addr then
      if writeback && e.dirty then
        match m.bwrite16 cfg pages e.addr e.value with
        | (none, pages) => ⟨e :: rest, m, pages, some e.addr⟩
        | (some m, pages) =>
          let r := releaseEntries cfg sel writeback remove pages rest m
          { r with entries := if remove then r.entries else { e with dirty := false } :: r.entries }
      else
        let r := releaseEntries cfg sel writeback remove pages rest m
        { r with entries := if remove then r.entries else e :: r.entries }
    else
      let r := releaseEntries cfg sel writeback remove pages rest m
      { r with entries := e :: r.entries }

/-- What a coherency request leaves of a row of cores. -/
structure Swept where
  cores : List Core
  mem : Memory
  pages : List Nat
  fault : Option Nat
deriving DecidableEq, Repr

/-- `release` on every registered core of a row of cores, in ascending number (R91 to R93, R95). -/
def sweepCores (cfg : Config) (sel : Selector) (writeback remove : Bool) :
    List Nat → List Core → Memory → Swept
  | pages, [], m => ⟨[], m, pages, none⟩
  | pages, c :: rest, m =>
    if c.registered then
      let r := releaseEntries cfg sel writeback remove pages c.dcache m
      match r.fault with
      | some a => ⟨{ c with dcache := r.entries } :: rest, r.mem, r.pages, some a⟩
      | none =>
        let q := sweepCores cfg sel writeback remove r.pages rest r.mem
        { q with cores := { c with dcache := r.entries } :: q.cores }
    else
      let q := sweepCores cfg sel writeback remove pages rest m
      { q with cores := c :: q.cores }

/-- Every core, in registration order: a core's number is its place (R322). -/
def State.cores (s : State) : List Core := s.before ++ s.self :: s.after

/-- `NCORES` (R7). -/
def State.nCores (s : State) : Nat := s.cores.length

/-- The number of the executing core. -/
def State.selfId (s : State) : Nat := s.before.length

/-- The state whose cores are the given list, core `k` the executing one; unchanged where there is no core `k`. -/
def State.withCores (s : State) (k : Nat) (cs : List Core) : State :=
  match cs.drop k with
  | c :: rest => { s with before := cs.take k, self := c, after := rest }
  | [] => s

/-- The same machine with core `k` the executing one. -/
def State.focus (s : State) (k : Nat) : State := s.withCores k s.cores

/-- A `release` on every registered core but the executing one (R91, R93). -/
def State.releaseOthers (sel : Selector) (writeback remove : Bool) (s : State) : Res Unit :=
  let b := sweepCores s.cfg sel writeback remove s.allocated s.before s.mem
  match b.fault with
  | some a => .raise (.backendFault a) { s with before := b.cores, mem := b.mem, allocated := b.pages }
  | none =>
    let r := sweepCores s.cfg sel writeback remove b.pages s.after b.mem
    let t := { s with before := b.cores, after := r.cores, mem := r.mem, allocated := r.pages }
    match r.fault with
    | some a => .raise (.backendFault a) t
    | none => .ok () t

/-- A `release` on the executing core's own data cache (R293, R315), registered or not. -/
def State.releaseOwn (sel : Selector) (writeback remove : Bool) (s : State) : Res Unit :=
  let r := releaseEntries s.cfg sel writeback remove s.allocated s.self.dcache s.mem
  let t := ((s.setDcache r.entries).setMem r.mem).setPages r.pages
  match r.fault with
  | some a => .raise (.backendFault a) t
  | none => .ok () t

/-- `CCC.on_fill(c, a)`, the fill snoop (R91). -/
def State.onFill (a : Nat) (s : State) : Res Unit := s.releaseOthers (.single a) true false

/-- `CCC.on_write(c, a)` (R93). -/
def State.onWrite (a : Nat) (s : State) : Res Unit := s.releaseOthers (.single a) false true

/-- `CCC.on_memory_structure_change(address, size, writeback)` (R92): every registered core, the executing one
among them. -/
def State.onMemoryStructureChange (a size : Nat) (writeback : Bool) (s : State) : Res Unit :=
  let q := sweepCores s.cfg (.range a size) writeback true s.allocated s.cores s.mem
  let t := ((s.withCores s.selfId q.cores).setMem q.mem).setPages q.pages
  match q.fault with
  | some x => .raise (.backendFault x) t
  | none => .ok () t

/-- `free_page(pg)` of the backend, with the memory-structure change it raises (R62, R63, R92). -/
def State.freePage (pg : Nat) (s : State) : Res Unit :=
  let r := s.cfg.backendOf.freePage s.mem s.allocated pg
  match r.1 with
  | .error x => .raise (.backendFault x) (s.setPages r.2)
  | .ok none => .ok () (s.setPages r.2)
  | .ok (some c) => State.onMemoryStructureChange c.addr c.size c.writeback (s.setPages r.2)

/-- `Evict()` (R87): the least recently used entry leaves, written back first if dirty. -/
def State.evict (s : State) : Res Unit :=
  match s.self.dcache with
  | [] => .ok () s
  | e :: rest =>
    if e.dirty then (s.bwrite16 e.addr e.value).bind fun _ s => .ok () (s.setDcache rest)
    else .ok () (s.setDcache rest)

/-- Make room for one more entry: evict if the cache is at capacity (R85). -/
def State.makeRoom (s : State) : Res Unit :=
  if s.self.dcache.length = s.cfg.dcacheSize then s.evict else .ok () s

/-- `Fill(a)` (R85): snoop, backend read, eviction, insertion; answers the value filled. -/
def State.fill (a : Nat) (s : State) : Res Half :=
  (s.onFill a).bind fun _ s =>
    (s.bread16 a).bind fun v s =>
      s.makeRoom.bind fun _ s => .ok v (s.setDcache (s.self.dcache ++ [⟨a, false, v⟩]))

/-- `DRead16(a)` (R84). -/
def State.dread16 (a : Nat) (s : State) : Res Half :=
  match dcacheFind s.self.dcache a with
  | some e => .ok e.value (s.setDcache (dcacheWithout s.self.dcache a ++ [e]))
  | none => s.fill a

/-- Make the granule present, the first half of `DWrite16(a, v)` (R86). -/
def State.ensure (a : Nat) (s : State) : Res Unit :=
  match dcacheFind s.self.dcache a with
  | some _ => .ok () s
  | none => (s.fill a).bind fun _ s => .ok () s

/-- `DWrite16(a, v)` (R86): the granule is made present, becomes the most recently used, dirty, with the value
`v`, and the siblings drop their copies. -/
def State.dwrite16 (a : Nat) (v : Half) (s : State) : Res Unit :=
  (s.ensure a).bind fun _ s =>
    State.onWrite a (s.setDcache (dcacheWithout s.self.dcache a ++ [⟨a, true, v⟩]))

/-- Insert a decoded instruction at the most recently used end, evicting the least recently used entry at
capacity (R80, R81). -/
def icacheInsert (cfg : Config) (c : List IEntry) (e : IEntry) : List IEntry :=
  (if c.length = cfg.icacheSize then c.drop 1 else c) ++ [e]

/-- `IGet(pa)` (R80). -/
def State.iget (pa : Nat) (s : State) : Res Insn :=
  if pa % 4 = 0 then
    match icacheFind s.self.icache pa with
    | some e => .ok e.insn (s.setIcache (icacheWithout s.self.icache pa ++ [e]))
    | none =>
      (s.bread32 pa).bind fun w s =>
        match s.cfg.decodeInsn s.self.iset w with
        | some i => .ok i (s.setIcache (icacheInsert s.cfg s.self.icache ⟨pa, i⟩))
        | none => .raise (.invalidOpcode w pa) s
  else .raise (.unalignedAccess pa) s

/-- `clear()` of the instruction cache (R82). -/
def State.clearIcache (s : State) : State := s.setIcache []

end Sys2Proof.Machine
end

