-- ==== Sys2Proof/Machine/Operands.lean ====
section
/-! DEFINITION. Operands: immediates (R125), addresses (R60, R184), the protection check of a destination (R27) and
the privileged instructions (R131). -/

namespace Sys2Proof.Machine

/-- `sext_32(v)` (R9). -/
def sext32 (v : Half) : Word := v.signExtend 32

/-- `zext_32(v)` (R9). -/
def zext32 (v : Half) : Word := v.zeroExtend 32

/-- `PA(seg, off)` (R60): the selector shifted by `SEG_SHIFT` plus the offset, modulo 2^32. -/
def physAddr (seg off : Word) : Nat := ((seg <<< segShift) + off).toNat

/-- The upper immediate of `LIU` (R125, R183): `imm` in bits 31 to 16, the old low half kept. -/
def upperImm (imm : Half) (old : Word) : Word := imm ++ old.extractLsb' 0 16

/-- The physical address of a load or store: base register plus signed displacement, in segment `DS` (R184). -/
def State.dataAddr (s : State) (rb : Reg) (imm : Half) : Nat :=
  physAddr (s.reg .ds) (s.reg rb + sext32 imm)

/-- A relative target: the advanced `IP` plus the signed displacement in bytes (R240). -/
def State.relTarget (s : State) (imm : Half) : Word := s.reg .ip + sext32 imm

/-- The protected registers (R27). -/
def protectedReg : Reg → Bool
  | .r0 => false | .r1 => false | .r2 => false | .r3 => false
  | .r4 => false | .r5 => false | .r6 => false | .r7 => false
  | .fp => true | .sp => false | .ds => true | .cs => true
  | .ip => true | .flags => true | .cnt => true

/-- `CheckDest(i)` (R27). -/
def State.checkDest (ra : Reg) (s : State) : Res Unit :=
  if protectedReg ra && !s.flags.privileged then .raise (.accessViolationRegister ra) s else .ok () s

/-- `is_privileged(instruction)` (R131): `RETINT`, `CLI`, `STI`, `LPM`, `HLT`. -/
def isPrivileged : Instr → Bool
  | .retint | .cli | .sti | .lpm | .hlt _ => true
  | .nop | .li _ _ | .liu _ _ | .mov _ _ | .lb _ _ _ | .lw _ _ _ | .ld _ _ _ | .stb _ _ _ | .stw _ _ _
  | .std _ _ _ | .push _ | .pop _ | .add _ _ | .addi _ _ | .sub _ _ | .subi _ _ | .mul _ _ | .muli _ _
  | .div _ _ | .divi _ _ | .mod _ _ | .modi _ _ | .and _ _ | .andi _ _ | .or _ _ | .ori _ _ | .xor _ _
  | .xori _ _ | .not _ | .shl _ _ | .shli _ _ | .shr _ _ | .shri _ _ | .cmp _ _ | .cmpi _ _ | .j _
  | .jr _ | .be _ | .bne _ | .bz _ | .bnz _ | .bo _ | .bno _ | .bs _ | .bns _ | .call _ | .callr _ | .ret
  | .int _ | .sis _ => false

end Sys2Proof.Machine
end

