-- ==== Sys2Proof/Machine/Ops.lean ====
section
/-! DEFINITION. The shared operations: the data path (R70, R71), the stack (R75), stack frames (R245, R246), taking a
fault (`die` and `halt`, R281, R315), interrupt entry and exit (R290, R293), software interrupts (R295), and
what the step does around every instruction (R150 steps 2 and 3). -/

namespace Sys2Proof.Machine

/-! ## The data path -/

/-- The granule that holds a byte: the address with bit 0 cleared (R70). -/
def granule (pa : Nat) : Nat := pa - pa % 2

/-- The byte of a granule value at a physical address (R65, R70), zero-extended. -/
def byteOf (pa : Nat) (w : Half) : Word :=
  if pa % 2 = 0 then (w.extractLsb' 0 8).zeroExtend 32 else (w.extractLsb' 8 8).zeroExtend 32

/-- The granule value with the byte at a physical address replaced (R71). -/
def withByte (pa : Nat) (w : Half) (v : Byte) : Half :=
  if pa % 2 = 0 then w.extractLsb' 8 8 ++ v else v ++ w.extractLsb' 0 8

/-- `MemRead(pa, n)` (R70), the value zero-extended to a register (R72). -/
def State.memRead (width : Width) (pa : Nat) (s : State) : Res Word :=
  match width with
  | .byte => (s.dread16 (granule pa)).bind fun w s => .ok (byteOf pa w) s
  | .word =>
    if pa % 2 = 0 then (s.dread16 pa).bind fun w s => .ok (zext32 w) s
    else .raise (.unalignedAccess pa) s
  | .dword =>
    if pa % 4 = 0 then
      (s.dread16 pa).bind fun lo s => (s.dread16 (pa + 2)).bind fun hi s => .ok (hi ++ lo) s
    else .raise (.unalignedAccess pa) s

/-- `MemWrite(pa, n, v)` (R71): the low `8n` bits of `v`. -/
def State.memWrite (width : Width) (pa : Nat) (v : Word) (s : State) : Res Unit :=
  match width with
  | .byte =>
    (s.dread16 (granule pa)).bind fun w s => s.dwrite16 (granule pa) (withByte pa w (v.extractLsb' 0 8))
  | .word =>
    if pa % 2 = 0 then s.dwrite16 pa (v.extractLsb' 0 16) else .raise (.unalignedAccess pa) s
  | .dword =>
    if pa % 4 = 0 then
      (s.dwrite16 pa (v.extractLsb' 0 16)).bind fun _ s => s.dwrite16 (pa + 2) (v.extractLsb' 16 16)
    else .raise (.unalignedAccess pa) s

/-! ## The stack -/

/-- The physical address of the slot `Push` writes (R75). -/
def State.pushAddr (s : State) : Nat := physAddr (s.reg .ds) (s.reg .sp - 4)

/-- The physical address of the slot `Pop` reads (R75). -/
def State.popAddr (s : State) : Nat := physAddr (s.reg .ds) (s.reg .sp)

/-- `Push(v)` (R75): `SP` changes only after the write succeeded. -/
def State.push (v : Word) (s : State) : Res Unit :=
  (s.memWrite .dword s.pushAddr v).bind fun _ s => .ok () (s.setReg .sp (s.reg .sp - 4))

/-- `Pop()` (R75): `SP` changes only after the read succeeded. -/
def State.pop (s : State) : Res Word :=
  (s.memRead .dword s.popAddr).bind fun v s => .ok v (s.setReg .sp (s.reg .sp + 4))

/-- Push the registers of a list, first to last, each with the value it has then. -/
def State.pushRegs : List Reg → State → Res Unit
  | [], s => .ok () s
  | r :: rest, s => (s.push (s.reg r)).bind fun _ s => State.pushRegs rest s

/-- Pop into the registers of a list, first to last, as internal writes. -/
def State.popRegs : List Reg → State → Res Unit
  | [], s => .ok () s
  | r :: rest, s => s.pop.bind fun v s => State.popRegs rest (s.setReg r v)

/-- The general registers, `r0` first (R290). -/
def generalRegs : List Reg := [.r0, .r1, .r2, .r3, .r4, .r5, .r6, .r7]

/-! ## Stack frames -/

/-- The executing core with another shadow frame stack. -/
def State.setFrames (s : State) (fs : List StackFrame) : State :=
  { s with self := { s.self with frames := fs } }

/-- The record `create_frame` appends (R245): its `FP` is `SP` after the pushes. -/
def State.frameRecord (s : State) : StackFrame := ⟨s.reg .cs, s.reg .ds, s.reg .fp, s.reg .ip⟩

/-- Append the frame record when `CHECK_FRAMES` is true (R245). -/
def State.recordFrame (s : State) : State :=
  if s.cfg.checkFrames then s.setFrames (s.self.frames ++ [s.frameRecord]) else s

/-- `create_frame()` (R245). -/
def State.createFrame (s : State) : Res Unit :=
  (s.push (s.reg .ip)).bind fun _ s =>
    (s.push (s.reg .fp)).bind fun _ s => .ok () (State.recordFrame (s.setReg .fp (s.reg .sp)))

/-- The newest record's `FP` is the value of `SP` (R246). -/
def State.frameMatches (s : State) : Bool :=
  match s.self.frames.getLast? with
  | some f => f.fp == s.reg .sp
  | none => false

/-- Remove the newest record when `CHECK_FRAMES` is true (R246). -/
def State.dropFrame (s : State) : State :=
  if s.cfg.checkFrames then s.setFrames s.self.frames.dropLast else s

/-- `destroy_frame()` (R246): the check comes before anything is popped. -/
def State.destroyFrame (s : State) : Res Unit :=
  if s.cfg.checkFrames && !s.frameMatches then .raise (.invalidFrame (s.reg .sp)) s
  else
    s.pop.bind fun v s =>
      (s.setReg .fp v).pop.bind fun w s => .ok () (State.dropFrame (s.setReg .ip w))

/-! ## Taking a fault: `die` and `halt` -/

/-- The core is Halted (R33). -/
def Lifecycle.isHalted : Lifecycle → Bool
  | .halted _ => true
  | .reset | .booted | .suspended => false

/-- The core is Booted: `is_runnable()` (R161, R319). -/
def Lifecycle.isBooted : Lifecycle → Bool
  | .booted => true
  | .reset | .suspended | .halted _ => false

/-- The flush of `halt` (R315): every dirty entry of the executing core is written back and stays, clean. -/
def State.flush (s : State) : Released := releaseEntries s.cfg .all true false s.allocated s.self.dcache s.mem

/-- `halt(c, code)` on the executing core (R315): idempotent, never raises; a write-back that faults stops the
flush and is recorded unless a fault already is. -/
def State.halt (code : Word) (s : State) : State :=
  if s.self.life.isHalted then s
  else
    { s with
      mem := s.flush.mem
      allocated := s.flush.pages
      self := { s.self with
        dcache := s.flush.entries
        lastException := s.self.lastException.or (s.flush.fault.map .backendFault)
        registered := false
        life := .halted code } }

/-- `die(c, K(info))` on the executing core (R281): the one place where a fault of the hardware is taken. The
fault is recorded and the core halts with exit code 1; the register file stays as the fault left it. -/
def State.die (f : CoreFault) (s : State) : State :=
  if s.self.life.isHalted then s
  else State.halt 1 { s with self := { s.self with lastException := some f } }

/-! ## Interrupt entry and exit -/

/-- `load_interrupt_vector(table, index)` of the backend, through no cache (R61, R62, R289). -/
def State.loadVector (table : Word) (index : Nat) (s : State) : Res Vec :=
  let r := s.cfg.backendOf.loadVector s.mem s.allocated table index
  match r.1 with
  | .error a => .raise (.backendFault a) (s.setPages r.2)
  | .ok v => .ok v (s.setPages r.2)

/-- The context `enter_interrupt` pushes before the frame (R290), on the stack `DS` and `SP` already name: the old
`DS` and `SP`, `CS`, `FLAGS`, `r0` to `r7`. -/
def State.saveContext (oldDs oldSp : Word) (s : State) : Res Unit :=
  (s.push oldDs).bind fun _ s =>
    (s.push oldSp).bind fun _ s => State.pushRegs (.cs :: .flags :: generalRegs) s

/-- `FLAGS.privileged <- b`, an internal write. -/
def State.setPrivileged (b : Bool) (s : State) : State := s.setFlags { s.flags with privileged := b }

/-- Swap `DS` and `SP` to a vector's stack (R290). -/
def State.swapStack (v : Vec) (s : State) : State := (s.setReg .ds v.ds).setReg .sp v.sp

/-- The last writes of `enter_interrupt` (R290): privileged mode, and `CS`, `IP` from the vector. -/
def State.enterHandler (v : Vec) (s : State) : State :=
  ((s.setPrivileged true).setReg .cs v.cs).setReg .ip v.ip

/-- `enter_interrupt(table, index)` (R290). -/
def State.enterInterrupt (table : Word) (index : Nat) (s : State) : Res Unit :=
  (s.loadVector table index).bind fun v s =>
    ((s.swapStack v).saveContext (s.reg .ds) (s.reg .sp)).bind fun _ s =>
      s.createFrame.bind fun _ s => .ok () (s.enterHandler v)

/-- The page `exit_interrupt` frees (R293): the one that holds the topmost slot of the interrupt stack, `DS` and
`SP` being the handler's after the last pop. -/
def State.stackPage (s : State) : Nat :=
  pageIndex s.cfg (physAddr (s.reg .ds) (s.reg .sp - 1))

/-- The pops of `exit_interrupt` that go straight into registers (R293): `r7` down to `r0`, `FLAGS`, `CS`. -/
def State.restoreContext (s : State) : Res Unit :=
  State.popRegs (generalRegs.reverse ++ [.flags, .cs]) s

/-- The last part of `exit_interrupt` (R293): `DS` and `SP` return, and the stack page is released without
write-back and freed. -/
def State.leaveStack (oldSp oldDs : Word) (s : State) : Res Unit :=
  (State.releaseOwn (.page s.stackPage) false true ((s.setReg .sp oldSp).setReg .ds oldDs)).bind fun _ t =>
    t.freePage s.stackPage

/-- `exit_interrupt()` (R293). -/
def State.exitInterrupt (s : State) : Res Unit :=
  s.destroyFrame.bind fun _ s =>
    s.restoreContext.bind fun _ s =>
      s.pop.bind fun oldSp s => s.pop.bind fun oldDs s => s.leaveStack oldSp oldDs

/-! ## Software interrupts -/

/-- `BRead` of a width by host code, through no cache (R11, R105), zero-extended. -/
def State.hostRead (width : Width) (a : Nat) (s : State) : Res Word :=
  match width with
  | .byte => (s.fromRead a (s.mem.bread8 s.cfg s.allocated a)).bind fun v s => .ok (v.zeroExtend 32) s
  | .word => (s.bread16 a).bind fun v s => .ok (zext32 v) s
  | .dword => s.bread32 a

/-- `BWrite` of a width by host code, through no cache (R11, R105). -/
def State.hostWrite (width : Width) (a : Nat) (v : Word) (s : State) : Res Unit :=
  match width with
  | .byte => s.fromWrite a (s.mem.bwrite8 s.cfg s.allocated a (v.extractLsb' 0 8))
  | .word => s.bwrite16 a (v.extractLsb' 0 16)
  | .dword => s.fromWrite a (s.mem.bwrite32 s.cfg s.allocated a v)

/-- Run a handler that is an arbitrary function on the executing core (R295, U11), of whose state the model counts the
core's own entry in the coherency registry (R38) as part. DESIGN CHOICE, log entry 8. -/
def VirtProg.run : VirtProg → State → Res Unit
  | .done, s => .ok () s
  | .raise f, s => .raise f s
  | .readCore k, s => VirtProg.run (k s.self) s
  | .writeCore c k, s => VirtProg.run k { s with self := c }
  | .readReg r k, s => VirtProg.run (k (s.reg r)) s
  | .writeReg r v k, s => VirtProg.run k (s.setReg r v)
  | .memRead width pa k, s => (s.memRead width pa.toNat).bind fun v s => VirtProg.run (k v) s
  | .memWrite width pa v k, s => (s.memWrite width pa.toNat v).bind fun _ s => VirtProg.run k s
  | .bread width pa k, s => (s.hostRead width pa.toNat).bind fun v s => VirtProg.run (k v) s
  | .bwrite width pa v k, s => (s.hostWrite width pa.toNat v).bind fun _ s => VirtProg.run k s
  | .push v k, s => (s.push v).bind fun _ s => VirtProg.run k s
  | .pop k, s => s.pop.bind fun v s => VirtProg.run (k v) s
  | .iget pa k, s => (s.iget pa.toNat).bind fun i s => VirtProg.run (k i) s

/-- The value of an expression of a handler given as data; `got` is what its reads and pops answered, first to
last. -/
def evalExpr (s : State) (got : List Word) : HandlerExpr → Word
  | .const v => v
  | .reg r => s.reg r
  | .got k => got.getD k 0
  | .add a b => evalExpr s got a + evalExpr s got b

/-- One action of a handler given as data; it answers what it read or popped, if it did. -/
def performAct (got : List Word) (s : State) : HandlerAct → Res (List Word)
  | .setReg r v => .ok [] (s.setReg r (evalExpr s got v))
  | .memRead width pa => (s.memRead width (evalExpr s got pa).toNat).bind fun v s => .ok [v] s
  | .memWrite width pa v => (s.memWrite width (evalExpr s got pa).toNat (evalExpr s got v)).bind fun _ s => .ok [] s
  | .push v => (s.push (evalExpr s got v)).bind fun _ s => .ok [] s
  | .pop => s.pop.bind fun v s => .ok [v] s
  | .raise f => .raise f s

/-- The actions of a handler given as data, first to last. -/
def runActs : List HandlerAct → List Word → State → Res Unit
  | [], _, s => .ok () s
  | a :: rest, got, s => (performAct got s a).bind fun new s => runActs rest (got ++ new) s

/-- Call a virtual interrupt handler on the executing core (R295). -/
def runHandler : Handler → State → Res Unit
  | .given acts, s => runActs acts [] s
  | .free n, s => VirtProg.run (Config.virtHandler n) s

/-- `do_int(index)` (R295). -/
def State.doInt (index : Half) (s : State) : Res Unit :=
  match s.cfg.handler index with
  | some h => runHandler h s
  | none => s.enterInterrupt s.cfg.intTable index.toNat

/-! ## The instruction set -/

/-- The executing core with another active instruction set (R34). -/
def State.setIset (n : Nat) (s : State) : State := { s with self := { s.self with iset := n } }

/-- The effect of `SIS` (R266): the number is checked, then `iset` is set and the instruction cache cleared, even
when the set does not change. -/
def State.switchSet (number : Nat) (s : State) : Res Unit :=
  if number < s.cfg.nIsets then .ok () (s.setIset number).clearIcache
  else .raise (.invalidInstructionSet number) s

/-! ## Around every instruction -/

/-- `is_privileged(insn)` (R131, R151). -/
def Insn.isPrivileged : Insn → Bool
  | .dk0 i => Sys2Proof.Machine.isPrivileged i
  | .other n code => (Config.freeTable n).isPrivileged code

/-- The privileged-instruction check (R154). -/
def State.checkPrivilege (i : Insn) (s : State) : Res Unit :=
  if i.isPrivileged && !s.flags.privileged then .raise (.accessViolationInstruction i) s else .ok () s

/-- The end of a step (R150 step 3, R156, R157): an instruction that ended retires, a fault is taken by `die`. -/
def Res.finish : Res Unit → Host.Outcome State Fault Refusal
  | .ok _ s => .next s.retire
  | .raise f s => .next (s.die f)

/-- Steps 2 and 3 of R150 for the instruction `i` whose effect is `body`: the privileged-instruction check, the
effect, and the end of the step. The fetch and the advance of `IP` come before it. -/
def State.perform (i : Instr) (body : State → Res Unit) (s : State) : Host.Outcome State Fault Refusal :=
  ((s.checkPrivilege (.dk0 i)).bind fun _ s => body s).finish

/-! ## Replacement tables -/

/-- `execute` of a replacement table on the executing core (R155, R158). -/
def TableProg.run : TableProg → State → Res Unit
  | .done, s => .ok () s
  | .raise f, s => .raise f s
  | .readReg r k, s => TableProg.run (k (s.reg r)) s
  | .operandWrite r v k, s => (s.checkDest r).bind fun _ s => TableProg.run k (s.setReg r v)
  | .internalWrite r v k, s => TableProg.run k (s.setReg r.reg v)
  | .memRead width pa k, s => (s.memRead width pa.toNat).bind fun v s => TableProg.run (k v) s
  | .memWrite width pa v k, s => (s.memWrite width pa.toNat v).bind fun _ s => TableProg.run k s
  | .push v k, s => (s.push v).bind fun _ s => TableProg.run k s
  | .pop k, s => s.pop.bind fun v s => TableProg.run (k v) s
  | .createFrame k, s => s.createFrame.bind fun _ s => TableProg.run k s
  | .destroyFrame k, s => s.destroyFrame.bind fun _ s => TableProg.run k s
  | .doInt index k, s => (s.doInt index).bind fun _ s => TableProg.run k s
  | .exitInterrupt k, s => s.exitInterrupt.bind fun _ s => TableProg.run k s
  | .switchSet number k, s => (s.switchSet number).bind fun _ s => TableProg.run k s
  | .halt code k, s => TableProg.run k (s.halt code)

/-- Steps 2 and 3 of R150 for an instruction of a replacement table (R158). -/
def State.performOther (table code : Nat) (s : State) : Host.Outcome State Fault Refusal :=
  ((s.checkPrivilege (.other table code)).bind fun _ s =>
    TableProg.run ((Config.freeTable table).execute code) s).finish

end Sys2Proof.Machine
end

