-- ==== Sys2Proof/Machine/ArithmeticLogic.lean ====
section
/-! DEFINITION. The arithmetic, logic, shift and compare instructions (42_arithmetic_logic.md): one template
(R200), one operation on unbounded integers and one overflow predicate for each instruction. -/

namespace Sys2Proof.Machine

/-! ## Operations and overflow predicates -/

/-- What an arithmetic-logic instruction computes from its operands (R200): the exact result on unbounded integers,
and `overflow`. -/
structure AluOp where
  exact : Word → Word → Int
  overflow : Word → Word → Bool

/-- The shift amount: the low five bits of the operand (R218). -/
def shiftAmount (b : Word) : Nat := (b.extractLsb' 0 5).toNat

/-- `ADD` (R201): the unsigned sum; `overflow` is the carry. -/
def aluAdd : AluOp where
  exact a b := a.toNat + b.toNat
  overflow a b := decide (2 ^ 32 ≤ a.toNat + b.toNat)

/-- `SUB` (R203): the unsigned difference; `overflow` is the borrow. -/
def aluSub : AluOp where
  exact a b := (a.toNat : Int) - b.toNat
  overflow a b := decide (a.toNat < b.toNat)

/-- `MUL` (R205): the unsigned product; `overflow` says that it does not fit. -/
def aluMul : AluOp where
  exact a b := a.toNat * b.toNat
  overflow a b := decide (2 ^ 32 ≤ a.toNat * b.toNat)

/-- `DIV` (R207): the unsigned quotient, rounded toward zero. -/
def aluDiv : AluOp where
  exact a b := (a.toNat / b.toNat : Nat)
  overflow _ _ := false

/-- `MOD` (R209): the unsigned remainder. -/
def aluMod : AluOp where
  exact a b := (a.toNat % b.toNat : Nat)
  overflow _ _ := false

/-- `AND` (R211). -/
def aluAnd : AluOp where
  exact a b := (a &&& b).toNat
  overflow _ _ := false

/-- `OR` (R213). -/
def aluOr : AluOp where
  exact a b := (a ||| b).toNat
  overflow _ _ := false

/-- `XOR` (R215). -/
def aluXor : AluOp where
  exact a b := (a ^^^ b).toNat
  overflow _ _ := false

/-- `NOT` (R217): every bit inverted; there is no second operand. -/
def aluNot : AluOp where
  exact a _ := 2 ^ 32 - 1 - (a.toNat : Int)
  overflow _ _ := false

/-- `SHL` (R218): the exact value shifted left; `overflow` says that a 1 bit was shifted out. -/
def aluShl : AluOp where
  exact a b := a.toNat * 2 ^ shiftAmount b
  overflow a b := decide (2 ^ 32 ≤ a.toNat * 2 ^ shiftAmount b)

/-- `SHR` (R220): logical, zeros enter at bit 31. -/
def aluShr : AluOp where
  exact a b := (a.toNat / 2 ^ shiftAmount b : Nat)
  overflow _ _ := false

/-! ## The template -/

/-- The result of an operation: the exact value modulo 2^32 (R200). -/
def AluOp.result (op : AluOp) (a b : Word) : Word := BitVec.ofInt 32 (op.exact a b)

/-- The writes of the template (R200): the destination, then `zero`, `sign` and `overflow`. -/
def State.aluWrite (op : AluOp) (ra : Reg) (a b : Word) (s : State) : State :=
  let r := op.result a b
  let t := s.setReg ra r
  t.setFlags (t.flags.setResult r (op.overflow a b))

/-- The template with the second operand `b` (R200): `CheckDest`, then the operation's own check, then the
writes. `divides` says that a zero `b` raises DivideByZero. -/
def State.alu (divides : Bool) (op : AluOp) (ra : Reg) (b : Word) (s : State) : Res Unit :=
  (s.checkDest ra).bind fun _ s =>
    if divides && b == 0 then .raise .divideByZero s else .ok () (s.aluWrite op ra (s.reg ra) b)

/-- The writes of a compare (R226). -/
def State.compare (ra : Reg) (b : Word) (s : State) : State :=
  s.setFlags (s.flags.setCompare (s.reg ra) b)

/-! ## Instructions -/


/-- `ADD ra, rb` (R201). -/
def execAdd (ra rb : Reg) (s : State) : Host.Outcome State Fault Refusal :=
  s.perform (.add ra rb) fun s => s.alu false aluAdd ra (s.reg rb)

/-- `ADDI ra, imm` (R202). -/
def execAddi (ra : Reg) (imm : Half) (s : State) : Host.Outcome State Fault Refusal :=
  s.perform (.addi ra imm) (State.alu false aluAdd ra (sext32 imm))

/-- `SUB ra, rb` (R203). -/
def execSub (ra rb : Reg) (s : State) : Host.Outcome State Fault Refusal :=
  s.perform (.sub ra rb) fun s => s.alu false aluSub ra (s.reg rb)

/-- `SUBI ra, imm` (R204). -/
def execSubi (ra : Reg) (imm : Half) (s : State) : Host.Outcome State Fault Refusal :=
  s.perform (.subi ra imm) (State.alu false aluSub ra (sext32 imm))

/-- `MUL ra, rb` (R205). -/
def execMul (ra rb : Reg) (s : State) : Host.Outcome State Fault Refusal :=
  s.perform (.mul ra rb) fun s => s.alu false aluMul ra (s.reg rb)

/-- `MULI ra, imm` (R206). -/
def execMuli (ra : Reg) (imm : Half) (s : State) : Host.Outcome State Fault Refusal :=
  s.perform (.muli ra imm) (State.alu false aluMul ra (sext32 imm))

/-- `DIV ra, rb` (R207). -/
def execDiv (ra rb : Reg) (s : State) : Host.Outcome State Fault Refusal :=
  s.perform (.div ra rb) fun s => s.alu true aluDiv ra (s.reg rb)

/-- `DIVI ra, imm` (R208). -/
def execDivi (ra : Reg) (imm : Half) (s : State) : Host.Outcome State Fault Refusal :=
  s.perform (.divi ra imm) (State.alu true aluDiv ra (sext32 imm))

/-- `MOD ra, rb` (R209). -/
def execMod (ra rb : Reg) (s : State) : Host.Outcome State Fault Refusal :=
  s.perform (.mod ra rb) fun s => s.alu true aluMod ra (s.reg rb)

/-- `MODI ra, imm` (R210). -/
def execModi (ra : Reg) (imm : Half) (s : State) : Host.Outcome State Fault Refusal :=
  s.perform (.modi ra imm) (State.alu true aluMod ra (sext32 imm))

/-- `AND ra, rb` (R211). -/
def execAnd (ra rb : Reg) (s : State) : Host.Outcome State Fault Refusal :=
  s.perform (.and ra rb) fun s => s.alu false aluAnd ra (s.reg rb)

/-- `ANDI ra, imm` (R212). -/
def execAndi (ra : Reg) (imm : Half) (s : State) : Host.Outcome State Fault Refusal :=
  s.perform (.andi ra imm) (State.alu false aluAnd ra (sext32 imm))

/-- `OR ra, rb` (R213). -/
def execOr (ra rb : Reg) (s : State) : Host.Outcome State Fault Refusal :=
  s.perform (.or ra rb) fun s => s.alu false aluOr ra (s.reg rb)

/-- `ORI ra, imm` (R214). -/
def execOri (ra : Reg) (imm : Half) (s : State) : Host.Outcome State Fault Refusal :=
  s.perform (.ori ra imm) (State.alu false aluOr ra (sext32 imm))

/-- `XOR ra, rb` (R215). -/
def execXor (ra rb : Reg) (s : State) : Host.Outcome State Fault Refusal :=
  s.perform (.xor ra rb) fun s => s.alu false aluXor ra (s.reg rb)

/-- `XORI ra, imm` (R216). -/
def execXori (ra : Reg) (imm : Half) (s : State) : Host.Outcome State Fault Refusal :=
  s.perform (.xori ra imm) (State.alu false aluXor ra (sext32 imm))

/-- `NOT ra` (R217). -/
def execNot (ra : Reg) (s : State) : Host.Outcome State Fault Refusal :=
  s.perform (.not ra) (State.alu false aluNot ra 0)

/-- `SHL ra, rb` (R218). -/
def execShl (ra rb : Reg) (s : State) : Host.Outcome State Fault Refusal :=
  s.perform (.shl ra rb) fun s => s.alu false aluShl ra (s.reg rb)

/-- `SHLI ra, imm` (R219): the shift amount is `imm[4:0]`, which the sign extension keeps. -/
def execShli (ra : Reg) (imm : Half) (s : State) : Host.Outcome State Fault Refusal :=
  s.perform (.shli ra imm) (State.alu false aluShl ra (sext32 imm))

/-- `SHR ra, rb` (R220). -/
def execShr (ra rb : Reg) (s : State) : Host.Outcome State Fault Refusal :=
  s.perform (.shr ra rb) fun s => s.alu false aluShr ra (s.reg rb)

/-- `SHRI ra, imm` (R221): the shift amount is `imm[4:0]`, which the sign extension keeps. -/
def execShri (ra : Reg) (imm : Half) (s : State) : Host.Outcome State Fault Refusal :=
  s.perform (.shri ra imm) (State.alu false aluShr ra (sext32 imm))

/-- `CMP ra, rb` (R226): two sources, no destination and no check. -/
def execCmp (ra rb : Reg) (s : State) : Host.Outcome State Fault Refusal :=
  s.perform (.cmp ra rb) fun s => .ok () (s.compare ra (s.reg rb))

/-- `CMPI ra, imm` (R227). -/
def execCmpi (ra : Reg) (imm : Half) (s : State) : Host.Outcome State Fault Refusal :=
  s.perform (.cmpi ra imm) fun s => .ok () (s.compare ra (sext32 imm))

end Sys2Proof.Machine
end

