-- ==== Sys2Proof/Machine/ControlTransfer.lean ====
section
/-! DEFINITION. The jumps, branches, calls and returns (43_control_transfer.md). Every write of `IP` here is an
internal write: no destination is checked and no flag is written (R240). -/

namespace Sys2Proof.Machine

/-- The branch template (R242): taken, `IP` becomes the relative target; not taken, nothing happens. -/
def State.branch (cond : Bool) (imm : Half) (s : State) : State :=
  if cond then s.jump (s.relTarget imm) else s

/-- The call template (R247, R248): the target is read before the frame is made. -/
def State.callTo (target : Word) (s : State) : Res Unit :=
  s.createFrame.bind fun _ s => .ok () (s.jump target)

/-- `J ra` (R241). -/
def execJ (ra : Reg) (s : State) : Host.Outcome State Fault Refusal :=
  s.perform (.j ra) fun s => .ok () (s.jump (s.reg ra))

/-- `JR imm` (R243). -/
def execJr (imm : Half) (s : State) : Host.Outcome State Fault Refusal :=
  s.perform (.jr imm) fun s => .ok () (s.jump (s.relTarget imm))

/-- `BE imm` (R250): taken when `equal = 1`. -/
def execBe (imm : Half) (s : State) : Host.Outcome State Fault Refusal :=
  s.perform (.be imm) fun s => .ok () (s.branch s.flags.equal imm)

/-- `BNE imm` (R251): taken when `equal = 0`. -/
def execBne (imm : Half) (s : State) : Host.Outcome State Fault Refusal :=
  s.perform (.bne imm) fun s => .ok () (s.branch (!s.flags.equal) imm)

/-- `BZ imm` (R252): taken when `zero = 1`. -/
def execBz (imm : Half) (s : State) : Host.Outcome State Fault Refusal :=
  s.perform (.bz imm) fun s => .ok () (s.branch s.flags.zero imm)

/-- `BNZ imm` (R253): taken when `zero = 0`. -/
def execBnz (imm : Half) (s : State) : Host.Outcome State Fault Refusal :=
  s.perform (.bnz imm) fun s => .ok () (s.branch (!s.flags.zero) imm)

/-- `BO imm` (R254): taken when `overflow = 1`. -/
def execBo (imm : Half) (s : State) : Host.Outcome State Fault Refusal :=
  s.perform (.bo imm) fun s => .ok () (s.branch s.flags.overflow imm)

/-- `BNO imm` (R255): taken when `overflow = 0`. -/
def execBno (imm : Half) (s : State) : Host.Outcome State Fault Refusal :=
  s.perform (.bno imm) fun s => .ok () (s.branch (!s.flags.overflow) imm)

/-- `BS imm` (R256): taken when `sign = 1`. -/
def execBs (imm : Half) (s : State) : Host.Outcome State Fault Refusal :=
  s.perform (.bs imm) fun s => .ok () (s.branch s.flags.sign imm)

/-- `BNS imm` (R257): taken when `sign = 0`. -/
def execBns (imm : Half) (s : State) : Host.Outcome State Fault Refusal :=
  s.perform (.bns imm) fun s => .ok () (s.branch (!s.flags.sign) imm)

/-- `CALL ra` (R247). -/
def execCall (ra : Reg) (s : State) : Host.Outcome State Fault Refusal :=
  s.perform (.call ra) fun s => s.callTo (s.reg ra)

/-- `CALLR imm` (R248). -/
def execCallr (imm : Half) (s : State) : Host.Outcome State Fault Refusal :=
  s.perform (.callr imm) fun s => s.callTo (s.relTarget imm)

/-- `RET` (R249). -/
def execRet (s : State) : Host.Outcome State Fault Refusal :=
  s.perform .ret State.destroyFrame

end Sys2Proof.Machine
end

