-- ==== Sys2Proof/Machine/DataMovement.lean ====
section
/-! DEFINITION. The data movement instructions (41_data_movement.md). Each meaning is run after the fetch and the
advance of `IP` (R150). -/

namespace Sys2Proof.Machine

/-- Write a destination that `CheckDest` let pass and update `zero` and `sign` from it (R182): the register write
is first, so a destination `FLAGS` has these two bits overwritten. -/
def State.loadReg (ra : Reg) (v : Word) (s : State) : State :=
  let t := s.setReg ra v
  t.setFlags (t.flags.setZS v)

/-- The shape of the loads (R186 to R188): check the destination, read memory, write and set the flags. -/
def State.load (width : Width) (ra rb : Reg) (imm : Half) (s : State) : Res Unit :=
  (s.checkDest ra).bind fun _ s =>
    (s.memRead width (s.dataAddr rb imm)).bind fun v s => .ok () (s.loadReg ra v)

/-- The shape of the stores (R189 to R191): no register is written, so nothing is checked. -/
def State.store (width : Width) (ra rb : Reg) (imm : Half) (s : State) : Res Unit :=
  s.memWrite width (s.dataAddr rb imm) (s.reg ra)

/-- `NOP` (R180). -/
def execNop (s : State) : Host.Outcome State Fault Refusal :=
  s.perform .nop fun s => .ok () s

/-- `LI ra, imm` (R181). -/
def execLi (ra : Reg) (imm : Half) (s : State) : Host.Outcome State Fault Refusal :=
  s.perform (.li ra imm) fun s => (s.checkDest ra).bind fun _ s => .ok () (s.loadReg ra (sext32 imm))

/-- `LIU ra, imm` (R183). -/
def execLiu (ra : Reg) (imm : Half) (s : State) : Host.Outcome State Fault Refusal :=
  s.perform (.liu ra imm) fun s =>
    (s.checkDest ra).bind fun _ s => .ok () (s.loadReg ra (upperImm imm (s.reg ra)))

/-- `MOV ra, rb` (R185): no flag is written. -/
def execMov (ra rb : Reg) (s : State) : Host.Outcome State Fault Refusal :=
  s.perform (.mov ra rb) fun s => (s.checkDest ra).bind fun _ s => .ok () (s.setReg ra (s.reg rb))

/-- `LB ra, [rb + imm]` (R186). -/
def execLb (ra rb : Reg) (imm : Half) (s : State) : Host.Outcome State Fault Refusal :=
  s.perform (.lb ra rb imm) (State.load .byte ra rb imm)

/-- `LW ra, [rb + imm]` (R187). -/
def execLw (ra rb : Reg) (imm : Half) (s : State) : Host.Outcome State Fault Refusal :=
  s.perform (.lw ra rb imm) (State.load .word ra rb imm)

/-- `LD ra, [rb + imm]` (R188). -/
def execLd (ra rb : Reg) (imm : Half) (s : State) : Host.Outcome State Fault Refusal :=
  s.perform (.ld ra rb imm) (State.load .dword ra rb imm)

/-- `STB ra, [rb + imm]` (R189). -/
def execStb (ra rb : Reg) (imm : Half) (s : State) : Host.Outcome State Fault Refusal :=
  s.perform (.stb ra rb imm) (State.store .byte ra rb imm)

/-- `STW ra, [rb + imm]` (R190). -/
def execStw (ra rb : Reg) (imm : Half) (s : State) : Host.Outcome State Fault Refusal :=
  s.perform (.stw ra rb imm) (State.store .word ra rb imm)

/-- `STD ra, [rb + imm]` (R191). -/
def execStd (ra rb : Reg) (imm : Half) (s : State) : Host.Outcome State Fault Refusal :=
  s.perform (.std ra rb imm) (State.store .dword ra rb imm)

/-- `PUSH ra` (R192): the register is read before `SP` moves. -/
def execPush (ra : Reg) (s : State) : Host.Outcome State Fault Refusal :=
  s.perform (.push ra) fun s => s.push (s.reg ra)

/-- `POP ra` (R193): `SP` moves first, the operand write is last; no flag is written. -/
def execPop (ra : Reg) (s : State) : Host.Outcome State Fault Refusal :=
  s.perform (.pop ra) fun s =>
    (s.checkDest ra).bind fun _ s => s.pop.bind fun v s => .ok () (s.setReg ra v)

end Sys2Proof.Machine
end

