-- ==== Sys2Proof/Machine/System.lean ====
section
/-! DEFINITION. The system instructions (44_system.md): software interrupt, return from interrupt, interrupt
enable, privilege, halt, and the instruction-set switch. -/

namespace Sys2Proof.Machine

/-- Write `hwint_enabled`, an internal write (R262, R263). -/
def State.setHwint (b : Bool) (s : State) : State := s.setFlags { s.flags with hwintEnabled := b }

/-- `INT imm` (R260). -/
def execInt (imm : Half) (s : State) : Host.Outcome State Fault Refusal :=
  s.perform (.int imm) (State.doInt imm)

/-- `RETINT` (R261). -/
def execRetint (s : State) : Host.Outcome State Fault Refusal :=
  s.perform .retint State.exitInterrupt

/-- `CLI` (R262). -/
def execCli (s : State) : Host.Outcome State Fault Refusal :=
  s.perform .cli fun s => .ok () (s.setHwint false)

/-- `STI` (R263). -/
def execSti (s : State) : Host.Outcome State Fault Refusal :=
  s.perform .sti fun s => .ok () (s.setHwint true)

/-- `LPM` (R264). -/
def execLpm (s : State) : Host.Outcome State Fault Refusal :=
  s.perform .lpm fun s => .ok () (s.setPrivileged false)

/-- `HLT ra` (R265): the core halts, and the step then retires. -/
def execHlt (ra : Reg) (s : State) : Host.Outcome State Fault Refusal :=
  s.perform (.hlt ra) fun s => .ok () (s.halt (s.reg ra))

/-- `SIS imm` (R266). -/
def execSis (imm : Half) (s : State) : Host.Outcome State Fault Refusal :=
  s.perform (.sis imm) (State.switchSet imm.toNat)

end Sys2Proof.Machine
end

