-- ==== Sys2Proof/Machine/Dispatch.lean ====
section
/-! DEFINITION. The instruction table: one arm per instruction of DK0 (R126), each one call of its meaning. -/

namespace Sys2Proof.Machine

def exec (i : Instr) (s : State) : Host.Outcome State Fault Refusal :=
  match i with
  | .nop => Sys2Proof.Machine.execNop s
  | .li ra imm => Sys2Proof.Machine.execLi ra imm s
  | .liu ra imm => Sys2Proof.Machine.execLiu ra imm s
  | .mov ra rb => Sys2Proof.Machine.execMov ra rb s
  | .lb ra rb imm => Sys2Proof.Machine.execLb ra rb imm s
  | .lw ra rb imm => Sys2Proof.Machine.execLw ra rb imm s
  | .ld ra rb imm => Sys2Proof.Machine.execLd ra rb imm s
  | .stb ra rb imm => Sys2Proof.Machine.execStb ra rb imm s
  | .stw ra rb imm => Sys2Proof.Machine.execStw ra rb imm s
  | .std ra rb imm => Sys2Proof.Machine.execStd ra rb imm s
  | .push ra => Sys2Proof.Machine.execPush ra s
  | .pop ra => Sys2Proof.Machine.execPop ra s
  | .add ra rb => Sys2Proof.Machine.execAdd ra rb s
  | .addi ra imm => Sys2Proof.Machine.execAddi ra imm s
  | .sub ra rb => Sys2Proof.Machine.execSub ra rb s
  | .subi ra imm => Sys2Proof.Machine.execSubi ra imm s
  | .mul ra rb => Sys2Proof.Machine.execMul ra rb s
  | .muli ra imm => Sys2Proof.Machine.execMuli ra imm s
  | .div ra rb => Sys2Proof.Machine.execDiv ra rb s
  | .divi ra imm => Sys2Proof.Machine.execDivi ra imm s
  | .mod ra rb => Sys2Proof.Machine.execMod ra rb s
  | .modi ra imm => Sys2Proof.Machine.execModi ra imm s
  | .and ra rb => Sys2Proof.Machine.execAnd ra rb s
  | .andi ra imm => Sys2Proof.Machine.execAndi ra imm s
  | .or ra rb => Sys2Proof.Machine.execOr ra rb s
  | .ori ra imm => Sys2Proof.Machine.execOri ra imm s
  | .xor ra rb => Sys2Proof.Machine.execXor ra rb s
  | .xori ra imm => Sys2Proof.Machine.execXori ra imm s
  | .not ra => Sys2Proof.Machine.execNot ra s
  | .shl ra rb => Sys2Proof.Machine.execShl ra rb s
  | .shli ra imm => Sys2Proof.Machine.execShli ra imm s
  | .shr ra rb => Sys2Proof.Machine.execShr ra rb s
  | .shri ra imm => Sys2Proof.Machine.execShri ra imm s
  | .cmp ra rb => Sys2Proof.Machine.execCmp ra rb s
  | .cmpi ra imm => Sys2Proof.Machine.execCmpi ra imm s
  | .j ra => Sys2Proof.Machine.execJ ra s
  | .jr imm => Sys2Proof.Machine.execJr imm s
  | .be imm => Sys2Proof.Machine.execBe imm s
  | .bne imm => Sys2Proof.Machine.execBne imm s
  | .bz imm => Sys2Proof.Machine.execBz imm s
  | .bnz imm => Sys2Proof.Machine.execBnz imm s
  | .bo imm => Sys2Proof.Machine.execBo imm s
  | .bno imm => Sys2Proof.Machine.execBno imm s
  | .bs imm => Sys2Proof.Machine.execBs imm s
  | .bns imm => Sys2Proof.Machine.execBns imm s
  | .call ra => Sys2Proof.Machine.execCall ra s
  | .callr imm => Sys2Proof.Machine.execCallr imm s
  | .ret => Sys2Proof.Machine.execRet s
  | .int imm => Sys2Proof.Machine.execInt imm s
  | .retint => Sys2Proof.Machine.execRetint s
  | .cli => Sys2Proof.Machine.execCli s
  | .sti => Sys2Proof.Machine.execSti s
  | .lpm => Sys2Proof.Machine.execLpm s
  | .hlt ra => Sys2Proof.Machine.execHlt ra s
  | .sis imm => Sys2Proof.Machine.execSis imm s

end Sys2Proof.Machine
end

