-- ==== Sys2Proof/Machine/HostOps.lean ====
section
/-! DEFINITION. The host interface (60_exceptions.md, section 4): boot, suspend, wake_up, halt, die, irq, the
CPU-level operations, the memory events, and the read-only accessors. An operation `State.…` here acts on the
executing core; `hostOp` brings the named core there first. -/

namespace Sys2Proof.Machine

/-- The executing core in another lifecycle state. -/
def State.setLife (l : Lifecycle) (s : State) : State := { s with self := { s.self with life := l } }

/-- Join or leave the coherency registry (R94). -/
def State.setRegistered (b : Bool) (s : State) : State := { s with self := { s.self with registered := b } }

/-- The registers `boot` sets (R312). -/
def State.bootRegs (args : BootArgs) (s : State) : State :=
  State.setPrivileged args.privileged
    (((((s.setReg .cs args.cs).setReg .ds args.ds).setReg .sp args.sp).setReg .fp args.sp).setReg .ip args.ip)

/-- `boot` (R312): from Reset only. -/
def State.boot (args : BootArgs) (s : State) : State :=
  match s.self.life with
  | .reset => ((s.bootRegs args).setRegistered true).setLife .booted
  | .booted | .suspended | .halted _ => s

/-- `suspend` (R313). -/
def State.suspend (s : State) : State :=
  match s.self.life with
  | .booted => s.setLife .suspended
  | .reset | .suspended | .halted _ => s

/-- `wake_up` (R314). -/
def State.wakeUp (s : State) : State :=
  match s.self.life with
  | .suspended => s.setLife .booted
  | .reset | .booted | .halted _ => s

/-- A hardware interrupt is accepted (R296): the core is Booted or Suspended and `hwint_enabled` is 1. -/
def State.acceptsIrq (s : State) : Bool :=
  match s.self.life with
  | .booted | .suspended => s.flags.hwintEnabled
  | .reset | .halted _ => false

/-- `irq(c, index)` (R296): a request that is not accepted is dropped; an accepted one wakes the core and enters
the interrupt, and a fault of the entry kills the core. `CNT` does not count it. -/
def State.irq (index : Nat) (s : State) : State :=
  if s.acceptsIrq then
    match (s.setLife .booted).enterInterrupt s.cfg.irqTable index with
    | .ok _ t => t
    | .raise f t => t.die f
  else s

/-! ## Choosing cores -/

/-- The numbers of the cores of a list that a test picks out, ascending, the list starting at core `k`. -/
def numbersFrom (p : Core → Bool) : Nat → List Core → List Nat
  | _, [] => []
  | k, c :: rest => if p c then k :: numbersFrom p (k + 1) rest else numbersFrom p (k + 1) rest

/-- The numbers of the cores that are not Halted. -/
def State.notHalted (s : State) : List Nat := numbersFrom (fun c => !c.life.isHalted) 0 s.cores

/-- One core of a list of core numbers: the only one, or, among several, a free choice read at the counter. -/
def State.choose (free : Nat → Nat) (ks : List Nat) (s : State) : Option (Nat × State) :=
  match ks with
  | [] => none
  | [k] => some (k, s)
  | ks => (ks[free s.tick % ks.length]?).map fun k => (k, { s with tick := s.tick + 1 })

/-! ## The operations that name no core, and the end of an operation -/

/-- Do one operation on each core of a list of core numbers, in order. R317 fixes no order for the CPU-level `suspend`,
`wake_up` and `halt`: that they go by ascending core number is the model's choice. DESIGN CHOICE, log entry 22. -/
def State.onCores (op : State → State) : List Nat → State → State
  | [], s => s
  | k :: rest, s => State.onCores op rest (op (s.focus k))

/-- `CPU.boot` (R317): positionally matched, from core `k` on. -/
def State.bootFrom : Nat → List BootArgs → State → State
  | _, [], s => s
  | k, args :: rest, s => State.bootFrom (k + 1) rest ((s.focus k).boot args)

/-- A host operation on core `k`; there must be one (R322). -/
def State.onCore (k : Nat) (op : State → State) (s : State) : Host.Outcome State Fault Refusal :=
  if k < s.nCores then .next (op (s.focus k)) else .fault .noSuchCore

/-- The end of a `release` the host asked of the executing core: a fault kills that core, and what was done stays done
(R12, R109, R281). That no other core dies where it is Halted already is the model's choice (log entry 12). -/
def Res.orDie : Res Unit → State
  | .ok _ s => s
  | .raise f s => s.die f

/-- A fault of a host operation that is asked of no core kills a core (R12, R281), and the spec does not say which (R62
and R95 give the fault to the operation): a free choice among the cores that are not Halted. Where every core is Halted
none can die, `die` being a no-op there (R281), and the fault is recorded nowhere. DESIGN CHOICE, log entry 12. -/
def State.dieFree (f : CoreFault) (s : State) : State :=
  match s.choose Config.blamedCore s.notHalted with
  | some (k, t) => (t.focus k).die f
  | none => s

/-- The end of a host operation that is asked of no core: where it raised, what was done stays done (R12). -/
def Res.orDieFree : Res Unit → State
  | .ok _ s => s
  | .raise f s => s.dieFree f

/-- The host's calls of page functions of the backend (R62): of RefBackend they change the page marks alone (R63) and
report no fault (R283); what another backend makes of them is open, so the host's request says it, and a fault it
reports is raised. A change of the memory's structure that they raise is an event of its own (R92). DESIGN CHOICE, log
entry 9. -/
def State.pageCall (pages : List Nat) (fault : Option Nat) (s : State) : Res Unit :=
  match s.cfg.backend, fault with
  | .reference, _ => .ok () (s.setPages (markPages pages))
  | .other _, none => .ok () (s.setPages pages)
  | .other _, some x => .raise (.backendFault x) (s.setPages pages)

/-- A host operation or backend event other than a step of a core (R310, R317, R92, R109). -/
def State.hostOp (s : State) : HostOp → Host.Outcome State Fault Refusal
  | .step _ => .fault .noEnabledStep
  | .boot k args => s.onCore k (State.boot args)
  | .suspend k => s.onCore k State.suspend
  | .wakeUp k => s.onCore k State.wakeUp
  | .halt k code => s.onCore k (State.halt code)
  | .die k f => s.onCore k (State.die f)
  | .irq k index => s.onCore k (State.irq index)
  | .cpuBoot args => if args.length ≤ s.nCores then .next (s.bootFrom 0 args) else .fault .noSuchCore
  | .cpuSuspend => .next (s.onCores State.suspend (List.range s.nCores))
  | .cpuWakeUp => .next (s.onCores State.wakeUp (List.range s.nCores))
  | .cpuHalt => .next (s.onCores (State.halt 0) (List.range s.nCores))
  | .pageCall pages fault => .next (s.pageCall pages fault).orDieFree
  | .memoryStructureChange a size writeback => .next (s.onMemoryStructureChange a size writeback).orDieFree
  | .release k sel writeback remove => s.onCore k fun s => (s.releaseOwn sel writeback remove).orDie

/-! ## Read-only accessors -/

/-- `is_runnable(c)` (R161, R319): exactly in state Booted. -/
def Core.isRunnable (c : Core) : Bool := c.life.isBooted

/-- The numbers of the cores that may step. -/
def State.runnable (s : State) : List Nat := numbersFrom Core.isRunnable 0 s.cores

/-- `exit_code`, once the core is Halted (R33). -/
def Core.exitCode (c : Core) : Option Word :=
  match c.life with
  | .halted code => some code
  | .reset | .booted | .suspended => none

/-- What the register-snapshot accessors return (R319). -/
structure Snapshot where
  registers : List Word
  life : Lifecycle
  exitCode : Option Word
  lastException : Option (CoreFault × Nat)
deriving DecidableEq, Repr

/-- The register-snapshot accessors (R319): the fifteen registers in index order, the lifecycle state, the exit
code and the recorded fault with its code. -/
def Core.snapshot (c : Core) : Snapshot where
  registers := [Reg.r0, .r1, .r2, .r3, .r4, .r5, .r6, .r7, .fp, .sp, .ds, .cs, .ip, .flags, .cnt].map c.regs.read
  life := c.life
  exitCode := c.exitCode
  lastException := c.lastException.map fun f => (f, f.code)

/-- `backtrace()` (R318): the current `IP`, then the `IP` of each record, newest first. The symbols come from
outside the block. -/
def Core.backtrace (c : Core) : List Word := c.regs.ip :: c.frames.reverse.map (·.ip)

/-- The coherency registry (R38), as the set of core numbers it is, ascending. -/
def State.registry (s : State) : List Nat := numbersFrom (fun c => c.registered) 0 s.cores

/-- The first exit code other than 0, in registration order, else 0. -/
def exitStatus : List Core → Word
  | [] => 0
  | c :: rest =>
    match c.exitCode with
    | some code => if code = 0 then exitStatus rest else code
    | none => exitStatus rest

/-- The VM exit status (R317). -/
def State.vmExitStatus (s : State) : Word := exitStatus s.cores

end Sys2Proof.Machine
end

