-- ==== Sys2Proof/Machine/Fetch.lean ====
section
/-! DEFINITION. The fetch (R150 step 1, R152), the choice of the core that steps (R100, U3), and the placing of an
instruction where the next step fetches. -/

namespace Sys2Proof.Machine

/-- The fetch address `PA(CS, IP)` (R60, R152). -/
def State.fetchAddr (s : State) : Nat := physAddr (s.reg .cs) (s.reg .ip)

/-- Step 1 of R150: the instruction at `PA(CS, IP)` through the instruction cache, then the advance of `IP`. A
fetch fault leaves `IP` at the offending instruction (R153). -/
def State.fetch (s : State) : Res Insn :=
  (s.iget s.fetchAddr).bind fun i s => .ok i s.advance

/-- The core that steps when no transition is asked for: the one core that may, or, among several, the free choice
of the external scheduler (R100, U3). None where no core may step (R161, U19). -/
def State.nextCore (s : State) : Option (Nat × State) :=
  s.choose Config.schedule s.runnable

/-- Store a word where the executing core fetches its next instruction, no cached decode in the way. -/
def State.placeWord (s : State) (w : Word) : State :=
  (s.setMem (s.mem.setDword s.fetchAddr w)).setIcache (icacheWithout s.self.icache s.fetchAddr)

/-- The executing core is Booted and registered, as `boot` leaves it (R312), its registers as they are. -/
def State.readyToRun (s : State) : State :=
  if s.self.life.isBooted then s else (s.setRegistered true).setLife .booted

/-- The scheduler's next transition is a step of the executing core. -/
def State.askStep (s : State) : State := { s with inputs := .step s.selfId :: s.inputs }

end Sys2Proof.Machine
end

