-- ==== Sys2Proof/Machine/Run.lean ====
section
/-! DEFINITION. A step of one core (R150) and a transition that the outside world asks for (R100, R310). -/

namespace Sys2Proof.Machine

/-- Steps 2 and 3 of R150 for a decoded instruction: DK0's meaning, or that of the replacement table it is of (R158). -/
def execInsn (i : Insn) (s : State) : Host.Outcome State Fault Refusal :=
  match i with
  | .dk0 i => exec i s
  | .other table code => s.performOther table code

/-- `step(c)` of R150 for the executing core, which is Booted: fetch, then execute and retire; a fault of the
fetch is taken by `die`. -/
def State.stepSelf (s : State) : Host.Outcome State Fault Refusal :=
  match s.fetch with
  | .ok i t => execInsn i t
  | .raise f t => .next (t.die f)

/-- A step of core `k`, enabled only in state Booted (R161). -/
def State.stepCore (k : Nat) (s : State) : Host.Outcome State Fault Refusal :=
  if k < s.nCores then
    if (s.focus k).self.isRunnable then (s.focus k).stepSelf else .fault .noEnabledStep
  else .fault .noSuchCore

/-- A transition that is asked for (R100, R310). -/
def State.transition (op : HostOp) (s : State) : Host.Outcome State Fault Refusal :=
  match op with
  | .step k => s.stepCore k
  | _ => s.hostOp op

end Sys2Proof.Machine
end

