-- ==== Sys2Proof/Machine/Step.lean ====
section
/-! DEFINITION. One transition of the machine (R100): the host operation or the step that is asked for, or, where
nothing is asked for, a step of a core that may. -/

namespace Sys2Proof.Machine

/-- One transition of the machine. -/
def step (s : State) : Host.Outcome State Fault Refusal :=
  match s.inputs with
  | op :: rest => State.transition op { s with inputs := rest }
  | [] =>
    match s.nextCore with
    | some (k, t) => t.stepCore k
    | none => .fault .noEnabledStep

/-- `s` with the instruction whose bits are `w` stored where the next step fetches, its core Booted and its step
asked for, so that the very next `step` runs it. A word is 32 bits, so there is nothing above `nbits` but
zeros. It stands for the loader and for `boot` (log entry 2). The fetch address must be a multiple of 4 inside
the backend's memory, as it is at reset. -/
def State.withFetchWord (s : State) (nbits w : Nat) : State :=
  ((s.placeWord (BitVec.ofNat 32 (w % 2 ^ nbits))).readyToRun).askStep

end Sys2Proof.Machine
end

