-- ==== Sys2Proof/Safety.lean ====
section
/-! DEFINITION. What a well-formed machine is (R90, R103), what the data path sees as memory (R104), which accesses
the backend serves, and what an operation leaves alone. The statements for the provers are written in these
terms. -/

namespace Sys2Proof.Machine

/-! ## The invariant -/

/-- The data cache of a core keeps R90 (at most `DCACHE_SIZE` entries, even and distinct addresses) and holds only
granules the backend has. -/
abbrev Core.dcacheWf (cfg : Config) (c : Core) : Prop :=
  c.dcache.length ≤ cfg.dcacheSize ∧ (c.dcache.map (·.addr)).Nodup
    ∧ ∀ e ∈ c.dcache, e.addr % 2 = 0 ∧ e.addr + 2 ≤ cfg.memSize

/-- An instruction that a table decodes: the table DK0 has DK0's alone (R132). -/
def Insn.ofTable : TableRef → Insn → Bool
  | .dk0, .dk0 _ => true
  | .dk0, .other _ _ => false
  | .other _, _ => true

/-- The instruction cache of a core keeps R36: at most `ICACHE_SIZE` entries, distinct addresses, each a possible
fetch address (R64) with an instruction of the machine's table (R153). -/
abbrev Core.icacheWf (cfg : Config) (c : Core) : Prop :=
  c.icache.length ≤ cfg.icacheSize ∧ (c.icache.map (·.addr)).Nodup
    ∧ ∀ e ∈ c.icache, e.addr % 4 = 0 ∧ e.addr + 4 ≤ cfg.memSize ∧ e.insn.ofTable cfg.table = true

/-- Alive, that is Booted or Suspended (R33). -/
def Lifecycle.isAlive : Lifecycle → Bool
  | .booted | .suspended => true
  | .reset | .halted _ => false

/-- A core is well formed: its caches are, its instruction set exists (R34), it is registered exactly while alive
(R38, R94), it keeps no frames where frames are not kept (R35), in Reset it holds its reset values (R340), and
out of the registry it holds nothing dirty (U22, R315). -/
abbrev Core.wf (cfg : Config) (c : Core) : Prop :=
  c.dcacheWf cfg ∧ c.icacheWf cfg ∧ c.iset < cfg.nIsets ∧ c.registered = c.life.isAlive
    ∧ (cfg.checkFrames = false → c.frames = []) ∧ (c.life = .reset → c = Core.reset)
    ∧ (c.registered = false → ∀ e ∈ c.dcache, e.dirty = false)

/-- The backend is RefBackend, and its state is in canonical form and inside `MEM_SIZE` (R63). -/
abbrev State.backendWf (s : State) : Prop :=
  s.mem.wf = true ∧ (∀ p ∈ s.mem, p.1 < s.cfg.memSize) ∧ pagesWfAbove 0 s.allocated = true
    ∧ s.cfg.backend = .reference

/-- Two cores are coherent with each other: a granule that both hold, both being registered, neither holds dirty
(R103, first half; symmetric). -/
abbrev Core.coherentWith (c d : Core) : Prop :=
  c.registered = true → d.registered = true →
    ∀ e ∈ c.dcache, ∀ f ∈ d.dcache, e.addr = f.addr → e.dirty = false ∧ f.dirty = false

/-- Every clean copy in a registered core equals the backend's granule (R103, second half). -/
abbrev Core.cleanEqualsBackend (m : Memory) (c : Core) : Prop :=
  c.registered = true → ∀ e ∈ c.dcache, e.dirty = false → e.value = m.half e.addr

/-- The coherence invariant of R103. -/
abbrev State.coherent (s : State) : Prop :=
  s.cores.Pairwise Core.coherentWith ∧ ∀ c ∈ s.cores, c.cleanEqualsBackend s.mem

/-- The invariant of the machine. -/
abbrev State.Inv (s : State) : Prop :=
  s.cfg.wf = true ∧ s.backendWf ∧ (∀ c ∈ s.cores, c.wf s.cfg) ∧ s.coherent

end Sys2Proof.Machine

namespace Sys2Proof

open Machine

/-- What a claim assumes of the arbitrary virtual handlers of a machine (U11): run on a well-formed machine whose core is
registered, each leaves a well-formed machine whose core is registered, whether it ends or raises. A handler given
as data always does, so nothing is assumed of it. -/
def Config.handlersKeep (cfg : Config) : Prop :=
  ∀ index n, cfg.handler index = some (.free n) → ∀ u : State, u.Inv → u.self.registered = true →
    (VirtProg.run (Config.virtHandler n) u).state.Inv
      ∧ (VirtProg.run (Config.virtHandler n) u).state.self.registered = true

end Sys2Proof

namespace Sys2Proof.Machine

/-- The program touches no memory, no stack and no interrupt: only its registers, its instruction set and `halt`. -/
def TableProg.offMemory : TableProg → Prop
  | .done | .raise _ => True
  | .readReg _ k => ∀ v, (k v).offMemory
  | .operandWrite _ _ k | .internalWrite _ _ k | .switchSet _ k | .halt _ k => k.offMemory
  | .memRead _ _ _ | .memWrite _ _ _ _ | .push _ _ | .pop _ | .createFrame _ | .destroyFrame _ | .doInt _ _
  | .exitInterrupt _ => False

/-- After a `halt` of its own core the program touches no memory, no stack and no interrupt. -/
def TableProg.haltsOffMemory : TableProg → Prop
  | .done | .raise _ => True
  | .halt _ k => k.offMemory
  | .readReg _ k | .memRead _ _ k | .pop k => ∀ v, (k v).haltsOffMemory
  | .operandWrite _ _ k | .internalWrite _ _ k | .memWrite _ _ _ k | .push _ k | .createFrame k | .destroyFrame k
  | .doInt _ k | .exitInterrupt k | .switchSet _ k => k.haltsOffMemory

end Sys2Proof.Machine

namespace Sys2Proof

open Machine

/-- What a claim about coherence assumes of replacement tables, on a machine that has one: that no instruction of theirs
accesses memory after it halted its core. R158 allows such an access, but the cache of a halted core has stopped serving
(R315) and is out of the registry, so a store there is one that no snoop finds. Of DK0 nothing is assumed. -/
def Config.tableHaltsOffMemory (cfg : Config) : Prop :=
  cfg.table ≠ .dk0 → ∀ n code, ((Config.freeTable n).execute code).haltsOffMemory

end Sys2Proof

namespace Sys2Proof.Machine

/-! ## Memory as the data path sees it -/

/-- The value of a granule that a core holds dirty, if it is registered and does. -/
def Core.dirtyValue (a : Nat) (c : Core) : Option Half :=
  if c.registered then (c.dcache.find? fun e => e.addr == a && e.dirty).map (·.value) else none

/-- The current value of a granule: what a registered core holds dirty, else what the backend holds (R104). -/
def State.granuleNow (s : State) (a : Nat) : Half :=
  (s.cores.findSome? (Core.dirtyValue a)).getD (s.mem.half a)

/-- The current value of a byte (R65, R104). -/
def State.byteNow (s : State) (a : Nat) : Byte :=
  if a % 2 = 0 then (s.granuleNow (granule a)).extractLsb' 0 8 else (s.granuleNow (granule a)).extractLsb' 8 8

/-- The current value of a dword, little-endian (R65). -/
def State.dwordNow (s : State) (a : Nat) : Word := s.granuleNow (a + 2) ++ s.granuleNow a

/-- What a load of a width at a physical address returns, from the current bytes, zero-extended (R70, R72). -/
def State.valueNow (s : State) (width : Width) (pa : Nat) : Word :=
  match width with
  | .byte => (s.byteNow pa).zeroExtend 32
  | .word => zext32 (s.granuleNow pa)
  | .dword => s.dwordNow pa

/-- The low bits of a register that an access of a width stores, zero-extended (R72). -/
def lowBits (width : Width) (v : Word) : Word :=
  match width with
  | .byte => (v.extractLsb' 0 8).zeroExtend 32
  | .word => zext32 (v.extractLsb' 0 16)
  | .dword => v

/-- The number of bytes of an access (R72). -/
def accessBytes : Width → Nat
  | .byte => 1
  | .word => 2
  | .dword => 4

/-- An access is aligned (R64) and the granules it touches are in the backend (R63). -/
abbrev serves (cfg : Config) (width : Width) (pa : Nat) : Prop :=
  pa % accessBytes width = 0 ∧ granule pa + 2 ≤ cfg.memSize ∧ pa + accessBytes width ≤ cfg.memSize

/-- The granule of a dword access at `a` that RefBackend faults first, where the dword is past `MEM_SIZE`. -/
def firstFault (cfg : Config) (a : Nat) : Nat := if cfg.memSize < a + 2 then a else a + 2

/-- The physical address of the slot that the `k`-th push of a row of pushes writes, counted from 0, where the row
starts with these `DS` and `SP` (R75, R291). -/
def slot (ds sp : Word) (k : Nat) : Nat := physAddr ds (sp - BitVec.ofNat 32 (4 * (k + 1)))

/-- The physical address of the slot that the `k`-th pop of a row of pops reads (R75). -/
def popSlot (ds sp : Word) (k : Nat) : Nat := physAddr ds (sp + BitVec.ofNat 32 (4 * k))

/-- An address is in none of the four bytes of the first `n` slots below `sp`. -/
abbrev outsideSlots (ds sp : Word) (n a : Nat) : Prop := ∀ k, k < n → a < slot ds sp k ∨ slot ds sp k + 4 ≤ a

/-- The first `n` slots below `sp` are aligned and in the backend. -/
abbrev slotsServed (cfg : Config) (ds sp : Word) (n : Nat) : Prop := ∀ k, k < n → serves cfg .dword (slot ds sp k)

/-- The first `n` slots from `sp` up are aligned and in the backend. -/
abbrev popSlotsServed (cfg : Config) (ds sp : Word) (n : Nat) : Prop :=
  ∀ k, k < n → serves cfg .dword (popSlot ds sp k)

/-- Slot number `k` of a row of pushes, counted from 0, is the first one past `MEM_SIZE`, every slot being a multiple of
4. -/
abbrev firstPast (cfg : Config) (ds sp : Word) (k : Nat) : Prop :=
  sp % 4 = 0 ∧ (∀ j, j < k → slot ds sp j + 4 ≤ cfg.memSize) ∧ cfg.memSize < slot ds sp k + 4

/-- The same of a row of pops. -/
abbrev firstPopPast (cfg : Config) (ds sp : Word) (k : Nat) : Prop :=
  sp % 4 = 0 ∧ (∀ j, j < k → popSlot ds sp j + 4 ≤ cfg.memSize) ∧ cfg.memSize < popSlot ds sp k + 4

/-- The registers that the first twelve pops of an interrupt exit, and the two of a return, write (R246, R293). -/
def popOrder : List Reg := [.fp, .ip, .r7, .r6, .r5, .r4, .r3, .r2, .r1, .r0, .flags, .cs]

/-! ## Frames and interrupts -/

/-- The vector that a table entry holds in the backend (R63, R289). -/
def State.vectorIn (s : State) (table : Word) (index : Nat) : Vec :=
  ⟨s.mem.dword (vectorAddr table index), s.mem.dword (vectorAddr table index + 4),
    s.mem.dword (vectorAddr table index + 8), s.mem.dword (vectorAddr table index + 12)⟩

/-- The fourteen values interrupt entry pushes, first to last (R290, R291). -/
def State.context (s : State) : List Word :=
  [s.reg .ds, s.reg .sp, s.reg .cs, s.reg .flags, s.reg .r0, s.reg .r1, s.reg .r2, s.reg .r3, s.reg .r4,
    s.reg .r5, s.reg .r6, s.reg .r7, s.reg .ip, s.reg .fp]

/-- Where frames are checked, the newest record matches `SP` (R246). -/
abbrev State.framePasses (s : State) : Prop := s.cfg.checkFrames = true → s.frameMatches = true

/-- The frames after a record is removed, where frames are kept. -/
def State.framesDropped (s : State) : List StackFrame :=
  if s.cfg.checkFrames then s.self.frames.dropLast else s.self.frames

/-- The page that `exit_interrupt` frees, seen from the start of the exit: the one of the topmost slot (R293). -/
def State.interruptPage (s : State) : Nat := pageIndex s.cfg (physAddr (s.reg .ds) (s.reg .sp + 55))

/-! ## What an operation leaves alone -/

/-- Only the data cache of the core differs. -/
def Core.onlyDcache (c d : Core) : Prop := d = { c with dcache := d.dcache }

/-- Only data caches and the bytes of the backend differ: all registers, lifecycle states, recorded faults,
instruction sets, frames, instruction caches, registry entries, parameters and pending inputs are the same, of every
core, and so are the page marks of the reference backend (R63). -/
def State.onlyDataPath (s t : State) : Prop :=
  t = { s with before := t.before, self := t.self, after := t.after, mem := t.mem, allocated := t.allocated }
    ∧ (s.cfg.backend = .reference → t.allocated = s.allocated) ∧ s.self.onlyDcache t.self ∧ List.Forall₂ Core.onlyDcache s.before t.before
    ∧ List.Forall₂ Core.onlyDcache s.after t.after

/-- Every current byte outside `n` bytes from `pa` is the same. -/
def State.sameBytesBut (s t : State) (pa n : Nat) : Prop :=
  ∀ a, a < pa ∨ pa + n ≤ a → t.byteNow a = s.byteNow a

/-- Every current byte is the same. -/
def State.sameBytes (s t : State) : Prop := ∀ a, t.byteNow a = s.byteNow a

end Sys2Proof.Machine
end

