-- ==== Sys2Proof/Certificates/Slice0/Obligations.lean ====
section
/-! DEFINITION. The statements for the provers, and the words they are written in (`Sys2Proof.Spec`). An instruction is
run after its fetch and the advance of `IP` (R150), so `IP` in a statement about `exec` is the offset of the
instruction that follows. -/

namespace Sys2Proof.Spec

open Sys2Proof.Machine

/-! ## Words -/

/-- The machine is well formed and the executing core is Booted: where R150 runs an instruction. -/
abbrev Running (s : State) : Prop := s.Inv ∧ s.self.life = .booted

/-- The protected registers, listed as R27 lists them. -/
def protectedRegs : List Reg := [.fp, .ds, .cs, .ip, .flags, .cnt]

/-- The executing core may name the register as a destination (R27, R300). -/
abbrev mayWrite (s : State) (ra : Reg) : Prop := ra ∈ protectedRegs → s.flags.privileged = true

/-- Nothing differs but the register file of the executing core. -/
def onlyRegs (s t : State) : Prop := t = s.setRegs t.self.regs

/-- Nothing differs but the register file of the executing core, data caches and bytes of the backend. -/
def onlyRegsAndData (s t : State) : Prop := s.onlyDataPath (t.setRegs s.self.regs)

/-- Nothing differs but the register file and the frame list of the executing core, data caches and bytes. -/
def onlyFramesAndData (s t : State) : Prop :=
  s.onlyDataPath ((t.setRegs s.self.regs).setFrames s.self.frames)

/-- Every register but those listed reads as before. -/
def keeps (s t : State) (written : List Reg) : Prop := ∀ q, q ∉ written → t.reg q = s.reg q

/-- The instruction retired (R28, R156). -/
def retired (s t : State) : Prop := t.reg .cnt = s.reg .cnt + 1

/-- The flags after an operand write and before the instruction's own flag updates (R30): only a write to `FLAGS`
changes them. -/
def writtenFlags (s : State) (ra : Reg) (v : Word) : Flags := if ra = .flags then Flags.ofWord v else s.flags

/-- Of the registers, the destination holds `v`, the flags are `f`, and the instruction retired; a destination
`FLAGS` holds what `f` says, and a destination `CNT` counts the instruction after the write (R28). -/
def wrote (s t : State) (ra : Reg) (v : Word) (f : Flags) : Prop :=
  keeps s t [ra, .flags, .cnt] ∧ (ra ≠ .flags → ra ≠ .cnt → t.reg ra = v)
    ∧ t.reg .cnt = (if ra = .cnt then v else s.reg .cnt) + 1 ∧ t.flags = f

/-- `zero` and `sign` as `SetZS(v)` sets them (R182). -/
def zeroSign (v : Word) (f : Flags) : Flags := { f with zero := decide (v = 0), sign := v.getLsbD 31 }

/-- Every register but `IP` and `CNT` reads as before, `IP` is the target, and the instruction retired. -/
def jumped (s t : State) (target : Word) : Prop :=
  onlyRegs s t ∧ s.sameBytes t ∧ keeps s t [.ip, .cnt] ∧ t.reg .ip = target ∧ retired s t

/-- An instruction of the arithmetic-logic template (R200): where the destination may be written, it ends with
`value` of the old destination in the destination, `zero` and `sign` of the result, and `overflow`. -/
def computes (i : Instr) (ra : Reg) (value : Word → Word) (overflow : Word → Bool) (s : State) : Prop :=
  mayWrite s ra → ∃ t, exec i s = .next t ∧ onlyRegs s t ∧ s.sameBytes t
    ∧ wrote s t ra (value (s.reg ra))
        { zeroSign (value (s.reg ra)) (writtenFlags s ra (value (s.reg ra))) with overflow := overflow (s.reg ra) }

/-- The destination operand of an instruction, where it has one (R10, R283). -/
def destination : Instr → Option Reg
  | .li ra _ | .liu ra _ | .mov ra _ | .lb ra _ _ | .lw ra _ _ | .ld ra _ _ | .pop ra | .add ra _ | .addi ra _
  | .sub ra _ | .subi ra _ | .mul ra _ | .muli ra _ | .div ra _ | .divi ra _ | .mod ra _ | .modi ra _ | .and ra _
  | .andi ra _ | .or ra _ | .ori ra _ | .xor ra _ | .xori ra _ | .not ra | .shl ra _ | .shli ra _ | .shr ra _
  | .shri ra _ => some ra
  | .nop | .stb _ _ _ | .stw _ _ _ | .std _ _ _ | .push _ | .cmp _ _ | .cmpi _ _ | .j _ | .jr _ | .be _ | .bne _
  | .bz _ | .bnz _ | .bo _ | .bno _ | .bs _ | .bns _ | .call _ | .callr _ | .ret | .int _ | .retint | .cli | .sti
  | .lpm | .hlt _ | .sis _ => none

/-- The privileged instructions of R131. -/
def privilegedInstruction (i : Instr) : Prop :=
  i = .retint ∨ i = .cli ∨ i = .sti ∨ i = .lpm ∨ ∃ ra, i = .hlt ra

/-- No virtual handler has the index (R295). -/
abbrev noHandler (s : State) (index : Half) : Prop := ∀ p ∈ s.cfg.virt, p.1 ≠ index

/-- The word decodes under the machine's table (R132, R151, R158). -/
def decodesTo (s : State) (w : Word) (insn : Insn) : Prop :=
  (s.cfg.table = .dk0 ∧ ∃ i, decode s.self.iset w = .ok i ∧ insn = .dk0 i)
    ∨ ∃ n, s.cfg.table = .other n ∧ (Config.freeTable n).decode s.self.iset w = some insn

/-- Steps 2 and 3 of R150 for a decoded instruction: DK0's own meaning, or, for an instruction of a replacement table
(R158), the check of R154, the table's `execute`, and the end of the step. -/
def runsAs (insn : Insn) (s : State) : Host.Outcome State Fault Refusal :=
  match insn with
  | .dk0 i => exec i s
  | .other n code =>
    if (Config.freeTable n).isPrivileged code = true ∧ s.flags.privileged = false then
      .next (s.die (.accessViolationInstruction (.other n code)))
    else match TableProg.run ((Config.freeTable n).execute code) s with
      | .ok _ t => .next (t.setReg .cnt (t.reg .cnt + 1))
      | .raise f t => .next (t.die f)

/-- The instruction kills the core with BackendFault at `x`, and `kept` holds of the state in which the fault was
raised. -/
def diesAt (i : Instr) (s : State) (x : Nat) (kept : State → Prop) : Prop :=
  ∃ t, exec i s = .next (t.die (.backendFault x)) ∧ kept t

/-- Nothing but data caches and bytes of the backend differ, and every current byte is the same. -/
def untouched (s t : State) : Prop := s.onlyDataPath t ∧ s.sameBytes t

/-- What a dword store of `v` at `a` that faulted has done: nothing where its first granule faulted, else the first
granule is stored and no other byte. No register is written. -/
def halfStored (s : State) (a : Nat) (v : Word) (t : State) : Prop :=
  s.onlyDataPath t
    ∧ if s.cfg.memSize < a + 2 then s.sameBytes t
      else s.sameBytesBut t a 2 ∧ t.granuleNow a = v.extractLsb' 0 16

/-- What a row of pushes of `vs`, begun in `s`, has done when push number `k`, of `v`, faulted (R75, R159): the slots
before it are stored, `SP` is at the last of them, of its own slot the first granule is stored where the second alone is
past `MEM_SIZE`, and no other byte and no other register differs. -/
def halfPushed (s : State) (vs : List Word) (k : Nat) (v : Word) (t : State) : Prop :=
  onlyRegsAndData s t ∧ keeps s t [.sp] ∧ t.reg .sp = s.reg .sp - BitVec.ofNat 32 (4 * k)
    ∧ (∀ j (h : j < vs.length), j < k → t.dwordNow (slot (s.reg .ds) (s.reg .sp) j) = vs[j])
    ∧ (slot (s.reg .ds) (s.reg .sp) k + 2 ≤ s.cfg.memSize →
      t.granuleNow (slot (s.reg .ds) (s.reg .sp) k) = v.extractLsb' 0 16)
    ∧ ∀ a, outsideSlots (s.reg .ds) (s.reg .sp) k a →
      (slot (s.reg .ds) (s.reg .sp) k + 2 ≤ s.cfg.memSize →
        a < slot (s.reg .ds) (s.reg .sp) k ∨ slot (s.reg .ds) (s.reg .sp) k + 2 ≤ a) →
      t.byteNow a = s.byteNow a

/-- What a return or an interrupt exit, begun in `s`, has done when pop number `k` faulted (R159, R246, R293): the
registers of the pops before it hold what their slots held, `SP` is at its slot, the newest record is gone if the frame
was, and no other register and no current byte differs. -/
def halfPopped (s : State) (k : Nat) (t : State) : Prop :=
  onlyFramesAndData s t ∧ s.sameBytes t ∧ keeps s t (.sp :: popOrder.take k)
    ∧ t.reg .sp = s.reg .sp + BitVec.ofNat 32 (4 * k)
    ∧ (∀ j r, j < k → popOrder[j]? = some r → t.reg r =
      if r = .flags then s.dwordNow (popSlot (s.reg .ds) (s.reg .sp) j) &&& 0x3F
      else s.dwordNow (popSlot (s.reg .ds) (s.reg .sp) j))
    ∧ t.self.frames = if k < 2 then s.self.frames else s.framesDropped

/-- The opcode table of R126: every opcode with the mask of its form (R123) and whether the form uses `ra` and
`rb`. -/
def opcodeTable : List (Word × Word × Bool × Bool) :=
  let n : Word × Bool × Bool := (0xFFFFFFFF, false, false)
  let a : Word × Bool × Bool := (0xFF0FFFFF, true, false)
  let ab : Word × Bool × Bool := (0xFF00FFFF, true, true)
  let ai : Word × Bool × Bool := (0xFF0F0000, true, false)
  let abi : Word × Bool × Bool := (0xFF000000, true, true)
  let i : Word × Bool × Bool := (0xFFFF0000, false, false)
  [(0x00, n), (0x01, ai), (0x02, ai), (0x03, ab), (0x04, abi), (0x05, abi), (0x06, abi), (0x07, abi), (0x08, abi),
    (0x09, abi), (0x0A, a), (0x0B, a)]
  ++ [(0x10, ab), (0x11, ai), (0x12, ab), (0x13, ai), (0x14, ab), (0x15, ai), (0x16, ab), (0x17, ai), (0x18, ab),
    (0x19, ai), (0x1A, ab), (0x1B, ai), (0x1C, ab), (0x1D, ai), (0x1E, ab), (0x1F, ai), (0x20, a)]
  ++ [(0x22, ab), (0x23, ai), (0x24, ab), (0x25, ai), (0x26, ab), (0x27, ai)]
  ++ [(0x30, a), (0x31, i), (0x32, i), (0x33, i), (0x34, i), (0x35, i), (0x36, i), (0x37, i), (0x38, i), (0x39, i),
    (0x3A, a), (0x3B, i), (0x3C, n)]
  ++ [(0x40, i), (0x41, n), (0x42, n), (0x43, n), (0x44, n), (0x45, a), (0x46, i)]

/-- A core that boots (R312). -/
def booted (args : BootArgs) (c : Core) : Core :=
  { c with
    life := .booted
    registered := true
    regs := { c.regs with
      cs := args.cs, ds := args.ds, sp := args.sp, fp := args.sp, ip := args.ip
      flags := { c.regs.flags with privileged := args.privileged } } }

/-- The data cache with every entry clean (R315). -/
def allClean (d : List DEntry) : List DEntry := d.map fun e => { e with dirty := false }

/-- The bytes of the backend and its state beside them after the write-backs of a row of data-cache entries, first to
last, none where one faults (R62, R88). -/
def writeBacks (cfg : Config) : List DEntry → Memory × List Nat → Option (Memory × List Nat)
  | [], b => some b
  | e :: rest, (m, pages) =>
    if e.dirty then
      match m.bwrite16 cfg pages e.addr e.value with
      | (none, _) => none
      | (some m, pages) => writeBacks cfg rest (m, pages)
    else writeBacks cfg rest (m, pages)

/-- A core that halts with a code, its flush ended (R315). -/
def halted (code : Word) (c : Core) : Core :=
  { c with life := .halted code, registered := false, dcache := allClean c.dcache }

/-- The machine with other cores and bytes but with the same parameters, page marks, pending inputs and counter. -/
def sameRest (s t : State) : Prop :=
  t.cfg = s.cfg ∧ t.allocated = s.allocated ∧ t.inputs = s.inputs ∧ t.tick = s.tick

/-- What one core's transition may do to another core (R96): data-cache entries leave, and of those that stay, in their
order, some become clean (R88, R89); nothing else. -/
def onlyReleased (c d : Core) : Prop :=
  d = { c with dcache := d.dcache }
    ∧ ∃ kept, kept.Sublist c.dcache ∧ List.Forall₂ (fun f e => e = f ∨ e = { f with dirty := false }) kept d.dcache

/-- What the fill snoop for a granule leaves of another core (R91): a registered core keeps its entry for it in its
place, clean; a core out of the registry is not asked (R95). -/
def snooped (a : Nat) (c : Core) : Core :=
  if c.registered then { c with dcache := c.dcache.map fun e => if e.addr = a then { e with dirty := false } else e }
  else c

/-- What an eviction by the executing core may write to the backend's granule `b` (R87): its cache is at capacity, and
its least recently used entry is a dirty one for `b`, with this value. -/
def evicts (s : State) (b : Nat) (v : Half) : Prop :=
  s.self.dcache.length = s.cfg.dcacheSize ∧ s.self.dcache.head? = some ⟨b, true, v⟩

/-- The edges of the state machine of R311, and staying where one is. -/
def lifecycleEdge (l m : Lifecycle) : Prop :=
  m = l ∨ (l = .reset ∧ m = .booted) ∨ (l = .booted ∧ m = .suspended) ∨ (l = .suspended ∧ m = .booted)
    ∨ (l.isHalted = false ∧ m.isHalted = true)

/-- What a claim about lifecycle states assumes of the arbitrary virtual handlers (U11): that each moves the core it runs
on, which is out of Reset, along an edge or not at all. A handler given as data moves none. -/
def handlersFollowEdges (cfg : Config) : Prop :=
  ∀ index n, cfg.handler index = some (.free n) → ∀ u : State, u.self.life ≠ .reset →
    lifecycleEdge u.self.life (VirtProg.run (Config.virtHandler n) u).state.self.life

/-- The outcome of a host operation that raised `f` in the state `u` and was asked of no core: some core that is not
Halted dies, and where every core is Halted nothing does (R281; log entry 12). The counter of free choices may move. -/
def someCoreDies (f : CoreFault) (u : State) (out : Host.Outcome State Fault Refusal) : Prop :=
  ((∃ c ∈ u.cores, c.life.isHalted = false) →
      ∃ (j n : Nat) (c : Core), u.cores[j]? = some c ∧ c.life.isHalted = false
        ∧ out = .next ((State.focus { u with tick := n } j).die f))
    ∧ ((∀ c ∈ u.cores, c.life.isHalted = true) → out = .next u)

/-- What interrupt entry through the vector `v` leaves (R290, R291): the fourteen slots, the registers, the frame
list, and every other byte as it was. -/
def entered (s t : State) (v : Vec) : Prop :=
  keeps s t [.cs, .ds, .ip, .sp, .fp, .flags, .cnt]
    ∧ t.reg .cs = v.cs ∧ t.reg .ds = v.ds ∧ t.reg .ip = v.ip ∧ t.reg .sp = v.sp - 56 ∧ t.reg .fp = v.sp - 56
    ∧ t.flags = { s.flags with privileged := true }
    ∧ t.self.frames = (if s.cfg.checkFrames then s.self.frames ++ [⟨s.reg .cs, v.ds, v.sp - 56, s.reg .ip⟩]
        else s.self.frames)
    ∧ (∀ k (h : k < s.context.length), t.dwordNow (slot v.ds v.sp k) = s.context[k])
    ∧ ∀ a, outsideSlots v.ds v.sp 14 a → t.byteNow a = s.byteNow a

end Sys2Proof.Spec

open Sys2Proof Sys2Proof.Machine Sys2Proof.Spec

/-! ## Encoding -/

/-- Every well-formed instruction decodes, from its encoded word, from the word's four bytes in memory order and from
the number the opcode table gives it, to itself: no bit of an operand is dropped (R120, R122, R132). -/
def Obligations.EncodeDecodeRoundTrip : Prop :=
  ∀ i : Instr, i.wellFormed = true →
    decode 0 (encode i) = .ok i ∧ decodeBytes (bytesOfWord (encode i)) = .ok i
      ∧ decodeTableWord 32 (encode i).toNat = some i

/-- A word that decodes is the encoding of the instruction it decodes to, so two different valid words decode to
different instructions (R132). -/
def Obligations.DecodedWordIsTheEncoding : Prop :=
  (∀ w i, decode 0 w = .ok i → encode i = w ∧ i.wellFormed = true)
    ∧ ∀ w x i, decode 0 w = .ok i → decode 0 x = .ok i → w = x

/-- A word decodes exactly when it matches a row of the opcode table and no register field that the row uses holds 15;
every other word is invalid (R124, R132). -/
def Obligations.LegalWordsAreTheTable : Prop :=
  ∀ w : Word, (∃ i, decode 0 w = .ok i) ↔
    ∃ row ∈ opcodeTable, w &&& row.2.1 = row.1 <<< 24 ∧ (row.2.2.1 = true → w.extractLsb' 20 4 ≠ 15)
      ∧ (row.2.2.2 = true → w.extractLsb' 16 4 ≠ 15)

/-- A few words, written out from the field layout (R122, R126), decode to the instructions they stand for. -/
def Obligations.SampleWordsDecode : Prop :=
  decodeTableWord 32 0x00000000 = some .nop ∧ decodeTableWord 32 0x0110FFFF = some (.li .r1 0xFFFF)
    ∧ decodeTableWord 32 0x04120003 = some (.lb .r1 .r2 3) ∧ decodeTableWord 32 0x0A100000 = some (.push .r1)
    ∧ decodeTableWord 32 0x10120000 = some (.add .r1 .r2) ∧ decodeTableWord 32 0x26810000 = some (.cmp .fp .r1)
    ∧ decodeTableWord 32 0x35008000 = some (.bnz 0x8000) ∧ decodeTableWord 32 0x40000003 = some (.int 3)
    ∧ decodeTableWord 32 0x45D00000 = some (.hlt .flags) ∧ decodeTableWord 32 0x41000001 = none
    ∧ decodeTableWord 32 0x21100000 = none ∧ decodeTableWord 32 0x20F00000 = none

/-! ## The step -/

/-- A step of a Booted core runs the instruction that the bytes at `PA(CS, IP)` decode to under its table, or, on a
hit, the one its instruction cache holds whatever the bytes are; `IP` is advanced before the instruction runs. On a
hit the entry moves to the most recently used end. On a miss the new entry stands there, and at `ICACHE_SIZE` the
least recently used entry, the first, leaves (R80, R81, R150, R152, R158). -/
def Obligations.StepRunsDecodedInstruction : Prop :=
  ∀ (s u : State) (k : Nat) (rest : List HostOp) (insn : Insn), s.inputs = .step k :: rest → k < s.nCores →
    u = State.focus { s with inputs := rest } k → u.self.life = .booted → u.fetchAddr % 4 = 0 →
    ((∀ e ∈ u.self.icache, e.addr ≠ u.fetchAddr) →
        u.cfg.backendOf.read u.mem u.allocated u.fetchAddr 4 = false →
        decodesTo u (u.mem.dword u.fetchAddr) insn →
        step s = runsAs insn ((u.setIcache
          ((if u.self.icache.length = u.cfg.icacheSize then u.self.icache.drop 1 else u.self.icache)
            ++ [⟨u.fetchAddr, insn⟩])).setReg .ip (u.reg .ip + 4)))
      ∧ (u.self.icache.find? (fun e => e.addr == u.fetchAddr) = some ⟨u.fetchAddr, insn⟩ →
        step s = runsAs insn ((u.setIcache
          (u.self.icache.filter (fun e => e.addr != u.fetchAddr) ++ [⟨u.fetchAddr, insn⟩])).setReg .ip
            (u.reg .ip + 4)))

/-- The three faults of the fetch, in the order of R285; the core dies with its registers as they were, so `IP` is
still at the offending instruction (R153; R284 is the spec's own inference). On RefBackend an access faults exactly
when it goes past `MEM_SIZE`, and a write keeps the page marks (R63). -/
def Obligations.FetchFaultsKillAtTheInstruction : Prop :=
  (∀ (s u : State) (k : Nat) (rest : List HostOp), s.inputs = .step k :: rest → k < s.nCores →
    u = State.focus { s with inputs := rest } k → u.self.life = .booted →
    (∀ f, (u.die f).self.regs = u.self.regs) ∧
    (if u.fetchAddr % 4 ≠ 0 then step s = .next (u.die (.unalignedAccess u.fetchAddr))
     else (∀ e ∈ u.self.icache, e.addr ≠ u.fetchAddr) →
       if u.cfg.backendOf.read u.mem u.allocated u.fetchAddr 4 = true then
         step s = .next (u.die (.backendFault u.fetchAddr))
       else (∀ insn, ¬ decodesTo u (u.mem.dword u.fetchAddr) insn) →
         step s = .next (u.die (.invalidOpcode (u.mem.dword u.fetchAddr) u.fetchAddr))))
    ∧ ∀ (cfg : Config) (m : Memory) (pages : List Nat) (a n : Nat) (v : Word), cfg.backend = .reference →
      (cfg.backendOf.read m pages a n = true ↔ cfg.memSize < a + n)
        ∧ ((cfg.backendOf.write m pages a n v).1 = true ↔ cfg.memSize < a + n)
        ∧ (cfg.backendOf.write m pages a n v).2 = pages

/-- Where nothing is asked for, some Booted core steps, whichever the external scheduler chooses, and where no core is
Booted nothing is enabled (R100, R161). The choice is a free value (log entry 5), and what is not enabled shows as
`Fault.noEnabledStep` (log entry 7). -/
def Obligations.SchedulerChoosesABootedCore : Prop :=
  ∀ s : State, s.inputs = [] →
    (∀ k, k ∈ s.runnable ↔ ∃ c, s.cores[k]? = some c ∧ c.life = .booted)
      ∧ (s.runnable = [] → step s = .fault .noEnabledStep)
      ∧ (s.runnable ≠ [] → ∃ k ∈ s.runnable, ∃ n, step s = step { s with inputs := [.step k], tick := n })

/-- A core that is not Booted has no step (R161): in Reset, Suspended and Halted none is enabled. That a step which is
not enabled shows as `Fault.noEnabledStep` is the model's choice (log entry 7). -/
def Obligations.NotBootedHasNoStep : Prop :=
  ∀ (s : State) (k : Nat) (rest : List HostOp) (c : Core), s.inputs = .step k :: rest → s.cores[k]? = some c →
    c.life ≠ .booted → step s = .fault .noEnabledStep

/-! ## Reset, boot and the lifecycle -/

/-- What reset leaves (R32, R40, R340): every core in Reset with every register 0 but `FLAGS` = 2, set 0, no frames,
empty caches and no recorded fault; no core registered; the backend as the loader left it. -/
def Obligations.ResetValues : Prop :=
  ∀ (cfg : Config) (siblings : Nat) (mem : Memory),
    (State.resetOf cfg siblings mem).nCores = siblings + 1 ∧ (State.resetOf cfg siblings mem).mem = mem
      ∧ (State.resetOf cfg siblings mem).registry = []
      ∧ ∀ c ∈ (State.resetOf cfg siblings mem).cores,
        c.life = .reset ∧ (∀ r, c.regs.read r = if r = .flags then 2 else 0) ∧ c.iset = 0 ∧ c.frames = []
          ∧ c.icache = [] ∧ c.dcache = [] ∧ c.lastException = none

/-- The machine after reset satisfies the invariant, whatever the parameters and the launch memory, if these are
well formed, the backend is RefBackend and the table has a set 0. -/
def Obligations.ResetInvariant : Prop :=
  ∀ (cfg : Config) (siblings : Nat) (mem : Memory), cfg.wf = true → cfg.backend = .reference → 1 ≤ cfg.nIsets →
    mem.wf = true → (∀ p ∈ mem, p.1 < cfg.memSize) → (State.resetOf cfg siblings mem).Inv

/-- Every transition keeps the invariant of the machine: canonical memory, caches within capacity with distinct even
addresses (R36, R37, R90), cached instructions of the machine's table (R153), coherence (R103), a registry of exactly
the alive cores (R38), an existing instruction set (R34). Every instruction of every table, every fault, every host
operation and every virtual handler given as data is covered; of the arbitrary handlers it is assumed that they keep
the invariant (U11), and of a replacement table that no instruction accesses memory after it halted its core (log
entry 21). That the machine keeps R103 is the spec's own inference; how the registry, the lifecycle and the reset
values are tied together in it is the model's (log entries 3 and 4). -/
def Obligations.StepKeepsInvariant : Prop :=
  ∀ s t : State, s.Inv → s.cfg.handlersKeep → s.cfg.tableHaltsOffMemory → step s = .next t → t.Inv

/-- `boot` gives a core in Reset the state of its first fetch, everything it does not set at its reset value, and does
nothing to a core that is not in Reset; the other cores and memory stay (R312; R342 is the spec's summary). -/
def Obligations.BootEntryState : Prop :=
  ∀ (s : State) (k : Nat) (args : BootArgs) (rest : List HostOp) (c : Core), s.Inv →
    s.inputs = .boot k args :: rest → s.cores[k]? = some c →
    ∃ t, step s = .next t ∧ t.mem = s.mem ∧ sameRest { s with inputs := rest } t
      ∧ (c.life ≠ .reset → t.cores = s.cores)
      ∧ (c.life = .reset → t.cores = s.cores.set k (booted args c)
        ∧ (booted args c).icache = [] ∧ (booted args c).dcache = [] ∧ (booted args c).frames = []
        ∧ (booted args c).iset = 0 ∧ (booted args c).lastException = none
        ∧ ∀ r, (booted args c).regs.read r = match r with
          | .cs => args.cs
          | .ds => args.ds
          | .sp => args.sp
          | .fp => args.sp
          | .ip => args.ip
          | .flags => if args.privileged then 3 else 2
          | _ => 0)

/-- `suspend` and `wake_up` change the lifecycle state and nothing else, in the one state each acts in, and do nothing
in any other (R313, R314). -/
def Obligations.SuspendAndWakeUp : Prop :=
  ∀ (s : State) (k : Nat) (rest : List HostOp) (c : Core), s.cores[k]? = some c →
    (s.inputs = .suspend k :: rest → ∃ t, step s = .next t ∧ t.mem = s.mem ∧ sameRest { s with inputs := rest } t
      ∧ t.cores = if c.life = .booted then s.cores.set k { c with life := .suspended } else s.cores)
    ∧ (s.inputs = .wakeUp k :: rest → ∃ t, step s = .next t ∧ t.mem = s.mem ∧ sameRest { s with inputs := rest } t
      ∧ t.cores = if c.life = .suspended then s.cores.set k { c with life := .booted } else s.cores)

/-- The CPU-level operations (R317): `suspend`, `wake_up` and `halt` reach exactly the cores in the relevant state,
`halt` with code 0 and every current byte kept, and `boot` matches cores and entry states by position. -/
def Obligations.CpuOperations : Prop :=
  ∀ (s : State) (rest : List HostOp), s.Inv →
    (s.inputs = .cpuSuspend :: rest → ∃ t, step s = .next t ∧ t.mem = s.mem ∧ sameRest { s with inputs := rest } t
      ∧ t.cores = s.cores.map fun c => if c.life = .booted then { c with life := .suspended } else c)
    ∧ (s.inputs = .cpuWakeUp :: rest → ∃ t, step s = .next t ∧ t.mem = s.mem ∧ sameRest { s with inputs := rest } t
      ∧ t.cores = s.cores.map fun c => if c.life = .suspended then { c with life := .booted } else c)
    ∧ (s.inputs = .cpuHalt :: rest → ∃ t, step s = .next t ∧ s.sameBytes t ∧ sameRest { s with inputs := rest } t
      ∧ t.cores = s.cores.map fun c => if c.life.isHalted then c else halted 0 c)
    ∧ ∀ args, s.inputs = .cpuBoot args :: rest → args.length ≤ s.nCores →
      ∃ t, step s = .next t ∧ t.mem = s.mem ∧ sameRest { s with inputs := rest } t
        ∧ ∀ i : Nat, t.cores[i]? = (s.cores[i]?).map fun c => match args[i]? with
          | some a => if c.life = .reset then booted a c else c
          | none => c

/-- The VM exit status (R317): the code of the lowest-numbered Halted core whose code is not 0, and 0 when there is
none. -/
def Obligations.VmExitStatus : Prop :=
  ∀ s : State,
    ((∀ c ∈ s.cores, ∀ code, c.life = .halted code → code = 0) → s.vmExitStatus = 0)
      ∧ ∀ before c after code, s.cores = before ++ c :: after → c.life = .halted code → code ≠ 0 →
        (∀ d ∈ before, ∀ x, d.life = .halted x → x = 0) → s.vmExitStatus = code

/-- The read-only accessors (R318, R319): `is_runnable` holds exactly in Booted; `backtrace` is the current `IP` and
then the `IP` of each record, newest first, without frames the current `IP` only; the register snapshot is the fifteen
registers in index order, the lifecycle state, the exit code exactly in Halted (R33), and the recorded fault with its
code, 1 to 8 by its kind (R283). -/
def Obligations.AccessorsReadTheState : Prop :=
  (∀ (cfg : Config) (c : Core), (c.isRunnable = true ↔ c.life = .booted)
    ∧ c.backtrace = c.regs.ip :: (c.frames.map fun f => f.ip).reverse
    ∧ (c.wf cfg → cfg.checkFrames = false → c.backtrace = [c.regs.ip])
    ∧ c.snapshot.registers = [c.regs.r0, c.regs.r1, c.regs.r2, c.regs.r3, c.regs.r4, c.regs.r5, c.regs.r6, c.regs.r7,
        c.regs.fp, c.regs.sp, c.regs.ds, c.regs.cs, c.regs.ip, c.regs.read .flags, c.regs.cnt]
    ∧ c.snapshot.life = c.life
    ∧ (∀ code, c.snapshot.exitCode = some code ↔ c.life = .halted code)
    ∧ (∀ f n, c.snapshot.lastException = some (f, n) ↔ c.lastException = some f ∧ n = f.code))
    ∧ (∀ w pa, (CoreFault.invalidOpcode w pa).code = 1) ∧ (∀ n, (CoreFault.invalidInstructionSet n).code = 2)
    ∧ (∀ r, (CoreFault.accessViolationRegister r).code = 3) ∧ (∀ i, (CoreFault.accessViolationInstruction i).code = 3)
    ∧ (∀ n, (CoreFault.accessViolationPort n).code = 3) ∧ CoreFault.divideByZero.code = 4
    ∧ (∀ pa, (CoreFault.unalignedAccess pa).code = 5) ∧ (∀ sp, (CoreFault.invalidFrame sp).code = 6)
    ∧ (∀ pa, (CoreFault.backendFault pa).code = 7) ∧ ∀ n, (CoreFault.unexpected n).code = 8

/-- Every transition moves every core along an edge of the state machine of R311, or not at all: nothing leaves Halted,
nothing returns to Reset. Of the arbitrary virtual handlers it is assumed that they do so too (U11). -/
def Obligations.LifecycleMovesAlongItsEdges : Prop :=
  ∀ s t : State, handlersFollowEdges s.cfg → step s = .next t →
    List.Forall₂ (fun c d : Core => lifecycleEdge c.life d.life) s.cores t.cores

/-- No transition changes a parameter or the number of cores (R41, R322). -/
def Obligations.ParametersNeverChange : Prop :=
  ∀ s t : State, step s = .next t → t.cfg = s.cfg ∧ t.nCores = s.nCores

/-! ## Addresses and registers -/

/-- The physical address of a segment and an offset (R60), and the addresses that are formed with it: the fetch address,
the address of a load or store, base register plus sign-extended displacement in segment `DS` (R184), and the
addresses of the slots of the stack (R75). The address of a vector entry is formed with no segment (R63, R66, R289). -/
def Obligations.PhysicalAddress : Prop :=
  (∀ seg off : Word, physAddr seg off = (seg.toNat * 2 ^ 16 + off.toNat) % 2 ^ 32)
    ∧ (∀ s : State, s.fetchAddr = physAddr (s.reg .cs) (s.reg .ip)) ∧ physAddr 1 0x20000 = 0x30000
    ∧ (∀ (s : State) (rb : Reg) (imm : Half),
      s.dataAddr rb imm = ((s.reg .ds).toNat * 2 ^ 16 + (s.reg rb + imm.signExtend 32).toNat) % 2 ^ 32)
    ∧ (∀ s : State, s.pushAddr = ((s.reg .ds).toNat * 2 ^ 16 + (s.reg .sp - 4).toNat) % 2 ^ 32
      ∧ s.popAddr = ((s.reg .ds).toNat * 2 ^ 16 + (s.reg .sp).toNat) % 2 ^ 32)
    ∧ ∀ (table : Word) (index : Nat), vectorAddr table index = (table.toNat + 16 * index) % 2 ^ 32

/-- A write to `FLAGS` stores bits 5 to 0 into the six fields and discards the rest, and a read of `FLAGS` returns the
six bits zero-extended (R26, R30). -/
def Obligations.FlagsRegister : Prop :=
  ∀ (s : State) (v : Word),
    (s.setReg .flags v).flags
        = ⟨v.getLsbD 0, v.getLsbD 1, v.getLsbD 2, v.getLsbD 3, v.getLsbD 4, v.getLsbD 5⟩
      ∧ (s.setReg .flags v).reg .flags = v &&& 0x3F
      ∧ s.reg .flags = (if s.flags.privileged then 1 else 0) + (if s.flags.hwintEnabled then 2 else 0)
        + (if s.flags.equal then 4 else 0) + (if s.flags.zero then 8 else 0)
        + (if s.flags.overflow then 16 else 0) + (if s.flags.sign then 32 else 0)

/-! ## Data movement -/

/-- `NOP` does nothing but retire; `LI`, `LIU` and `MOV` write their destination (R180, R181, R183, R185): the flags of
the first two are `zero` and `sign`, `MOV` writes none. Nothing else changes, and no byte of memory. -/
def Obligations.NopAndRegisterMoves : Prop :=
  ∀ (s : State) (ra rb : Reg) (imm : Half),
    (∃ t, exec .nop s = .next t ∧ jumped s t (s.reg .ip))
      ∧ (mayWrite s ra →
        (∃ t, exec (.li ra imm) s = .next t ∧ onlyRegs s t ∧ s.sameBytes t
            ∧ wrote s t ra (imm.signExtend 32)
              (zeroSign (imm.signExtend 32) (writtenFlags s ra (imm.signExtend 32))))
          ∧ (∃ t, exec (.liu ra imm) s = .next t ∧ onlyRegs s t ∧ s.sameBytes t
            ∧ wrote s t ra (imm ++ (s.reg ra).extractLsb' 0 16)
              (zeroSign (imm ++ (s.reg ra).extractLsb' 0 16)
                (writtenFlags s ra (imm ++ (s.reg ra).extractLsb' 0 16))))
          ∧ ∃ t, exec (.mov ra rb) s = .next t ∧ onlyRegs s t ∧ s.sameBytes t
            ∧ wrote s t ra (s.reg rb) (writtenFlags s ra (s.reg rb)))

/-- `LB`, `LW` and `LD` load the current value of the addressed bytes, zero-extended, whichever cache or the backend
holds it, and change no current byte (R70, R184, R186 to R188; the latest data-path write is what R104, the spec's own
inference, promises). -/
def Obligations.LoadsReadCurrentMemory : Prop :=
  ∀ (s : State) (ra rb : Reg) (imm : Half) (width : Width) (i : Instr), Running s → mayWrite s ra →
    (width, i) ∈ [(Width.byte, Instr.lb ra rb imm), (Width.word, Instr.lw ra rb imm), (Width.dword, Instr.ld ra rb imm)] →
    serves s.cfg width (s.dataAddr rb imm) →
    ∃ t, exec i s = .next t ∧ onlyRegsAndData s t ∧ s.sameBytes t
      ∧ wrote s t ra (s.valueNow width (s.dataAddr rb imm))
          (zeroSign (s.valueNow width (s.dataAddr rb imm))
            (writtenFlags s ra (s.valueNow width (s.dataAddr rb imm))))

/-- `STB`, `STW` and `STD` store the low bits of the register at the addressed bytes and leave every other current byte,
every register but `CNT` and every flag (R71, R184, R189 to R191; current bytes are those of R104, the spec's own
inference). -/
def Obligations.StoresWriteTheirBytes : Prop :=
  ∀ (s : State) (ra rb : Reg) (imm : Half) (width : Width) (i : Instr), Running s →
    (width, i) ∈ [(Width.byte, Instr.stb ra rb imm), (Width.word, Instr.stw ra rb imm),
      (Width.dword, Instr.std ra rb imm)] →
    serves s.cfg width (s.dataAddr rb imm) →
    ∃ t, exec i s = .next t ∧ onlyRegsAndData s t ∧ keeps s t [.cnt] ∧ retired s t
      ∧ t.valueNow width (s.dataAddr rb imm) = lowBits width (s.reg ra)
      ∧ s.sameBytesBut t (s.dataAddr rb imm) (accessBytes width)

/-- `PUSH` stores the register as it was in the slot below `SP` and moves `SP` there; `POP` moves `SP` up and then
writes the slot's value to its destination (R75, R192, R193). No flag is written but by a `POP` into `FLAGS`. -/
def Obligations.PushAndPop : Prop :=
  ∀ (s : State) (ra : Reg), Running s →
    (serves s.cfg .dword s.pushAddr →
      ∃ t, exec (.push ra) s = .next t ∧ onlyRegsAndData s t ∧ keeps s t [.sp, .cnt] ∧ retired s t
        ∧ t.reg .sp = s.reg .sp - 4 ∧ t.dwordNow s.pushAddr = s.reg ra ∧ s.sameBytesBut t s.pushAddr 4)
    ∧ (mayWrite s ra → serves s.cfg .dword s.popAddr →
      ∃ t, exec (.pop ra) s = .next t ∧ onlyRegsAndData s t ∧ s.sameBytes t
        ∧ keeps s t [ra, .sp, .flags, .cnt] ∧ (ra ≠ .sp → t.reg .sp = s.reg .sp + 4)
        ∧ (ra ≠ .flags → ra ≠ .cnt → t.reg ra = s.dwordNow s.popAddr)
        ∧ t.reg .cnt = (if ra = .cnt then s.dwordNow s.popAddr else s.reg .cnt) + 1
        ∧ t.flags = writtenFlags s ra (s.dwordNow s.popAddr))

/-! ## Arithmetic and logic -/

/-- Addition, subtraction and multiplication wrap modulo 2^32; `overflow` is the unsigned carry, borrow, or that the
product does not fit (R200 to R206, R222). -/
def Obligations.AddSubMulResults : Prop :=
  ∀ (s : State) (ra rb : Reg) (imm : Half),
    computes (.add ra rb) ra (· + s.reg rb) (fun a => decide (2 ^ 32 ≤ a.toNat + (s.reg rb).toNat)) s
      ∧ computes (.addi ra imm) ra (· + imm.signExtend 32)
          (fun a => decide (2 ^ 32 ≤ a.toNat + (imm.signExtend 32).toNat)) s
      ∧ computes (.sub ra rb) ra (· - s.reg rb) (fun a => decide (a.toNat < (s.reg rb).toNat)) s
      ∧ computes (.subi ra imm) ra (· - imm.signExtend 32) (fun a => decide (a.toNat < (imm.signExtend 32).toNat)) s
      ∧ computes (.mul ra rb) ra (· * s.reg rb) (fun a => decide (2 ^ 32 ≤ a.toNat * (s.reg rb).toNat)) s
      ∧ computes (.muli ra imm) ra (· * imm.signExtend 32)
          (fun a => decide (2 ^ 32 ≤ a.toNat * (imm.signExtend 32).toNat)) s

/-- Unsigned quotient and remainder by a divisor that is not 0; `overflow` is cleared (R207 to R210, R222). -/
def Obligations.DivModResults : Prop :=
  ∀ (s : State) (ra rb : Reg) (imm : Half),
    (s.reg rb ≠ 0 → computes (.div ra rb) ra (fun a => BitVec.ofNat 32 (a.toNat / (s.reg rb).toNat)) (fun _ => false) s
        ∧ computes (.mod ra rb) ra (fun a => BitVec.ofNat 32 (a.toNat % (s.reg rb).toNat)) (fun _ => false) s)
      ∧ (imm ≠ 0 →
        computes (.divi ra imm) ra (fun a => BitVec.ofNat 32 (a.toNat / (imm.signExtend 32 : Word).toNat))
            (fun _ => false) s
          ∧ computes (.modi ra imm) ra (fun a => BitVec.ofNat 32 (a.toNat % (imm.signExtend 32 : Word).toNat))
            (fun _ => false) s)

/-- The bitwise instructions, bit by bit; `overflow` is cleared (R211 to R217). -/
def Obligations.LogicResults : Prop :=
  ∀ (s : State) (ra rb : Reg) (imm : Half),
    computes (.and ra rb) ra (· &&& s.reg rb) (fun _ => false) s
      ∧ computes (.andi ra imm) ra (· &&& imm.signExtend 32) (fun _ => false) s
      ∧ computes (.or ra rb) ra (· ||| s.reg rb) (fun _ => false) s
      ∧ computes (.ori ra imm) ra (· ||| imm.signExtend 32) (fun _ => false) s
      ∧ computes (.xor ra rb) ra (· ^^^ s.reg rb) (fun _ => false) s
      ∧ computes (.xori ra imm) ra (· ^^^ imm.signExtend 32) (fun _ => false) s
      ∧ computes (.not ra) ra (fun a => ~~~a) (fun _ => false) s

/-- The shifts, by the low five bits of the operand; `overflow` of a left shift says that a 1 bit was shifted out, and
a right shift clears it (R218 to R221). -/
def Obligations.ShiftResults : Prop :=
  ∀ (s : State) (ra rb : Reg) (imm : Half),
    computes (.shl ra rb) ra (· <<< ((s.reg rb).toNat % 32))
        (fun a => decide (2 ^ 32 ≤ a.toNat * 2 ^ ((s.reg rb).toNat % 32))) s
      ∧ computes (.shli ra imm) ra (· <<< (imm.toNat % 32))
          (fun a => decide (2 ^ 32 ≤ a.toNat * 2 ^ (imm.toNat % 32))) s
      ∧ computes (.shr ra rb) ra (· >>> ((s.reg rb).toNat % 32)) (fun _ => false) s
      ∧ computes (.shri ra imm) ra (· >>> (imm.toNat % 32)) (fun _ => false) s

/-- A compare writes the four condition flags and no register: `equal`, `zero` and `sign` of the difference, and
`overflow` for an unsigned less (R226, R227). Any register may be compared in either mode. -/
def Obligations.CompareResults : Prop :=
  ∀ (s : State) (ra rb : Reg) (imm : Half) (i : Instr) (b : Word),
    (i, b) ∈ [(Instr.cmp ra rb, s.reg rb), (Instr.cmpi ra imm, imm.signExtend 32)] →
    ∃ t, exec i s = .next t ∧ onlyRegs s t ∧ s.sameBytes t ∧ keeps s t [.flags, .cnt] ∧ retired s t
      ∧ t.flags = { s.flags with
          equal := decide (s.reg ra = b), zero := decide (s.reg ra = b)
          sign := (s.reg ra - b).getLsbD 31, overflow := decide ((s.reg ra).toNat < b.toNat) }

/-- Division and remainder by 0 kill the core with `DivideByZero`, after the check of the destination and with nothing
written (R200, R207 to R210, R285). -/
def Obligations.DivideByZeroKills : Prop :=
  ∀ (s : State) (ra rb : Reg), mayWrite s ra →
    (s.reg rb = 0 → exec (.div ra rb) s = .next (s.die .divideByZero)
        ∧ exec (.mod ra rb) s = .next (s.die .divideByZero))
      ∧ exec (.divi ra 0) s = .next (s.die .divideByZero) ∧ exec (.modi ra 0) s = .next (s.die .divideByZero)
      ∧ (s.die .divideByZero).self.regs = s.self.regs

/-! ## Control transfer -/

/-- Jumps go to the register's value or to the advanced `IP` plus the signed displacement; a branch does so when its
flag has its value and otherwise only retires. No flag is written, and no mode is needed (R240 to R243, R250 to
R257). -/
def Obligations.JumpsAndBranches : Prop :=
  ∀ (s : State) (ra : Reg) (imm : Half),
    (∃ t, exec (.j ra) s = .next t ∧ jumped s t (s.reg ra))
      ∧ (∃ t, exec (.jr imm) s = .next t ∧ jumped s t (s.reg .ip + imm.signExtend 32))
      ∧ ∀ i taken, (i, taken) ∈ [(Instr.be imm, s.flags.equal), (Instr.bne imm, !s.flags.equal),
          (Instr.bz imm, s.flags.zero), (Instr.bnz imm, !s.flags.zero), (Instr.bo imm, s.flags.overflow),
          (Instr.bno imm, !s.flags.overflow), (Instr.bs imm, s.flags.sign), (Instr.bns imm, !s.flags.sign)] →
        ∃ t, exec i s = .next t ∧ jumped s t (if taken then s.reg .ip + imm.signExtend 32 else s.reg .ip)

/-- `CALL` and `CALLR` push the return address and the old `FP`, set `FP` to the new `SP`, append the record where
frames are kept, and go to the target read before the pushes (R245, R247, R248). -/
def Obligations.CallsMakeAFrame : Prop :=
  ∀ (s : State) (ra : Reg) (imm : Half) (i : Instr) (target : Word), Running s →
    (i, target) ∈ [(Instr.call ra, s.reg ra), (Instr.callr imm, s.reg .ip + imm.signExtend 32)] →
    slotsServed s.cfg (s.reg .ds) (s.reg .sp) 2 →
    ∃ t, exec i s = .next t ∧ onlyFramesAndData s t ∧ keeps s t [.ip, .sp, .fp, .cnt] ∧ retired s t
      ∧ t.reg .ip = target ∧ t.reg .sp = s.reg .sp - 8 ∧ t.reg .fp = s.reg .sp - 8
      ∧ t.self.frames = (if s.cfg.checkFrames
          then s.self.frames ++ [⟨s.reg .cs, s.reg .ds, s.reg .sp - 8, s.reg .ip⟩] else s.self.frames)
      ∧ t.dwordNow (slot (s.reg .ds) (s.reg .sp) 0) = s.reg .ip
      ∧ t.dwordNow (slot (s.reg .ds) (s.reg .sp) 1) = s.reg .fp
      ∧ ∀ a, outsideSlots (s.reg .ds) (s.reg .sp) 2 a → t.byteNow a = s.byteNow a

/-- `RET`, the frame check passed, takes `FP` and `IP` from the two slots at `SP`, moves `SP` up by 8, removes the
newest record where frames are kept, and changes no current byte (R246, R249). -/
def Obligations.RetRestoresTheFrame : Prop :=
  ∀ s : State, Running s → s.framePasses → popSlotsServed s.cfg (s.reg .ds) (s.reg .sp) 2 →
    ∃ t, exec .ret s = .next t ∧ onlyFramesAndData s t ∧ s.sameBytes t ∧ keeps s t [.ip, .sp, .fp, .cnt]
      ∧ retired s t ∧ t.reg .fp = s.dwordNow (popSlot (s.reg .ds) (s.reg .sp) 0)
      ∧ t.reg .ip = s.dwordNow (popSlot (s.reg .ds) (s.reg .sp) 1) ∧ t.reg .sp = s.reg .sp + 8
      ∧ t.self.frames = s.framesDropped

/-- A `RET` right after a `CALL` or `CALLR` undoes it: every register but `CNT` and the frame list are as before the
call, and every byte outside the two slots (R245, R246, R244). -/
def Obligations.ReturnUndoesCall : Prop :=
  ∀ (s : State) (ra : Reg) (imm : Half) (i : Instr), Running s → i ∈ [Instr.call ra, Instr.callr imm] →
    slotsServed s.cfg (s.reg .ds) (s.reg .sp) 2 →
    ∃ t u, exec i s = .next t ∧ exec .ret t = .next u ∧ keeps s u [.cnt] ∧ u.reg .cnt = s.reg .cnt + 2
      ∧ u.self.frames = s.self.frames
      ∧ ∀ a, outsideSlots (s.reg .ds) (s.reg .sp) 2 a → u.byteNow a = s.byteNow a

/-- Where frames are checked, `RET` and a privileged `RETINT` with no record or with another `SP` kill the core with
`InvalidFrame`, before anything is popped (R246, R249, R261, R285). -/
def Obligations.InvalidFrameKills : Prop :=
  ∀ s : State, s.cfg.checkFrames = true →
    (∀ f, s.self.frames.getLast? = some f → f.fp ≠ s.reg .sp) →
    exec .ret s = .next (s.die (.invalidFrame (s.reg .sp)))
      ∧ (s.flags.privileged = true → exec .retint s = .next (s.die (.invalidFrame (s.reg .sp))))
      ∧ (s.die (.invalidFrame (s.reg .sp))).self.regs = s.self.regs

/-! ## Interrupts -/

/-- `INT` of an index with no virtual handler enters the interrupt through the vector in the backend: the fourteen
slots, the registers and the frame of R290, from either mode (R260, R289, R295; R291, the layout, is the spec's own
inference). -/
def Obligations.IntEntersTheInterrupt : Prop :=
  ∀ (s : State) (imm : Half) (v : Vec), Running s → noHandler s imm →
    vectorAddr s.cfg.intTable imm.toNat + 16 ≤ s.cfg.memSize → v = s.vectorIn s.cfg.intTable imm.toNat →
    slotsServed s.cfg v.ds v.sp 14 →
    ∃ t, exec (.int imm) s = .next t ∧ onlyFramesAndData s t ∧ entered s t v ∧ retired s t

/-- `RETINT`, privileged and the frame check passed, restores the fourteen slots, removes the newest record, drops the
page of the topmost slot from every registered core's data cache and from the allocated pages, and changes no
current byte outside that page (R261, R293). -/
def Obligations.RetintRestoresTheContext : Prop :=
  ∀ (s : State) (m : Nat → Word), Running s → s.flags.privileged = true → s.framePasses →
    popSlotsServed s.cfg (s.reg .ds) (s.reg .sp) 14 →
    (∀ k, m k = s.dwordNow (popSlot (s.reg .ds) (s.reg .sp) k)) →
    ∃ t, exec .retint s = .next t
      ∧ (∀ r, t.reg r = match r with
          | .fp => m 0 | .ip => m 1 | .r7 => m 2 | .r6 => m 3 | .r5 => m 4 | .r4 => m 5 | .r3 => m 6 | .r2 => m 7
          | .r1 => m 8 | .r0 => m 9 | .flags => m 10 &&& 0x3F | .cs => m 11 | .sp => m 12 | .ds => m 13
          | .cnt => s.reg .cnt + 1)
      ∧ t.self.frames = s.framesDropped
      ∧ t.allocated = s.allocated.filter (· != s.interruptPage)
      ∧ onlyFramesAndData { s with allocated := t.allocated } t
      ∧ (∀ a, pageIndex s.cfg a ≠ s.interruptPage → t.byteNow a = s.byteNow a)
      ∧ ∀ c ∈ t.cores, c.registered = true → ∀ e ∈ c.dcache, pageIndex s.cfg e.addr ≠ s.interruptPage

/-- A `RETINT` right after an `INT` undoes it: every register but `CNT`, the privilege among them, and the frame list
return, and so does every byte outside the slots and the freed page (R294, the spec's own inference from R290 and
R293). -/
def Obligations.ReturnUndoesInterrupt : Prop :=
  ∀ (s : State) (imm : Half) (v : Vec), Running s → noHandler s imm →
    vectorAddr s.cfg.intTable imm.toNat + 16 ≤ s.cfg.memSize → v = s.vectorIn s.cfg.intTable imm.toNat →
    slotsServed s.cfg v.ds v.sp 14 →
    ∃ t u, exec (.int imm) s = .next t ∧ exec .retint t = .next u ∧ keeps s u [.cnt]
      ∧ u.reg .cnt = s.reg .cnt + 2 ∧ u.self.frames = s.self.frames
      ∧ ∀ a, outsideSlots v.ds v.sp 14 a → pageIndex s.cfg a ≠ pageIndex s.cfg (physAddr v.ds (v.sp - 1)) →
        u.byteNow a = s.byteNow a

/-- `INT` of an index with a virtual handler runs the handler in the step, with no state switch: of two pairs of `VIRT`
with one index the first counts. A handler given as data does its actions in order, until one raises: a register write, a
read or write of the data path, a push, a pop, a raise, each with the values that registers and earlier reads and pops
give it; an access that is not aligned raises. What an arbitrary handler does is free (R295), so of that this says which
handler runs and how the step ends. That a handler is given in these actions is the model's form (log entry 8). -/
def Obligations.VirtualInterruptRunsTheHandler : Prop :=
  (∀ (s : State) (imm : Half) (earlier later : List (Half × Handler)) (h : Handler),
    s.cfg.virt = earlier ++ (imm, h) :: later → (∀ p ∈ earlier, p.1 ≠ imm) →
    (exec (.int imm) s = match runHandler h s with
      | .ok _ t => .next (t.setReg .cnt (t.reg .cnt + 1))
      | .raise f t => .next (t.die f))
      ∧ (∀ n, h = .free n → runHandler h s = VirtProg.run (Config.virtHandler n) s)
      ∧ (∀ acts, h = .given acts → runHandler h s = runActs acts [] s)
      ∧ ∀ r v, h = .given [.setReg r (.const v)] → r ≠ .cnt →
        ∃ t, exec (.int imm) s = .next t ∧ onlyRegs s t ∧ keeps s t [r, .cnt] ∧ retired s t
          ∧ (r ≠ .flags → t.reg r = v) ∧ t.flags = writtenFlags s r v)
    ∧ (∀ (s : State) (got : List Word), runActs [] got s = .ok () s
      ∧ ∀ (act : HandlerAct) (rest : List HandlerAct), runActs (act :: rest) got s = match performAct got s act with
        | .ok new t => runActs rest (got ++ new) t
        | .raise f t => .raise f t)
    ∧ (∀ (s : State) (got : List Word) (x y : HandlerExpr), (∀ v, evalExpr s got (.const v) = v)
      ∧ (∀ r, evalExpr s got (.reg r) = s.reg r) ∧ (∀ (k : Nat) v, got[k]? = some v → evalExpr s got (.got k) = v)
      ∧ evalExpr s got (.add x y) = evalExpr s got x + evalExpr s got y
      ∧ (∀ r, performAct got s (.setReg r x) = .ok [] (s.setReg r (evalExpr s got x)))
      ∧ (∀ f, performAct got s (.raise f) = .raise f s)
      ∧ (∀ width pa, pa = (evalExpr s got x).toNat → pa % accessBytes width ≠ 0 →
        performAct got s (.memRead width x) = .raise (.unalignedAccess pa) s
          ∧ performAct got s (.memWrite width x y) = .raise (.unalignedAccess pa) s)
      ∧ (s.reg .sp % 4 ≠ 0 → performAct got s (.push x) = .raise (.unalignedAccess s.pushAddr) s
        ∧ performAct got s .pop = .raise (.unalignedAccess s.popAddr) s))
    ∧ ∀ (s : State) (got : List Word) (x y : HandlerExpr), Running s →
      (∀ width pa, pa = (evalExpr s got x).toNat → serves s.cfg width pa →
        (∃ t, performAct got s (.memRead width x) = .ok [s.valueNow width pa] t ∧ s.onlyDataPath t ∧ s.sameBytes t)
        ∧ ∃ t, performAct got s (.memWrite width x y) = .ok [] t ∧ s.onlyDataPath t
          ∧ t.valueNow width pa = lowBits width (evalExpr s got y) ∧ s.sameBytesBut t pa (accessBytes width))
      ∧ (serves s.cfg .dword s.pushAddr →
        ∃ t, performAct got s (.push x) = .ok [] t ∧ onlyRegsAndData s t ∧ keeps s t [.sp]
          ∧ t.reg .sp = s.reg .sp - 4 ∧ t.dwordNow s.pushAddr = evalExpr s got x ∧ s.sameBytesBut t s.pushAddr 4)
      ∧ (serves s.cfg .dword s.popAddr →
        ∃ t, performAct got s .pop = .ok [s.dwordNow s.popAddr] t ∧ onlyRegsAndData s t ∧ keeps s t [.sp]
          ∧ t.reg .sp = s.reg .sp + 4 ∧ s.sameBytes t)

/-- An accepted hardware interrupt wakes the core and enters through the vector of `IRQ_TABLE`, the core's `CNT`
unchanged; of every other core only the data cache may change. An entry that raises a fault kills the core, awake:
at a vector dword past `MEM_SIZE` with nothing else changed, at a misaligned first slot of the vector's stack with `DS`
and `SP` swapped, and at any slot of it that is the first past `MEM_SIZE` with the pushes before it done besides
(R63, R290, R296). That a vector load records the address of its first dword that faults, and that its dwords follow one
another without a wrap at 2^32, the model reads from the spec (log entries 14 and 13). -/
def Obligations.IrqEntersTheInterrupt : Prop :=
  ∀ (s u w : State) (k index a : Nat) (rest : List HostOp), s.Inv → s.inputs = .irq k index :: rest →
    k < s.nCores → u = State.focus { s with inputs := rest } k → w = u.setLife .booted →
    u.self.life = .booted ∨ u.self.life = .suspended → u.flags.hwintEnabled = true →
    a = vectorAddr u.cfg.irqTable index →
    (∀ v, a + 16 ≤ u.cfg.memSize → v = u.vectorIn u.cfg.irqTable index →
        (slotsServed u.cfg v.ds v.sp 14 →
          ∃ t, step s = .next t ∧ onlyFramesAndData w t ∧ entered u t v ∧ t.reg .cnt = u.reg .cnt)
        ∧ (v.sp % 4 ≠ 0 →
          step s = .next (State.die (.unalignedAccess (slot v.ds v.sp 0)) ((w.setReg .ds v.ds).setReg .sp v.sp)))
        ∧ ∀ n (hn : n < u.context.length), firstPast u.cfg v.ds v.sp n →
          ∃ t, step s = .next (t.die (.backendFault (firstFault u.cfg (slot v.ds v.sp n))))
            ∧ halfPushed ((w.setReg .ds v.ds).setReg .sp v.sp) u.context n u.context[n] t)
      ∧ (∀ j, j < 4 → j = 0 ∨ a + 4 * j ≤ u.cfg.memSize → u.cfg.memSize < a + 4 * j + 4 →
        step s = .next (w.die (.backendFault (a + 4 * j))))
      ∧ ∀ f t, w.enterInterrupt u.cfg.irqTable index = .raise f t → step s = .next (t.die f)

/-- A hardware interrupt for a core that is not alive, or whose `hwint_enabled` is 0, is dropped and not remembered:
nothing changes (R288, R296). -/
def Obligations.IrqIsDropped : Prop :=
  ∀ (s : State) (k index : Nat) (rest : List HostOp) (c : Core), s.inputs = .irq k index :: rest →
    s.cores[k]? = some c →
    c.life = .reset ∨ c.life.isHalted = true ∨ c.regs.flags.hwintEnabled = false →
    ∃ t, step s = .next t ∧ t.cores = s.cores ∧ t.mem = s.mem ∧ sameRest { s with inputs := rest } t

/-! ## System instructions -/

/-- `CLI`, `STI` and `LPM`, privileged, write their one flag and nothing else (R262 to R264). -/
def Obligations.FlagInstructions : Prop :=
  ∀ (s : State) (i : Instr) (f : Flags), s.flags.privileged = true →
    (i, f) ∈ [(Instr.cli, { s.flags with hwintEnabled := false }), (Instr.sti, { s.flags with hwintEnabled := true }),
      (Instr.lpm, { s.flags with privileged := false })] →
    ∃ t, exec i s = .next t ∧ onlyRegs s t ∧ s.sameBytes t ∧ keeps s t [.flags, .cnt] ∧ retired s t ∧ t.flags = f

/-- `HLT`, privileged, halts the core with the register's value as exit code: its data cache is flushed and stays,
clean, every value it holds is in the backend, it leaves the registry, and the step retires (R265, R315). -/
def Obligations.HltHalts : Prop :=
  ∀ (s : State) (ra : Reg), Running s → s.flags.privileged = true →
    ∃ t, exec (.hlt ra) s = .next t ∧ keeps s t [.cnt] ∧ retired s t
      ∧ t.self = { halted (s.reg ra) s.self with regs := t.self.regs } ∧ t.before = s.before ∧ t.after = s.after
      ∧ sameRest s t ∧ s.sameBytes t ∧ ∀ e ∈ s.self.dcache, t.mem.half e.addr = e.value

/-- `SIS` of a number below `NISETS` sets that set and empties the instruction cache, from either mode; any other number
kills the core with `InvalidInstructionSet`, nothing changed (R266). DK0 has the one set 0 (R127). -/
def Obligations.SisSwitchesTheSet : Prop :=
  ∀ (s : State) (imm : Half),
    (imm.toNat < s.cfg.nIsets →
      ∃ t, exec (.sis imm) s = .next t ∧ keeps s t [.cnt] ∧ retired s t ∧ s.sameBytes t
        ∧ t = { s with self := { s.self with iset := imm.toNat, icache := [], regs := t.self.regs } })
      ∧ (s.cfg.nIsets ≤ imm.toNat → exec (.sis imm) s = .next (s.die (.invalidInstructionSet imm.toNat))
        ∧ (s.die (.invalidInstructionSet imm.toNat)).self.regs = s.self.regs)
      ∧ (s.cfg.table = .dk0 → s.cfg.nIsets = 1)

/-! ## Faults and protection -/

/-- The privileged instructions are `RETINT`, `CLI`, `STI`, `LPM` and `HLT`; unprivileged, each kills the core with
AccessViolation and has no effect at all on its registers (R131, R154). -/
def Obligations.PrivilegedInstructionCheck : Prop :=
  ∀ (i : Instr) (s : State), (isPrivileged i = true ↔ privilegedInstruction i)
    ∧ (privilegedInstruction i → s.flags.privileged = false →
      exec i s = .next (s.die (.accessViolationInstruction (.dk0 i)))
        ∧ (s.die (.accessViolationInstruction (.dk0 i))).self.regs = s.self.regs)

/-- Every instruction with a destination operand, unprivileged and the destination a protected register, kills the core
with AccessViolation before anything else: before a division by 0, an alignment fault or a memory access (R27,
R285). -/
def Obligations.ProtectedDestinationKills : Prop :=
  ∀ (i : Instr) (ra : Reg) (s : State), destination i = some ra → ra ∈ protectedRegs → s.flags.privileged = false →
    exec i s = .next (s.die (.accessViolationRegister ra))
      ∧ (s.die (.accessViolationRegister ra)).self.regs = s.self.regs

/-- A misaligned word, dword or stack access kills the core with UnalignedAccess before any cache or backend activity
(R64); in interrupt entry, after `DS` and `SP` were swapped to the vector's stack (R290). -/
def Obligations.MisalignedAccessKills : Prop :=
  ∀ (s : State) (ra rb : Reg) (imm : Half),
    (s.dataAddr rb imm % 2 ≠ 0 →
        (mayWrite s ra → exec (.lw ra rb imm) s = .next (s.die (.unalignedAccess (s.dataAddr rb imm))))
        ∧ exec (.stw ra rb imm) s = .next (s.die (.unalignedAccess (s.dataAddr rb imm))))
      ∧ (s.dataAddr rb imm % 4 ≠ 0 →
        (mayWrite s ra → exec (.ld ra rb imm) s = .next (s.die (.unalignedAccess (s.dataAddr rb imm))))
        ∧ exec (.std ra rb imm) s = .next (s.die (.unalignedAccess (s.dataAddr rb imm))))
      ∧ (s.reg .sp % 4 ≠ 0 → ∀ i ∈ [Instr.push ra, Instr.call ra, Instr.callr imm],
        exec i s = .next (s.die (.unalignedAccess s.pushAddr)))
      ∧ (s.reg .sp % 4 ≠ 0 →
        (mayWrite s ra → exec (.pop ra) s = .next (s.die (.unalignedAccess s.popAddr)))
        ∧ (s.framePasses → exec .ret s = .next (s.die (.unalignedAccess s.popAddr)))
        ∧ (s.framePasses → s.flags.privileged = true →
          exec .retint s = .next (s.die (.unalignedAccess s.popAddr))))
      ∧ (noHandler s imm → s.cfg.backend = .reference →
        vectorAddr s.cfg.intTable imm.toNat + 16 ≤ s.cfg.memSize → (s.vectorIn s.cfg.intTable imm.toNat).sp % 4 ≠ 0 →
        exec (.int imm) s = .next (State.die
          (.unalignedAccess (slot (s.vectorIn s.cfg.intTable imm.toNat).ds (s.vectorIn s.cfg.intTable imm.toNat).sp 0))
          ((s.setReg .ds (s.vectorIn s.cfg.intTable imm.toNat).ds).setReg .sp
            (s.vectorIn s.cfg.intTable imm.toNat).sp)))

/-- An aligned access past `MEM_SIZE` kills the core with BackendFault, recorded with the granule of the access that is
past it. A byte, a word and a dword, whose second granule alone may be past it: no register is written, a load has
changed no current byte, a store has stored at most its first granule. Any slot of a push or a call that is the first
past it: the pushes before it are done. Any slot of a pop, a return or an interrupt exit: the pops before it are done. A
dword of a vector: nothing is. Any slot of the vector's stack: `DS` and `SP` are swapped and the pushes before it done
(R62, R63, R75, R159, R245, R246, R285, R290, R293). That a vector load records the address of its first dword that
faults, and that its dwords follow one another without a wrap at 2^32, the model reads from the spec (log entries 14 and
13). -/
def Obligations.OutOfRangeAccessKills : Prop :=
  ∀ (s : State) (ra rb : Reg) (imm : Half) (a : Nat), Running s → a = s.dataAddr rb imm →
    (s.cfg.memSize < granule a + 2 →
        (mayWrite s ra → diesAt (.lb ra rb imm) s (granule a) (untouched s))
        ∧ diesAt (.stb ra rb imm) s (granule a) (untouched s))
      ∧ (a % 2 = 0 → s.cfg.memSize < a + 2 →
        (mayWrite s ra → diesAt (.lw ra rb imm) s a (untouched s)) ∧ diesAt (.stw ra rb imm) s a (untouched s))
      ∧ (a % 4 = 0 → s.cfg.memSize < a + 4 →
        (mayWrite s ra → diesAt (.ld ra rb imm) s (firstFault s.cfg a) (untouched s))
        ∧ diesAt (.std ra rb imm) s (firstFault s.cfg a) (halfStored s a (s.reg ra)))
      ∧ (∀ (i : Instr) (vs : List Word) (k : Nat) (hk : k < vs.length),
        (i, vs) ∈ [(Instr.push ra, [s.reg ra]), (Instr.call ra, [s.reg .ip, s.reg .fp]),
          (Instr.callr imm, [s.reg .ip, s.reg .fp])] →
        firstPast s.cfg (s.reg .ds) (s.reg .sp) k →
        diesAt i s (firstFault s.cfg (slot (s.reg .ds) (s.reg .sp) k)) (halfPushed s vs k vs[k]))
      ∧ (∀ k, firstPopPast s.cfg (s.reg .ds) (s.reg .sp) k →
        (k = 0 → mayWrite s ra →
          diesAt (.pop ra) s (firstFault s.cfg (popSlot (s.reg .ds) (s.reg .sp) k)) (untouched s))
        ∧ (k < 2 → s.framePasses →
          diesAt .ret s (firstFault s.cfg (popSlot (s.reg .ds) (s.reg .sp) k)) (halfPopped s k))
        ∧ (k < 14 → s.framePasses → s.flags.privileged = true →
          diesAt .retint s (firstFault s.cfg (popSlot (s.reg .ds) (s.reg .sp) k)) (halfPopped s k)))
      ∧ (noHandler s imm →
        (∀ x j, x = vectorAddr s.cfg.intTable imm.toNat + 4 * j → j < 4 → j = 0 ∨ x ≤ s.cfg.memSize →
          s.cfg.memSize < x + 4 → exec (.int imm) s = .next (s.die (.backendFault x)))
        ∧ ∀ v, vectorAddr s.cfg.intTable imm.toNat + 16 ≤ s.cfg.memSize → v = s.vectorIn s.cfg.intTable imm.toNat →
          ∀ k (hk : k < s.context.length), firstPast s.cfg v.ds v.sp k →
            diesAt (.int imm) s (firstFault s.cfg (slot v.ds v.sp k))
              (halfPushed ((s.setReg .ds v.ds).setReg .sp v.sp) s.context k s.context[k]))

/-- `die` records the fault and halts with exit code 1: the registers, frames and instruction cache stay, the data
cache is flushed and stays, clean, the core leaves the registry, the other cores stay, and a Halted core is left as
it is (R281). The host's `die` does this to the core it names (R316). -/
def Obligations.DieRecordsAndFlushes : Prop :=
  ∀ (s : State) (f : CoreFault), s.Inv →
    (s.self.life.isHalted = true → s.die f = s)
      ∧ (s.self.life.isHalted = false →
        (s.die f).self = { halted 1 s.self with lastException := some f }
          ∧ (s.die f).before = s.before ∧ (s.die f).after = s.after ∧ sameRest s (s.die f)
          ∧ s.sameBytes (s.die f)
          ∧ (s.self.registered = true → ∀ e ∈ s.self.dcache, (s.die f).mem.half e.addr = e.value))
      ∧ ∀ (k : Nat) (rest : List HostOp) (c : Core), s.inputs = .die k f :: rest → s.cores[k]? = some c →
        ∃ t, step s = .next t ∧ s.sameBytes t ∧ sameRest { s with inputs := rest } t
          ∧ t.cores = if c.life.isHalted then s.cores
            else s.cores.set k { halted 1 c with lastException := some f }

/-- `halt` on any core never raises: where a write-back meets a backend fault the flush stops there, the later entries
stay as they are, the fault is recorded unless one was, and the core is Halted with the code asked for; where none
does, every entry is clean. The backend holds what the flush wrote back, in either case (R62, R315). The host's `halt`
does this to the core it names, and nothing to a Halted one (R310, R315). -/
def Obligations.HaltAbsorbsAFlushFault : Prop :=
  (∀ (s : State) (code : Word), s.self.life.isHalted = false →
    (s.halt code).self.life = .halted code ∧ (s.halt code).self.registered = false
      ∧ (s.halt code).self.regs = s.self.regs
      ∧ (∀ m pages, writeBacks s.cfg s.self.dcache (s.mem, s.allocated) = some (m, pages) →
        (s.halt code).self.dcache = allClean s.self.dcache
          ∧ (s.halt code).self.lastException = s.self.lastException
          ∧ (s.halt code).mem = m ∧ (s.halt code).allocated = pages)
      ∧ ∀ older e newer m pages, s.self.dcache = older ++ e :: newer →
        writeBacks s.cfg older (s.mem, s.allocated) = some (m, pages) → e.dirty = true →
        (m.bwrite16 s.cfg pages e.addr e.value).1 = none →
        (s.halt code).self.dcache = allClean older ++ e :: newer
          ∧ (s.halt code).self.lastException = some (s.self.lastException.getD (.backendFault e.addr))
          ∧ (s.halt code).mem = m ∧ (s.halt code).allocated = (m.bwrite16 s.cfg pages e.addr e.value).2)
    ∧ ∀ (s u : State) (k : Nat) (code : Word) (rest : List HostOp) (c : Core), s.inputs = .halt k code :: rest →
      s.cores[k]? = some c → u = State.focus { s with inputs := rest } k →
      u.self = c ∧ step s = .next (u.halt code) ∧ (c.life.isHalted = true → (u.halt code).cores = s.cores)
        ∧ (s.Inv → c.life.isHalted = false →
          (u.halt code).cores = s.cores.set k (halted code c) ∧ s.sameBytes (u.halt code)
            ∧ sameRest { s with inputs := rest } (u.halt code))

/-- Unprivileged code stays unprivileged and in its segments: no instruction but `INT` raises the privilege, changes
`hwint_enabled`, or changes `DS` or `CS` (R300). -/
def Obligations.UnprivilegedCodeIsConfined : Prop :=
  ∀ (i : Instr) (s t : State), s.flags.privileged = false → (∀ imm, i ≠ .int imm) → exec i s = .next t →
    t.flags.privileged = false ∧ t.flags.hwintEnabled = s.flags.hwintEnabled ∧ t.reg .ds = s.reg .ds
      ∧ t.reg .cs = s.reg .cs

/-- `CNT` counts exactly the instructions that end: any instruction that does not name `CNT` as destination (and is no
virtual interrupt) either adds 1 and records no fault, or leaves `CNT`, records a fault and kills the core. A `HLT`
that ends may record the fault that its flush absorbed (R28, R156, R315). -/
def Obligations.CounterCountsRetiredInstructions : Prop :=
  ∀ (i : Instr) (s t : State), destination i ≠ some .cnt → (∀ imm, i = .int imm → noHandler s imm) →
    s.self.life.isHalted = false → exec i s = .next t →
    (t.reg .cnt = s.reg .cnt + 1
        ∧ (t.self.lastException = s.self.lastException ∧ t.self.life = s.self.life
          ∨ ∃ ra, i = .hlt ra ∧ t.self.life = .halted (s.reg ra)
            ∧ (s.Inv → t.self.lastException = s.self.lastException)))
      ∨ (t.reg .cnt = s.reg .cnt ∧ t.self.life = .halted 1 ∧ t.self.lastException ≠ none)

/-- A step of one core reaches every other core only through coherency requests: of another core, data-cache entries
leave or become clean, those that stay keep their order, and nothing else changes (R23, R88, R89, R96). -/
def Obligations.OtherCoresOnlyLoseCopies : Prop :=
  ∀ (s t : State) (k : Nat) (rest : List HostOp), s.inputs = .step k :: rest → step s = .next t →
    ∀ (j : Nat) (c : Core), j ≠ k → s.cores[j]? = some c → ∃ d, t.cores[j]? = some d ∧ onlyReleased c d

/-- No instruction but `SIS` (and a virtual interrupt) changes the instruction cache of its core or the active set: a
store does not reach an instruction already cached (R82, R83, R34). -/
def Obligations.OnlySisClearsTheInstructionCache : Prop :=
  ∀ (i : Instr) (s t : State), (∀ imm, i ≠ .sis imm) → (∀ imm, i = .int imm → noHandler s imm) →
    exec i s = .next t →
    t.self.icache = s.self.icache ∧ t.self.iset = s.self.iset

/-! ## The data cache and coherency -/

/-- A word store leaves the writer as the only holder of the granule: it holds it dirty, with the value, most recently
used, and no other registered core holds it at all. The value stored is not written to the backend: on a hit the backend
keeps every byte; on a miss it gets, of this granule, the value that was current before, and else at most the granule
that an eviction writes back (R85 to R87, R89, R91, R93). No store of any width writes the backend where every granule it
touches is in the cache. -/
def Obligations.StoreLeavesTheWriterAlone : Prop :=
  ∀ (s : State) (ra rb : Reg) (imm : Half) (a : Nat), Running s → a = s.dataAddr rb imm →
    (serves s.cfg .word a → ∃ t, exec (.stw ra rb imm) s = .next t
      ∧ (∀ c ∈ t.before ++ t.after, c.registered = true → ∀ e ∈ c.dcache, e.addr ≠ a)
      ∧ (∀ e ∈ s.self.dcache, e.addr = a → t.mem = s.mem
        ∧ t.self.dcache = s.self.dcache.filter (·.addr != a) ++ [⟨a, true, (s.reg ra).extractLsb' 0 16⟩])
      ∧ ((∀ e ∈ s.self.dcache, e.addr ≠ a) → t.mem.half a = s.granuleNow a
        ∧ t.self.dcache = (if s.self.dcache.length = s.cfg.dcacheSize then s.self.dcache.drop 1 else s.self.dcache)
            ++ [⟨a, true, (s.reg ra).extractLsb' 0 16⟩]
        ∧ ∀ b, b % 2 = 0 → b ≠ a → t.mem.half b = s.mem.half b ∨ evicts s b (t.mem.half b)))
    ∧ ∀ (width : Width) (i : Instr), (width, i) ∈ [(Width.byte, Instr.stb ra rb imm), (Width.word, Instr.stw ra rb imm),
        (Width.dword, Instr.std ra rb imm)] →
      serves s.cfg width a →
      (∀ b, b % 2 = 0 → granule a ≤ b → b < a + accessBytes width → ∃ e ∈ s.self.dcache, e.addr = b) →
      ∃ t, exec i s = .next t ∧ t.mem = s.mem

/-- A word load keeps the data cache in strict recency order: a hit moves its entry to the most recently used end and
touches no byte of the backend and no other core; a miss appends a clean entry, and at capacity exactly the least
recently used entry leaves, written back if it was dirty. On a miss every other registered core that holds the granule
dirty keeps it in its place, clean, and the backend then holds its value (R84, R85, R87, R89, R91). -/
def Obligations.LoadsKeepRecencyOrder : Prop :=
  ∀ (s : State) (ra rb : Reg) (imm : Half), Running s → mayWrite s ra → serves s.cfg .word (s.dataAddr rb imm) →
    ∃ t, exec (.lw ra rb imm) s = .next t
      ∧ (∀ e ∈ s.self.dcache, e.addr = s.dataAddr rb imm →
        t.self.dcache = s.self.dcache.filter (·.addr != e.addr) ++ [e] ∧ t.mem = s.mem ∧ t.before = s.before
          ∧ t.after = s.after)
      ∧ ((∀ e ∈ s.self.dcache, e.addr ≠ s.dataAddr rb imm) →
        t.self.dcache = (if s.self.dcache.length = s.cfg.dcacheSize then s.self.dcache.drop 1 else s.self.dcache)
            ++ [⟨s.dataAddr rb imm, false, s.granuleNow (s.dataAddr rb imm)⟩]
          ∧ (∀ e ∈ s.self.dcache, e.dirty = true → e ∉ t.self.dcache → t.mem.half e.addr = e.value)
          ∧ t.before = s.before.map (snooped (s.dataAddr rb imm)) ∧ t.after = s.after.map (snooped (s.dataAddr rb imm))
          ∧ ∀ c ∈ s.before ++ s.after, c.registered = true → ∀ e ∈ c.dcache, e.addr = s.dataAddr rb imm →
            t.mem.half (s.dataAddr rb imm) = e.value)

/-- After a core stores a dword, any other Booted core's load of it returns the value stored, never an older copy
(R102 and R104, the spec's own inferences). -/
def Obligations.StoreIsSeenByOtherCores : Prop :=
  ∀ (s : State) (k : Nat) (ra rb rc rd : Reg) (imm disp : Half), Running s →
    serves s.cfg .dword (s.dataAddr rb imm) → k < s.nCores → k ≠ s.selfId → (s.focus k).self.life = .booted →
    mayWrite (s.focus k) rc → (s.focus k).dataAddr rd disp = s.dataAddr rb imm →
    ∃ t u, exec (.std ra rb imm) s = .next t ∧ exec (.ld rc rd disp) (t.focus k) = .next u
      ∧ (rc ≠ .flags → rc ≠ .cnt → u.reg rc = s.reg ra)

/-- A byte load after a dword store sees the matching byte of the dword, little-endian (R65). -/
def Obligations.BytesOfAStoredDword : Prop :=
  ∀ (s : State) (ra rb rc rd : Reg) (imm disp : Half) (j : Nat), Running s →
    serves s.cfg .dword (s.dataAddr rb imm) → j < 4 → rd ≠ .cnt → mayWrite s rc →
    s.dataAddr rd disp = s.dataAddr rb imm + j →
    ∃ t u, exec (.std ra rb imm) s = .next t ∧ exec (.lb rc rd disp) t = .next u
      ∧ (rc ≠ .flags → rc ≠ .cnt → u.reg rc = ((s.reg ra).extractLsb' (8 * j) 8).zeroExtend 32)

/-- A memory-structure change removes the range from every registered core's data cache; with write-back, or outside
the range, every current value stays, and without write-back the range reads as the backend holds it (R92; R104, the
spec's own inference). A change that raises, its write-back meeting a backend fault, keeps what it had done and kills a
core that is not Halted, if there is one (R12, R95, R281); which one the spec does not say, and it is free in the model
(log entry 12). A host's page call that another backend than RefBackend answers with a fault kills one in the same way;
else it leaves the backend's further state as it says, of RefBackend the marks of the pages it lists (R62; log entry 9). -/
def Obligations.MemoryStructureChange : Prop :=
  (∀ (s : State) (a size : Nat) (writeback : Bool) (rest : List HostOp),
    s.inputs = .memoryStructureChange a size writeback :: rest →
    (∀ f u, State.onMemoryStructureChange a size writeback { s with inputs := rest } = .raise f u →
      someCoreDies f u (step s))
    ∧ (s.Inv → ∃ t, step s = .next t ∧ sameRest { s with inputs := rest } t
      ∧ List.Forall₂ Core.onlyDcache s.cores t.cores
      ∧ (∀ c ∈ t.cores, c.registered = true → ∀ e ∈ c.dcache, ¬ (a ≤ e.addr ∧ e.addr < a + size))
      ∧ (∀ b, b % 2 = 0 → writeback = true ∨ ¬ (a ≤ b ∧ b < a + size) → t.granuleNow b = s.granuleNow b)
      ∧ ∀ b, b % 2 = 0 → writeback = false → a ≤ b ∧ b < a + size → t.granuleNow b = s.mem.half b))
    ∧ ∀ (s : State) (pages : List Nat) (fault : Option Nat) (rest : List HostOp),
      s.inputs = .pageCall pages fault :: rest →
      (s.cfg.backend = .reference → ∃ marks, step s = .next { s with inputs := rest, allocated := marks }
          ∧ pagesWfAbove 0 marks = true ∧ ∀ pg, pg ∈ marks ↔ pg ∈ pages)
        ∧ ∀ n, s.cfg.backend = .other n →
          (fault = none → step s = .next { s with inputs := rest, allocated := pages })
            ∧ ∀ x, fault = some x →
              someCoreDies (.backendFault x) { s with inputs := rest, allocated := pages } (step s)

/-- After the host's `release(all, writeback = true, remove = false)` on an alive core the backend holds every value the
core holds, and no current byte changed (R109). Any `release` that raises, its write-back meeting a backend fault, keeps
what it had done and kills the core it was asked of (R12, R281; log entry 12). -/
def Obligations.HostReleaseFlushes : Prop :=
  (∀ (s : State) (k : Nat) (rest : List HostOp) (c : Core), s.Inv → s.inputs = .release k .all true false :: rest →
    s.cores[k]? = some c → c.life = .booted ∨ c.life = .suspended →
    ∃ t, step s = .next t ∧ s.sameBytes t ∧ sameRest { s with inputs := rest } t
      ∧ t.cores = s.cores.set k { c with dcache := allClean c.dcache }
      ∧ ∀ e ∈ c.dcache, t.mem.half e.addr = e.value)
    ∧ ∀ (s u : State) (k : Nat) (sel : Selector) (writeback remove : Bool) (rest : List HostOp) (f : CoreFault),
      s.inputs = .release k sel writeback remove :: rest → k < s.nCores →
      State.releaseOwn sel writeback remove (State.focus { s with inputs := rest } k) = .raise f u →
      step s = .next (u.die f)
end

