-- ==== Sys2Proof/Laws/Memory.lean ====
section
/-! SUPPORT. The laws of the byte store: reading after writing, and the canonical form that every write keeps (R62,
R63). -/

namespace Sys2Proof.Machine

/-- A smaller lower bound is a weaker claim. -/
theorem Memory.wfAbove_mono {lo hi : Nat} {m : Memory} (h : m.wfAbove hi = true) (le : lo ≤ hi) :
    m.wfAbove lo = true := by
  cases m with
  | nil => rfl
  | cons p rest =>
    obtain ⟨k, v⟩ := p
    simp only [Memory.wfAbove, Bool.and_eq_true, decide_eq_true_eq] at h ⊢
    exact ⟨⟨le_trans le h.1.1, h.1.2⟩, h.2⟩

/-- Below the lower bound nothing is listed. -/
theorem Memory.get_below {lo a : Nat} {m : Memory} (h : m.wfAbove lo = true) (lt : a < lo) :
    m.get a = Memory.unlisted := by
  induction m generalizing lo with
  | nil => rfl
  | cons p rest ih =>
    obtain ⟨k, v⟩ := p
    simp only [Memory.wfAbove, Bool.and_eq_true, decide_eq_true_eq] at h
    have hk : k ≠ a := by omega
    simp only [Memory.get, if_neg hk]
    exact ih h.2 (by omega)

/-- A cell at the head keeps the canonical form. -/
theorem Memory.wfAbove_cell {lo a : Nat} {v : Byte} {rest : Memory} (le : lo ≤ a)
    (h : rest.wfAbove (a + 1) = true) : (Memory.cell a v rest).wfAbove lo = true := by
  unfold Memory.cell
  split
  · exact Memory.wfAbove_mono h (by omega)
  · simp only [Memory.wfAbove, Bool.and_eq_true, decide_eq_true_eq, bne_iff_ne]
    exact ⟨⟨le, by assumption⟩, h⟩

/-- What is read after putting a cell at the head. -/
theorem Memory.get_cell {a b : Nat} {v : Byte} {rest : Memory} (h : rest.wfAbove (a + 1) = true) :
    (Memory.cell a v rest).get b = if b = a then v else rest.get b := by
  unfold Memory.cell
  split
  · next hv =>
    split
    · next hb => subst hb; rw [hv]; exact Memory.get_below h (by omega)
    · rfl
  · by_cases hb : b = a
    · subst hb; simp [Memory.get]
    · simp [Memory.get, hb, Ne.symm hb]

/-- A write keeps the canonical form. -/
theorem Memory.wfAbove_set {lo a : Nat} {v : Byte} {m : Memory} (h : m.wfAbove lo = true) (le : lo ≤ a) :
    (m.set a v).wfAbove lo = true := by
  induction m generalizing lo with
  | nil => exact Memory.wfAbove_cell le rfl
  | cons p rest ih =>
    obtain ⟨k, u⟩ := p
    have h' := h
    simp only [Memory.wfAbove, Bool.and_eq_true, decide_eq_true_eq, bne_iff_ne] at h'
    obtain ⟨⟨lek, hu⟩, hr⟩ := h'
    unfold Memory.set
    split
    · next lt =>
      refine Memory.wfAbove_cell le ?_
      simp only [Memory.wfAbove, Bool.and_eq_true, decide_eq_true_eq, bne_iff_ne]
      exact ⟨⟨by omega, hu⟩, hr⟩
    · split
      · next e => subst e; exact Memory.wfAbove_cell le hr
      · simp only [Memory.wfAbove, Bool.and_eq_true, decide_eq_true_eq, bne_iff_ne]
        exact ⟨⟨lek, hu⟩, ih hr (by omega)⟩

/-- Reading a byte after writing one, in a canonical memory above a lower bound. -/
theorem Memory.get_set_above {lo a b : Nat} {v : Byte} {m : Memory} (h : m.wfAbove lo = true) :
    (m.set a v).get b = if b = a then v else m.get b := by
  induction m generalizing lo with
  | nil =>
    unfold Memory.set
    exact Memory.get_cell rfl
  | cons p rest ih =>
    obtain ⟨k, u⟩ := p
    have h' := h
    simp only [Memory.wfAbove, Bool.and_eq_true, decide_eq_true_eq, bne_iff_ne] at h'
    obtain ⟨⟨lek, hu⟩, hr⟩ := h'
    unfold Memory.set
    split
    · next lt =>
      refine Memory.get_cell ?_
      simp only [Memory.wfAbove, Bool.and_eq_true, decide_eq_true_eq, bne_iff_ne]
      exact ⟨⟨by omega, hu⟩, hr⟩
    · split
      · next e =>
        subst e
        rw [Memory.get_cell hr]
        by_cases hb : b = a
        · simp [hb]
        · simp [Memory.get, hb, Ne.symm hb]
      · next ne =>
        by_cases hk : k = b
        · subst hk
          have : ¬ k = a := fun e => ne e.symm
          simp [Memory.get, this]
        · simp only [Memory.get, if_neg hk]
          exact ih hr

/-- Every write of one byte keeps the canonical form. -/
theorem Memory.wf_set {m : Memory} (h : m.wf = true) (a : Nat) (v : Byte) : (m.set a v).wf = true :=
  Memory.wfAbove_set h (Nat.zero_le a)

/-- A read after a write to the same place gives the value written, and every other place reads as before. -/
theorem Memory.get_set {m : Memory} (h : m.wf = true) (a b : Nat) (v : Byte) :
    (m.set a v).get b = if b = a then v else m.get b :=
  Memory.get_set_above h

theorem Memory.wf_setHalf {m : Memory} (h : m.wf = true) (a : Nat) (v : Half) : (m.setHalf a v).wf = true :=
  Memory.wf_set (Memory.wf_set h _ _) _ _

theorem Memory.wf_setDword {m : Memory} (h : m.wf = true) (a : Nat) (v : Word) :
    (m.setDword a v).wf = true :=
  Memory.wf_setHalf (Memory.wf_setHalf h _ _) _ _

/-- Reading a byte after writing a granule (R65). -/
theorem Memory.get_setHalf {m : Memory} (h : m.wf = true) (a b : Nat) (v : Half) :
    (m.setHalf a v).get b =
      if b = a then v.extractLsb' 0 8 else if b = a + 1 then v.extractLsb' 8 8 else m.get b := by
  unfold Memory.setHalf
  rw [Memory.get_set (Memory.wf_set h _ _), Memory.get_set h]
  by_cases h1 : b = a
  · subst h1; simp
  · by_cases h2 : b = a + 1 <;> simp [h1, h2]

/-- The two bytes of a granule value, put together, are the value. -/
theorem half_join (v : Half) : (v.extractLsb' 8 8 ++ v.extractLsb' 0 8 : Half) = v := by
  apply BitVec.eq_of_getLsbD_eq
  intro i hi
  have e : (v.extractLsb' 8 8 ++ v.extractLsb' 0 8 : Half).getLsbD i
      = (v.extractLsb' 8 8 ++ v.extractLsb' 0 8).getLsbD i := rfl
  rw [e, BitVec.getLsbD_append]
  simp only [BitVec.getLsbD_extractLsb']
  split_ifs with h1
  · simp [h1]
  · simp [show i - 8 < 8 by omega, show 8 + (i - 8) = i by omega]

/-- The granule just written reads as the value written. -/
theorem Memory.half_setHalf_same {m : Memory} (h : m.wf = true) (a : Nat) (v : Half) :
    (m.setHalf a v).half a = v := by
  unfold Memory.half
  rw [Memory.get_setHalf h, Memory.get_setHalf h]
  simp [half_join]

/-- Another granule reads as before. -/
theorem Memory.half_setHalf_ne {m : Memory} (h : m.wf = true) {a b : Nat} (v : Half)
    (ha : a % 2 = 0) (hb : b % 2 = 0) (ne : b ≠ a) : (m.setHalf a v).half b = m.half b := by
  unfold Memory.half
  rw [Memory.get_setHalf h, Memory.get_setHalf h]
  rw [if_neg (by omega), if_neg (by omega), if_neg (by omega), if_neg (by omega)]

/-- Every listed address of a memory after a write is one it listed, or the one written. -/
theorem Memory.mem_set {m : Memory} {a : Nat} {v : Byte} {p : Host.Cell} (h : p ∈ m.set a v) :
    p ∈ m ∨ p.1 = a := by
  have cell : ∀ {rest : Memory}, p ∈ Memory.cell a v rest → p ∈ rest ∨ p.1 = a := by
    intro rest hp
    unfold Memory.cell at hp
    split at hp
    · exact .inl hp
    · rcases List.mem_cons.mp hp with rfl | hp
      · exact .inr rfl
      · exact .inl hp
  induction m with
  | nil => exact cell h
  | cons q rest ih =>
    obtain ⟨k, u⟩ := q
    unfold Memory.set at h
    split at h
    · exact cell h
    · split at h
      · rcases cell h with h | h
        · exact .inl (List.mem_cons_of_mem _ h)
        · exact .inr h
      · rcases List.mem_cons.mp h with rfl | h
        · exact .inl (List.mem_cons_self ..)
        · rcases ih h with h | h
          · exact .inl (List.mem_cons_of_mem _ h)
          · exact .inr h

/-- A granule write inside a bound keeps every listed address inside it. -/
theorem Memory.bound_setHalf {m : Memory} {n a : Nat} (v : Half) (h : ∀ p ∈ m, p.1 < n) (le : a + 2 ≤ n) :
    ∀ p ∈ m.setHalf a v, p.1 < n := by
  intro p hp
  unfold Memory.setHalf at hp
  rcases Memory.mem_set hp with hp | hp
  · rcases Memory.mem_set hp with hp | hp
    · exact h p hp
    · omega
  · omega

/-- What RefBackend decides of an access: it faults past `MEM_SIZE`, and keeps its page marks (R63). -/
theorem Backend.reference_access {cfg : Config} (hb : cfg.backend = .reference) (m : Memory) (pages : List Nat)
    (a n : Nat) (v : Word) :
    cfg.backendOf.read m pages a n = decide (cfg.memSize < a + n)
      ∧ cfg.backendOf.write m pages a n v = (decide (cfg.memSize < a + n), pages) := by
  unfold Config.backendOf
  rw [hb]
  exact ⟨rfl, rfl⟩

/-- What a granule write of any backend leaves, if it is served (R62). -/
theorem Memory.bwrite16_some {cfg : Config} {pages : List Nat} {m m' : Memory} {a : Nat} {v : Half}
    (h : (m.bwrite16 cfg pages a v).1 = some m') : m' = m.setHalf a v := by
  unfold Memory.bwrite16 at h
  dsimp only at h
  split at h
  · simp at h
  · exact (Option.some.inj h).symm

/-- Every write of a backend keeps the canonical form (R62). -/
theorem Memory.wf_bwrite8 {cfg : Config} {pages : List Nat} {m m' : Memory} {a : Nat} {v : Byte} (h : m.wf = true)
    (w : (m.bwrite8 cfg pages a v).1 = some m') : m'.wf = true := by
  unfold Memory.bwrite8 at w
  dsimp only at w
  split at w
  · cases w
  · cases w; exact Memory.wf_set h _ _

theorem Memory.wf_bwrite16 {cfg : Config} {pages : List Nat} {m m' : Memory} {a : Nat} {v : Half} (h : m.wf = true)
    (w : (m.bwrite16 cfg pages a v).1 = some m') : m'.wf = true := by
  rw [Memory.bwrite16_some w]
  exact Memory.wf_setHalf h _ _

theorem Memory.wf_bwrite32 {cfg : Config} {pages : List Nat} {m m' : Memory} {a : Nat} {v : Word} (h : m.wf = true)
    (w : (m.bwrite32 cfg pages a v).1 = some m') : m'.wf = true := by
  unfold Memory.bwrite32 at w
  dsimp only at w
  split at w
  · cases w
  · cases w; exact Memory.wf_setDword h _ _

section
variable {cfg : Config} (hb : cfg.backend = .reference) (pages : List Nat) (m : Memory) {a : Nat}
include hb

/-- A granule write of RefBackend inside `MEM_SIZE` (R63). -/
theorem Memory.bwrite16_served (le : a + 2 ≤ cfg.memSize) (v : Half) :
    m.bwrite16 cfg pages a v = (some (m.setHalf a v), pages) := by
  unfold Memory.bwrite16
  rw [(Backend.reference_access hb m pages a 2 _).2, decide_eq_false (by omega)]
  rfl

/-- A granule read of RefBackend inside `MEM_SIZE` (R63). -/
theorem Memory.bread16_served (le : a + 2 ≤ cfg.memSize) : m.bread16 cfg pages a = some (m.half a) := by
  unfold Memory.bread16
  rw [(Backend.reference_access hb m pages a 2 0).1, decide_eq_false (by omega)]
  rfl

/-- A granule read of RefBackend past `MEM_SIZE` (R63). -/
theorem Memory.bread16_past (lt : cfg.memSize < a + 2) : m.bread16 cfg pages a = none := by
  unfold Memory.bread16
  rw [(Backend.reference_access hb m pages a 2 0).1, decide_eq_true lt]
  rfl

/-- A granule write of RefBackend past `MEM_SIZE` (R63). -/
theorem Memory.bwrite16_past (lt : cfg.memSize < a + 2) (v : Half) :
    m.bwrite16 cfg pages a v = (none, pages) := by
  unfold Memory.bwrite16
  rw [(Backend.reference_access hb m pages a 2 _).2, decide_eq_true lt]
  rfl

/-- A dword read of RefBackend inside `MEM_SIZE` (R63). -/
theorem Memory.bread32_served (le : a + 4 ≤ cfg.memSize) : m.bread32 cfg pages a = some (m.dword a) := by
  unfold Memory.bread32
  rw [(Backend.reference_access hb m pages a 4 0).1, decide_eq_false (by omega)]
  rfl

/-- A dword read of RefBackend past `MEM_SIZE` (R63). -/
theorem Memory.bread32_past (lt : cfg.memSize < a + 4) : m.bread32 cfg pages a = none := by
  unfold Memory.bread32
  rw [(Backend.reference_access hb m pages a 4 0).1, decide_eq_true lt]
  rfl

end

/-- Marking a page keeps the page marks in order. -/
theorem pagesWfAbove_mark {lo : Nat} {pages : List Nat} {pg : Nat} (h : pagesWfAbove lo pages = true) (le : lo ≤ pg) :
    pagesWfAbove lo (markPage pages pg) = true := by
  induction pages generalizing lo with
  | nil => simpa [markPage, pagesWfAbove] using le
  | cons p rest ih =>
    simp only [pagesWfAbove, Bool.and_eq_true, decide_eq_true_eq] at h
    unfold markPage
    split
    · simp only [pagesWfAbove, Bool.and_eq_true, decide_eq_true_eq]
      exact ⟨le, by omega, h.2⟩
    · split
      · simpa only [pagesWfAbove, Bool.and_eq_true, decide_eq_true_eq] using h
      · simp only [pagesWfAbove, Bool.and_eq_true, decide_eq_true_eq]
        exact ⟨h.1, ih h.2 (by omega)⟩

theorem mem_markPage {l : List Nat} {a b : Nat} : b ∈ markPage l a ↔ b = a ∨ b ∈ l := by
  induction l with
  | nil => simp [markPage]
  | cons p rest ih =>
    unfold markPage
    split
    · exact List.mem_cons
    · split
      · next e => simp [e]
      · simp only [List.mem_cons, ih]
        exact or_left_comm

/-- The marked pages are those of the list (R63). -/
theorem mem_markPages {pages : List Nat} {b : Nat} : b ∈ markPages pages ↔ b ∈ pages := by
  have key : ∀ l m : List Nat, b ∈ l.foldl markPage m ↔ b ∈ l ∨ b ∈ m := by
    intro l
    induction l with
    | nil => simp
    | cons p rest ih =>
      intro m
      rw [List.foldl_cons, ih, mem_markPage, List.mem_cons, or_assoc, or_left_comm]
  simpa [markPages] using key pages []

theorem pagesWfAbove_markPages (pages : List Nat) : pagesWfAbove 0 (markPages pages) = true := by
  have key : ∀ (l m : List Nat), pagesWfAbove 0 m = true → pagesWfAbove 0 (l.foldl markPage m) = true := by
    intro l
    induction l with
    | nil => exact fun _ h => h
    | cons p rest ih => exact fun m h => ih _ (pagesWfAbove_mark h (Nat.zero_le _))
  exact key pages [] rfl

/-- Freeing a page keeps the page marks in order. -/
theorem pagesWfAbove_unmark {lo : Nat} {pages : List Nat} (pg : Nat) (h : pagesWfAbove lo pages = true) :
    pagesWfAbove lo (unmarkPage pages pg) = true := by
  have mono : ∀ {lo hi : Nat} {l : List Nat}, pagesWfAbove hi l = true → lo ≤ hi → pagesWfAbove lo l = true := by
    intro lo hi l h le
    cases l with
    | nil => rfl
    | cons p rest =>
      simp only [pagesWfAbove, Bool.and_eq_true, decide_eq_true_eq] at h ⊢
      exact ⟨le_trans le h.1, h.2⟩
  induction pages generalizing lo with
  | nil => rfl
  | cons p rest ih =>
    simp only [pagesWfAbove, Bool.and_eq_true, decide_eq_true_eq] at h
    unfold unmarkPage
    rw [List.filter_cons]
    split
    · simp only [pagesWfAbove, Bool.and_eq_true, decide_eq_true_eq]
      exact ⟨h.1, ih h.2⟩
    · exact mono (ih h.2) (by omega)

end Sys2Proof.Machine
end

