-- ==== Sys2Proof/Laws/State.lean ====
section
/-! SUPPORT. The small lemmas of the state: one lemma per field per update, true by `rfl`, and the laws of reading a
register after writing one (R22, R26, R30). -/

namespace Sys2Proof.Machine

variable (s : State)

/-! ## One lemma per field per update -/

@[simp] theorem State.setRegs_cfg (g : Regs) : (s.setRegs g).cfg = s.cfg := rfl
@[simp] theorem State.setRegs_before (g : Regs) : (s.setRegs g).before = s.before := rfl
@[simp] theorem State.setRegs_after (g : Regs) : (s.setRegs g).after = s.after := rfl
@[simp] theorem State.setRegs_mem (g : Regs) : (s.setRegs g).mem = s.mem := rfl
@[simp] theorem State.setRegs_allocated (g : Regs) : (s.setRegs g).allocated = s.allocated := rfl
@[simp] theorem State.setRegs_inputs (g : Regs) : (s.setRegs g).inputs = s.inputs := rfl
@[simp] theorem State.setRegs_tick (g : Regs) : (s.setRegs g).tick = s.tick := rfl
@[simp] theorem State.setRegs_self_regs (g : Regs) : (s.setRegs g).self.regs = g := rfl
@[simp] theorem State.setRegs_self_life (g : Regs) : (s.setRegs g).self.life = s.self.life := rfl
@[simp] theorem State.setRegs_self_lastException (g : Regs) : (s.setRegs g).self.lastException = s.self.lastException := rfl
@[simp] theorem State.setRegs_self_iset (g : Regs) : (s.setRegs g).self.iset = s.self.iset := rfl
@[simp] theorem State.setRegs_self_frames (g : Regs) : (s.setRegs g).self.frames = s.self.frames := rfl
@[simp] theorem State.setRegs_self_icache (g : Regs) : (s.setRegs g).self.icache = s.self.icache := rfl
@[simp] theorem State.setRegs_self_dcache (g : Regs) : (s.setRegs g).self.dcache = s.self.dcache := rfl
@[simp] theorem State.setRegs_self_registered (g : Regs) : (s.setRegs g).self.registered = s.self.registered := rfl

@[simp] theorem State.setReg_cfg (r : Reg) (v : Word) : (s.setReg r v).cfg = s.cfg := rfl
@[simp] theorem State.setReg_before (r : Reg) (v : Word) : (s.setReg r v).before = s.before := rfl
@[simp] theorem State.setReg_after (r : Reg) (v : Word) : (s.setReg r v).after = s.after := rfl
@[simp] theorem State.setReg_mem (r : Reg) (v : Word) : (s.setReg r v).mem = s.mem := rfl
@[simp] theorem State.setReg_allocated (r : Reg) (v : Word) : (s.setReg r v).allocated = s.allocated := rfl
@[simp] theorem State.setReg_inputs (r : Reg) (v : Word) : (s.setReg r v).inputs = s.inputs := rfl
@[simp] theorem State.setReg_tick (r : Reg) (v : Word) : (s.setReg r v).tick = s.tick := rfl
@[simp] theorem State.setReg_self_regs (r : Reg) (v : Word) : (s.setReg r v).self.regs = s.self.regs.write r v := rfl
@[simp] theorem State.setReg_self_life (r : Reg) (v : Word) : (s.setReg r v).self.life = s.self.life := rfl
@[simp] theorem State.setReg_self_lastException (r : Reg) (v : Word) : (s.setReg r v).self.lastException = s.self.lastException := rfl
@[simp] theorem State.setReg_self_iset (r : Reg) (v : Word) : (s.setReg r v).self.iset = s.self.iset := rfl
@[simp] theorem State.setReg_self_frames (r : Reg) (v : Word) : (s.setReg r v).self.frames = s.self.frames := rfl
@[simp] theorem State.setReg_self_icache (r : Reg) (v : Word) : (s.setReg r v).self.icache = s.self.icache := rfl
@[simp] theorem State.setReg_self_dcache (r : Reg) (v : Word) : (s.setReg r v).self.dcache = s.self.dcache := rfl
@[simp] theorem State.setReg_self_registered (r : Reg) (v : Word) : (s.setReg r v).self.registered = s.self.registered := rfl

@[simp] theorem State.setFlags_cfg (f : Flags) : (s.setFlags f).cfg = s.cfg := rfl
@[simp] theorem State.setFlags_before (f : Flags) : (s.setFlags f).before = s.before := rfl
@[simp] theorem State.setFlags_after (f : Flags) : (s.setFlags f).after = s.after := rfl
@[simp] theorem State.setFlags_mem (f : Flags) : (s.setFlags f).mem = s.mem := rfl
@[simp] theorem State.setFlags_allocated (f : Flags) : (s.setFlags f).allocated = s.allocated := rfl
@[simp] theorem State.setFlags_inputs (f : Flags) : (s.setFlags f).inputs = s.inputs := rfl
@[simp] theorem State.setFlags_tick (f : Flags) : (s.setFlags f).tick = s.tick := rfl
@[simp] theorem State.setFlags_self_regs (f : Flags) : (s.setFlags f).self.regs = { s.self.regs with flags := f } := rfl
@[simp] theorem State.setFlags_self_life (f : Flags) : (s.setFlags f).self.life = s.self.life := rfl
@[simp] theorem State.setFlags_self_lastException (f : Flags) : (s.setFlags f).self.lastException = s.self.lastException := rfl
@[simp] theorem State.setFlags_self_iset (f : Flags) : (s.setFlags f).self.iset = s.self.iset := rfl
@[simp] theorem State.setFlags_self_frames (f : Flags) : (s.setFlags f).self.frames = s.self.frames := rfl
@[simp] theorem State.setFlags_self_icache (f : Flags) : (s.setFlags f).self.icache = s.self.icache := rfl
@[simp] theorem State.setFlags_self_dcache (f : Flags) : (s.setFlags f).self.dcache = s.self.dcache := rfl
@[simp] theorem State.setFlags_self_registered (f : Flags) : (s.setFlags f).self.registered = s.self.registered := rfl

@[simp] theorem State.setDcache_cfg (d : List DEntry) : (s.setDcache d).cfg = s.cfg := rfl
@[simp] theorem State.setDcache_before (d : List DEntry) : (s.setDcache d).before = s.before := rfl
@[simp] theorem State.setDcache_after (d : List DEntry) : (s.setDcache d).after = s.after := rfl
@[simp] theorem State.setDcache_mem (d : List DEntry) : (s.setDcache d).mem = s.mem := rfl
@[simp] theorem State.setDcache_allocated (d : List DEntry) : (s.setDcache d).allocated = s.allocated := rfl
@[simp] theorem State.setDcache_inputs (d : List DEntry) : (s.setDcache d).inputs = s.inputs := rfl
@[simp] theorem State.setDcache_tick (d : List DEntry) : (s.setDcache d).tick = s.tick := rfl
@[simp] theorem State.setDcache_self_regs (d : List DEntry) : (s.setDcache d).self.regs = s.self.regs := rfl
@[simp] theorem State.setDcache_self_life (d : List DEntry) : (s.setDcache d).self.life = s.self.life := rfl
@[simp] theorem State.setDcache_self_lastException (d : List DEntry) : (s.setDcache d).self.lastException = s.self.lastException := rfl
@[simp] theorem State.setDcache_self_iset (d : List DEntry) : (s.setDcache d).self.iset = s.self.iset := rfl
@[simp] theorem State.setDcache_self_frames (d : List DEntry) : (s.setDcache d).self.frames = s.self.frames := rfl
@[simp] theorem State.setDcache_self_icache (d : List DEntry) : (s.setDcache d).self.icache = s.self.icache := rfl
@[simp] theorem State.setDcache_self_dcache (d : List DEntry) : (s.setDcache d).self.dcache = d := rfl
@[simp] theorem State.setDcache_self_registered (d : List DEntry) : (s.setDcache d).self.registered = s.self.registered := rfl

@[simp] theorem State.setIcache_cfg (c : List IEntry) : (s.setIcache c).cfg = s.cfg := rfl
@[simp] theorem State.setIcache_before (c : List IEntry) : (s.setIcache c).before = s.before := rfl
@[simp] theorem State.setIcache_after (c : List IEntry) : (s.setIcache c).after = s.after := rfl
@[simp] theorem State.setIcache_mem (c : List IEntry) : (s.setIcache c).mem = s.mem := rfl
@[simp] theorem State.setIcache_allocated (c : List IEntry) : (s.setIcache c).allocated = s.allocated := rfl
@[simp] theorem State.setIcache_inputs (c : List IEntry) : (s.setIcache c).inputs = s.inputs := rfl
@[simp] theorem State.setIcache_tick (c : List IEntry) : (s.setIcache c).tick = s.tick := rfl
@[simp] theorem State.setIcache_self_regs (c : List IEntry) : (s.setIcache c).self.regs = s.self.regs := rfl
@[simp] theorem State.setIcache_self_life (c : List IEntry) : (s.setIcache c).self.life = s.self.life := rfl
@[simp] theorem State.setIcache_self_lastException (c : List IEntry) : (s.setIcache c).self.lastException = s.self.lastException := rfl
@[simp] theorem State.setIcache_self_iset (c : List IEntry) : (s.setIcache c).self.iset = s.self.iset := rfl
@[simp] theorem State.setIcache_self_frames (c : List IEntry) : (s.setIcache c).self.frames = s.self.frames := rfl
@[simp] theorem State.setIcache_self_icache (c : List IEntry) : (s.setIcache c).self.icache = c := rfl
@[simp] theorem State.setIcache_self_dcache (c : List IEntry) : (s.setIcache c).self.dcache = s.self.dcache := rfl
@[simp] theorem State.setIcache_self_registered (c : List IEntry) : (s.setIcache c).self.registered = s.self.registered := rfl

@[simp] theorem State.setFrames_cfg (fs : List StackFrame) : (s.setFrames fs).cfg = s.cfg := rfl
@[simp] theorem State.setFrames_before (fs : List StackFrame) : (s.setFrames fs).before = s.before := rfl
@[simp] theorem State.setFrames_after (fs : List StackFrame) : (s.setFrames fs).after = s.after := rfl
@[simp] theorem State.setFrames_mem (fs : List StackFrame) : (s.setFrames fs).mem = s.mem := rfl
@[simp] theorem State.setFrames_allocated (fs : List StackFrame) : (s.setFrames fs).allocated = s.allocated := rfl
@[simp] theorem State.setFrames_inputs (fs : List StackFrame) : (s.setFrames fs).inputs = s.inputs := rfl
@[simp] theorem State.setFrames_tick (fs : List StackFrame) : (s.setFrames fs).tick = s.tick := rfl
@[simp] theorem State.setFrames_self_regs (fs : List StackFrame) : (s.setFrames fs).self.regs = s.self.regs := rfl
@[simp] theorem State.setFrames_self_life (fs : List StackFrame) : (s.setFrames fs).self.life = s.self.life := rfl
@[simp] theorem State.setFrames_self_lastException (fs : List StackFrame) : (s.setFrames fs).self.lastException = s.self.lastException := rfl
@[simp] theorem State.setFrames_self_iset (fs : List StackFrame) : (s.setFrames fs).self.iset = s.self.iset := rfl
@[simp] theorem State.setFrames_self_frames (fs : List StackFrame) : (s.setFrames fs).self.frames = fs := rfl
@[simp] theorem State.setFrames_self_icache (fs : List StackFrame) : (s.setFrames fs).self.icache = s.self.icache := rfl
@[simp] theorem State.setFrames_self_dcache (fs : List StackFrame) : (s.setFrames fs).self.dcache = s.self.dcache := rfl
@[simp] theorem State.setFrames_self_registered (fs : List StackFrame) : (s.setFrames fs).self.registered = s.self.registered := rfl

@[simp] theorem State.setMem_cfg (m : Memory) : (s.setMem m).cfg = s.cfg := rfl
@[simp] theorem State.setMem_before (m : Memory) : (s.setMem m).before = s.before := rfl
@[simp] theorem State.setMem_after (m : Memory) : (s.setMem m).after = s.after := rfl
@[simp] theorem State.setMem_mem (m : Memory) : (s.setMem m).mem = m := rfl
@[simp] theorem State.setMem_allocated (m : Memory) : (s.setMem m).allocated = s.allocated := rfl
@[simp] theorem State.setMem_inputs (m : Memory) : (s.setMem m).inputs = s.inputs := rfl
@[simp] theorem State.setMem_tick (m : Memory) : (s.setMem m).tick = s.tick := rfl
@[simp] theorem State.setMem_self_regs (m : Memory) : (s.setMem m).self.regs = s.self.regs := rfl
@[simp] theorem State.setMem_self_life (m : Memory) : (s.setMem m).self.life = s.self.life := rfl
@[simp] theorem State.setMem_self_lastException (m : Memory) : (s.setMem m).self.lastException = s.self.lastException := rfl
@[simp] theorem State.setMem_self_iset (m : Memory) : (s.setMem m).self.iset = s.self.iset := rfl
@[simp] theorem State.setMem_self_frames (m : Memory) : (s.setMem m).self.frames = s.self.frames := rfl
@[simp] theorem State.setMem_self_icache (m : Memory) : (s.setMem m).self.icache = s.self.icache := rfl
@[simp] theorem State.setMem_self_dcache (m : Memory) : (s.setMem m).self.dcache = s.self.dcache := rfl
@[simp] theorem State.setMem_self_registered (m : Memory) : (s.setMem m).self.registered = s.self.registered := rfl
@[simp] theorem State.setMem_self (m : Memory) : (s.setMem m).self = s.self := rfl

@[simp] theorem State.setPages_cfg (pages : List Nat) : (s.setPages pages).cfg = s.cfg := rfl
@[simp] theorem State.setPages_before (pages : List Nat) : (s.setPages pages).before = s.before := rfl
@[simp] theorem State.setPages_after (pages : List Nat) : (s.setPages pages).after = s.after := rfl
@[simp] theorem State.setPages_mem (pages : List Nat) : (s.setPages pages).mem = s.mem := rfl
@[simp] theorem State.setPages_allocated (pages : List Nat) : (s.setPages pages).allocated = pages := rfl
@[simp] theorem State.setPages_inputs (pages : List Nat) : (s.setPages pages).inputs = s.inputs := rfl
@[simp] theorem State.setPages_tick (pages : List Nat) : (s.setPages pages).tick = s.tick := rfl
@[simp] theorem State.setPages_self_regs (pages : List Nat) : (s.setPages pages).self.regs = s.self.regs := rfl
@[simp] theorem State.setPages_self_life (pages : List Nat) : (s.setPages pages).self.life = s.self.life := rfl
@[simp] theorem State.setPages_self_lastException (pages : List Nat) : (s.setPages pages).self.lastException = s.self.lastException := rfl
@[simp] theorem State.setPages_self_iset (pages : List Nat) : (s.setPages pages).self.iset = s.self.iset := rfl
@[simp] theorem State.setPages_self_frames (pages : List Nat) : (s.setPages pages).self.frames = s.self.frames := rfl
@[simp] theorem State.setPages_self_icache (pages : List Nat) : (s.setPages pages).self.icache = s.self.icache := rfl
@[simp] theorem State.setPages_self_dcache (pages : List Nat) : (s.setPages pages).self.dcache = s.self.dcache := rfl
@[simp] theorem State.setPages_self_registered (pages : List Nat) : (s.setPages pages).self.registered = s.self.registered := rfl
@[simp] theorem State.setPages_self (pages : List Nat) : (s.setPages pages).self = s.self := rfl

@[simp] theorem State.setLife_cfg (l : Lifecycle) : (s.setLife l).cfg = s.cfg := rfl
@[simp] theorem State.setLife_before (l : Lifecycle) : (s.setLife l).before = s.before := rfl
@[simp] theorem State.setLife_after (l : Lifecycle) : (s.setLife l).after = s.after := rfl
@[simp] theorem State.setLife_mem (l : Lifecycle) : (s.setLife l).mem = s.mem := rfl
@[simp] theorem State.setLife_allocated (l : Lifecycle) : (s.setLife l).allocated = s.allocated := rfl
@[simp] theorem State.setLife_inputs (l : Lifecycle) : (s.setLife l).inputs = s.inputs := rfl
@[simp] theorem State.setLife_tick (l : Lifecycle) : (s.setLife l).tick = s.tick := rfl
@[simp] theorem State.setLife_self_regs (l : Lifecycle) : (s.setLife l).self.regs = s.self.regs := rfl
@[simp] theorem State.setLife_self_life (l : Lifecycle) : (s.setLife l).self.life = l := rfl
@[simp] theorem State.setLife_self_lastException (l : Lifecycle) : (s.setLife l).self.lastException = s.self.lastException := rfl
@[simp] theorem State.setLife_self_iset (l : Lifecycle) : (s.setLife l).self.iset = s.self.iset := rfl
@[simp] theorem State.setLife_self_frames (l : Lifecycle) : (s.setLife l).self.frames = s.self.frames := rfl
@[simp] theorem State.setLife_self_icache (l : Lifecycle) : (s.setLife l).self.icache = s.self.icache := rfl
@[simp] theorem State.setLife_self_dcache (l : Lifecycle) : (s.setLife l).self.dcache = s.self.dcache := rfl
@[simp] theorem State.setLife_self_registered (l : Lifecycle) : (s.setLife l).self.registered = s.self.registered := rfl

@[simp] theorem State.setRegistered_cfg (b : Bool) : (s.setRegistered b).cfg = s.cfg := rfl
@[simp] theorem State.setRegistered_before (b : Bool) : (s.setRegistered b).before = s.before := rfl
@[simp] theorem State.setRegistered_after (b : Bool) : (s.setRegistered b).after = s.after := rfl
@[simp] theorem State.setRegistered_mem (b : Bool) : (s.setRegistered b).mem = s.mem := rfl
@[simp] theorem State.setRegistered_allocated (b : Bool) : (s.setRegistered b).allocated = s.allocated := rfl
@[simp] theorem State.setRegistered_inputs (b : Bool) : (s.setRegistered b).inputs = s.inputs := rfl
@[simp] theorem State.setRegistered_tick (b : Bool) : (s.setRegistered b).tick = s.tick := rfl
@[simp] theorem State.setRegistered_self_regs (b : Bool) : (s.setRegistered b).self.regs = s.self.regs := rfl
@[simp] theorem State.setRegistered_self_life (b : Bool) : (s.setRegistered b).self.life = s.self.life := rfl
@[simp] theorem State.setRegistered_self_lastException (b : Bool) : (s.setRegistered b).self.lastException = s.self.lastException := rfl
@[simp] theorem State.setRegistered_self_iset (b : Bool) : (s.setRegistered b).self.iset = s.self.iset := rfl
@[simp] theorem State.setRegistered_self_frames (b : Bool) : (s.setRegistered b).self.frames = s.self.frames := rfl
@[simp] theorem State.setRegistered_self_icache (b : Bool) : (s.setRegistered b).self.icache = s.self.icache := rfl
@[simp] theorem State.setRegistered_self_dcache (b : Bool) : (s.setRegistered b).self.dcache = s.self.dcache := rfl
@[simp] theorem State.setRegistered_self_registered (b : Bool) : (s.setRegistered b).self.registered = b := rfl

@[simp] theorem State.setIset_cfg (n : Nat) : (s.setIset n).cfg = s.cfg := rfl
@[simp] theorem State.setIset_before (n : Nat) : (s.setIset n).before = s.before := rfl
@[simp] theorem State.setIset_after (n : Nat) : (s.setIset n).after = s.after := rfl
@[simp] theorem State.setIset_mem (n : Nat) : (s.setIset n).mem = s.mem := rfl
@[simp] theorem State.setIset_allocated (n : Nat) : (s.setIset n).allocated = s.allocated := rfl
@[simp] theorem State.setIset_inputs (n : Nat) : (s.setIset n).inputs = s.inputs := rfl
@[simp] theorem State.setIset_tick (n : Nat) : (s.setIset n).tick = s.tick := rfl
@[simp] theorem State.setIset_self_regs (n : Nat) : (s.setIset n).self.regs = s.self.regs := rfl
@[simp] theorem State.setIset_self_life (n : Nat) : (s.setIset n).self.life = s.self.life := rfl
@[simp] theorem State.setIset_self_lastException (n : Nat) : (s.setIset n).self.lastException = s.self.lastException := rfl
@[simp] theorem State.setIset_self_iset (n : Nat) : (s.setIset n).self.iset = n := rfl
@[simp] theorem State.setIset_self_frames (n : Nat) : (s.setIset n).self.frames = s.self.frames := rfl
@[simp] theorem State.setIset_self_icache (n : Nat) : (s.setIset n).self.icache = s.self.icache := rfl
@[simp] theorem State.setIset_self_dcache (n : Nat) : (s.setIset n).self.dcache = s.self.dcache := rfl
@[simp] theorem State.setIset_self_registered (n : Nat) : (s.setIset n).self.registered = s.self.registered := rfl

/-! ## The updates that are register writes -/

@[simp] theorem State.jump_eq (v : Word) : s.jump v = s.setReg .ip v := rfl
@[simp] theorem State.advance_eq : s.advance = s.setReg .ip (s.reg .ip + 4) := rfl
@[simp] theorem State.retire_eq : s.retire = s.setReg .cnt (s.reg .cnt + 1) := rfl
@[simp] theorem State.setPrivileged_eq (b : Bool) :
    s.setPrivileged b = s.setFlags { s.flags with privileged := b } := rfl
@[simp] theorem State.setHwint_eq (b : Bool) :
    s.setHwint b = s.setFlags { s.flags with hwintEnabled := b } := rfl

/-! ## Reading registers and flags after an update that is none of theirs -/

@[simp] theorem State.setDcache_reg (d : List DEntry) (q : Reg) : (s.setDcache d).reg q = s.reg q := rfl
@[simp] theorem State.setDcache_flags (d : List DEntry) : (s.setDcache d).flags = s.flags := rfl
@[simp] theorem State.setIcache_reg (c : List IEntry) (q : Reg) : (s.setIcache c).reg q = s.reg q := rfl
@[simp] theorem State.setIcache_flags (c : List IEntry) : (s.setIcache c).flags = s.flags := rfl
@[simp] theorem State.setFrames_reg (fs : List StackFrame) (q : Reg) : (s.setFrames fs).reg q = s.reg q := rfl
@[simp] theorem State.setFrames_flags (fs : List StackFrame) : (s.setFrames fs).flags = s.flags := rfl
@[simp] theorem State.setMem_reg (m : Memory) (q : Reg) : (s.setMem m).reg q = s.reg q := rfl
@[simp] theorem State.setMem_flags (m : Memory) : (s.setMem m).flags = s.flags := rfl
@[simp] theorem State.setLife_reg (l : Lifecycle) (q : Reg) : (s.setLife l).reg q = s.reg q := rfl
@[simp] theorem State.setLife_flags (l : Lifecycle) : (s.setLife l).flags = s.flags := rfl
@[simp] theorem State.setRegistered_reg (b : Bool) (q : Reg) : (s.setRegistered b).reg q = s.reg q := rfl
@[simp] theorem State.setRegistered_flags (b : Bool) : (s.setRegistered b).flags = s.flags := rfl
@[simp] theorem State.setIset_reg (n : Nat) (q : Reg) : (s.setIset n).reg q = s.reg q := rfl
@[simp] theorem State.setIset_flags (n : Nat) : (s.setIset n).flags = s.flags := rfl

/-! ## The flags as a register -/

/-- What is read from `FLAGS` after a write is the low six bits (R26, R30). -/
theorem Flags.toWord_ofWord (v : Word) : (Flags.ofWord v).toWord = v &&& 0x3F := by
  apply BitVec.eq_of_getLsbD_eq
  intro i hi
  simp only [Flags.toWord, Flags.bits, Flags.ofWord, BitVec.getLsbD_setWidth, BitVec.getLsbD_append,
    BitVec.getLsbD_and, BitVec.getLsbD_ofBool]
  interval_cases i <;> simp

/-- Writing back what was read from `FLAGS` changes nothing. -/
@[simp] theorem Flags.ofWord_toWord (f : Flags) : Flags.ofWord f.toWord = f := by
  rcases f with ⟨a, b, c, d, e, g⟩
  cases a <;> cases b <;> cases c <;> cases d <;> cases e <;> cases g <;> decide

/-! ## The register file -/

/-- A register other than `FLAGS` reads as what was written. -/
theorem Regs.read_write_same (g : Regs) (r : Reg) (v : Word) (h : r ≠ .flags) : (g.write r v).read r = v := by
  cases r <;> first | rfl | exact absurd rfl h

/-- `FLAGS` reads as the six bits of what was written (R30). -/
theorem Regs.read_write_flags (g : Regs) (v : Word) :
    (g.write .flags v).read .flags = (Flags.ofWord v).toWord := rfl

/-- A write changes no other register. -/
theorem Regs.read_write_ne (g : Regs) (r q : Reg) (v : Word) (h : q ≠ r) : (g.write r v).read q = g.read q := by
  cases r <;> cases q <;> first | rfl | exact absurd rfl h

/-- Two register files with the same fifteen readings are the same. -/
theorem Regs.ext_read {g h : Regs} (e : ∀ r, g.read r = h.read r) : g = h := by
  have hf : g.flags = h.flags := by
    have := congrArg Flags.ofWord (e .flags)
    simpa [Regs.read] using this
  rcases g with ⟨a0, a1, a2, a3, a4, a5, a6, a7, a8, a9, a10, a11, a12, a13, a14⟩
  rcases h with ⟨b0, b1, b2, b3, b4, b5, b6, b7, b8, b9, b10, b11, b12, b13, b14⟩
  have e0 : a0 = b0 := e .r0
  have e1 : a1 = b1 := e .r1
  have e2 : a2 = b2 := e .r2
  have e3 : a3 = b3 := e .r3
  have e4 : a4 = b4 := e .r4
  have e5 : a5 = b5 := e .r5
  have e6 : a6 = b6 := e .r6
  have e7 : a7 = b7 := e .r7
  have e8 : a8 = b8 := e .fp
  have e9 : a9 = b9 := e .sp
  have e10 : a10 = b10 := e .ds
  have e11 : a11 = b11 := e .cs
  have e12 : a12 = b12 := e .ip
  have e13 : a13 = b13 := hf
  have e14 : a14 = b14 := e .cnt
  subst e0 e1 e2 e3 e4 e5 e6 e7 e8 e9 e10 e11 e12 e13 e14
  rfl

theorem State.reg_setReg_same (r : Reg) (v : Word) (h : r ≠ .flags) : (s.setReg r v).reg r = v :=
  Regs.read_write_same _ r v h

theorem State.reg_setReg_ne (r q : Reg) (v : Word) (h : q ≠ r) : (s.setReg r v).reg q = s.reg q :=
  Regs.read_write_ne _ r q v h

@[simp] theorem State.reg_setReg_flags (v : Word) :
    (s.setReg .flags v).reg .flags = (Flags.ofWord v).toWord := rfl

/-- The flags after a register write: only a write of `FLAGS` touches them. -/
theorem State.flags_setReg (r : Reg) (v : Word) :
    (s.setReg r v).flags = if r = .flags then Flags.ofWord v else s.flags := by
  cases r <;> rfl

@[simp] theorem State.flags_setReg_ne {r : Reg} (v : Word) (h : r ≠ .flags) : (s.setReg r v).flags = s.flags := by
  rw [State.flags_setReg, if_neg h]

@[simp] theorem State.flags_setFlags (f : Flags) : (s.setFlags f).flags = f := rfl

@[simp] theorem State.reg_setFlags_flags (f : Flags) : (s.setFlags f).reg .flags = f.toWord := rfl

theorem State.reg_setFlags_ne (f : Flags) (q : Reg) (h : q ≠ .flags) : (s.setFlags f).reg q = s.reg q := by
  cases q <;> first | rfl | exact absurd rfl h

@[simp] theorem State.flags_setRegs (g : Regs) : (s.setRegs g).flags = g.flags := rfl
@[simp] theorem State.reg_setRegs (g : Regs) (q : Reg) : (s.setRegs g).reg q = g.read q := rfl
@[simp] theorem State.setRegs_setRegs (g h : Regs) : (s.setRegs g).setRegs h = s.setRegs h := rfl

/-! ## Results -/

@[simp] theorem Res.bind_ok {α β : Type} (a : α) (t : State) (k : α → State → Res β) :
    (Res.ok a t).bind k = k a t := rfl

@[simp] theorem Res.bind_raise {α β : Type} (f : CoreFault) (t : State) (k : α → State → Res β) :
    (Res.raise f t : Res α).bind k = .raise f t := rfl

/-- An operation followed by another ends only if both do. -/
theorem Res.bind_eq_ok {α β : Type} {r : Res α} {k : α → State → Res β} {b : β} {t : State} :
    r.bind k = .ok b t ↔ ∃ a u, r = .ok a u ∧ k a u = .ok b t := by
  cases r <;> simp [Res.bind]

/-- An operation followed by another raises a fault if the first does, or the second after it. -/
theorem Res.bind_eq_raise {α β : Type} {r : Res α} {k : α → State → Res β} {f : CoreFault} {t : State} :
    r.bind k = .raise f t ↔ r = .raise f t ∨ ∃ a u, r = .ok a u ∧ k a u = .raise f t := by
  cases r <;> simp [Res.bind]

theorem Res.bind_assoc {α β γ : Type} (r : Res α) (k : α → State → Res β) (l : β → State → Res γ) :
    (r.bind k).bind l = r.bind fun a t => (k a t).bind l := by
  cases r <;> rfl

@[simp] theorem Res.finish_ok (t : State) : (Res.ok () t).finish = .next t.retire := rfl

@[simp] theorem Res.finish_raise (f : CoreFault) (t : State) : (Res.raise f t).finish = .next (t.die f) := rfl

/-- Every instruction answers a next state: a fault of the hardware is taken by `die` (R157). -/
theorem Res.finish_next (r : Res Unit) : ∃ t, r.finish = .next t := by
  cases r <;> exact ⟨_, rfl⟩

end Sys2Proof.Machine
end

