-- ==== Sys2Proof/Laws/Caches.lean ====
section
/-! SUPPORT. What `release` (R88) and the coherency requests (R91 to R93) do, said once: on one cache and on a row
of cores, and that no write-back faults where every entry is inside the backend. -/

namespace Sys2Proof.Machine

/-! ## Accesses of RefBackend in a step (R62, R63) -/

section
variable (s : State) (ref : s.cfg.backend = .reference) {a : Nat}
include ref

theorem State.bread16_ok (le : a + 2 ≤ s.cfg.memSize) : s.bread16 a = .ok (s.mem.half a) s := by
  unfold State.bread16
  rw [Memory.bread16_served ref _ _ le]
  rfl

theorem State.bread16_past (lt : s.cfg.memSize < a + 2) : s.bread16 a = .raise (.backendFault a) s := by
  unfold State.bread16
  rw [Memory.bread16_past ref _ _ lt]
  rfl

theorem State.bread32_ok (le : a + 4 ≤ s.cfg.memSize) : s.bread32 a = .ok (s.mem.dword a) s := by
  unfold State.bread32
  rw [Memory.bread32_served ref _ _ le]
  rfl

theorem State.bread32_past (lt : s.cfg.memSize < a + 4) : s.bread32 a = .raise (.backendFault a) s := by
  unfold State.bread32
  rw [Memory.bread32_past ref _ _ lt]
  rfl

theorem State.bwrite16_ok (le : a + 2 ≤ s.cfg.memSize) (v : Half) :
    s.bwrite16 a v = .ok () (s.setMem (s.mem.setHalf a v)) := by
  unfold State.bwrite16
  rw [Memory.bwrite16_served ref _ _ le]
  rfl

end

/-! ## Release on one cache -/

/-- What `release` leaves of an entry that stays (R88). -/
def DEntry.released (cfg : Config) (sel : Selector) (writeback : Bool) (e : DEntry) : DEntry :=
  if sel.hits cfg e.addr && (writeback && e.dirty) then { e with dirty := false } else e

/-- The entries `release` leaves where no write-back faults (R88). -/
def releasedEntries (cfg : Config) (sel : Selector) (writeback remove : Bool) (d : List DEntry) :
    List DEntry :=
  if remove then d.filter fun e => !sel.hits cfg e.addr else d.map (DEntry.released cfg sel writeback)

@[simp] theorem DEntry.released_addr (cfg : Config) (sel : Selector) (wb : Bool) (e : DEntry) :
    (e.released cfg sel wb).addr = e.addr := by
  unfold DEntry.released; split <;> rfl

@[simp] theorem DEntry.released_value (cfg : Config) (sel : Selector) (wb : Bool) (e : DEntry) :
    (e.released cfg sel wb).value = e.value := by
  unfold DEntry.released; split <;> rfl

/-- An entry that is dirty after `release` was dirty before and was not written back. -/
theorem DEntry.released_dirty {cfg : Config} {sel : Selector} {wb : Bool} {e : DEntry}
    (h : (e.released cfg sel wb).dirty = true) :
    e.dirty = true ∧ ¬ (sel.hits cfg e.addr = true ∧ wb = true) := by
  unfold DEntry.released at h
  split at h
  · simp at h
  · next hc =>
    refine ⟨h, fun hh => hc ?_⟩
    simp [hh.1, hh.2, h]

/-- The granule address and value that a `release` writes back for a granule, if it writes one back. -/
def DEntry.writesBack (cfg : Config) (sel : Selector) (writeback : Bool) (b : Nat) (e : DEntry) : Bool :=
  e.addr == b && (sel.hits cfg e.addr && (writeback && e.dirty))

/-- The backend is RefBackend, and every entry's granule is in it. -/
abbrev entriesServed (cfg : Config) (d : List DEntry) : Prop :=
  cfg.backend = .reference ∧ ∀ e ∈ d, e.addr + 2 ≤ cfg.memSize

theorem releaseEntries_cons_served (cfg : Config) (pages : List Nat) (sel : Selector) (wb rm : Bool) (e : DEntry)
    (rest : List DEntry) (m : Memory) (hb : cfg.backend = .reference) (le : e.addr + 2 ≤ cfg.memSize) :
    releaseEntries cfg sel wb rm pages (e :: rest) m =
      let r := releaseEntries cfg sel wb rm pages rest
        (if sel.hits cfg e.addr && (wb && e.dirty) then m.setHalf e.addr e.value else m)
      ⟨if rm && sel.hits cfg e.addr then r.entries else e.released cfg sel wb :: r.entries, r.mem, r.pages, r.fault⟩ := by
  have hw := Memory.bwrite16_served hb pages m le e.value
  rw [releaseEntries]
  unfold DEntry.released
  by_cases h1 : sel.hits cfg e.addr = true
  · by_cases h2 : (wb && e.dirty) = true
    · simp [h1, h2, hw]
    · simp only [Bool.not_eq_true] at h2
      simp [h1, h2]
  · simp only [Bool.not_eq_true] at h1
    simp [h1]

/-- The entries of a well-formed data cache are served. -/
theorem Core.dcacheWf.served {cfg : Config} {c : Core} (h : c.dcacheWf cfg) (ref : cfg.backend = .reference) :
    entriesServed cfg c.dcache := ⟨ref, fun e he => (h.2.2 e he).2⟩

/-- Where every entry's granule is in the reference backend, `release` ends without a fault, leaves
`releasedEntries` (R88), and no page mark changes (R63). -/
theorem releaseEntries_served (cfg : Config) (pages : List Nat) (sel : Selector) (wb rm : Bool) (d : List DEntry) (m : Memory)
    (h : entriesServed cfg d) :
    (releaseEntries cfg sel wb rm pages d m).fault = none
      ∧ (releaseEntries cfg sel wb rm pages d m).entries = releasedEntries cfg sel wb rm d
      ∧ (releaseEntries cfg sel wb rm pages d m).pages = pages := by
  induction d generalizing m with
  | nil => cases rm <;> exact ⟨rfl, rfl, rfl⟩
  | cons e rest ih =>
    have le := h.2 e (List.mem_cons_self ..)
    have hr : entriesServed cfg rest := ⟨h.1, fun x hx => h.2 x (List.mem_cons_of_mem _ hx)⟩
    rw [releaseEntries_cons_served cfg pages sel wb rm e rest m h.1 le]
    dsimp only
    refine ⟨(ih _ hr).1, ?_, (ih _ hr).2.2⟩
    rw [(ih _ hr).2.1]
    unfold releasedEntries
    cases rm
    · simp
    · by_cases hh : sel.hits cfg e.addr = true
      · simp [hh]
      · simp only [Bool.not_eq_true] at hh
        simp [hh, DEntry.released]

/-- What the backend holds of a granule after a `release`: the value written back, if one was, else what it held
(R88). -/
theorem releaseEntries_half (cfg : Config) (pages : List Nat) (sel : Selector) (wb rm : Bool) (d : List DEntry) (m : Memory)
    (h : entriesServed cfg d) (even : ∀ e ∈ d, e.addr % 2 = 0) (nodup : (d.map (·.addr)).Nodup)
    (hm : m.wf = true) (b : Nat) (hb : b % 2 = 0) :
    (releaseEntries cfg sel wb rm pages d m).mem.half b =
      ((d.find? (DEntry.writesBack cfg sel wb b)).map (·.value)).getD (m.half b) := by
  induction d generalizing m with
  | nil => rfl
  | cons e rest ih =>
    have le := h.2 e (List.mem_cons_self ..)
    have ev := even e (List.mem_cons_self ..)
    have hr : entriesServed cfg rest := ⟨h.1, fun x hx => h.2 x (List.mem_cons_of_mem _ hx)⟩
    have er : ∀ x ∈ rest, x.addr % 2 = 0 := fun x hx => even x (List.mem_cons_of_mem _ hx)
    rw [List.map_cons, List.nodup_cons] at nodup
    rw [releaseEntries_cons_served cfg pages sel wb rm e rest m h.1 le]
    dsimp only
    by_cases hc : (sel.hits cfg e.addr && (wb && e.dirty)) = true
    · rw [if_pos hc, ih _ hr er nodup.2 (Memory.wf_setHalf hm _ _)]
      by_cases hab : e.addr = b
      · subst hab
        have none_ : rest.find? (DEntry.writesBack cfg sel wb e.addr) = none := by
          rw [List.find?_eq_none]
          intro x hx hw
          simp only [DEntry.writesBack, Bool.and_eq_true, beq_iff_eq] at hw
          exact nodup.1 (List.mem_map.mpr ⟨x, hx, hw.1⟩)
        rw [none_, List.find?_cons_of_pos (by simp only [DEntry.writesBack, beq_self_eq_true, hc, Bool.true_and])]
        simp [Memory.half_setHalf_same hm]
      · rw [List.find?_cons_of_neg (by simp [DEntry.writesBack, hab]),
          Memory.half_setHalf_ne hm _ ev hb (Ne.symm hab)]
    · rw [if_neg hc, ih _ hr er nodup.2 hm]
      rw [List.find?_cons_of_neg (by simp only [DEntry.writesBack, Bool.and_eq_true, beq_iff_eq] at hc ⊢; tauto)]

/-- A `release` keeps the backend's canonical form. -/
theorem releaseEntries_wf (cfg : Config) (pages : List Nat) (sel : Selector) (wb rm : Bool) (d : List DEntry) (m : Memory)
    (hm : m.wf = true) : (releaseEntries cfg sel wb rm pages d m).mem.wf = true := by
  induction d generalizing pages m with
  | nil => exact hm
  | cons e rest ih =>
    unfold releaseEntries
    split
    · split
      · split
        · exact hm
        · next m' _ hw => exact ih _ _ (Memory.wf_bwrite16 hm (by rw [hw]))
      · exact ih _ _ hm
    · exact ih _ _ hm

/-- A `release` lists no address past `MEM_SIZE`. -/
theorem releaseEntries_bound (cfg : Config) (pages : List Nat) (sel : Selector) (wb rm : Bool) (d : List DEntry) (m : Memory)
    (ref : cfg.backend = .reference) (hm : ∀ p ∈ m, p.1 < cfg.memSize) :
    ∀ p ∈ (releaseEntries cfg sel wb rm pages d m).mem, p.1 < cfg.memSize := by
  induction d generalizing pages m with
  | nil => exact hm
  | cons e rest ih =>
    unfold releaseEntries
    split
    · split
      · by_cases le : e.addr + 2 ≤ cfg.memSize
        · rw [Memory.bwrite16_served ref pages m le]
          exact ih _ _ (Memory.bound_setHalf _ hm le)
        · rw [Memory.bwrite16_past ref pages m (by omega)]
          exact hm
      · exact ih _ _ hm
    · exact ih _ _ hm

/-- A `release` changes no page mark of the reference backend, served or not (R63). -/
theorem releaseEntries_pages (cfg : Config) (pages : List Nat) (sel : Selector) (wb rm : Bool) (d : List DEntry)
    (m : Memory) (ref : cfg.backend = .reference) : (releaseEntries cfg sel wb rm pages d m).pages = pages := by
  induction d generalizing m with
  | nil => rfl
  | cons e rest ih =>
    unfold releaseEntries
    split
    · split
      · by_cases le : e.addr + 2 ≤ cfg.memSize
        · rw [Memory.bwrite16_served ref pages m le]
          exact ih _
        · rw [Memory.bwrite16_past ref pages m (by omega)]
      · exact ih _
    · exact ih _

/-- Without write-back a `release` touches no memory and never faults (R93, R95). -/
theorem releaseEntries_noWriteback (cfg : Config) (pages : List Nat) (sel : Selector) (rm : Bool) (d : List DEntry) (m : Memory) :
    releaseEntries cfg sel false rm pages d m = ⟨releasedEntries cfg sel false rm d, m, pages, none⟩ := by
  induction d with
  | nil => cases rm <;> rfl
  | cons e rest ih =>
    unfold releaseEntries
    rw [ih]
    unfold releasedEntries
    by_cases hh : sel.hits cfg e.addr = true
    · cases rm <;> simp [hh, DEntry.released]
    · simp only [Bool.not_eq_true] at hh
      cases rm <;> simp [hh, DEntry.released]

/-! ## Release on a row of cores -/

/-- What a coherency request leaves of a core where no write-back faults (R91 to R93). -/
def Core.swept (cfg : Config) (sel : Selector) (wb rm : Bool) (c : Core) : Core :=
  if c.registered then { c with dcache := releasedEntries cfg sel wb rm c.dcache } else c

/-- What a coherency request writes back for a granule from a core, if anything. -/
def Core.writesBack (cfg : Config) (sel : Selector) (wb : Bool) (b : Nat) (c : Core) : Option Half :=
  if c.registered then (c.dcache.find? (DEntry.writesBack cfg sel wb b)).map (·.value) else none

/-- A coherency request on a row of cores whose entries are all in the backend: no fault, and every registered core
is swept (R91 to R93, R95). -/
theorem sweepCores_served (cfg : Config) (pages : List Nat) (sel : Selector) (wb rm : Bool) (cs : List Core) (m : Memory)
    (h : ∀ c ∈ cs, entriesServed cfg c.dcache) :
    (sweepCores cfg sel wb rm pages cs m).fault = none
      ∧ (sweepCores cfg sel wb rm pages cs m).cores = cs.map (Core.swept cfg sel wb rm)
      ∧ (sweepCores cfg sel wb rm pages cs m).pages = pages := by
  induction cs generalizing m with
  | nil => exact ⟨rfl, rfl, rfl⟩
  | cons c rest ih =>
    have hc := h c (List.mem_cons_self ..)
    have hr : ∀ x ∈ rest, entriesServed cfg x.dcache := fun x hx => h x (List.mem_cons_of_mem _ hx)
    unfold sweepCores
    obtain ⟨hf, he, hp⟩ := releaseEntries_served cfg pages sel wb rm c.dcache m hc
    by_cases hreg : c.registered = true
    · simp [hreg, hf, he, hp, ih _ hr, Core.swept]
    · simp only [Bool.not_eq_true] at hreg
      simp [hreg, ih _ hr, Core.swept]

/-- A coherency request keeps the backend's canonical form. -/
theorem sweepCores_wf (cfg : Config) (pages : List Nat) (sel : Selector) (wb rm : Bool) (cs : List Core) (m : Memory)
    (hm : m.wf = true) : (sweepCores cfg sel wb rm pages cs m).mem.wf = true := by
  induction cs generalizing pages m with
  | nil => exact hm
  | cons c rest ih =>
    unfold sweepCores
    have hw := releaseEntries_wf cfg pages sel wb rm c.dcache m hm
    split
    · dsimp only
      split
      · exact hw
      · exact ih _ _ hw
    · exact ih _ _ hm

/-- A coherency request lists no address past `MEM_SIZE`. -/
theorem sweepCores_bound (cfg : Config) (pages : List Nat) (sel : Selector) (wb rm : Bool) (cs : List Core) (m : Memory)
    (ref : cfg.backend = .reference) (hm : ∀ p ∈ m, p.1 < cfg.memSize) :
    ∀ p ∈ (sweepCores cfg sel wb rm pages cs m).mem, p.1 < cfg.memSize := by
  induction cs generalizing pages m with
  | nil => exact hm
  | cons c rest ih =>
    unfold sweepCores
    have hw := releaseEntries_bound cfg pages sel wb rm c.dcache m ref hm
    split
    · dsimp only
      split
      · exact hw
      · exact ih _ _ hw
    · exact ih _ _ hm

/-- A coherency request changes no page mark of the reference backend, served or not (R63). -/
theorem sweepCores_pages (cfg : Config) (pages : List Nat) (sel : Selector) (wb rm : Bool) (cs : List Core)
    (m : Memory) (ref : cfg.backend = .reference) : (sweepCores cfg sel wb rm pages cs m).pages = pages := by
  induction cs generalizing m with
  | nil => rfl
  | cons c rest ih =>
    unfold sweepCores
    split
    · dsimp only
      split
      · exact releaseEntries_pages _ _ _ _ _ _ _ ref
      · rw [releaseEntries_pages _ _ _ _ _ _ _ ref]
        exact ih _
    · exact ih _

/-- Without write-back a coherency request touches no memory and never faults (R93, R95). -/
theorem sweepCores_noWriteback (cfg : Config) (pages : List Nat) (sel : Selector) (rm : Bool) (cs : List Core) (m : Memory) :
    sweepCores cfg sel false rm pages cs m = ⟨cs.map (Core.swept cfg sel false rm), m, pages, none⟩ := by
  induction cs with
  | nil => rfl
  | cons c rest ih =>
    unfold sweepCores
    rw [releaseEntries_noWriteback]
    by_cases hreg : c.registered = true <;> simp [hreg, Core.swept, ih]

/-- What the backend holds of a granule after a coherency request on cores that are coherent with each other: the
value written back, if one was, else what it held. -/
theorem sweepCores_half (cfg : Config) (pages : List Nat) (sel : Selector) (wb rm : Bool) (cs : List Core) (m : Memory)
    (ref : cfg.backend = .reference) (h : ∀ c ∈ cs, c.dcacheWf cfg) (coh : cs.Pairwise Core.coherentWith) (hm : m.wf = true) (b : Nat)
    (hb : b % 2 = 0) :
    (sweepCores cfg sel wb rm pages cs m).mem.half b =
      (cs.findSome? (Core.writesBack cfg sel wb b)).getD (m.half b) := by
  induction cs generalizing m with
  | nil => rfl
  | cons c rest ih =>
    have hc := h c (List.mem_cons_self ..)
    have hr : ∀ x ∈ rest, x.dcacheWf cfg := fun x hx => h x (List.mem_cons_of_mem _ hx)
    have served : entriesServed cfg c.dcache := ⟨ref, fun e he => (hc.2.2 e he).2⟩
    rw [List.pairwise_cons] at coh
    unfold sweepCores
    rw [List.findSome?_cons]
    by_cases hreg : c.registered = true
    · obtain ⟨hf, _, hp⟩ := releaseEntries_served cfg pages sel wb rm c.dcache m served
      have hh := releaseEntries_half cfg pages sel wb rm c.dcache m served (fun e he => (hc.2.2 e he).1) hc.2.1 hm b hb
      simp only [hreg, if_true, hf, hp]
      rw [ih _ hr coh.2 (releaseEntries_wf _ _ _ _ _ _ _ hm), hh]
      have hcw : c.writesBack cfg sel wb b = (c.dcache.find? (DEntry.writesBack cfg sel wb b)).map (·.value) := by
        simp [Core.writesBack, hreg]
      rw [hcw]
      cases hfind : c.dcache.find? (DEntry.writesBack cfg sel wb b) with
      | none => simp
      | some e =>
        have he := List.mem_of_find?_eq_some hfind
        have hew := List.find?_some hfind
        simp only [DEntry.writesBack, Bool.and_eq_true, beq_iff_eq] at hew
        have none_ : rest.findSome? (Core.writesBack cfg sel wb b) = none := by
          rw [List.findSome?_eq_none_iff]
          intro x hx
          unfold Core.writesBack
          split
          · next hxr =>
            rw [Option.map_eq_none_iff, List.find?_eq_none]
            intro f hf hfw
            simp only [DEntry.writesBack, Bool.and_eq_true, beq_iff_eq] at hfw
            have := (coh.1 x hx hreg hxr e he f hf (hew.1.trans hfw.1.symm)).2
            simp [this] at hfw
          · rfl
        simp [none_]
    · simp only [Bool.not_eq_true] at hreg
      have hcw : c.writesBack cfg sel wb b = none := by simp [Core.writesBack, hreg]
      simp only [hreg, hcw]
      exact ih _ hr coh.2 hm

end Sys2Proof.Machine
end

