-- ==== Sys2Proof/Laws/Coherence.lean ====
section
/-! SUPPORT. The coherence theory of R103 and R104: what the current value of a granule is, and the four kinds of
change that caches undergo (entries thinned out or written back, a clean entry inserted, an entry touched, an
entry written), each with what it keeps. -/

namespace Sys2Proof.Machine

/-! ## Cores that are coherent with each other -/

theorem Core.coherentWith_symm {c d : Core} (h : c.coherentWith d) : d.coherentWith c :=
  fun hd hc e he f hf q => (h hc hd f hf e he q.symm).symm

/-- Two entries of one well-formed cache with the same address are the same entry. -/
theorem entry_unique {d : List DEntry} (nodup : (d.map (·.addr)).Nodup) {e f : DEntry} (he : e ∈ d)
    (hf : f ∈ d) (q : e.addr = f.addr) : e = f := by
  exact List.inj_on_of_nodup_map nodup he hf q

/-- Two distinct cores of a coherent row are coherent with each other. -/
theorem coherent_of_mem {cs : List Core} (coh : cs.Pairwise Core.coherentWith) {c d : Core} (hc : c ∈ cs)
    (hd : d ∈ cs) (ne : c ≠ d) : c.coherentWith d :=
  haveI : Std.Symm Core.coherentWith := ⟨fun _ _ h => Core.coherentWith_symm h⟩
  coh.forall hc hd ne

/-- A granule that a registered core holds dirty is held by no other registered core, and once: any entry for it is
that entry (R103). -/
theorem dirty_unique {cfg : Config} {cs : List Core} (wf : ∀ c ∈ cs, c.dcacheWf cfg)
    (coh : cs.Pairwise Core.coherentWith) {c d : Core} (hc : c ∈ cs) (hd : d ∈ cs)
    (rc : c.registered = true) (rd : d.registered = true) {e f : DEntry} (he : e ∈ c.dcache)
    (hf : f ∈ d.dcache) (q : e.addr = f.addr) (dirty : e.dirty = true) : e = f := by
  by_cases ne : c = d
  · subst ne
    exact entry_unique (wf c hc).2.1 he hf q
  · have := (coherent_of_mem coh hc hd ne rc rd e he f hf q).1
    simp [this] at dirty

/-! ## The current value of a granule -/

/-- `v` is the current value of granule `a`: a registered core holds it dirty, or none does and the backend holds it
(R104). -/
def State.isNow (s : State) (a : Nat) (v : Half) : Prop :=
  (∃ c ∈ s.cores, c.registered = true ∧ ∃ e ∈ c.dcache, e.addr = a ∧ e.dirty = true ∧ e.value = v)
    ∨ ((∀ c ∈ s.cores, c.registered = true → ∀ e ∈ c.dcache, e.addr = a → e.dirty = false)
      ∧ v = s.mem.half a)

theorem Core.dirtyValue_eq_some {a : Nat} {c : Core} {v : Half} (h : c.dirtyValue a = some v) :
    c.registered = true ∧ ∃ e ∈ c.dcache, e.addr = a ∧ e.dirty = true ∧ e.value = v := by
  unfold Core.dirtyValue at h
  split at h
  · next hr =>
    rw [Option.map_eq_some_iff] at h
    obtain ⟨e, he, hv⟩ := h
    have hp := List.find?_some he
    simp only [Bool.and_eq_true, beq_iff_eq] at hp
    exact ⟨hr, e, List.mem_of_find?_eq_some he, hp.1, hp.2, hv⟩
  · simp at h

theorem Core.dirtyValue_eq_none {a : Nat} {c : Core} (h : c.dirtyValue a = none) :
    c.registered = true → ∀ e ∈ c.dcache, e.addr = a → e.dirty = false := by
  intro hr e he q
  unfold Core.dirtyValue at h
  rw [if_pos hr, Option.map_eq_none_iff, List.find?_eq_none] at h
  have := h e he
  simp only [Bool.and_eq_true, beq_iff_eq, not_and, Bool.not_eq_true] at this
  exact this q

/-- The model's current value is the current value. -/
theorem State.isNow_granuleNow (s : State) (a : Nat) : s.isNow a (s.granuleNow a) := by
  unfold State.granuleNow
  cases h : s.cores.findSome? (Core.dirtyValue a) with
  | some v =>
    obtain ⟨c, hc, hv⟩ := List.exists_of_findSome?_eq_some h
    obtain ⟨hr, he⟩ := Core.dirtyValue_eq_some hv
    exact .inl ⟨c, hc, hr, by simpa using he⟩
  | none =>
    rw [List.findSome?_eq_none_iff] at h
    exact .inr ⟨fun c hc => Core.dirtyValue_eq_none (h c hc), rfl⟩

/-- There is one current value. -/
theorem State.granuleNow_eq {s : State} (h : s.Inv) {a : Nat} {v : Half} (now : s.isNow a v) :
    s.granuleNow a = v := by
  have wf : ∀ c ∈ s.cores, c.dcacheWf s.cfg := fun c hc => (h.2.2.1 c hc).1
  rcases s.isNow_granuleNow a with ⟨c, hc, rc, e, he, qe, de, ve⟩ | ⟨clean, hv⟩
  · rcases now with ⟨d, hd, rd, f, hf, qf, df, vf⟩ | ⟨clean, _⟩
    · rw [← ve, ← vf, dirty_unique wf h.2.2.2.1 hc hd rc rd he hf (qe.trans qf.symm) de]
    · simp [clean c hc rc e he qe] at de
  · rcases now with ⟨d, hd, rd, f, hf, qf, df, _⟩ | ⟨_, hv'⟩
    · simp [clean d hd rd f hf qf] at df
    · rw [hv, hv']

/-- What any registered core holds of a granule, clean or dirty, is its current value (R102, R103). -/
theorem State.granuleNow_of_held {s : State} (h : s.Inv) {c : Core} (hc : c ∈ s.cores)
    (rc : c.registered = true) {e : DEntry} (he : e ∈ c.dcache) : s.granuleNow e.addr = e.value := by
  have wf : ∀ c ∈ s.cores, c.dcacheWf s.cfg := fun c hc => (h.2.2.1 c hc).1
  apply State.granuleNow_eq h
  by_cases de : e.dirty = true
  · exact .inl ⟨c, hc, rc, e, he, rfl, de, rfl⟩
  · simp only [Bool.not_eq_true] at de
    refine .inr ⟨fun d hd rd f hf q => ?_, h.2.2.2.2 c hc rc e he de⟩
    by_contra df
    simp only [Bool.not_eq_false] at df
    have := dirty_unique wf h.2.2.2.1 hd hc rd rc hf he q df
    subst this
    simp [de] at df

/-- A granule that no registered core holds dirty has the value the backend holds. -/
theorem State.granuleNow_of_clean {s : State} (h : s.Inv) {a : Nat}
    (clean : ∀ c ∈ s.cores, c.registered = true → ∀ e ∈ c.dcache, e.addr = a → e.dirty = false) :
    s.granuleNow a = s.mem.half a :=
  State.granuleNow_eq h (.inr ⟨clean, rfl⟩)

/-- The invariant depends on the cores in order, the backend and the parameters alone. -/
theorem State.Inv_congr {s t : State} (h : s.Inv) (hc : t.cores = s.cores) (hm : t.mem = s.mem)
    (hp : t.allocated = s.allocated) (hcfg : t.cfg = s.cfg) : t.Inv := by
  unfold State.Inv State.backendWf State.coherent at *
  rw [hc, hm, hp, hcfg]
  exact h

/-- The current values depend on the cores in order and the backend alone. -/
theorem State.granuleNow_congr {s t : State} (hc : t.cores = s.cores) (hm : t.mem = s.mem) (a : Nat) :
    t.granuleNow a = s.granuleNow a := by
  unfold State.granuleNow
  rw [hc, hm]

/-! ## Thinning: entries leave or become clean -/

/-- `c'` is `c` with data-cache entries removed or made clean, nothing else. -/
structure Core.Thinned (c c' : Core) : Prop where
  frame : c' = { c with dcache := c'.dcache }
  sub : (c'.dcache.map (·.addr)).Sublist (c.dcache.map (·.addr))
  from_ : ∀ e' ∈ c'.dcache, ∃ e ∈ c.dcache, e.addr = e'.addr ∧ e.value = e'.value
    ∧ (e'.dirty = true → e.dirty = true)

theorem Core.Thinned.refl (c : Core) : Core.Thinned c c :=
  ⟨rfl, List.Sublist.refl _, fun e he => ⟨e, he, rfl, rfl, id⟩⟩

theorem Core.Thinned.registered {c c' : Core} (h : Core.Thinned c c') : c'.registered = c.registered := by
  rw [h.frame]

theorem Core.Thinned.life {c c' : Core} (h : Core.Thinned c c') : c'.life = c.life := by
  rw [h.frame]

/-- A thinned core is well formed. -/
theorem Core.Thinned.wf {cfg : Config} {c c' : Core} (h : Core.Thinned c c') (w : c.wf cfg) : c'.wf cfg := by
  obtain ⟨⟨w1, w2, w3⟩, w4, w5, w6, w7, w8, w9⟩ := w
  have hd : c'.dcacheWf cfg := by
    refine ⟨?_, h.sub.nodup w2, ?_⟩
    · have := h.sub.length_le
      simp only [List.length_map] at this
      omega
    · intro e' he'
      obtain ⟨e, he, q, _⟩ := h.from_ e' he'
      rw [← q]; exact w3 e he
  refine ⟨hd, ?_, ?_, ?_, ?_, ?_, ?_⟩
  · rw [h.frame]; exact w4
  · rw [h.frame]; exact w5
  · rw [h.frame]; exact w6
  · rw [h.frame]; exact w7
  · intro hl
    have hc := w8 (h.life ▸ hl)
    have : c'.dcache = [] := by
      have := h.sub
      rw [hc] at this
      have := List.sublist_nil.mp this
      simpa using this
    rw [h.frame, this, hc]
    rfl
  · intro hr e' he'
    obtain ⟨e, he, _, _, de⟩ := h.from_ e' he'
    by_contra x
    simp only [Bool.not_eq_false] at x
    have := w9 (h.registered ▸ hr) e he
    simp [de x] at this

/-- Thinned cores of coherent cores are coherent. -/
theorem Core.Thinned.coherentWith {c c' d d' : Core} (hc : Core.Thinned c c') (hd : Core.Thinned d d')
    (h : c.coherentWith d) : c'.coherentWith d' := by
  intro rc rd e' he' f' hf' q
  rw [hc.registered] at rc
  rw [hd.registered] at rd
  obtain ⟨e, he, qe, _, de⟩ := hc.from_ e' he'
  obtain ⟨f, hf, qf, _, df⟩ := hd.from_ f' hf'
  have := h rc rd e he f hf (by rw [qe, qf, q])
  refine ⟨?_, ?_⟩
  · by_contra x; simp only [Bool.not_eq_false] at x; simp [de x] at this
  · by_contra x; simp only [Bool.not_eq_false] at x; simp [df x] at this

theorem pairwise_thinned {cs cs' : List Core} (h : List.Forall₂ Core.Thinned cs cs')
    (coh : cs.Pairwise Core.coherentWith) : cs'.Pairwise Core.coherentWith := by
  induction h with
  | nil => exact List.Pairwise.nil
  | @cons c c' l l' hcc hll ih =>
    rw [List.pairwise_cons] at coh ⊢
    refine ⟨fun d' hd' => ?_, ih coh.2⟩
    obtain ⟨i, hi, q⟩ := List.getElem_of_mem hd'
    have hi' : i < l.length := by rw [hll.length_eq]; exact hi
    have := List.Forall₂.get hll hi' hi
    simp only [List.get_eq_getElem] at this
    rw [← q]
    exact Core.Thinned.coherentWith hcc this (coh.1 _ (List.getElem_mem hi'))

/-- A core of a thinned row is a thinned core of the row. -/
theorem mem_thinned {cs cs' : List Core} (h : List.Forall₂ Core.Thinned cs cs') {c' : Core} (hc : c' ∈ cs') :
    ∃ c ∈ cs, Core.Thinned c c' := by
  induction h with
  | nil => simp at hc
  | @cons c d l l' hcd hll ih =>
    rcases List.mem_cons.mp hc with rfl | hc
    · exact ⟨c, List.mem_cons_self .., hcd⟩
    · obtain ⟨x, hx, hxc⟩ := ih hc
      exact ⟨x, List.mem_cons_of_mem _ hx, hxc⟩

/-- Thinning keeps the invariant where the entries that are clean afterwards equal the backend. -/
theorem State.Inv_thinned {s t : State} (h : s.Inv) (hcfg : t.cfg = s.cfg) (hb : t.backendWf)
    (thin : List.Forall₂ Core.Thinned s.cores t.cores)
    (clean : ∀ c ∈ t.cores, c.cleanEqualsBackend t.mem) : t.Inv := by
  refine ⟨hcfg ▸ h.1, hb, fun c' hc' => ?_, pairwise_thinned thin h.2.2.2.1, clean⟩
  obtain ⟨c, hc, hcc⟩ := mem_thinned thin hc'
  rw [hcfg]
  exact hcc.wf (h.2.2.1 c hc)

/-! ## What `release` does, as thinning -/

theorem releasedEntries_mem {cfg : Config} {sel : Selector} {wb rm : Bool} {d : List DEntry} {e' : DEntry}
    (h : e' ∈ releasedEntries cfg sel wb rm d) :
    ∃ e ∈ d, (rm = true → sel.hits cfg e.addr = false)
      ∧ e' = if rm then e else e.released cfg sel wb := by
  unfold releasedEntries at h
  cases rm
  · simp only [Bool.false_eq_true, if_false, List.mem_map] at h
    obtain ⟨e, he, q⟩ := h
    exact ⟨e, he, by simp, by simp [q]⟩
  · simp only [if_true, List.mem_filter] at h
    exact ⟨e', h.1, fun _ => by simpa using h.2, by simp⟩

theorem Core.thinned_released (cfg : Config) (sel : Selector) (wb rm : Bool) (c : Core) :
    Core.Thinned c { c with dcache := releasedEntries cfg sel wb rm c.dcache } := by
  refine ⟨rfl, ?_, ?_⟩
  · dsimp only
    unfold releasedEntries
    cases rm
    · simp [List.map_map, Function.comp_def]
    · exact List.Sublist.map _ List.filter_sublist
  · intro e' he'
    obtain ⟨e, he, _, q⟩ := releasedEntries_mem he'
    refine ⟨e, he, ?_, ?_, ?_⟩
    · rw [q]; split <;> simp
    · rw [q]; split <;> simp
    · intro hd
      rw [q] at hd
      split at hd
      · exact hd
      · exact (DEntry.released_dirty hd).1

theorem Core.thinned_swept (cfg : Config) (sel : Selector) (wb rm : Bool) (c : Core) :
    Core.Thinned c (c.swept cfg sel wb rm) := by
  unfold Core.swept
  split
  · exact Core.thinned_released ..
  · exact Core.Thinned.refl c

theorem Core.writesBack_eq_some {cfg : Config} {sel : Selector} {wb : Bool} {b : Nat} {c : Core} {v : Half}
    (h : c.writesBack cfg sel wb b = some v) :
    c.registered = true ∧ ∃ e ∈ c.dcache, e.addr = b ∧ e.dirty = true ∧ sel.hits cfg e.addr = true
      ∧ wb = true ∧ e.value = v := by
  unfold Core.writesBack at h
  split at h
  · next hr =>
    rw [Option.map_eq_some_iff] at h
    obtain ⟨e, he, hv⟩ := h
    have hp := List.find?_some he
    simp only [DEntry.writesBack, Bool.and_eq_true, beq_iff_eq] at hp
    exact ⟨hr, e, List.mem_of_find?_eq_some he, hp.1, hp.2.2.2, hp.2.1, hp.2.2.1, hv⟩
  · simp at h

/-- A coherency request on a coherent row, for one granule: a dirty copy it writes back reaches the backend. -/
theorem sweepCores_wrote {cfg : Config} {pages : List Nat} {sel : Selector} {wb rm : Bool} {cs : List Core} {m : Memory}
    (ref : cfg.backend = .reference) (wf : ∀ c ∈ cs, c.dcacheWf cfg) (coh : cs.Pairwise Core.coherentWith) (hm : m.wf = true) {c : Core}
    (hc : c ∈ cs) (rc : c.registered = true) {e : DEntry} (he : e ∈ c.dcache) (dirty : e.dirty = true)
    (hits : sel.hits cfg e.addr = true) (hwb : wb = true) :
    (sweepCores cfg sel wb rm pages cs m).mem.half e.addr = e.value := by
  rw [sweepCores_half cfg pages sel wb rm cs m ref wf coh hm e.addr ((wf c hc).2.2 e he).1]
  cases h : cs.findSome? (Core.writesBack cfg sel wb e.addr) with
  | some v =>
    obtain ⟨d, hd, hv⟩ := List.exists_of_findSome?_eq_some h
    obtain ⟨rd, f, hf, q, _, _, _, vf⟩ := Core.writesBack_eq_some hv
    rw [dirty_unique wf coh hc hd rc rd he hf q.symm dirty]
    simp [vf]
  | none =>
    rw [List.findSome?_eq_none_iff] at h
    have := h c hc
    unfold Core.writesBack at this
    rw [if_pos rc, Option.map_eq_none_iff, List.find?_eq_none] at this
    have := this e he
    simp [DEntry.writesBack, hits, hwb, dirty] at this

/-- A coherency request writes nothing back for a granule that it hits dirty nowhere. -/
theorem sweepCores_unwritten {cfg : Config} {pages : List Nat} {sel : Selector} {wb rm : Bool} {cs : List Core} {m : Memory}
    (ref : cfg.backend = .reference) (wf : ∀ c ∈ cs, c.dcacheWf cfg) (coh : cs.Pairwise Core.coherentWith) (hm : m.wf = true) {b : Nat}
    (hb : b % 2 = 0)
    (clean : ∀ c ∈ cs, c.registered = true → ∀ e ∈ c.dcache, e.addr = b → e.dirty = true →
      ¬ (sel.hits cfg b = true ∧ wb = true)) :
    (sweepCores cfg sel wb rm pages cs m).mem.half b = m.half b := by
  rw [sweepCores_half cfg pages sel wb rm cs m ref wf coh hm b hb]
  have : cs.findSome? (Core.writesBack cfg sel wb b) = none := by
    rw [List.findSome?_eq_none_iff]
    intro c hc
    cases hv : c.writesBack cfg sel wb b with
    | none => rfl
    | some v =>
      obtain ⟨rc, e, he, q, de, hits, hwb, _⟩ := Core.writesBack_eq_some hv
      exact absurd ⟨q ▸ hits, hwb⟩ (clean c hc rc e he q de)
  simp [this]

end Sys2Proof.Machine
end

