-- ==== Sys2Proof/Laws/Requests.lean ====
section
/-! SUPPORT. What a change that thins caches and writes dirty values back keeps: the coherence invariant (R103) and,
where every dirty value dropped has reached the backend, the current value of every granule (R104). Every coherency
request, eviction, flush and release is such a change. -/

namespace Sys2Proof.Machine

/-- A registered core of the row holds the granule dirty with this value. -/
def heldDirty (cs : List Core) (b : Nat) (v : Half) : Prop :=
  ∃ c ∈ cs, c.registered = true ∧ ∃ e ∈ c.dcache, e.addr = b ∧ e.dirty = true ∧ e.value = v

/-- The invariant's part about the data caches. -/
theorem State.Inv.dcacheWf {s : State} (h : s.Inv) : ∀ c ∈ s.cores, c.dcacheWf s.cfg :=
  fun c hc => (h.2.2.1 c hc).1

theorem State.Inv.reference {s : State} (h : s.Inv) : s.cfg.backend = .reference := h.2.1.2.2.2

theorem State.Inv.memWf {s : State} (h : s.Inv) : s.mem.wf = true := h.2.1.1

/-- Thinned caches and written-back values keep the invariant. -/
theorem State.Inv_request {s t : State} (h : s.Inv) (hcfg : t.cfg = s.cfg) (hb : t.backendWf)
    (thin : List.Forall₂ Core.Thinned s.cores t.cores)
    (wrote : ∀ b, b % 2 = 0 → t.mem.half b = s.mem.half b ∨ heldDirty s.cores b (t.mem.half b))
    (made : ∀ c' ∈ t.cores, c'.registered = true → ∀ e' ∈ c'.dcache, e'.dirty = false →
      (∃ c ∈ s.cores, c.registered = true ∧ ∃ e ∈ c.dcache, e.addr = e'.addr ∧ e.value = e'.value
        ∧ e.dirty = false) ∨ t.mem.half e'.addr = e'.value) : t.Inv := by
  refine State.Inv_thinned h hcfg hb thin fun c' hc' hr' e' he' clean => ?_
  rcases made c' hc' hr' e' he' clean with ⟨c, hc, rc, e, he, qa, qv, de⟩ | hv
  · have hev := h.2.2.2.2 c hc rc e he de
    have even : e.addr % 2 = 0 := ((h.dcacheWf c hc).2.2 e he).1
    rcases wrote e.addr even with hw | ⟨d, hd, rd, f, hf, qf, df, _⟩
    · rw [← qv, hev, ← qa, hw]
    · have := dirty_unique h.dcacheWf h.2.2.2.1 hd hc rd rc hf he qf df
      subst this
      simp [df] at de
  · exact hv.symm

/-- A granule whose dirty value, if any, is still held or has reached the backend keeps its current value. -/
theorem State.granuleNow_request {s t : State} (h : s.Inv) (ht : t.Inv) {b : Nat}
    (thin : List.Forall₂ Core.Thinned s.cores t.cores)
    (wrote : t.mem.half b = s.mem.half b ∨ heldDirty s.cores b (t.mem.half b))
    (kept : ∀ v, heldDirty s.cores b v → (∃ v', heldDirty t.cores b v') ∨ t.mem.half b = v) :
    t.granuleNow b = s.granuleNow b := by
  have back : ∀ v, heldDirty t.cores b v → heldDirty s.cores b v := by
    rintro v ⟨c', hc', rc', e', he', qa, de, qv⟩
    obtain ⟨c, hc, hcc⟩ := mem_thinned thin hc'
    obtain ⟨e, he, qe, qve, hde⟩ := hcc.from_ e' he'
    exact ⟨c, hc, hcc.registered ▸ rc', e, he, qe.trans qa, hde de, qve.trans qv⟩
  symm
  by_cases hd : ∃ v, heldDirty t.cores b v
  · obtain ⟨v, hv⟩ := hd
    rw [State.granuleNow_eq ht (Or.inl hv), State.granuleNow_eq h (Or.inl (back v hv))]
  · have clean : ∀ c ∈ t.cores, c.registered = true → ∀ e ∈ c.dcache, e.addr = b → e.dirty = false := by
      intro c hc rc e he qa
      by_contra x
      simp only [Bool.not_eq_false] at x
      exact hd ⟨e.value, c, hc, rc, e, he, qa, x, rfl⟩
    rw [State.granuleNow_of_clean ht clean]
    rcases s.isNow_granuleNow b with hv | ⟨clean', hv⟩
    · rcases kept _ hv with hh | hh
      · exact absurd hh hd
      · exact hh.symm
    · rcases wrote with hw | ⟨c, hc, rc, e, he, qa, de, _⟩
      · rw [hv, hw]
      · simp [clean' c hc rc e he qa] at de

/-! ## A change of the executing core only -/

theorem State.mem_cores {s : State} {c : Core} : c ∈ s.cores ↔ c = s.self ∨ c ∈ s.before ∨ c ∈ s.after := by
  simp only [State.cores, List.mem_append, List.mem_cons]
  tauto

theorem State.self_mem (s : State) : s.self ∈ s.cores := State.mem_cores.mpr (.inl rfl)

/-- The cores other than the executing one. -/
def State.others (s : State) : List Core := s.before ++ s.after

theorem State.mem_others {s : State} {c : Core} : c ∈ s.others ↔ c ∈ s.before ∨ c ∈ s.after := by
  simp [State.others]

theorem State.others_mem {s : State} {c : Core} (h : c ∈ s.others) : c ∈ s.cores :=
  State.mem_cores.mpr (.inr (State.mem_others.mp h))

/-- The row is coherent exactly when the executing core is coherent with every other and the others are. -/
theorem State.coherent_iff {s : State} :
    s.cores.Pairwise Core.coherentWith ↔
      (∀ c ∈ s.others, s.self.coherentWith c) ∧ s.others.Pairwise Core.coherentWith := by
  simp only [State.cores, State.others, List.pairwise_append, List.pairwise_cons, List.mem_append, List.mem_cons]
  constructor
  · rintro ⟨h1, ⟨h2, h3⟩, h4⟩
    refine ⟨?_, h1, h3, fun a ha b hb => h4 a ha b (.inr hb)⟩
    rintro c (hc | hc)
    · exact Core.coherentWith_symm (h4 c hc _ (.inl rfl))
    · exact h2 c hc
  · rintro ⟨h1, h2, h3, h4⟩
    refine ⟨h2, ⟨fun c hc => h1 c (.inr hc), h3⟩, ?_⟩
    rintro a ha b (rfl | hb)
    · exact Core.coherentWith_symm (h1 a (.inl ha))
    · exact h4 a ha b hb

/-- The invariant in terms of the executing core and the others. -/
theorem State.Inv_iff {s : State} : s.Inv ↔
    s.cfg.wf = true ∧ s.backendWf ∧ s.self.wf s.cfg ∧ (∀ c ∈ s.others, c.wf s.cfg)
      ∧ (∀ c ∈ s.others, s.self.coherentWith c) ∧ s.others.Pairwise Core.coherentWith
      ∧ s.self.cleanEqualsBackend s.mem ∧ ∀ c ∈ s.others, c.cleanEqualsBackend s.mem := by
  unfold State.Inv State.coherent
  rw [State.coherent_iff]
  have split : ∀ P : Core → Prop, (∀ c ∈ s.cores, P c) ↔ P s.self ∧ ∀ c ∈ s.others, P c := by
    intro P
    simp only [State.mem_cores, State.mem_others]
    constructor
    · intro h; exact ⟨h _ (.inl rfl), fun c hc => h c (.inr hc)⟩
    · rintro ⟨h1, h2⟩ c (rfl | hc)
      · exact h1
      · exact h2 c hc
  rw [split, split]
  tauto

/-- A change of the executing core that keeps its data cache and its registration keeps the invariant. -/
theorem State.Inv_self {s : State} (h : s.Inv) (c : Core) (wf : c.wf s.cfg) (hd : c.dcache = s.self.dcache)
    (hr : c.registered = s.self.registered) : State.Inv { s with self := c } := by
  rw [State.Inv_iff] at h ⊢
  obtain ⟨h1, h2, _, h4, h5, h6, h7, h8⟩ := h
  refine ⟨h1, h2, wf, h4, ?_, h6, ?_, h8⟩
  · intro d hdm rc rd e he f hf q
    exact h5 d hdm (by rw [← hr]; exact rc) rd e (by rw [← hd]; exact he) f hf q
  · intro rc e he de
    exact h7 (by rw [← hr]; exact rc) e (by rw [← hd]; exact he) de

/-- Such a change keeps every current value. -/
theorem State.granuleNow_self (s : State) (c : Core) (hd : c.dcache = s.self.dcache)
    (hr : c.registered = s.self.registered) (b : Nat) :
    State.granuleNow { s with self := c } b = s.granuleNow b := by
  have : Core.dirtyValue b c = Core.dirtyValue b s.self := by unfold Core.dirtyValue; rw [hd, hr]
  unfold State.granuleNow State.cores
  simp [List.findSome?_append, List.findSome?_cons, this]

end Sys2Proof.Machine
end

