-- ==== Sys2Proof/Laws/Sweep.lean ====
section
/-! SUPPORT. Coherency requests and releases on a well-formed machine: none faults, each keeps the invariant, and each
keeps the current value of every granule but those whose dirty value it drops (R88, R91 to R95). -/

namespace Sys2Proof.Machine

theorem sweepCores_cons_mem (cfg : Config) (pages : List Nat) (sel : Selector) (wb rm : Bool) (c : Core) (rest : List Core)
    (m : Memory) (h : entriesServed cfg c.dcache) :
    (sweepCores cfg sel wb rm pages (c :: rest) m).mem =
      (sweepCores cfg sel wb rm pages rest
        (if c.registered then (releaseEntries cfg sel wb rm pages c.dcache m).mem else m)).mem := by
  rw [sweepCores]
  by_cases reg : c.registered = true
  · obtain ⟨hf, _, hp⟩ := releaseEntries_served cfg pages sel wb rm c.dcache m h
    simp only [if_pos reg, hf, hp]
  · simp only [if_neg reg]

/-- A request on two rows is the request on the first and then on the second. -/
theorem sweepCores_append (cfg : Config) (pages : List Nat) (sel : Selector) (wb rm : Bool) (cs ds : List Core) (m : Memory)
    (h : ∀ c ∈ cs, entriesServed cfg c.dcache) :
    (sweepCores cfg sel wb rm pages (cs ++ ds) m).mem
      = (sweepCores cfg sel wb rm pages ds (sweepCores cfg sel wb rm pages cs m).mem).mem := by
  induction cs generalizing m with
  | nil => rfl
  | cons c rest ih =>
    have hc := h c (List.mem_cons_self ..)
    rw [List.cons_append, sweepCores_cons_mem _ _ _ _ _ _ _ _ hc, sweepCores_cons_mem _ _ _ _ _ _ _ _ hc]
    exact ih _ fun d hd => h d (List.mem_cons_of_mem _ hd)

/-- An entry that `release` removes was hit. -/
theorem releasedEntries_keeps {cfg : Config} {sel : Selector} {wb rm : Bool} {d : List DEntry} {e : DEntry}
    (he : e ∈ d) (h : ¬ (sel.hits cfg e.addr = true ∧ (wb = true ∨ rm = true))) :
    e ∈ releasedEntries cfg sel wb rm d := by
  unfold releasedEntries
  cases rm
  · simp only [Bool.false_eq_true, if_false, List.mem_map]
    refine ⟨e, he, ?_⟩
    unfold DEntry.released
    split
    · next hh => simp only [Bool.and_eq_true] at hh; exact absurd ⟨hh.1, .inl hh.2.1⟩ h
    · rfl
  · simp only [if_true, List.mem_filter]
    refine ⟨he, ?_⟩
    by_contra x
    simp only [Bool.not_eq_true', Bool.not_eq_false] at x
    exact h ⟨x, .inr rfl⟩

/-- The state after a request on some cores of the row. -/
structure Swept.Of (s t : State) (cs : List Core) (sel : Selector) (wb rm : Bool) : Prop where
  cfg : t.cfg = s.cfg
  allocated : pagesWfAbove 0 t.allocated = true
  sub : cs.Sublist s.cores
  rel : List.Forall₂ (fun c c' => c' = c ∨ (c ∈ cs ∧ c' = c.swept s.cfg sel wb rm)) s.cores t.cores
  mem : t.mem = (sweepCores s.cfg sel wb rm s.allocated cs s.mem).mem

theorem Swept.Of.thin {s t : State} {cs : List Core} {sel : Selector} {wb rm : Bool}
    (h : Swept.Of s t cs sel wb rm) : List.Forall₂ Core.Thinned s.cores t.cores := by
  refine h.rel.imp fun c c' hc => ?_
  rcases hc with rfl | ⟨_, rfl⟩
  · exact Core.Thinned.refl _
  · exact Core.thinned_swept ..

theorem Swept.Of.wrote {s t : State} {cs : List Core} {sel : Selector} {wb rm : Bool}
    (h : Swept.Of s t cs sel wb rm) (hs : s.Inv) (b : Nat) (even : b % 2 = 0) :
    t.mem.half b = s.mem.half b ∨ heldDirty s.cores b (t.mem.half b) := by
  have wf : ∀ c ∈ cs, c.dcacheWf s.cfg := fun c hc => hs.dcacheWf c (h.sub.subset hc)
  have coh : cs.Pairwise Core.coherentWith := hs.2.2.2.1.sublist h.sub
  rw [h.mem, sweepCores_half _ _ _ _ _ _ _ hs.reference wf coh hs.memWf b even]
  cases hf : cs.findSome? (Core.writesBack s.cfg sel wb b) with
  | none => exact .inl rfl
  | some v =>
    obtain ⟨c, hc, hv⟩ := List.exists_of_findSome?_eq_some hf
    obtain ⟨rc, e, he, q, de, _, _, ve⟩ := Core.writesBack_eq_some hv
    exact .inr ⟨c, h.sub.subset hc, rc, e, he, q, de, ve⟩

/-- A request keeps the invariant. -/
theorem Swept.Of.inv {s t : State} {cs : List Core} {sel : Selector} {wb rm : Bool}
    (h : Swept.Of s t cs sel wb rm) (hs : s.Inv) : t.Inv := by
  have wf : ∀ c ∈ cs, c.dcacheWf s.cfg := fun c hc => hs.dcacheWf c (h.sub.subset hc)
  have coh : cs.Pairwise Core.coherentWith := hs.2.2.2.1.sublist h.sub
  refine State.Inv_request hs h.cfg ⟨?_, ?_, h.allocated, by rw [h.cfg]; exact hs.reference⟩ h.thin (h.wrote hs) ?_
  · rw [h.mem]; exact sweepCores_wf _ _ _ _ _ _ _ hs.memWf
  · rw [h.mem, h.cfg]; exact sweepCores_bound _ _ _ _ _ _ _ hs.reference hs.2.1.2.1
  · intro c' hc' rc' e' he' clean
    obtain ⟨i, hi, q⟩ := List.getElem_of_mem hc'
    have hi' : i < s.cores.length := by rw [h.rel.length_eq]; exact hi
    have hr := h.rel.get hi' hi
    simp only [List.get_eq_getElem, q] at hr
    have hcm : s.cores[i] ∈ s.cores := List.getElem_mem hi'
    rcases hr with hr | ⟨hcs, hr⟩
    · exact .inl ⟨c', by rw [hr]; exact hcm, rc', e', he', rfl, rfl, clean⟩
    · have rc : (s.cores[i]).registered = true := by
        have := (Core.thinned_swept s.cfg sel wb rm s.cores[i]).registered
        rw [← hr] at this
        rw [← this]; exact rc'
      rw [hr] at he'
      unfold Core.swept at he'
      rw [if_pos rc] at he'
      obtain ⟨e, he, _, qe⟩ := releasedEntries_mem he'
      by_cases de : e.dirty = true
      · refine .inr ?_
        cases hrm : rm
        · rw [hrm] at qe
          simp only [Bool.false_eq_true, if_false] at qe
          have hh : sel.hits s.cfg e.addr = true ∧ wb = true := by
            by_contra x
            have : e.released s.cfg sel wb = e := by
              unfold DEntry.released
              rw [if_neg]
              simp only [Bool.and_eq_true, not_and]
              intro a b _
              exact x ⟨a, b⟩
            rw [qe, this] at clean
            simp [de] at clean
          have := sweepCores_wrote (pages := s.allocated) (rm := rm) hs.reference wf coh hs.memWf hcs rc he de hh.1 hh.2
          rw [h.mem, qe]
          simpa using this
        · rw [hrm] at qe
          simp only [if_true] at qe
          rw [qe] at clean
          simp [de] at clean
      · simp only [Bool.not_eq_true] at de
        refine .inl ⟨_, hcm, rc, e, he, ?_, ?_, de⟩
        · rw [qe]; split <;> simp
        · rw [qe]; split <;> simp

/-- A request keeps the current value of every granule but those whose dirty value it drops. -/
theorem Swept.Of.granuleNow {s t : State} {cs : List Core} {sel : Selector} {wb rm : Bool}
    (h : Swept.Of s t cs sel wb rm) (hs : s.Inv) {b : Nat} (even : b % 2 = 0)
    (safe : rm = true → wb = false → sel.hits s.cfg b = true → ∀ v, ¬ heldDirty cs b v) :
    t.granuleNow b = s.granuleNow b := by
  have wf : ∀ c ∈ cs, c.dcacheWf s.cfg := fun c hc => hs.dcacheWf c (h.sub.subset hc)
  have coh : cs.Pairwise Core.coherentWith := hs.2.2.2.1.sublist h.sub
  refine State.granuleNow_request hs (h.inv hs) h.thin (h.wrote hs b even) ?_
  rintro v ⟨c, hc, rc, e, he, q, de, ve⟩
  obtain ⟨i, hi, qi⟩ := List.getElem_of_mem hc
  have hi' : i < t.cores.length := by rw [← h.rel.length_eq]; exact hi
  have hr := h.rel.get hi hi'
  simp only [List.get_eq_getElem, qi] at hr
  have hcm : t.cores[i] ∈ t.cores := List.getElem_mem hi'
  rcases hr with hr | ⟨hcs, hr⟩
  · exact .inl ⟨v, t.cores[i], hcm, by rw [hr]; exact rc, e, by rw [hr]; exact he, q, de, ve⟩
  · by_cases hh : sel.hits s.cfg e.addr = true ∧ (wb = true ∨ rm = true)
    · by_cases hwb : wb = true
      · refine .inr ?_
        have := sweepCores_wrote (pages := s.allocated) (rm := rm) hs.reference wf coh hs.memWf hcs rc he de hh.1 hwb
        rw [h.mem, ← q, this, ve]
      · have hrm : rm = true := hh.2.resolve_left hwb
        exact absurd ⟨c, hcs, rc, e, he, q, de, ve⟩
          (safe hrm (by simpa using hwb) (by rw [← q]; exact hh.1) v)
    · refine .inl ⟨v, t.cores[i], hcm, ?_, e, ?_, q, de, ve⟩
      · rw [hr]; exact (Core.thinned_swept ..).registered.trans rc
      · rw [hr]; unfold Core.swept; rw [if_pos rc]
        exact releasedEntries_keeps he hh

/-! ## Requests on the other cores -/

/-- A request on the other cores of a well-formed machine never faults (R91, R93, R95). -/
theorem State.releaseOthers_ok {s : State} (h : s.Inv) (sel : Selector) (wb rm : Bool) :
    s.releaseOthers sel wb rm = .ok ()
      { s with before := s.before.map (Core.swept s.cfg sel wb rm)
               after := s.after.map (Core.swept s.cfg sel wb rm)
               mem := (sweepCores s.cfg sel wb rm s.allocated s.others s.mem).mem } := by
  have hs : ∀ c ∈ s.others, entriesServed s.cfg c.dcache := fun c hc =>
    Core.dcacheWf.served (h.dcacheWf c (State.others_mem hc)) h.reference
  have hb : ∀ c ∈ s.before, entriesServed s.cfg c.dcache := fun c hc => hs c (State.mem_others.mpr (.inl hc))
  have ha : ∀ c ∈ s.after, entriesServed s.cfg c.dcache := fun c hc => hs c (State.mem_others.mpr (.inr hc))
  unfold State.releaseOthers State.others
  rw [sweepCores_append _ _ _ _ _ _ _ _ hb]
  have sb := sweepCores_served s.cfg s.allocated sel wb rm s.before s.mem hb
  have sa := sweepCores_served s.cfg s.allocated sel wb rm s.after (sweepCores s.cfg sel wb rm s.allocated s.before s.mem).mem ha
  simp only [sb.1, sb.2, sa.1, sa.2]

theorem State.sweptOthers {s : State} (h : s.Inv) (sel : Selector) (wb rm : Bool) :
    Swept.Of s { s with before := s.before.map (Core.swept s.cfg sel wb rm)
                        after := s.after.map (Core.swept s.cfg sel wb rm)
                        mem := (sweepCores s.cfg sel wb rm s.allocated s.others s.mem).mem } s.others sel wb rm where
  cfg := rfl
  allocated := h.2.1.2.2.1
  sub := by
    simp only [State.others, State.cores]
    exact List.Sublist.append_left (List.sublist_cons_self ..) _
  rel := by
    have row : ∀ l : List Core, (∀ c ∈ l, c ∈ s.others) →
        List.Forall₂ (fun c c' => c' = c ∨ (c ∈ s.others ∧ c' = c.swept s.cfg sel wb rm)) l
          (l.map (Core.swept s.cfg sel wb rm)) := by
      intro l hl
      rw [List.forall₂_map_right_iff, List.forall₂_same]
      exact fun c hc => .inr ⟨hl c hc, rfl⟩
    simp only [State.cores]
    refine List.rel_append (row _ fun c hc => State.mem_others.mpr (.inl hc)) (List.Forall₂.cons (.inl rfl) ?_)
    exact row _ fun c hc => State.mem_others.mpr (.inr hc)
  mem := rfl

end Sys2Proof.Machine
end

