-- ==== Sys2Proof/Laws/DataPath.lean ====
section
/-! SUPPORT. The data path on a well-formed machine (R70, R71, R84 to R87, R101 to R104): a read answers the current value
and changes no current value, a write changes the current value of its granule alone, and both keep the
invariant. One lemma for each operation says all it can do. -/

namespace Sys2Proof.Machine

/-! ## Only data caches and the backend's bytes differ -/

theorem Core.onlyDcache_refl (c : Core) : c.onlyDcache c := rfl

theorem Core.onlyDcache_trans {c d e : Core} (h : c.onlyDcache d) (k : d.onlyDcache e) : c.onlyDcache e := by
  unfold Core.onlyDcache at *
  rw [k, h]

theorem forall₂_onlyDcache_refl (l : List Core) : List.Forall₂ Core.onlyDcache l l :=
  List.forall₂_same.mpr fun c _ => Core.onlyDcache_refl c

theorem forall₂_onlyDcache_trans {l m n : List Core} (h : List.Forall₂ Core.onlyDcache l m)
    (k : List.Forall₂ Core.onlyDcache m n) : List.Forall₂ Core.onlyDcache l n := by
  induction h generalizing n with
  | nil => cases k; exact List.Forall₂.nil
  | cons hc _ ih =>
    cases k with
    | cons kc kl => exact List.Forall₂.cons (Core.onlyDcache_trans hc kc) (ih kl)

theorem State.onlyDataPath_refl (s : State) : s.onlyDataPath s :=
  ⟨rfl, fun _ => rfl, rfl, forall₂_onlyDcache_refl _, forall₂_onlyDcache_refl _⟩

theorem State.onlyDataPath_trans {s t u : State} (h : s.onlyDataPath t) (k : t.onlyDataPath u) :
    s.onlyDataPath u := by
  obtain ⟨h1, h0, h2, h3, h4⟩ := h
  obtain ⟨k1, k0, k2, k3, k4⟩ := k
  have hc : t.cfg = s.cfg := by rw [h1]
  exact ⟨by rw [k1, h1], fun r => (k0 (hc ▸ r)).trans (h0 r), Core.onlyDcache_trans h2 k2, forall₂_onlyDcache_trans h3 k3,
    forall₂_onlyDcache_trans h4 k4⟩

section
variable {s t : State}

theorem State.onlyDataPath.cfg (h : s.onlyDataPath t) : t.cfg = s.cfg := by rw [h.1]
theorem State.onlyDataPath.allocated (h : s.onlyDataPath t) (ref : s.cfg.backend = .reference) :
    t.allocated = s.allocated := h.2.1 ref
theorem State.onlyDataPath.inputs (h : s.onlyDataPath t) : t.inputs = s.inputs := by rw [h.1]
theorem State.onlyDataPath.tick (h : s.onlyDataPath t) : t.tick = s.tick := by rw [h.1]
theorem State.onlyDataPath.regs (h : s.onlyDataPath t) : t.self.regs = s.self.regs := by rw [h.2.2.1]
theorem State.onlyDataPath.reg (h : s.onlyDataPath t) (r : Reg) : t.reg r = s.reg r := by
  unfold State.reg; rw [h.regs]
theorem State.onlyDataPath.flags (h : s.onlyDataPath t) : t.flags = s.flags := by
  unfold State.flags; rw [h.regs]
theorem State.onlyDataPath.life (h : s.onlyDataPath t) : t.self.life = s.self.life := by rw [h.2.2.1]
theorem State.onlyDataPath.frames (h : s.onlyDataPath t) : t.self.frames = s.self.frames := by rw [h.2.2.1]
theorem State.onlyDataPath.icache (h : s.onlyDataPath t) : t.self.icache = s.self.icache := by rw [h.2.2.1]
theorem State.onlyDataPath.iset (h : s.onlyDataPath t) : t.self.iset = s.self.iset := by rw [h.2.2.1]
theorem State.onlyDataPath.lastException (h : s.onlyDataPath t) :
    t.self.lastException = s.self.lastException := by rw [h.2.2.1]
theorem State.onlyDataPath.registered (h : s.onlyDataPath t) : t.self.registered = s.self.registered := by
  rw [h.2.2.1]

end

theorem Core.onlyDcache_swept (cfg : Config) (sel : Selector) (wb rm : Bool) (c : Core) :
    c.onlyDcache (c.swept cfg sel wb rm) := by
  unfold Core.swept
  split <;> rfl

/-- `releaseEntries` and the coherency requests change only data caches and bytes, served or not. -/
theorem sweepCores_onlyDcache (cfg : Config) (pages : List Nat) (sel : Selector) (wb rm : Bool) (cs : List Core) (m : Memory) :
    List.Forall₂ Core.onlyDcache cs (sweepCores cfg sel wb rm pages cs m).cores := by
  induction cs generalizing pages m with
  | nil => exact List.Forall₂.nil
  | cons c rest ih =>
    rw [sweepCores]
    dsimp only
    split
    · split
      · exact List.Forall₂.cons rfl (forall₂_onlyDcache_refl _)
      · exact List.Forall₂.cons rfl (ih ..)
    · exact List.Forall₂.cons rfl (ih ..)

theorem State.onlyDataPath_bind {α β : Type} {s : State} {r : Res α} {k : α → State → Res β}
    (hr : s.onlyDataPath r.state) (hk : ∀ (a : α) (t : State), t.onlyDataPath (k a t).state) :
    s.onlyDataPath (r.bind k).state := by
  cases r with
  | ok a t => exact State.onlyDataPath_trans hr (hk a t)
  | raise f t => exact hr

theorem State.releaseOthers_onlyDataPath (s : State) (sel : Selector) (wb rm : Bool) :
    s.onlyDataPath (s.releaseOthers sel wb rm).state := by
  have pages := fun cs m (ref : s.cfg.backend = .reference) =>
    sweepCores_pages s.cfg s.allocated sel wb rm cs m ref
  unfold State.releaseOthers
  dsimp only
  split
  · exact ⟨rfl, fun ref => pages _ _ ref, rfl, sweepCores_onlyDcache .., forall₂_onlyDcache_refl _⟩
  · have pages' : s.cfg.backend = .reference → ∀ cs m,
        (sweepCores s.cfg sel wb rm (sweepCores s.cfg sel wb rm s.allocated s.before s.mem).pages cs m).pages
          = s.allocated := fun ref cs m => by rw [pages _ _ ref]; exact pages _ _ ref
    split
    · exact ⟨rfl, fun ref => pages' ref _ _, rfl, sweepCores_onlyDcache .., sweepCores_onlyDcache ..⟩
    · exact ⟨rfl, fun ref => pages' ref _ _, rfl, sweepCores_onlyDcache .., sweepCores_onlyDcache ..⟩

theorem State.setDcache_onlyDataPath (s : State) (d : List DEntry) : s.onlyDataPath (s.setDcache d) :=
  ⟨rfl, fun _ => rfl, rfl, forall₂_onlyDcache_refl _, forall₂_onlyDcache_refl _⟩

theorem State.setMem_onlyDataPath (s : State) (m : Memory) : s.onlyDataPath (s.setMem m) :=
  ⟨rfl, fun _ => rfl, rfl, forall₂_onlyDcache_refl _, forall₂_onlyDcache_refl _⟩

theorem State.setDcacheMem_onlyDataPath (s : State) (d : List DEntry) (m : Memory) :
    s.onlyDataPath ((s.setDcache d).setMem m) :=
  State.onlyDataPath_trans (State.setDcache_onlyDataPath s d) (State.setMem_onlyDataPath _ m)

theorem State.setPages_onlyDataPath (s : State) (pages : List Nat)
    (h : s.cfg.backend = .reference → pages = s.allocated) : s.onlyDataPath (s.setPages pages) :=
  ⟨rfl, h, rfl, forall₂_onlyDcache_refl _, forall₂_onlyDcache_refl _⟩

/-- A read of the backend has no side effect (R62). -/
theorem State.fromRead_state {α : Type} (s : State) (a : Nat) (r : Option α) : (s.fromRead a r).state = s := by
  unfold State.fromRead
  split <;> rfl

/-- A write of the backend changes its bytes, and at most the state of another backend than the reference one. -/
theorem State.fromWrite_onlyDataPath (s : State) (a : Nat) (r : Option Memory × List Nat)
    (h : s.cfg.backend = .reference → r.2 = s.allocated) : s.onlyDataPath (s.fromWrite a r).state := by
  unfold State.fromWrite
  split
  · exact State.setPages_onlyDataPath s _ h
  · exact State.onlyDataPath_trans (State.setMem_onlyDataPath s _) (State.setPages_onlyDataPath _ _ h)

theorem State.bread16_onlyDataPath (s : State) (a : Nat) : s.onlyDataPath (s.bread16 a).state := by
  unfold State.bread16
  rw [State.fromRead_state]
  exact State.onlyDataPath_refl s

theorem State.bwrite16_onlyDataPath (s : State) (a : Nat) (v : Half) : s.onlyDataPath (s.bwrite16 a v).state :=
  State.fromWrite_onlyDataPath s a _ fun ref => by
    show (s.cfg.backendOf.write s.mem s.allocated a 2 _).2 = _
    rw [(Backend.reference_access ref _ _ _ _ _).2]

theorem State.releaseOwn_onlyDataPath (s : State) (sel : Selector) (wb rm : Bool) :
    s.onlyDataPath (s.releaseOwn sel wb rm).state := by
  have key := State.onlyDataPath_trans (State.setDcacheMem_onlyDataPath s
      (releaseEntries s.cfg sel wb rm s.allocated s.self.dcache s.mem).entries
      (releaseEntries s.cfg sel wb rm s.allocated s.self.dcache s.mem).mem)
    (State.setPages_onlyDataPath _ _ fun ref => releaseEntries_pages s.cfg s.allocated sel wb rm s.self.dcache s.mem ref)
  unfold State.releaseOwn
  dsimp only
  split <;> exact key

theorem State.evict_onlyDataPath (s : State) : s.onlyDataPath s.evict.state := by
  unfold State.evict
  split
  · exact State.onlyDataPath_refl s
  · split
    · exact State.onlyDataPath_bind (State.bwrite16_onlyDataPath ..) fun _ u => State.setDcache_onlyDataPath u _
    · exact State.setDcache_onlyDataPath ..

theorem State.makeRoom_onlyDataPath (s : State) : s.onlyDataPath s.makeRoom.state := by
  unfold State.makeRoom
  split
  · exact State.evict_onlyDataPath s
  · exact State.onlyDataPath_refl s

theorem State.fill_onlyDataPath (s : State) (a : Nat) : s.onlyDataPath (s.fill a).state := by
  refine State.onlyDataPath_bind (State.releaseOthers_onlyDataPath ..) fun _ t => ?_
  refine State.onlyDataPath_bind (State.bread16_onlyDataPath ..) fun _ u => ?_
  exact State.onlyDataPath_bind (State.makeRoom_onlyDataPath u) fun _ v => State.setDcache_onlyDataPath v _

theorem State.dread16_onlyDataPath (s : State) (a : Nat) : s.onlyDataPath (s.dread16 a).state := by
  unfold State.dread16
  split
  · exact State.setDcache_onlyDataPath ..
  · exact State.fill_onlyDataPath ..

theorem State.ensure_onlyDataPath (s : State) (a : Nat) : s.onlyDataPath (s.ensure a).state := by
  unfold State.ensure
  split
  · exact State.onlyDataPath_refl s
  · exact State.onlyDataPath_bind (State.fill_onlyDataPath ..) fun _ u => State.onlyDataPath_refl u

theorem State.dwrite16_onlyDataPath (s : State) (a : Nat) (v : Half) :
    s.onlyDataPath (s.dwrite16 a v).state := by
  refine State.onlyDataPath_bind (State.ensure_onlyDataPath ..) fun _ t => ?_
  exact State.onlyDataPath_trans (State.setDcache_onlyDataPath t _) (State.releaseOthers_onlyDataPath ..)

/-- A data-path read changes only data caches and bytes of the backend, whether it ends or faults (R74). -/
theorem State.memRead_onlyDataPath (s : State) (width : Width) (pa : Nat) :
    s.onlyDataPath (s.memRead width pa).state := by
  unfold State.memRead
  split
  · exact State.onlyDataPath_bind (State.dread16_onlyDataPath ..) fun _ t => State.onlyDataPath_refl t
  · split
    · exact State.onlyDataPath_bind (State.dread16_onlyDataPath ..) fun _ t => State.onlyDataPath_refl t
    · exact State.onlyDataPath_refl s
  · split
    · refine State.onlyDataPath_bind (State.dread16_onlyDataPath ..) fun _ t => ?_
      exact State.onlyDataPath_bind (State.dread16_onlyDataPath ..) fun _ t => State.onlyDataPath_refl t
    · exact State.onlyDataPath_refl s

/-- A data-path write changes only data caches and bytes of the backend, whether it ends or faults. -/
theorem State.memWrite_onlyDataPath (s : State) (width : Width) (pa : Nat) (v : Word) :
    s.onlyDataPath (s.memWrite width pa v).state := by
  unfold State.memWrite
  split
  · exact State.onlyDataPath_bind (State.dread16_onlyDataPath ..) fun _ t => State.dwrite16_onlyDataPath ..
  · split
    · exact State.dwrite16_onlyDataPath ..
    · exact State.onlyDataPath_refl s
  · split
    · exact State.onlyDataPath_bind (State.dwrite16_onlyDataPath ..) fun _ t => State.dwrite16_onlyDataPath ..
    · exact State.onlyDataPath_refl s

/-! ## Operations that change no current value -/

/-- `t` comes from `s` by changes of caches and write-backs alone, which keep the invariant and every current
value. -/
structure State.Reads (s t : State) : Prop where
  frame : s.onlyDataPath t
  inv : t.Inv
  now : ∀ b, b % 2 = 0 → t.granuleNow b = s.granuleNow b

theorem State.Reads.refl {s : State} (h : s.Inv) : State.Reads s s := ⟨State.onlyDataPath_refl s, h, fun _ _ => rfl⟩

theorem State.Reads.trans {s t u : State} (h : State.Reads s t) (k : State.Reads t u) : State.Reads s u :=
  ⟨State.onlyDataPath_trans h.frame k.frame, k.inv, fun b hb => (k.now b hb).trans (h.now b hb)⟩

/-- The fill snoop (R91): it never faults, and afterwards no other registered core holds the granule dirty. -/
theorem State.onFill_ok {s : State} (h : s.Inv) (a : Nat) :
    ∃ t, s.onFill a = .ok () t ∧ State.Reads s t ∧ t.self = s.self
      ∧ ∀ c ∈ t.others, c.registered = true → ∀ e ∈ c.dcache, e.addr = a → e.dirty = false := by
  have hw := State.sweptOthers h (.single a) true false
  have he := State.releaseOthers_ok h (.single a) true false
  refine ⟨_, he, ⟨?_, hw.inv h, fun b hb => hw.granuleNow h hb (by simp)⟩, rfl, ?_⟩
  · have := State.releaseOthers_onlyDataPath s (.single a) true false
    rwa [he] at this
  · intro c hc rc e hec q
    simp only [State.others, ← List.map_append] at hc
    obtain ⟨d, _, rfl⟩ := List.mem_map.mp hc
    have rd : d.registered = true := by rw [← (Core.thinned_swept s.cfg (.single a) true false d).registered]; exact rc
    unfold Core.swept at hec
    rw [if_pos rd] at hec
    dsimp only at hec
    obtain ⟨e0, _, _, q0⟩ := releasedEntries_mem hec
    by_contra x
    simp only [Bool.not_eq_false] at x
    rw [q0] at x
    simp only [Bool.false_eq_true, if_false] at x
    have qa : e0.addr = a := by rw [← q, q0]; simp
    exact (DEntry.released_dirty x).2 ⟨by simp [Selector.hits, qa], rfl⟩

/-- A row in which one core is replaced. -/
theorem forall₂_self {R : Core → Core → Prop} (refl : ∀ c, R c c) (s : State) (d : Core) (h : R s.self d) :
    List.Forall₂ R s.cores (State.cores { s with self := d }) := by
  have row : ∀ l : List Core, List.Forall₂ R l l := fun l => List.forall₂_same.mpr fun c _ => refl c
  exact List.rel_append (row _) (List.Forall₂.cons h (row _))

/-- Eviction (R87): the least recently used entry leaves, and it alone. -/
theorem State.evict_ok {s : State} (h : s.Inv) (rs : s.self.registered = true) {e : DEntry} {rest : List DEntry}
    (hd : s.self.dcache = e :: rest) :
    ∃ t, s.evict = .ok () t ∧ State.Reads s t ∧ t.self.dcache = rest ∧ t.before = s.before
      ∧ t.after = s.after ∧ t.mem = if e.dirty then s.mem.setHalf e.addr e.value else s.mem := by
  have hself := h.dcacheWf _ s.self_mem
  have hin : e ∈ s.self.dcache := by rw [hd]; exact List.mem_cons_self ..
  have hev := hself.2.2 e hin
  have hb16 := s.bwrite16_ok h.reference hev.2 e.value
  have thinSelf : Core.Thinned s.self { s.self with dcache := rest } :=
    ⟨rfl, by rw [hd]; exact List.sublist_cons_self .., fun f hf => ⟨f, by rw [hd]; exact List.mem_cons_of_mem _ hf, rfl, rfl, id⟩⟩
  have key : ∀ m, m = (if e.dirty then s.mem.setHalf e.addr e.value else s.mem) →
      State.Reads s ((s.setDcache rest).setMem m) := by
    intro m hm
    have thin : List.Forall₂ Core.Thinned s.cores ((s.setDcache rest).setMem m).cores :=
      forall₂_self (R := Core.Thinned) Core.Thinned.refl s _ thinSelf
    have wrote : ∀ b, b % 2 = 0 → m.half b = s.mem.half b ∨ heldDirty s.cores b (m.half b) := by
      intro b hb
      rw [hm]
      split
      · next de =>
        by_cases q : b = e.addr
        · subst q
          rw [Memory.half_setHalf_same h.memWf]
          exact .inr ⟨s.self, s.self_mem, rs, e, hin, rfl, de, rfl⟩
        · exact .inl (Memory.half_setHalf_ne h.memWf _ hev.1 hb q)
      · exact .inl rfl
    have bwf : State.backendWf ((s.setDcache rest).setMem m) := by
      refine ⟨?_, ?_, h.2.1.2.2⟩
      · show m.wf = true
        rw [hm]; split
        · exact Memory.wf_setHalf h.memWf _ _
        · exact h.memWf
      · show ∀ p ∈ m, p.1 < s.cfg.memSize
        rw [hm]; split
        · exact Memory.bound_setHalf _ h.2.1.2.1 hev.2
        · exact h.2.1.2.1
    have inv : State.Inv ((s.setDcache rest).setMem m) := by
      refine State.Inv_request h rfl bwf thin wrote ?_
      intro c' hc' rc' e' he' clean
      rcases State.mem_cores.mp hc' with q | q
      · subst q
        exact .inl ⟨s.self, s.self_mem, rs, e', by rw [hd]; exact List.mem_cons_of_mem _ he', rfl, rfl, clean⟩
      · exact .inl ⟨c', State.mem_cores.mpr (.inr q), rc', e', he', rfl, rfl, clean⟩
    refine ⟨State.setDcacheMem_onlyDataPath .., inv, fun b hb => ?_⟩
    refine State.granuleNow_request h inv thin (wrote b hb) ?_
    rintro v ⟨c, hc, rc, f, hf, q, df, vf⟩
    rcases State.mem_cores.mp hc with qc | qc
    · subst qc
      rw [hd] at hf
      rcases List.mem_cons.mp hf with rfl | hf
      · refine .inr ?_
        show m.half b = v
        rw [hm, if_pos df, ← q, Memory.half_setHalf_same h.memWf, vf]
      · exact .inl ⟨v, _, State.self_mem _, rs, f, hf, q, df, vf⟩
    · exact .inl ⟨v, c, State.mem_cores.mpr (.inr qc), rc, f, hf, q, df, vf⟩
  unfold State.evict
  rw [hd]
  dsimp only
  rw [hb16]
  by_cases de : e.dirty = true
  · rw [if_pos de, Res.bind_ok, if_pos de]
    exact ⟨_, rfl, key _ (by rw [if_pos de]; rfl), rfl, rfl, rfl, rfl⟩
  · rw [if_neg de]
    exact ⟨_, rfl, key s.mem (by rw [if_neg de]), rfl, rfl, rfl, by rw [if_neg de]; rfl⟩

/-- Room for one more entry (R85): the cache is below its capacity, the least recently used entry gone if it was
not. -/
theorem State.makeRoom_ok {s : State} (h : s.Inv) (rs : s.self.registered = true) :
    ∃ t, s.makeRoom = .ok () t ∧ State.Reads s t
      ∧ t.self.dcache = (if s.self.dcache.length = s.cfg.dcacheSize then s.self.dcache.drop 1 else s.self.dcache)
      ∧ t.self.dcache.length < s.cfg.dcacheSize ∧ t.before = s.before ∧ t.after = s.after
      ∧ ∀ b, (∀ e ∈ s.self.dcache, e.dirty = true → e.addr ≠ b) → b % 2 = 0 → t.mem.half b = s.mem.half b := by
  have hc := (h.dcacheWf _ s.self_mem).1
  have pos : 1 ≤ s.cfg.dcacheSize := by
    have := h.1
    unfold Config.wf at this
    simp only [Bool.and_eq_true, decide_eq_true_eq] at this
    exact this.1.1.1.1
  unfold State.makeRoom
  split
  · next full =>
    cases hd : s.self.dcache with
    | nil => simp [hd] at full; omega
    | cons e rest =>
      obtain ⟨t, h1, h2, h3, h4, h5, h6⟩ := State.evict_ok h rs hd
      refine ⟨t, h1, h2, by simp [h3], ?_, h4, h5, ?_⟩
      · rw [h3]; rw [hd] at full; simp at full; omega
      · intro b hb even
        rw [h6]
        split
        · next de =>
          have hev := (h.dcacheWf _ s.self_mem).2.2 e (by rw [hd]; exact List.mem_cons_self ..)
          exact Memory.half_setHalf_ne h.memWf _ hev.1 even
            (fun q => hb e (List.mem_cons_self ..) de q.symm)
        · rfl
  · exact ⟨s, rfl, State.Reads.refl h, rfl, by omega, rfl, rfl, fun _ _ _ => rfl⟩

/-- Changing the executing core's data cache keeps the invariant, if the new entries are well formed, clean where the
backend agrees, and coherent with every other core. -/
theorem State.Inv_setDcache {s : State} (h : s.Inv) (rs : s.self.registered = true) (d : List DEntry)
    (wf : Core.dcacheWf s.cfg { s.self with dcache := d })
    (coh : ∀ c ∈ s.others, c.registered = true → ∀ e ∈ d, ∀ f ∈ c.dcache, e.addr = f.addr →
      e.dirty = false ∧ f.dirty = false)
    (clean : ∀ e ∈ d, e.dirty = false → e.value = s.mem.half e.addr) : (s.setDcache d).Inv := by
  rw [State.Inv_iff] at h ⊢
  obtain ⟨h1, h2, ⟨_, w2, w3, w4, w5, w6, w7⟩, h4, h5, h6, h7, h8⟩ := h
  refine ⟨h1, h2, ⟨wf, w2, w3, w4, w5, ?_, ?_⟩, h4, ?_, h6, ?_, h8⟩
  · intro hl
    have : s.self = Core.reset := w6 hl
    rw [this] at rs
    simp [Core.reset] at rs
  · intro hr
    have : s.self.registered = false := hr
    rw [rs] at this
    simp at this
  · intro c hc _ rc e he f hf q
    exact coh c hc rc e he f hf q
  · intro _ e he de
    exact clean e he de

/-- The current values depend on which entries a cache holds, not on their order. -/
theorem State.granuleNow_setDcache_mem {s : State} (h : s.Inv) {d : List DEntry} (b : Nat)
    (same : ∀ e, e.dirty = true → e.addr = b → (e ∈ d ↔ e ∈ s.self.dcache)) :
    (s.setDcache d).granuleNow b = s.granuleNow b := by
  symm
  rcases (s.setDcache d).isNow_granuleNow b with ⟨c, hc, rc, e, he, q, de, ve⟩ | ⟨clean, hv⟩
  · refine State.granuleNow_eq h (Or.inl ?_)
    rcases State.mem_cores.mp hc with qc | qc
    · subst qc
      exact ⟨s.self, s.self_mem, rc, e, (same e de q).mp he, q, de, ve⟩
    · exact ⟨c, State.mem_cores.mpr (.inr qc), rc, e, he, q, de, ve⟩
  · refine State.granuleNow_eq h (Or.inr ⟨fun c hc rc e he q => ?_, hv⟩)
    rcases State.mem_cores.mp hc with qc | qc
    · subst qc
      by_contra x
      simp only [Bool.not_eq_false] at x
      have := clean _ (State.self_mem _) rc e ((same e x q).mpr he) q
      simp [x] at this
    · exact clean c (State.mem_cores.mpr (.inr qc)) rc e he q

end Sys2Proof.Machine
end

