-- ==== Sys2Proof/Laws/Access.lean ====
section
/-! SUPPORT. What the granule accesses `Fill`, `DRead16` and `DWrite16` do on a well-formed machine (R84 to R86, R91,
R93): one lemma each, for the access that is served and for the one that faults. -/

namespace Sys2Proof.Machine

theorem dcacheFind_some {d : List DEntry} {a : Nat} {e : DEntry} (h : dcacheFind d a = some e) :
    e ∈ d ∧ e.addr = a := by
  unfold dcacheFind at h
  exact ⟨List.mem_of_find?_eq_some h, by simpa using List.find?_some h⟩

theorem dcacheFind_none {d : List DEntry} {a : Nat} (h : dcacheFind d a = none) : ∀ e ∈ d, e.addr ≠ a := by
  unfold dcacheFind at h
  rw [List.find?_eq_none] at h
  exact fun e he => by simpa using h e he

theorem mem_dcacheWithout {d : List DEntry} {a : Nat} {e : DEntry} :
    e ∈ dcacheWithout d a ↔ e ∈ d ∧ e.addr ≠ a := by
  simp [dcacheWithout]

theorem dcacheWithout_sublist (d : List DEntry) (a : Nat) :
    ((dcacheWithout d a).map (·.addr)).Sublist (d.map (·.addr)) :=
  List.Sublist.map _ List.filter_sublist

theorem dcacheWithout_length_lt {d : List DEntry} {a : Nat} {e : DEntry} (he : e ∈ d) (q : e.addr = a) :
    (dcacheWithout d a).length < d.length := by
  unfold dcacheWithout
  exact List.length_filter_lt_length_iff_exists.mpr ⟨e, he, by simp [q]⟩

/-- The cache with the entry for an address replaced at the most recently used end is well formed. -/
theorem dcacheWf_replace {cfg : Config} {c : Core} (h : c.dcacheWf cfg) {e : DEntry} {x : DEntry}
    (he : e ∈ c.dcache) (q : x.addr = e.addr) :
    Core.dcacheWf cfg { c with dcache := dcacheWithout c.dcache e.addr ++ [x] } := by
  obtain ⟨h1, h2, h3⟩ := h
  refine ⟨?_, ?_, ?_⟩
  · have := dcacheWithout_length_lt he rfl
    simp only [List.length_append, List.length_cons, List.length_nil]
    omega
  · simp only [List.map_append, List.map_cons, List.map_nil]
    rw [List.nodup_append]
    refine ⟨(dcacheWithout_sublist ..).nodup h2, by simp, ?_⟩
    intro a ha b hb
    simp only [List.mem_map] at ha
    obtain ⟨f, hf, rfl⟩ := ha
    simp only [List.mem_singleton] at hb
    rw [hb, q]
    exact (mem_dcacheWithout.mp hf).2
  · intro f hf
    simp only [List.mem_append, List.mem_singleton] at hf
    rcases hf with hf | rfl
    · exact h3 f (mem_dcacheWithout.mp hf).1
    · rw [q]; exact h3 e he

/-- Two registered cores of a well-formed machine, the executing one and another, hold no granule dirty that both
hold. -/
theorem State.Inv.coherentSelf {s : State} (h : s.Inv) (rs : s.self.registered = true) {c : Core}
    (hc : c ∈ s.others) (rc : c.registered = true) {e f : DEntry} (he : e ∈ s.self.dcache) (hf : f ∈ c.dcache)
    (q : e.addr = f.addr) : e.dirty = false ∧ f.dirty = false :=
  ((State.Inv_iff.mp h).2.2.2.2.1 c hc) rs rc e he f hf q

/-- `Fill(a)` (R85), served: it answers the current value and inserts it, clean, at the most recently used end, the
least recently used entry gone if the cache was at capacity. -/
theorem State.fill_ok {s : State} (h : s.Inv) (rs : s.self.registered = true) {a : Nat} (even : a % 2 = 0)
    (le : a + 2 ≤ s.cfg.memSize) (miss : ∀ e ∈ s.self.dcache, e.addr ≠ a) :
    ∃ t, s.fill a = .ok (s.granuleNow a) t ∧ State.Reads s t
      ∧ t.self.dcache = (if s.self.dcache.length = s.cfg.dcacheSize then s.self.dcache.drop 1 else s.self.dcache)
          ++ [⟨a, false, s.granuleNow a⟩] := by
  obtain ⟨t, ht, hr, hself, hclean⟩ := State.onFill_ok h a
  have rt : t.self.registered = true := by rw [hself]; exact rs
  have now : t.mem.half a = s.granuleNow a := by
    rw [← hr.now a even]
    symm
    refine State.granuleNow_of_clean hr.inv fun c hc rc e he q => ?_
    rcases State.mem_cores.mp hc with rfl | hc
    · rw [hself] at he; exact absurd q (miss e he)
    · exact hclean c (State.mem_others.mpr hc) rc e he q
  have hcfg : t.cfg = s.cfg := hr.frame.cfg
  have hread := t.bread16_ok (a := a) (by rw [hcfg]; exact h.reference) (by rw [hcfg]; exact le)
  rw [now] at hread
  obtain ⟨u, hu, hru, hdu, hlen, hbu, hau, hmu⟩ := State.makeRoom_ok hr.inv rt
  rw [hself, hcfg] at hdu
  have missU : ∀ e ∈ u.self.dcache, e ∈ s.self.dcache := by
    intro e he
    rw [hdu] at he
    split at he
    · exact List.mem_of_mem_drop he
    · exact he
  have ru : u.self.registered = true := hru.frame.registered.trans rt
  have hmem : u.mem.half a = s.granuleNow a := by
    rw [hmu a (fun e he _ => by rw [hself] at he; exact miss e he) even, now]
  have wfU := hru.inv.dcacheWf _ u.self_mem
  have inv : (u.setDcache (u.self.dcache ++ [⟨a, false, s.granuleNow a⟩])).Inv := by
    refine State.Inv_setDcache hru.inv ru _ ⟨?_, ?_, ?_⟩ ?_ ?_
    · simp only [List.length_append, List.length_cons, List.length_nil]
      rw [hru.frame.cfg]; omega
    · simp only [List.map_append, List.map_cons, List.map_nil]
      rw [List.nodup_append]
      refine ⟨wfU.2.1, by simp, ?_⟩
      intro x hx y hy
      simp only [List.mem_map] at hx
      obtain ⟨f, hf, rfl⟩ := hx
      simp only [List.mem_singleton] at hy
      rw [hy]; exact miss f (missU f hf)
    · intro e he
      simp only [List.mem_append, List.mem_singleton] at he
      rcases he with he | rfl
      · exact wfU.2.2 e he
      · exact ⟨even, by rw [hru.frame.cfg, hcfg]; exact le⟩
    · intro c hc rc e he f hf q
      simp only [List.mem_append, List.mem_singleton] at he
      rcases he with he | rfl
      · exact hru.inv.coherentSelf ru hc rc he hf q
      · refine ⟨rfl, hclean c ?_ rc f hf q.symm⟩
        simpa [State.others, hbu, hau] using hc
    · intro e he de
      simp only [List.mem_append, List.mem_singleton] at he
      rcases he with he | rfl
      · exact (State.Inv_iff.mp hru.inv).2.2.2.2.2.2.1 ru e he de
      · exact hmem.symm
  refine ⟨u.setDcache (u.self.dcache ++ [⟨a, false, s.granuleNow a⟩]), ?_, ?_, ?_⟩
  · unfold State.fill
    rw [ht, Res.bind_ok, hread, Res.bind_ok, hu, Res.bind_ok]
  · refine hr.trans (hru.trans ⟨State.setDcache_onlyDataPath .., inv, fun b _ => ?_⟩)
    refine State.granuleNow_setDcache_mem hru.inv b fun e de _ => ?_
    simp only [List.mem_append, List.mem_singleton]
    refine ⟨?_, .inl⟩
    rintro (he | rfl)
    · exact he
    · simp at de
  · show u.self.dcache ++ _ = _
    rw [hdu]

/-- `Fill(a)` outside the backend (R85): the backend's fault, the cache of the executing core unchanged. -/
theorem State.fill_fault {s : State} (h : s.Inv) {a : Nat} (lt : s.cfg.memSize < a + 2) :
    ∃ t, s.fill a = .raise (.backendFault a) t ∧ State.Reads s t ∧ t.self = s.self := by
  obtain ⟨t, ht, hr, hself, _⟩ := State.onFill_ok h a
  refine ⟨t, ?_, hr, hself⟩
  unfold State.fill
  rw [ht, Res.bind_ok]
  rw [t.bread16_past (by rw [hr.frame.cfg]; exact h.reference) (by rw [hr.frame.cfg]; exact lt)]
  rfl

/-- Moving an entry to the most recently used end changes no current value. -/
theorem State.touch_reads {s : State} (h : s.Inv) (rs : s.self.registered = true) {e : DEntry}
    (he : e ∈ s.self.dcache) :
    State.Reads s (s.setDcache (dcacheWithout s.self.dcache e.addr ++ [e])) := by
  have wf := h.dcacheWf _ s.self_mem
  have mem : ∀ f, f ∈ dcacheWithout s.self.dcache e.addr ++ [e] ↔ f ∈ s.self.dcache := by
    intro f
    simp only [List.mem_append, List.mem_singleton, mem_dcacheWithout]
    constructor
    · rintro (hf | rfl)
      · exact hf.1
      · exact he
    · intro hf
      by_cases q : f.addr = e.addr
      · exact .inr (entry_unique wf.2.1 hf he q)
      · exact .inl ⟨hf, q⟩
  have inv : (s.setDcache (dcacheWithout s.self.dcache e.addr ++ [e])).Inv := by
    refine State.Inv_setDcache h rs _ (dcacheWf_replace wf he rfl) ?_ ?_
    · intro c hc rc f hf g hg q
      exact h.coherentSelf rs hc rc ((mem f).mp hf) hg q
    · intro f hf df
      exact (State.Inv_iff.mp h).2.2.2.2.2.2.1 rs f ((mem f).mp hf) df
  exact ⟨State.setDcache_onlyDataPath .., inv,
    fun b _ => State.granuleNow_setDcache_mem h b fun f _ _ => mem f⟩

/-- `DRead16(a)` (R84), served: it answers the current value of the granule and changes no current value (R101,
R102, R104). -/
theorem State.dread16_ok {s : State} (h : s.Inv) (rs : s.self.registered = true) {a : Nat} (even : a % 2 = 0)
    (le : a + 2 ≤ s.cfg.memSize) : ∃ t, s.dread16 a = .ok (s.granuleNow a) t ∧ State.Reads s t := by
  unfold State.dread16
  cases hf : dcacheFind s.self.dcache a with
  | some e =>
    obtain ⟨he, q⟩ := dcacheFind_some hf
    subst q
    exact ⟨_, by rw [State.granuleNow_of_held h s.self_mem rs he], State.touch_reads h rs he⟩
  | none =>
    obtain ⟨t, h1, h2, _⟩ := State.fill_ok h rs even le (dcacheFind_none hf)
    exact ⟨t, h1, h2⟩

/-- `DRead16(a)` outside the backend: the backend's fault. -/
theorem State.dread16_fault {s : State} (h : s.Inv) {a : Nat} (lt : s.cfg.memSize < a + 2) :
    ∃ t, s.dread16 a = .raise (.backendFault a) t ∧ State.Reads s t := by
  unfold State.dread16
  cases hf : dcacheFind s.self.dcache a with
  | some e =>
    obtain ⟨he, q⟩ := dcacheFind_some hf
    have := ((h.dcacheWf _ s.self_mem).2.2 e he).2
    omega
  | none =>
    obtain ⟨t, h1, h2, _⟩ := State.fill_fault h lt
    exact ⟨t, h1, h2⟩

/-- A request that writes nothing back never faults, on any machine (R93). -/
theorem State.releaseOthers_drop (s : State) (sel : Selector) (rm : Bool) :
    s.releaseOthers sel false rm = .ok ()
      { s with before := s.before.map (Core.swept s.cfg sel false rm)
               after := s.after.map (Core.swept s.cfg sel false rm) } := by
  unfold State.releaseOthers
  simp only [sweepCores_noWriteback]

/-- What a write of one granule leaves (R86): the executing core holds it dirty, no other registered core holds it,
and every other current value is as before. -/
structure State.Writes (s t : State) (a : Nat) (v : Half) : Prop where
  frame : s.onlyDataPath t
  inv : t.Inv
  now : t.granuleNow a = v
  rest : ∀ b, b % 2 = 0 → b ≠ a → t.granuleNow b = s.granuleNow b
  mine : ⟨a, true, v⟩ ∈ t.self.dcache
  sole : ∀ c ∈ t.others, c.registered = true → ∀ e ∈ c.dcache, e.addr ≠ a

/-- The second half of `DWrite16` (R86, R93), the granule being present. -/
theorem State.markDirty {s : State} (h : s.Inv) (rs : s.self.registered = true) {e : DEntry}
    (he : e ∈ s.self.dcache) (v : Half) :
    ∃ t, State.onWrite e.addr (s.setDcache (dcacheWithout s.self.dcache e.addr ++ [⟨e.addr, true, v⟩])) = .ok () t
      ∧ State.Writes s t e.addr v := by
  have ev := (h.dcacheWf _ s.self_mem).2.2 e he
  have hok := State.releaseOthers_ok h (.single e.addr) false true
  have hw := State.sweptOthers h (.single e.addr) false true
  have hdrop := State.releaseOthers_drop s (.single e.addr) true
  rw [hok] at hdrop
  injection hdrop with _ hst
  rw [hst] at hw
  have inv0 := hw.inv h
  generalize hu : ({ s with before := s.before.map (Core.swept s.cfg (.single e.addr) false true)
                            after := s.after.map (Core.swept s.cfg (.single e.addr) false true) } : State) = u
    at hw inv0
  have hself : u.self = s.self := by rw [← hu]
  have hcfg : u.cfg = s.cfg := by rw [← hu]
  have ru : u.self.registered = true := by rw [hself]; exact rs
  have heu : e ∈ u.self.dcache := by rw [hself]; exact he
  have sole : ∀ c ∈ u.others, c.registered = true → ∀ f ∈ c.dcache, f.addr ≠ e.addr := by
    intro c hc rc f hf
    rw [← hu] at hc
    simp only [State.others, ← List.map_append] at hc
    obtain ⟨d, _, rfl⟩ := List.mem_map.mp hc
    have rd : d.registered = true := by
      rw [← (Core.thinned_swept s.cfg (.single e.addr) false true d).registered]; exact rc
    unfold Core.swept at hf
    rw [if_pos rd] at hf
    dsimp only at hf
    obtain ⟨f0, _, h0, q0⟩ := releasedEntries_mem hf
    have := h0 rfl
    simp only [if_true] at q0
    rw [q0]
    simpa [Selector.hits] using this
  have wf := inv0.dcacheWf _ u.self_mem
  rw [hcfg] at wf
  have inv1 : (u.setDcache (dcacheWithout u.self.dcache e.addr ++ [⟨e.addr, true, v⟩])).Inv := by
    refine State.Inv_setDcache inv0 ru _ (dcacheWf_replace (hcfg ▸ wf) heu rfl) ?_ ?_
    · intro c hc rc f hf g hg q
      simp only [List.mem_append, List.mem_singleton] at hf
      rcases hf with hf | rfl
      · exact inv0.coherentSelf ru hc rc (mem_dcacheWithout.mp hf).1 hg q
      · exact absurd q.symm (sole c hc rc g hg)
    · intro f hf df
      simp only [List.mem_append, List.mem_singleton] at hf
      rcases hf with hf | rfl
      · exact (State.Inv_iff.mp inv0).2.2.2.2.2.2.1 ru f (mem_dcacheWithout.mp hf).1 df
      · simp at df
  have mine : (⟨e.addr, true, v⟩ : DEntry) ∈
      (u.setDcache (dcacheWithout u.self.dcache e.addr ++ [⟨e.addr, true, v⟩])).self.dcache := by
    show _ ∈ dcacheWithout u.self.dcache e.addr ++ [_]
    simp
  refine ⟨u.setDcache (dcacheWithout u.self.dcache e.addr ++ [⟨e.addr, true, v⟩]), ?_, ?_, inv1, ?_, ?_, mine, sole⟩
  · unfold State.onWrite
    rw [State.releaseOthers_drop, hself, ← hu]
    rfl
  · refine State.onlyDataPath_trans ?_ (State.setDcache_onlyDataPath ..)
    have := State.releaseOthers_onlyDataPath s (.single e.addr) false true
    rw [hok, hst] at this
    rw [← hu]
    exact this
  · exact State.granuleNow_eq inv1 (Or.inl ⟨_, State.self_mem _, ru, _, mine, rfl, rfl, rfl⟩)
  · intro b hb ne
    rw [State.granuleNow_setDcache_mem inv0 b]
    · refine hw.granuleNow h hb fun _ _ hits => ?_
      simp only [Selector.hits, beq_iff_eq] at hits
      exact absurd hits ne
    · intro f df q
      simp only [List.mem_append, List.mem_singleton, mem_dcacheWithout]
      constructor
      · rintro (hf | rfl)
        · exact hf.1
        · exact absurd q.symm ne
      · exact fun hf => .inl ⟨hf, by rw [q]; exact ne⟩

/-- `DWrite16(a, v)` (R86), served. -/
theorem State.dwrite16_ok {s : State} (h : s.Inv) (rs : s.self.registered = true) {a : Nat} (even : a % 2 = 0)
    (le : a + 2 ≤ s.cfg.memSize) (v : Half) : ∃ t, s.dwrite16 a v = .ok () t ∧ State.Writes s t a v := by
  unfold State.dwrite16 State.ensure
  cases hf : dcacheFind s.self.dcache a with
  | some e =>
    obtain ⟨he, q⟩ := dcacheFind_some hf
    subst q
    exact State.markDirty h rs he v
  | none =>
    obtain ⟨t, h1, h2, h3⟩ := State.fill_ok h rs even le (dcacheFind_none hf)
    have he : (⟨a, false, s.granuleNow a⟩ : DEntry) ∈ t.self.dcache := by rw [h3]; simp
    obtain ⟨u, h4, h5⟩ := State.markDirty h2.inv (h2.frame.registered.trans rs) he v
    refine ⟨u, ?_, ?_⟩
    · rw [h1]; exact h4
    · exact ⟨State.onlyDataPath_trans h2.frame h5.frame, h5.inv, h5.now,
        fun b hb ne => (h5.rest b hb ne).trans (h2.now b hb), h5.mine, h5.sole⟩

/-- `DWrite16(a, v)` outside the backend: the backend's fault, from the fill. -/
theorem State.dwrite16_fault {s : State} (h : s.Inv) {a : Nat} (lt : s.cfg.memSize < a + 2) (v : Half) :
    ∃ t, s.dwrite16 a v = .raise (.backendFault a) t ∧ State.Reads s t := by
  unfold State.dwrite16 State.ensure
  cases hf : dcacheFind s.self.dcache a with
  | some e =>
    obtain ⟨he, q⟩ := dcacheFind_some hf
    have := ((h.dcacheWf _ s.self_mem).2.2 e he).2
    omega
  | none =>
    obtain ⟨t, h1, h2, _⟩ := State.fill_fault h lt
    exact ⟨t, by rw [h1]; rfl, h2⟩

end Sys2Proof.Machine
end

