-- ==== Sys2Proof/Laws/MemoryAccess.lean ====
section
/-! SUPPORT. `MemRead`, `MemWrite`, `Push` and `Pop` on a well-formed machine (R70, R71, R75): what each answers and what
it leaves, in terms of current bytes. -/

namespace Sys2Proof.Machine

/-! ## Bytes and granules -/

theorem granule_even (pa : Nat) : granule pa % 2 = 0 := by unfold granule; omega

theorem granule_of_even {pa : Nat} (h : pa % 2 = 0) : granule pa = pa := by unfold granule; omega

/-- Equal granules give equal bytes. -/
theorem State.byteNow_of_granule {s t : State} {a : Nat} (h : t.granuleNow (granule a) = s.granuleNow (granule a)) :
    t.byteNow a = s.byteNow a := by
  unfold State.byteNow
  rw [h]

theorem State.Reads.sameBytes {s t : State} (h : State.Reads s t) : s.sameBytes t :=
  fun a => State.byteNow_of_granule (h.now _ (granule_even a))

theorem State.Reads.dwordNow {s t : State} (h : State.Reads s t) {a : Nat} (even : a % 2 = 0) :
    t.dwordNow a = s.dwordNow a := by
  unfold State.dwordNow
  rw [h.now a even, h.now (a + 2) (by omega)]

theorem State.Writes.sameBytesBut {s t : State} {a : Nat} {v : Half} (h : State.Writes s t a v)
    (even : a % 2 = 0) : s.sameBytesBut t a 2 := by
  intro b hb
  refine State.byteNow_of_granule (h.rest _ (granule_even b) ?_)
  unfold granule
  omega

/-- A dword read before and after, where no byte of it is among the `n` bytes that may differ. -/
theorem State.dwordNow_of_sameBytesBut {s t : State} {pa n a : Nat} (h : s.sameBytesBut t pa n)
    (even : a % 2 = 0) (out : a + 4 ≤ pa ∨ pa + n ≤ a) : t.dwordNow a = s.dwordNow a := by
  have half : ∀ b, b % 2 = 0 → (b + 2 ≤ pa ∨ pa + n ≤ b) → t.granuleNow b = s.granuleNow b := by
    intro b hb ho
    have h0 := h b (by omega)
    have h1 := h (b + 1) (by omega)
    unfold State.byteNow at h0 h1
    rw [if_pos hb, if_pos hb, granule_of_even hb] at h0
    have e1 : granule (b + 1) = b := by unfold granule; omega
    rw [if_neg (by omega), if_neg (by omega), e1] at h1
    rw [← half_join (t.granuleNow b), ← half_join (s.granuleNow b), h0, h1]
  unfold State.dwordNow
  rw [half a even (by omega), half (a + 2) (by omega) (by omega)]

/-! ## `MemRead` -/

/-- A served read answers the current value (R70, R104). -/
theorem State.memRead_ok {s : State} (h : s.Inv) (rs : s.self.registered = true) {width : Width} {pa : Nat}
    (ok : serves s.cfg width pa) : ∃ t, s.memRead width pa = .ok (s.valueNow width pa) t ∧ State.Reads s t := by
  obtain ⟨al, gr, le⟩ := ok
  cases width with
  | byte =>
    obtain ⟨t, h1, h2⟩ := State.dread16_ok h rs (granule_even pa) gr
    refine ⟨t, ?_, h2⟩
    unfold State.memRead
    dsimp only
    rw [h1, Res.bind_ok]
    unfold byteOf State.valueNow State.byteNow
    by_cases hp : pa % 2 = 0
    · simp only [if_pos hp]
    · simp only [if_neg hp]
  | word =>
    simp only [accessBytes] at al le
    obtain ⟨t, h1, h2⟩ := State.dread16_ok h rs al (by omega)
    refine ⟨t, ?_, h2⟩
    unfold State.memRead
    dsimp only
    rw [if_pos al, h1, Res.bind_ok]
    rfl
  | dword =>
    simp only [accessBytes] at al le
    obtain ⟨t, h1, h2⟩ := State.dread16_ok h rs (a := pa) (by omega) (by omega)
    obtain ⟨u, h3, h4⟩ := State.dread16_ok h2.inv (h2.frame.registered.trans rs) (a := pa + 2) (by omega)
      (by rw [h2.frame.cfg]; omega)
    refine ⟨u, ?_, h2.trans h4⟩
    unfold State.memRead
    dsimp only
    rw [if_pos al, h1, Res.bind_ok, h3, Res.bind_ok, h2.now (pa + 2) (by omega)]
    rfl

theorem State.dread16_reads {s : State} (h : s.Inv) (rs : s.self.registered = true) {a : Nat} (even : a % 2 = 0) :
    State.Reads s (s.dread16 a).state := by
  by_cases le : a + 2 ≤ s.cfg.memSize
  · obtain ⟨t, h1, h2⟩ := State.dread16_ok h rs even le
    rw [h1]; exact h2
  · obtain ⟨t, h1, h2⟩ := State.dread16_fault h (a := a) (by omega)
    rw [h1]; exact h2

/-- A read keeps the invariant and every current value, whether it ends or faults (R74). -/
theorem State.memRead_reads {s : State} (h : s.Inv) (rs : s.self.registered = true) (width : Width) (pa : Nat) :
    State.Reads s (s.memRead width pa).state := by
  have one : ∀ {α : Type} {a : Nat} {k : Half → α}, a % 2 = 0 →
      State.Reads s ((s.dread16 a).bind fun w t => Res.ok (k w) t).state := by
    intro α a k even
    have := State.dread16_reads h rs even
    cases hr : s.dread16 a <;> rw [hr] at this <;> exact this
  unfold State.memRead
  split
  · exact one (granule_even pa)
  · split
    · next al => exact one al
    · exact State.Reads.refl h
  · split
    · next al =>
      have h1 := State.dread16_reads h rs (a := pa) (by omega)
      cases hr : s.dread16 pa with
      | raise f t => rw [hr] at h1; exact h1
      | ok lo t =>
        rw [hr] at h1
        have h1 : State.Reads s t := h1
        have h2 := State.dread16_reads h1.inv (h1.frame.registered.trans rs) (a := pa + 2) (by omega)
        rw [Res.bind_ok]
        cases hr2 : t.dread16 (pa + 2) <;> rw [hr2] at h2 <;> exact h1.trans h2
    · exact State.Reads.refl h

/-! ## `MemWrite` -/

/-- What a served write leaves (R71, R104). -/
structure State.Stored (s t : State) (width : Width) (pa : Nat) (v : Word) : Prop where
  frame : s.onlyDataPath t
  inv : t.Inv
  now : t.valueNow width pa = lowBits width v
  rest : s.sameBytesBut t pa (accessBytes width)

theorem dword_join (v : Word) : (v.extractLsb' 16 16 ++ v.extractLsb' 0 16 : Word) = v := by
  apply BitVec.eq_of_getLsbD_eq
  intro i hi
  have e : (v.extractLsb' 16 16 ++ v.extractLsb' 0 16 : Word).getLsbD i
      = (v.extractLsb' 16 16 ++ v.extractLsb' 0 16).getLsbD i := rfl
  rw [e, BitVec.getLsbD_append]
  split
  · next lt => simp [lt]
  · next ge =>
    simp only [BitVec.getLsbD_extractLsb']
    have e1 : 16 + (i - 16) = i := by omega
    have e2 : decide (i - 16 < 16) = true := by simp; omega
    rw [e1, e2, Bool.true_and]

theorem withByte_low (pa : Nat) (w : Half) (v : Byte) (h : pa % 2 = 0) :
    (withByte pa w v).extractLsb' 0 8 = v ∧ (withByte pa w v).extractLsb' 8 8 = w.extractLsb' 8 8 := by
  unfold withByte
  rw [if_pos h]
  constructor
  · exact BitVec.extractLsb'_append_eq_right
  · exact BitVec.extractLsb'_append_eq_left

theorem withByte_high (pa : Nat) (w : Half) (v : Byte) (h : pa % 2 ≠ 0) :
    (withByte pa w v).extractLsb' 8 8 = v ∧ (withByte pa w v).extractLsb' 0 8 = w.extractLsb' 0 8 := by
  unfold withByte
  rw [if_neg h]
  constructor
  · exact BitVec.extractLsb'_append_eq_left
  · exact BitVec.extractLsb'_append_eq_right

/-- A served write stores its bytes and leaves every other current byte (R71, R104). -/
theorem State.memWrite_ok {s : State} (h : s.Inv) (rs : s.self.registered = true) {width : Width} {pa : Nat}
    (ok : serves s.cfg width pa) (v : Word) :
    ∃ t, s.memWrite width pa v = .ok () t ∧ State.Stored s t width pa v := by
  obtain ⟨al, gr, le⟩ := ok
  cases width with
  | byte =>
    have ge := granule_even pa
    obtain ⟨t, h1, h2⟩ := State.dread16_ok h rs ge gr
    obtain ⟨u, h3, h4⟩ := State.dwrite16_ok h2.inv (h2.frame.registered.trans rs) ge
      (by rw [h2.frame.cfg]; exact gr) (withByte pa (s.granuleNow (granule pa)) (v.extractLsb' 0 8))
    have keep : ∀ b, granule b ≠ granule pa → u.byteNow b = s.byteNow b := fun b hb =>
      State.byteNow_of_granule ((h4.rest _ (granule_even b) hb).trans (h2.now _ (granule_even b)))
    refine ⟨u, ?_, State.onlyDataPath_trans h2.frame h4.frame, h4.inv, ?_, ?_⟩
    · unfold State.memWrite
      dsimp only
      rw [h1, Res.bind_ok, h3]
    · unfold State.valueNow lowBits State.byteNow
      dsimp only
      rw [h4.now]
      by_cases hp : pa % 2 = 0
      · rw [if_pos hp, (withByte_low pa _ _ hp).1]
      · rw [if_neg hp, (withByte_high pa _ _ hp).1]
    · intro b hb
      simp only [accessBytes] at hb
      by_cases hg : granule b = granule pa
      · unfold State.byteNow
        rw [hg, h4.now]
        by_cases hp : pa % 2 = 0
        · have : b % 2 ≠ 0 := by unfold granule at hg; omega
          rw [if_neg this, if_neg this, (withByte_low pa _ _ hp).2]
        · have : b % 2 = 0 := by unfold granule at hg; omega
          rw [if_pos this, if_pos this, (withByte_high pa _ _ hp).2]
      · exact keep b hg
  | word =>
    simp only [accessBytes] at al le
    obtain ⟨t, h1, h2⟩ := State.dwrite16_ok h rs al (by omega) (v.extractLsb' 0 16)
    refine ⟨t, ?_, h2.frame, h2.inv, ?_, h2.sameBytesBut al⟩
    · unfold State.memWrite
      dsimp only
      rw [if_pos al, h1]
    · unfold State.valueNow lowBits
      dsimp only
      rw [h2.now]
  | dword =>
    simp only [accessBytes] at al le
    obtain ⟨t, h1, h2⟩ := State.dwrite16_ok h rs (a := pa) (by omega) (by omega) (v.extractLsb' 0 16)
    obtain ⟨u, h3, h4⟩ := State.dwrite16_ok h2.inv (h2.frame.registered.trans rs) (a := pa + 2) (by omega)
      (by rw [h2.frame.cfg]; omega) (v.extractLsb' 16 16)
    refine ⟨u, ?_, State.onlyDataPath_trans h2.frame h4.frame, h4.inv, ?_, ?_⟩
    · unfold State.memWrite
      dsimp only
      rw [if_pos al, h1, Res.bind_ok, h3]
    · unfold State.valueNow lowBits State.dwordNow
      dsimp only
      rw [h4.now, h4.rest pa (by omega) (by omega), h2.now, dword_join]
    · intro b hb
      simp only [accessBytes] at hb
      rw [h4.sameBytesBut (by omega) b (by omega), h2.sameBytesBut (by omega) b (by omega)]

/-- Whether it ends or faults, a granule write changes only the data path and keeps the invariant. -/
theorem State.dwrite16_inv {s : State} (h : s.Inv) (rs : s.self.registered = true) {a : Nat} (even : a % 2 = 0)
    (v : Half) : (s.dwrite16 a v).state.Inv := by
  by_cases le : a + 2 ≤ s.cfg.memSize
  · obtain ⟨t, h1, h2⟩ := State.dwrite16_ok h rs even le v
    rw [h1]; exact h2.inv
  · obtain ⟨t, h1, h2⟩ := State.dwrite16_fault h (a := a) (by omega) v
    rw [h1]; exact h2.inv

/-- An operation leaves a well-formed machine with the executing core registered, whether it ends or faults. -/
def Res.Safe {α : Type} (r : Res α) : Prop := r.state.Inv ∧ r.state.self.registered = true

theorem Res.Safe.bind {α β : Type} {r : Res α} {k : α → State → Res β} (h : r.Safe)
    (hk : ∀ a t, t.Inv → t.self.registered = true → (k a t).Safe) : (r.bind k).Safe := by
  cases r with
  | ok a t => exact hk a t h.1 h.2
  | raise f t => exact h

theorem State.memRead_safe {s : State} (h : s.Inv) (rs : s.self.registered = true) (width : Width) (pa : Nat) :
    (s.memRead width pa).Safe :=
  ⟨(State.memRead_reads h rs width pa).inv, (State.memRead_onlyDataPath s width pa).registered.trans rs⟩

theorem State.dwrite16_safe {s : State} (h : s.Inv) (rs : s.self.registered = true) {a : Nat} (even : a % 2 = 0)
    (v : Half) : (s.dwrite16 a v).Safe :=
  ⟨State.dwrite16_inv h rs even v, (State.dwrite16_onlyDataPath s a v).registered.trans rs⟩

theorem State.memWrite_safe {s : State} (h : s.Inv) (rs : s.self.registered = true) (width : Width) (pa : Nat)
    (v : Word) : (s.memWrite width pa v).Safe := by
  unfold State.memWrite
  split
  · refine Res.Safe.bind ⟨(State.dread16_reads h rs (granule_even pa)).inv,
      (State.dread16_onlyDataPath s _).registered.trans rs⟩ fun _ t ht rt => ?_
    exact State.dwrite16_safe ht rt (granule_even pa) _
  · split
    · next al => exact State.dwrite16_safe h rs al _
    · exact ⟨h, rs⟩
  · split
    · refine Res.Safe.bind (State.dwrite16_safe h rs (by omega) _) fun _ t ht rt => ?_
      exact State.dwrite16_safe ht rt (by omega) _
    · exact ⟨h, rs⟩

/-! ## Register writes -/

/-- A registered core of a well-formed machine is not in Reset. -/
theorem State.Inv.not_reset {s : State} (h : s.Inv) (rs : s.self.registered = true) : s.self.life ≠ .reset := by
  intro hl
  have := (State.Inv_iff.mp h).2.2.1.2.2.2.1
  rw [rs, hl] at this
  simp [Lifecycle.isAlive] at this

/-- Writing the executing core's registers keeps the invariant. -/
theorem State.Inv_setRegs {s : State} (h : s.Inv) (hl : s.self.life ≠ .reset) (g : Regs) : (s.setRegs g).Inv := by
  obtain ⟨w1, w2, w3, w4, w5, _, w7⟩ := (State.Inv_iff.mp h).2.2.1
  exact State.Inv_self h { s.self with regs := g } ⟨w1, w2, w3, w4, w5, fun x => absurd x hl, w7⟩ rfl rfl

theorem State.Inv_setReg {s : State} (h : s.Inv) (hl : s.self.life ≠ .reset) (r : Reg) (v : Word) :
    (s.setReg r v).Inv := State.Inv_setRegs h hl _

theorem State.Inv_setFlags {s : State} (h : s.Inv) (hl : s.self.life ≠ .reset) (f : Flags) :
    (s.setFlags f).Inv := State.Inv_setRegs h hl _

@[simp] theorem State.granuleNow_setRegs (s : State) (g : Regs) (b : Nat) :
    (s.setRegs g).granuleNow b = s.granuleNow b :=
  State.granuleNow_self s { s.self with regs := g } rfl rfl b

@[simp] theorem State.granuleNow_setReg (s : State) (r : Reg) (v : Word) (b : Nat) :
    (s.setReg r v).granuleNow b = s.granuleNow b := State.granuleNow_setRegs ..

@[simp] theorem State.granuleNow_setFlags (s : State) (f : Flags) (b : Nat) :
    (s.setFlags f).granuleNow b = s.granuleNow b := State.granuleNow_setRegs ..

@[simp] theorem State.granuleNow_setFrames (s : State) (fs : List StackFrame) (b : Nat) :
    (s.setFrames fs).granuleNow b = s.granuleNow b :=
  State.granuleNow_self s { s.self with frames := fs } rfl rfl b

@[simp] theorem State.byteNow_setRegs (s : State) (g : Regs) (b : Nat) :
    (s.setRegs g).byteNow b = s.byteNow b := by unfold State.byteNow; simp

@[simp] theorem State.byteNow_setReg (s : State) (r : Reg) (v : Word) (b : Nat) :
    (s.setReg r v).byteNow b = s.byteNow b := by unfold State.byteNow; simp

@[simp] theorem State.byteNow_setFlags (s : State) (f : Flags) (b : Nat) :
    (s.setFlags f).byteNow b = s.byteNow b := by unfold State.byteNow; simp

@[simp] theorem State.byteNow_setFrames (s : State) (fs : List StackFrame) (b : Nat) :
    (s.setFrames fs).byteNow b = s.byteNow b := by unfold State.byteNow; simp

@[simp] theorem State.dwordNow_setRegs (s : State) (g : Regs) (b : Nat) :
    (s.setRegs g).dwordNow b = s.dwordNow b := by unfold State.dwordNow; simp

@[simp] theorem State.dwordNow_setReg (s : State) (r : Reg) (v : Word) (b : Nat) :
    (s.setReg r v).dwordNow b = s.dwordNow b := by unfold State.dwordNow; simp

@[simp] theorem State.dwordNow_setFlags (s : State) (f : Flags) (b : Nat) :
    (s.setFlags f).dwordNow b = s.dwordNow b := by unfold State.dwordNow; simp

@[simp] theorem State.dwordNow_setFrames (s : State) (fs : List StackFrame) (b : Nat) :
    (s.setFrames fs).dwordNow b = s.dwordNow b := by unfold State.dwordNow; simp

/-! ## The stack -/

/-- `Push(v)` (R75), served: the slot holds `v`, every other current byte is as before, and only `SP` moved. -/
theorem State.push_ok {s : State} (h : s.Inv) (rs : s.self.registered = true) (v : Word)
    (ok : serves s.cfg .dword s.pushAddr) :
    ∃ u, s.push v = .ok () (u.setReg .sp (s.reg .sp - 4)) ∧ State.Stored s u .dword s.pushAddr v := by
  obtain ⟨u, h1, h2⟩ := State.memWrite_ok h rs ok v
  refine ⟨u, ?_, h2⟩
  unfold State.push
  rw [h1, Res.bind_ok, h2.frame.reg]

/-- `Pop()` (R75), served: it answers the slot, changes no current byte, and only `SP` moved. -/
theorem State.pop_ok {s : State} (h : s.Inv) (rs : s.self.registered = true)
    (ok : serves s.cfg .dword s.popAddr) :
    ∃ u, s.pop = .ok (s.dwordNow s.popAddr) (u.setReg .sp (s.reg .sp + 4)) ∧ State.Reads s u := by
  obtain ⟨u, h1, h2⟩ := State.memRead_ok h rs ok
  refine ⟨u, ?_, h2⟩
  unfold State.pop
  rw [h1, Res.bind_ok, h2.frame.reg]
  rfl

theorem State.push_safe {s : State} (h : s.Inv) (rs : s.self.registered = true) (v : Word) : (s.push v).Safe :=
  Res.Safe.bind (State.memWrite_safe h rs ..) fun _ _ ht rt => ⟨State.Inv_setReg ht (ht.not_reset rt) _ _, rt⟩

theorem State.pop_safe {s : State} (h : s.Inv) (rs : s.self.registered = true) : s.pop.Safe :=
  Res.Safe.bind (State.memRead_safe h rs ..) fun _ _ ht rt => ⟨State.Inv_setReg ht (ht.not_reset rt) _ _, rt⟩

/-- A push on a misaligned stack raises a fault before anything is touched (R64, R75). -/
theorem State.push_unaligned {s : State} (v : Word) (al : s.pushAddr % 4 ≠ 0) :
    s.push v = .raise (.unalignedAccess s.pushAddr) s := by
  unfold State.push State.memWrite
  simp [al]

/-- A pop on a misaligned stack raises a fault before anything is touched (R64, R75). -/
theorem State.pop_unaligned {s : State} (al : s.popAddr % 4 ≠ 0) :
    s.pop = .raise (.unalignedAccess s.popAddr) s := by
  unfold State.pop State.memRead
  simp [al]

end Sys2Proof.Machine
end

