-- ==== Sys2Proof/Laws/Halting.lean ====
section
/-! SUPPORT. What `release` on the executing core, `halt` and `die` do on a well-formed machine (R88, R281, R315), and
that bringing another core to the front changes nothing (`State.focus`). -/

namespace Sys2Proof.Machine

/-! ## Release on the executing core -/

theorem State.releaseOwn_ok {s : State} (h : s.Inv) (sel : Selector) (wb rm : Bool) :
    s.releaseOwn sel wb rm = .ok () ((s.setDcache (releasedEntries s.cfg sel wb rm s.self.dcache)).setMem
      (releaseEntries s.cfg sel wb rm s.allocated s.self.dcache s.mem).mem) := by
  have := releaseEntries_served s.cfg s.allocated sel wb rm s.self.dcache s.mem
    (Core.dcacheWf.served (h.dcacheWf _ s.self_mem) h.reference)
  unfold State.releaseOwn
  simp only [this.1, this.2.1, this.2.2]
  rfl

/-- A release on a registered core is a request on that core alone. -/
theorem State.sweptOwn {s : State} (h : s.Inv) (rs : s.self.registered = true) (sel : Selector) (wb rm : Bool) :
    Swept.Of s ((s.setDcache (releasedEntries s.cfg sel wb rm s.self.dcache)).setMem
      (releaseEntries s.cfg sel wb rm s.allocated s.self.dcache s.mem).mem) [s.self] sel wb rm where
  cfg := rfl
  allocated := h.2.1.2.2.1
  sub := by simpa using s.self_mem
  rel := by
    refine List.rel_append (List.forall₂_same.mpr fun c _ => .inl rfl) (List.Forall₂.cons (.inr ⟨by simp, ?_⟩)
      (List.forall₂_same.mpr fun c _ => .inl rfl))
    unfold Core.swept
    rw [if_pos rs]
    rfl
  mem := by
    show (releaseEntries _ _ _ _ _ _ _).mem = _
    have hs := releaseEntries_served s.cfg s.allocated sel wb rm s.self.dcache s.mem
      (Core.dcacheWf.served (h.dcacheWf _ s.self_mem) h.reference)
    rw [sweepCores_cons_mem _ _ _ _ _ _ _ _ (Core.dcacheWf.served (h.dcacheWf _ s.self_mem) h.reference), if_pos rs]
    rfl

/-- A cache that holds nothing dirty writes nothing back. -/
theorem releaseEntries_clean (cfg : Config) (pages : List Nat) (sel : Selector) (wb rm : Bool) (d : List DEntry) (m : Memory)
    (h : ∀ e ∈ d, e.dirty = false) : (releaseEntries cfg sel wb rm pages d m).mem = m := by
  induction d generalizing pages with
  | nil => rfl
  | cons e rest ih =>
    have he : e.dirty = false := h e (List.mem_cons_self ..)
    have := ih pages fun f hf => h f (List.mem_cons_of_mem _ hf)
    unfold releaseEntries
    simp only [he, Bool.and_false, Bool.false_eq_true, if_false]
    split <;> exact this

/-- A release on any core of a well-formed machine keeps the invariant. -/
theorem State.releaseOwn_inv {s : State} (h : s.Inv) (sel : Selector) (wb rm : Bool) :
    (s.releaseOwn sel wb rm).state.Inv := by
  rw [State.releaseOwn_ok h]
  by_cases rs : s.self.registered = true
  · exact (State.sweptOwn h rs sel wb rm).inv h
  · have hc : ∀ e ∈ s.self.dcache, e.dirty = false :=
      (State.Inv_iff.mp h).2.2.1.2.2.2.2.2.2 (by simpa using rs)
    show State.Inv _
    rw [releaseEntries_clean _ _ _ _ _ _ _ hc]
    have thin : List.Forall₂ Core.Thinned s.cores
        ((s.setDcache (releasedEntries s.cfg sel wb rm s.self.dcache)).setMem s.mem).cores :=
      forall₂_self Core.Thinned.refl s _ (Core.thinned_released s.cfg sel wb rm s.self)
    refine State.Inv_request h rfl h.2.1 thin (fun _ _ => .inl rfl) ?_
    intro c' hc' rc' e' he' clean
    rcases State.mem_cores.mp hc' with q | q
    · subst q; exact absurd rc' rs
    · exact .inl ⟨c', State.mem_cores.mpr (.inr q), rc', e', he', rfl, rfl, clean⟩

/-! ## `halt` and `die` -/

/-- The data cache with every entry clean. -/
def cleaned (d : List DEntry) : List DEntry := d.map fun e => { e with dirty := false }

theorem releasedEntries_all (cfg : Config) (d : List DEntry) :
    releasedEntries cfg .all true false d = cleaned d := by
  unfold releasedEntries cleaned
  simp only [Bool.false_eq_true, if_false]
  refine List.map_congr_left fun e _ => ?_
  unfold DEntry.released
  rcases e with ⟨a, d, v⟩
  cases d <;> simp [Selector.hits]

/-- The flush of `halt` on a well-formed machine never faults, and leaves every entry, clean (R315). -/
theorem State.flush_ok {s : State} (h : s.Inv) :
    s.flush.fault = none ∧ s.flush.entries = cleaned s.self.dcache ∧ s.flush.pages = s.allocated := by
  have := releaseEntries_served s.cfg s.allocated .all true false s.self.dcache s.mem
    (Core.dcacheWf.served (h.dcacheWf _ s.self_mem) h.reference)
  unfold State.flush
  rw [this.1, this.2.1, this.2.2, releasedEntries_all]
  exact ⟨rfl, rfl, rfl⟩

/-- The executing core after `halt` (R315). -/
def Core.haltedAs (c : Core) (code : Word) : Core :=
  { c with dcache := cleaned c.dcache, registered := false, life := .halted code }

theorem State.halt_eq {s : State} (h : s.Inv) (code : Word) (nh : s.self.life.isHalted = false) :
    s.halt code = { s with mem := s.flush.mem, self := s.self.haltedAs code } := by
  obtain ⟨h1, h2, h3⟩ := State.flush_ok h
  unfold State.halt Core.haltedAs
  rw [nh, h1, h2, h3]
  simp

theorem State.halt_halted {s : State} (code : Word) (nh : s.self.life.isHalted = true) : s.halt code = s := by
  unfold State.halt
  rw [if_pos nh]

theorem State.die_halted {s : State} (f : CoreFault) (nh : s.self.life.isHalted = true) : s.die f = s := by
  unfold State.die
  rw [if_pos nh]

/-- Every granule the halting core holds has its value in the backend afterwards, and no other granule's backend
value changes. -/
theorem State.flush_half {s : State} (h : s.Inv) (b : Nat) (even : b % 2 = 0) :
    s.flush.mem.half b =
      ((s.self.dcache.find? fun e => e.addr == b && e.dirty).map (·.value)).getD (s.mem.half b) := by
  have wf := h.dcacheWf _ s.self_mem
  have := releaseEntries_half s.cfg s.allocated .all true false s.self.dcache s.mem (Core.dcacheWf.served wf h.reference)
    (fun e he => (wf.2.2 e he).1) wf.2.1 h.memWf b even
  unfold State.flush
  rw [this]
  unfold DEntry.writesBack
  simp [Selector.hits]

/-- `halt` keeps the invariant and every current value. -/
theorem State.halt_inv {s : State} (h : s.Inv) (code : Word) :
    (s.halt code).Inv ∧ ∀ b, b % 2 = 0 → (s.halt code).granuleNow b = s.granuleNow b := by
  by_cases nh : s.self.life.isHalted = true
  · rw [State.halt_halted code nh]; exact ⟨h, fun _ _ => rfl⟩
  · simp only [Bool.not_eq_true] at nh
    rw [State.halt_eq h code nh]
    -- the flush, as a release on the core
    have key : ∃ u : State, u.Inv ∧ (∀ b, b % 2 = 0 → u.granuleNow b = s.granuleNow b)
        ∧ u = { s with mem := s.flush.mem, self := { s.self with dcache := cleaned s.self.dcache } } := by
      refine ⟨_, ?_, ?_, rfl⟩
      · have := State.releaseOwn_inv h .all true false
        rw [State.releaseOwn_ok h, releasedEntries_all] at this
        exact this
      · intro b hb
        by_cases rs : s.self.registered = true
        · have hw := State.sweptOwn h rs .all true false
          rw [releasedEntries_all] at hw
          exact hw.granuleNow h hb (by simp)
        · have hc : ∀ e ∈ s.self.dcache, e.dirty = false :=
            (State.Inv_iff.mp h).2.2.1.2.2.2.2.2.2 (by simpa using rs)
          have hm : s.flush.mem = s.mem := releaseEntries_clean _ _ _ _ _ _ _ hc
          have hd : cleaned s.self.dcache = s.self.dcache := by
            unfold cleaned
            rw [List.map_congr_left (g := id) fun e he => ?_, List.map_id]
            rw [← hc e he]; rfl
          rw [hm, hd]
    obtain ⟨u, hu, hnow, hueq⟩ := key
    have huself : u.self = { s.self with dcache := cleaned s.self.dcache } := by rw [hueq]
    have clean : ∀ e ∈ u.self.dcache, e.dirty = false := by
      intro e he
      rw [huself] at he
      obtain ⟨f, _, rfl⟩ := List.mem_map.mp he
      rfl
    have hteq : ({ s with mem := s.flush.mem, self := s.self.haltedAs code } : State)
        = { u with self := { u.self with registered := false, life := .halted code } } := by rw [hueq]; rfl
    rw [hteq]
    have hi := State.Inv_iff.mp hu
    obtain ⟨h1, h2, ⟨w1, w2, w3, _, w5, _, _⟩, h4, h5, h6, h7, h8⟩ := hi
    have inv : State.Inv { u with self := { u.self with registered := false, life := .halted code } } := by
      refine State.Inv_iff.mpr ⟨h1, h2, ⟨w1, w2, w3, rfl, w5, fun x => by simp at x, fun _ => clean⟩, h4, ?_, h6, ?_, h8⟩
      · intro c _ x; simp at x
      · intro x; simp at x
    refine ⟨inv, fun b hb => ?_⟩
    rw [← hnow b hb]
    rcases u.isNow_granuleNow b with ⟨c, hc, rc, e, he, q, de, ve⟩ | ⟨cl, hv⟩
    · refine State.granuleNow_eq inv (Or.inl ?_)
      rcases State.mem_cores.mp hc with qc | qc
      · subst qc; simp [clean e he] at de
      · exact ⟨c, State.mem_cores.mpr (.inr qc), rc, e, he, q, de, ve⟩
    · refine State.granuleNow_eq inv (Or.inr ⟨fun c hc rc e he q => ?_, hv⟩)
      rcases State.mem_cores.mp hc with qc | qc
      · subst qc; exact clean e he
      · exact cl c (State.mem_cores.mpr (.inr qc)) rc e he q

/-- Recording a fault on a core that is not in Reset keeps the invariant. -/
theorem State.Inv_record {s : State} (h : s.Inv) (nr : s.self.life ≠ .reset) (f : Option CoreFault) :
    State.Inv { s with self := { s.self with lastException := f } } := by
  obtain ⟨w1, w2, w3, w4, w5, _, w7⟩ := (State.Inv_iff.mp h).2.2.1
  exact State.Inv_self h { s.self with lastException := f } ⟨w1, w2, w3, w4, w5, fun x => absurd x nr, w7⟩ rfl rfl

/-- `die` (R281) on a well-formed machine: the fault is recorded, the core halts with exit code 1, and its registers
stay. -/
theorem State.die_eq {s : State} (h : s.Inv) (f : CoreFault) (nh : s.self.life.isHalted = false) :
    s.die f = { s with
      mem := s.flush.mem
      self := { s.self.haltedAs 1 with lastException := some f } } := by
  have hf : (State.flush { s with self := { s.self with lastException := some f } }) = s.flush := rfl
  obtain ⟨h1, h2⟩ := State.flush_ok h
  unfold State.die State.halt Core.haltedAs
  rw [nh, hf, h1, h2.1, h2.2]
  simp

/-- `die` keeps the invariant and every current value. -/
theorem State.die_inv {s : State} (h : s.Inv) (f : CoreFault) :
    (s.die f).Inv ∧ ∀ b, b % 2 = 0 → (s.die f).granuleNow b = s.granuleNow b := by
  by_cases nh : s.self.life.isHalted = true
  · rw [State.die_halted f nh]; exact ⟨h, fun _ _ => rfl⟩
  · simp only [Bool.not_eq_true] at nh
    have hh := State.halt_inv h 1
    have he := State.halt_eq h 1 nh
    have hd : s.die f = { s.halt 1 with self := { (s.halt 1).self with lastException := some f } } := by
      rw [State.die_eq h f nh, he]
    rw [hd]
    refine ⟨State.Inv_record hh.1 ?_ _, fun b hb => ?_⟩
    · rw [he]; simp [Core.haltedAs]
    · rw [State.granuleNow_self (s.halt 1) { (s.halt 1).self with lastException := some f } rfl rfl, hh.2 b hb]

/-! ## Bringing another core to the front -/

/-- Choosing which core executes changes no core, no byte and no other field. -/
theorem State.withCores_cores {s : State} {k : Nat} {cs : List Core} (lt : k < cs.length) :
    (s.withCores k cs).cores = cs := by
  unfold State.withCores
  split
  · next c rest hd =>
    show cs.take k ++ c :: rest = cs
    rw [← hd, List.take_append_drop]
  · next hd =>
    have := congrArg List.length hd
    simp at this
    omega

theorem State.focus_of_lt {s : State} {k : Nat} (lt : k < s.nCores) :
    (s.focus k).cores = s.cores ∧ (s.focus k).selfId = k ∧ (s.focus k).self = s.cores[k]
      ∧ s.focus k = { s with before := (s.focus k).before, self := (s.focus k).self, after := (s.focus k).after } := by
  have lt' : k < s.cores.length := lt
  have hd : s.cores.drop k = s.cores[k] :: s.cores.drop (k + 1) := List.drop_eq_getElem_cons lt'
  refine ⟨State.withCores_cores lt', ?_, ?_, ?_⟩
  · unfold State.focus State.withCores State.selfId
    rw [hd]
    simp; omega
  · unfold State.focus State.withCores
    rw [hd]
    rfl
  · unfold State.focus State.withCores
    rw [hd]

/-- Bringing a core to the front keeps the cores. -/
theorem State.focus_cores (s : State) (k : Nat) : (s.focus k).cores = s.cores := by
  by_cases lt : k < s.nCores
  · exact (State.focus_of_lt lt).1
  · unfold State.focus State.withCores
    rw [List.drop_eq_nil_of_le (by unfold State.nCores at lt; omega)]

theorem State.focus_rest (s : State) (k : Nat) :
    (s.focus k).cfg = s.cfg ∧ (s.focus k).mem = s.mem ∧ (s.focus k).allocated = s.allocated
      ∧ (s.focus k).inputs = s.inputs ∧ (s.focus k).tick = s.tick := by
  unfold State.focus State.withCores
  split <;> exact ⟨rfl, rfl, rfl, rfl, rfl⟩

/-- Bringing a core to the front keeps the invariant. -/
theorem State.focus_inv {s : State} (h : s.Inv) (k : Nat) : (s.focus k).Inv := by
  obtain ⟨h1, h2, h3, _⟩ := State.focus_rest s k
  exact State.Inv_congr h (State.focus_cores s k) h2 h3 h1

theorem State.focus_granuleNow (s : State) (k b : Nat) : (s.focus k).granuleNow b = s.granuleNow b :=
  State.granuleNow_congr (State.focus_cores s k) (State.focus_rest s k).2.1 b

/-- The executing core is already in front. -/
theorem State.focus_selfId (s : State) : s.focus s.selfId = s := by
  unfold State.focus State.withCores State.selfId State.cores
  simp

end Sys2Proof.Machine
end

