-- ==== Sys2Proof/Laws/Safety.lean ====
section
/-! SUPPORT. Every shared operation keeps the invariant of the machine, whether it ends or faults: one lemma for each. -/

namespace Sys2Proof.Machine

theorem State.pushRegs_safe (rs : List Reg) {s : State} (h : s.Inv) (hr : s.self.registered = true) :
    (State.pushRegs rs s).Safe := by
  induction rs generalizing s with
  | nil => exact ⟨h, hr⟩
  | cons r rest ih => exact Res.Safe.bind (State.push_safe h hr _) fun _ t ht rt => ih ht rt

theorem State.popRegs_safe (rs : List Reg) {s : State} (h : s.Inv) (hr : s.self.registered = true) :
    (State.popRegs rs s).Safe := by
  induction rs generalizing s with
  | nil => exact ⟨h, hr⟩
  | cons r rest ih =>
    exact Res.Safe.bind (State.pop_safe h hr) fun v t ht rt => ih (State.Inv_setReg ht (ht.not_reset rt) r v) rt

/-- Changing the frames keeps the invariant, where frames are kept or there are none. -/
theorem State.Inv_setFrames {s : State} (h : s.Inv) (nr : s.self.life ≠ .reset) (fs : List StackFrame)
    (ok : s.cfg.checkFrames = false → fs = []) : (s.setFrames fs).Inv := by
  obtain ⟨w1, w2, w3, w4, _, _, w7⟩ := (State.Inv_iff.mp h).2.2.1
  exact State.Inv_self h { s.self with frames := fs } ⟨w1, w2, w3, w4, ok, fun x => absurd x nr, w7⟩ rfl rfl

theorem State.recordFrame_inv {s : State} (h : s.Inv) (nr : s.self.life ≠ .reset) : s.recordFrame.Inv := by
  unfold State.recordFrame
  split
  · next hc => exact State.Inv_setFrames h nr _ fun x => by simp [hc] at x
  · exact h

theorem State.dropFrame_inv {s : State} (h : s.Inv) (nr : s.self.life ≠ .reset) : s.dropFrame.Inv := by
  unfold State.dropFrame
  split
  · next hc => exact State.Inv_setFrames h nr _ fun x => by simp [hc] at x
  · exact h

theorem State.recordFrame_registered (s : State) : s.recordFrame.self.registered = s.self.registered := by
  unfold State.recordFrame
  split <;> rfl

theorem State.dropFrame_registered (s : State) : s.dropFrame.self.registered = s.self.registered := by
  unfold State.dropFrame
  split <;> rfl

theorem State.createFrame_safe {s : State} (h : s.Inv) (hr : s.self.registered = true) : s.createFrame.Safe :=
  Res.Safe.bind (State.push_safe h hr _) fun _ _ ht rt =>
    Res.Safe.bind (State.push_safe ht rt _) fun _ u hu ru =>
      ⟨State.recordFrame_inv (State.Inv_setReg hu (hu.not_reset ru) .fp (u.reg .sp)) (hu.not_reset ru),
        (State.recordFrame_registered _).trans ru⟩

theorem State.destroyFrame_safe {s : State} (h : s.Inv) (hr : s.self.registered = true) : s.destroyFrame.Safe := by
  unfold State.destroyFrame
  split
  · exact ⟨h, hr⟩
  · refine Res.Safe.bind (State.pop_safe h hr) fun v t ht rt => ?_
    refine Res.Safe.bind (State.pop_safe (State.Inv_setReg ht (ht.not_reset rt) .fp v) rt) fun w u hu ru => ?_
    exact ⟨State.dropFrame_inv (State.Inv_setReg hu (hu.not_reset ru) .ip w) (hu.not_reset ru),
      (State.dropFrame_registered _).trans ru⟩

/-- The vector load of RefBackend (R63). -/
theorem State.loadVector_reference {s : State} (ref : s.cfg.backend = .reference) (table : Word) (index : Nat) :
    s.loadVector table index = match refLoadVector s.cfg s.mem table index with
      | .error a => .raise (.backendFault a) s
      | .ok v => .ok v s := by
  unfold State.loadVector Config.backendOf
  rw [ref]
  rfl

/-- A vector load of RefBackend changes nothing (R63, R289). -/
theorem State.loadVector_state {s : State} (ref : s.cfg.backend = .reference) (table : Word) (index : Nat) :
    (s.loadVector table index).state = s := by
  rw [State.loadVector_reference ref]
  split <;> rfl

/-- The vector a served load of RefBackend answers (R63, R289). -/
theorem State.loadVector_ok {s : State} (ref : s.cfg.backend = .reference) {table : Word} {index : Nat}
    (le : vectorAddr table index + 16 ≤ s.cfg.memSize) :
    s.loadVector table index = .ok
      ⟨s.mem.dword (vectorAddr table index), s.mem.dword (vectorAddr table index + 4),
        s.mem.dword (vectorAddr table index + 8), s.mem.dword (vectorAddr table index + 12)⟩ s := by
  have one : ∀ a, a + 4 ≤ s.cfg.memSize → refRead32 s.cfg s.mem a = .ok (s.mem.dword a) := fun a ha => by
    unfold refRead32
    rw [if_neg (by omega)]
  rw [State.loadVector_reference ref]
  unfold refLoadVector
  rw [one _ (by omega), one _ (by omega), one _ (by omega), one _ (by omega)]
  rfl

/-- The vector load of RefBackend faults at the first of the four dwords that is past `MEM_SIZE` (R63, R289). -/
theorem State.loadVector_fault {s : State} (ref : s.cfg.backend = .reference) {table : Word} {index k : Nat}
    (hk : k < 4) (le : k = 0 ∨ vectorAddr table index + 4 * k ≤ s.cfg.memSize)
    (lt : s.cfg.memSize < vectorAddr table index + 4 * k + 4) :
    s.loadVector table index = .raise (.backendFault (vectorAddr table index + 4 * k)) s := by
  have one : ∀ a, a + 4 ≤ s.cfg.memSize → refRead32 s.cfg s.mem a = .ok (s.mem.dword a) := fun a ha => by
    unfold refRead32
    rw [if_neg (by omega)]
  have bad : ∀ a, s.cfg.memSize < a + 4 → refRead32 s.cfg s.mem a = .error a := fun a ha => by
    unfold refRead32
    rw [if_pos (by omega)]
  rw [State.loadVector_reference ref]
  unfold refLoadVector
  obtain rfl | rfl | rfl | rfl : k = 0 ∨ k = 1 ∨ k = 2 ∨ k = 3 := by omega
  · rw [bad _ (by omega)]; rfl
  · rw [one _ (by omega), bad _ (by omega)]; rfl
  · rw [one _ (by omega), one _ (by omega), bad _ (by omega)]; rfl
  · rw [one _ (by omega), one _ (by omega), one _ (by omega), bad _ (by omega)]; rfl

theorem State.loadVector_safe {s : State} (h : s.Inv) (hr : s.self.registered = true) (table : Word) (index : Nat) :
    (s.loadVector table index).Safe := by
  unfold Res.Safe
  rw [State.loadVector_state h.reference]
  exact ⟨h, hr⟩

theorem State.enterInterrupt_safe {s : State} (h : s.Inv) (hr : s.self.registered = true) (table : Word)
    (index : Nat) : (s.enterInterrupt table index).Safe := by
  refine Res.Safe.bind (State.loadVector_safe h hr table index) fun v t ht rt => ?_
  have hsw : (t.swapStack v).Inv :=
    State.Inv_setReg (State.Inv_setReg ht (ht.not_reset rt) _ _) (ht.not_reset rt) _ _
  have save : (State.saveContext (t.reg .ds) (t.reg .sp) (t.swapStack v)).Safe :=
    Res.Safe.bind (State.push_safe hsw rt _) fun _ a ha ra =>
      Res.Safe.bind (State.push_safe ha ra _) fun _ b hb rb => State.pushRegs_safe _ hb rb
  refine Res.Safe.bind save fun _ u hu ru => ?_
  refine Res.Safe.bind (State.createFrame_safe hu ru) fun _ w hw rw => ⟨?_, rw⟩
  have nr := hw.not_reset rw
  exact State.Inv_setReg (State.Inv_setReg
    (State.Inv_setFlags hw nr { w.flags with privileged := true }) nr .cs v.cs) nr .ip v.ip

/-- A memory-structure change without write-back drops copies and nothing else (R92). -/
theorem State.onMemoryStructureChange_drop (s : State) (a size : Nat) :
    s.onMemoryStructureChange a size false = .ok ()
      { s with before := s.before.map (Core.swept s.cfg (.range a size) false true)
               self := s.self.swept s.cfg (.range a size) false true
               after := s.after.map (Core.swept s.cfg (.range a size) false true) } := by
  unfold State.onMemoryStructureChange
  simp only [sweepCores_noWriteback]
  unfold State.withCores State.selfId State.cores
  simp [State.setMem, State.setPages]

/-- A memory-structure change keeps the invariant (R92). -/
theorem State.onMemoryStructureChange_swept {s : State} (h : s.Inv) (a size : Nat) (wb : Bool) :
    ∃ t, s.onMemoryStructureChange a size wb = .ok () t ∧ Swept.Of s t s.cores (.range a size) wb true := by
  have hs : ∀ c ∈ s.cores, entriesServed s.cfg c.dcache := fun c hc =>
    Core.dcacheWf.served (h.dcacheWf c hc) h.reference
  obtain ⟨h1, h2, h3⟩ := sweepCores_served s.cfg s.allocated (.range a size) wb true s.cores s.mem hs
  refine ⟨((s.withCores s.selfId (s.cores.map (Core.swept s.cfg (.range a size) wb true))).setMem
    (sweepCores s.cfg (.range a size) wb true s.allocated s.cores s.mem).mem).setPages s.allocated, ?_, ?_⟩
  · unfold State.onMemoryStructureChange
    simp only [h1, h2, h3]
  · have lt : s.selfId < (s.cores.map (Core.swept s.cfg (.range a size) wb true)).length := by
      simp [State.selfId, State.cores]
    refine ⟨?_, ?_, List.Sublist.refl _, ?_, rfl⟩
    · unfold State.withCores State.setPages State.setMem; split <;> rfl
    · exact h.2.1.2.2.1
    · show List.Forall₂ _ s.cores (State.cores (State.setPages (State.setMem _ _) _))
      have : ∀ (u : State) (m : Memory) (pages : List Nat), ((u.setMem m).setPages pages).cores = u.cores :=
        fun _ _ _ => rfl
      rw [this, State.withCores_cores lt, List.forall₂_map_right_iff, List.forall₂_same]
      exact fun c hc => .inr ⟨hc, rfl⟩

/-- `free_page` of RefBackend (R63). -/
theorem State.freePage_reference {s : State} (ref : s.cfg.backend = .reference) (pg : Nat) :
    s.freePage pg = State.onMemoryStructureChange (pageBase s.cfg pg) s.cfg.pageSize false
      { s with allocated := unmarkPage s.allocated pg } := by
  unfold State.freePage Config.backendOf
  rw [ref]
  rfl

theorem State.freePage_safe {s : State} (h : s.Inv) (hr : s.self.registered = true) (pg : Nat) :
    (s.freePage pg).Safe := by
  have h' : State.Inv { s with allocated := unmarkPage s.allocated pg } :=
    ⟨h.1, ⟨h.2.1.1, h.2.1.2.1, pagesWfAbove_unmark pg h.2.1.2.2.1, h.reference⟩, h.2.2.1, h.2.2.2⟩
  obtain ⟨t, ht, hw⟩ := State.onMemoryStructureChange_swept h' (pageBase s.cfg pg) s.cfg.pageSize false
  have hd := State.onMemoryStructureChange_drop { s with allocated := unmarkPage s.allocated pg }
    (pageBase s.cfg pg) s.cfg.pageSize
  rw [State.freePage_reference h.reference]
  refine ⟨by rw [ht]; exact hw.inv h', ?_⟩
  rw [hd]
  show (Core.swept _ _ _ _ s.self).registered = true
  rw [(Core.thinned_swept ..).registered]
  exact hr

theorem State.leaveStack_safe {s : State} (h : s.Inv) (hr : s.self.registered = true) (oldSp oldDs : Word) :
    (s.leaveStack oldSp oldDs).Safe := by
  have nr := h.not_reset hr
  have h' := State.Inv_setReg (State.Inv_setReg h nr .sp oldSp) nr .ds oldDs
  refine Res.Safe.bind ⟨State.releaseOwn_inv h' _ _ _, ?_⟩ fun _ t ht rt => State.freePage_safe ht rt _
  exact (State.releaseOwn_onlyDataPath _ _ _ _).registered.trans hr

theorem State.exitInterrupt_safe {s : State} (h : s.Inv) (hr : s.self.registered = true) :
    s.exitInterrupt.Safe := by
  refine Res.Safe.bind (State.destroyFrame_safe h hr) fun _ a ha ra => ?_
  refine Res.Safe.bind (State.popRegs_safe _ ha ra) fun _ b hb rb => ?_
  refine Res.Safe.bind (State.pop_safe hb rb) fun _ c hc rc => ?_
  exact Res.Safe.bind (State.pop_safe hc rc) fun _ d hd rd => State.leaveStack_safe hd rd _ _

/-- Whatever a virtual handler given as data does keeps the invariant (R295). -/
theorem performAct_safe (got : List Word) {s : State} (h : s.Inv) (hr : s.self.registered = true) (a : HandlerAct) :
    (performAct got s a).Safe := by
  cases a with
  | setReg r v => exact ⟨State.Inv_setReg h (h.not_reset hr) r _, hr⟩
  | memRead width pa => exact Res.Safe.bind (State.memRead_safe h hr _ _) fun _ _ ht rt => ⟨ht, rt⟩
  | memWrite width pa v => exact Res.Safe.bind (State.memWrite_safe h hr _ _ _) fun _ _ ht rt => ⟨ht, rt⟩
  | push v => exact Res.Safe.bind (State.push_safe h hr _) fun _ _ ht rt => ⟨ht, rt⟩
  | pop => exact Res.Safe.bind (State.pop_safe h hr) fun _ _ ht rt => ⟨ht, rt⟩
  | raise f => exact ⟨h, hr⟩

theorem runActs_safe (acts : List HandlerAct) (got : List Word) {s : State} (h : s.Inv)
    (hr : s.self.registered = true) : (runActs acts got s).Safe := by
  induction acts generalizing got s with
  | nil => exact ⟨h, hr⟩
  | cons a rest ih => exact Res.Safe.bind (performAct_safe got h hr a) fun new t ht rt => ih _ ht rt

theorem State.doInt_safe {s : State} (h : s.Inv) (hr : s.self.registered = true) (keep : s.cfg.handlersKeep)
    (index : Half) : (s.doInt index).Safe := by
  unfold State.doInt
  split
  · next x hx =>
    cases x with
    | given acts => exact runActs_safe acts [] h hr
    | free n => exact keep index n hx s h hr
  · exact State.enterInterrupt_safe h hr _ _

/-- The instruction cache may hold any well-formed list of entries. -/
theorem State.Inv_setIcache {s : State} (h : s.Inv) (nr : s.self.life ≠ .reset) (c : List IEntry)
    (wf : Core.icacheWf s.cfg { s.self with icache := c }) : (s.setIcache c).Inv := by
  obtain ⟨w1, _, w3, w4, w5, _, w7⟩ := (State.Inv_iff.mp h).2.2.1
  exact State.Inv_self h { s.self with icache := c } ⟨w1, wf, w3, w4, w5, fun x => absurd x nr, w7⟩ rfl rfl

/-- What a table decodes is an instruction of it (R132, R151). -/
theorem Config.decodeInsn_ofTable {cfg : Config} {iset : Nat} {w : Word} {i : Insn}
    (h : cfg.decodeInsn iset w = some i) : i.ofTable cfg.table = true := by
  unfold Config.decodeInsn at h
  split at h
  · next e =>
    rw [e]
    split at h
    · injection h with h
      rw [← h]
      rfl
    · cases h
  · next e =>
    rw [e]
    rfl

theorem State.iget_safe {s : State} (h : s.Inv) (hr : s.self.registered = true) (pa : Nat) : (s.iget pa).Safe := by
  have nr := h.not_reset hr
  obtain ⟨_, ⟨l1, l2, l3⟩, _⟩ := (State.Inv_iff.mp h).2.2.1
  unfold State.iget
  split
  · next al =>
    split
    · next e hf =>
      have he : e ∈ s.self.icache ∧ e.addr = pa :=
        ⟨List.mem_of_find?_eq_some hf, by simpa using List.find?_some hf⟩
      refine ⟨State.Inv_setIcache h nr _ ⟨?_, ?_, ?_⟩, hr⟩
      · have : (icacheWithout s.self.icache pa).length < s.self.icache.length := by
          unfold icacheWithout
          exact List.length_filter_lt_length_iff_exists.mpr ⟨e, he.1, by simp [he.2]⟩
        simp only [List.length_append, List.length_cons, List.length_nil]; omega
      · simp only [List.map_append, List.map_cons, List.map_nil]
        rw [List.nodup_append]
        refine ⟨List.Sublist.nodup (List.Sublist.map _ List.filter_sublist) l2, by simp, ?_⟩
        intro x hx y hy
        simp only [List.mem_map, List.mem_singleton] at hx hy
        obtain ⟨f, hf, rfl⟩ := hx
        unfold icacheWithout at hf
        rw [hy, he.2]
        simpa using (List.mem_filter.mp hf).2
      · intro f hf
        simp only [List.mem_append, List.mem_singleton] at hf
        rcases hf with hf | rfl
        · exact l3 f (List.mem_of_mem_filter hf)
        · exact l3 f he.1
    · next hf =>
      by_cases le : pa + 4 ≤ s.cfg.memSize
      · rw [s.bread32_ok h.reference le, Res.bind_ok]
        have miss : ∀ e ∈ s.self.icache, e.addr ≠ pa := by
          unfold icacheFind at hf
          rw [List.find?_eq_none] at hf
          exact fun e he => by simpa using hf e he
        have pos : 1 ≤ s.cfg.icacheSize := by
          have := h.1
          unfold Config.wf at this
          simp only [Bool.and_eq_true, decide_eq_true_eq] at this
          exact this.1.1.1.2
        split
        · next i hd =>
          have sub : (if s.self.icache.length = s.cfg.icacheSize then s.self.icache.drop 1
              else s.self.icache).Sublist s.self.icache := by
            split
            · exact List.drop_sublist ..
            · exact List.Sublist.refl _
          refine ⟨State.Inv_setIcache h nr _ ⟨?_, ?_, ?_⟩, hr⟩
          · unfold icacheInsert
            split
            · simp; omega
            · simp; omega
          · unfold icacheInsert
            simp only [List.map_append, List.map_cons, List.map_nil]
            rw [List.nodup_append]
            refine ⟨(sub.map _).nodup l2, by simp, ?_⟩
            intro x hx y hy
            simp only [List.mem_map, List.mem_singleton] at hx hy
            obtain ⟨f, hf, rfl⟩ := hx
            rw [hy]; exact miss f (sub.subset hf)
          · intro f hf
            unfold icacheInsert at hf
            simp only [List.mem_append, List.mem_singleton] at hf
            rcases hf with hf | rfl
            · exact l3 f (sub.subset hf)
            · exact ⟨al, le, Config.decodeInsn_ofTable hd⟩
        · exact ⟨h, hr⟩
      · rw [s.bread32_past h.reference (by omega)]
        exact ⟨h, hr⟩
  · exact ⟨h, hr⟩

/-- The instruction that a fetch on a well-formed machine answers is one of the machine's table (R153). -/
theorem State.fetch_ofTable {s t : State} {i : Insn} (h : s.Inv) (e : s.fetch = .ok i t) :
    i.ofTable s.cfg.table = true := by
  obtain ⟨_, ⟨_, _, l3⟩, _⟩ := (State.Inv_iff.mp h).2.2.1
  unfold State.fetch State.iget at e
  split at e
  · split at e
    · next x hx =>
      cases e
      exact (l3 _ (List.mem_of_find?_eq_some hx)).2.2
    · cases r : s.bread32 s.fetchAddr with
      | raise f u => rw [r] at e; cases e
      | ok w u =>
        have hc : u.cfg = s.cfg := by
          have := State.fromRead_state (s := s) s.fetchAddr (s.mem.bread32 s.cfg s.allocated s.fetchAddr)
          rw [show s.fromRead _ _ = _ from r] at this
          exact congrArg State.cfg this
        rw [r, Res.bind_ok] at e
        split at e
        · next j hd =>
          cases e
          exact hc ▸ Config.decodeInsn_ofTable hd
        · cases e
  · cases e

theorem State.fetch_safe {s : State} (h : s.Inv) (hr : s.self.registered = true) : s.fetch.Safe :=
  Res.Safe.bind (State.iget_safe h hr _) fun _ _ ht rt => ⟨State.Inv_setReg ht (ht.not_reset rt) _ _, rt⟩

/-- The end of a step keeps the invariant (R150 step 3). -/
theorem Res.Safe.finish_inv {r : Res Unit} (h : r.Safe) {t : State} (e : r.finish = .next t) : t.Inv := by
  cases r with
  | ok a u =>
    rw [Res.finish_ok] at e
    injection e with e
    rw [← e]
    exact State.Inv_setReg h.1 (h.1.not_reset h.2) _ _
  | raise f u =>
    rw [Res.finish_raise] at e
    injection e with e
    rw [← e]
    exact (State.die_inv h.1 f).1

end Sys2Proof.Machine
end

