-- ==== Sys2Proof/Laws/AccessFaults.lean ====
section
/-! SUPPORT. Accesses past `MEM_SIZE` on a well-formed machine (R62, R63, R285): the granule that is reported, and that
only the data path is touched by then. -/

namespace Sys2Proof.Machine

variable {s : State}

theorem State.memRead_byte_fault (h : s.Inv) {pa : Nat} (lt : s.cfg.memSize < granule pa + 2) :
    ∃ t, s.memRead .byte pa = .raise (.backendFault (granule pa)) t ∧ State.Reads s t := by
  obtain ⟨t, h1, h2⟩ := State.dread16_fault h lt
  exact ⟨t, by unfold State.memRead; dsimp only; rw [h1]; rfl, h2⟩

theorem State.memRead_word_fault (h : s.Inv) {pa : Nat} (al : pa % 2 = 0) (lt : s.cfg.memSize < pa + 2) :
    ∃ t, s.memRead .word pa = .raise (.backendFault pa) t ∧ State.Reads s t := by
  obtain ⟨t, h1, h2⟩ := State.dread16_fault h lt
  exact ⟨t, by unfold State.memRead; dsimp only; rw [if_pos al, h1]; rfl, h2⟩

/-- Of a dword the first granule is read before the second. -/
theorem State.memRead_dword_fault (h : s.Inv) (rs : s.self.registered = true) {pa : Nat} (al : pa % 4 = 0)
    (lt : s.cfg.memSize < pa + 4) :
    ∃ t, s.memRead .dword pa = .raise (.backendFault (firstFault s.cfg pa)) t
      ∧ State.Reads s t := by
  unfold State.memRead firstFault
  dsimp only
  rw [if_pos al]
  by_cases c : s.cfg.memSize < pa + 2
  · obtain ⟨t, h1, h2⟩ := State.dread16_fault h c
    exact ⟨t, by rw [h1, if_pos c]; rfl, h2⟩
  · obtain ⟨t, h1, h2⟩ := State.dread16_ok h rs (a := pa) (by omega) (by omega)
    obtain ⟨u, h3, h4⟩ := State.dread16_fault h2.inv (a := pa + 2) (by rw [h2.frame.cfg]; omega)
    exact ⟨u, by rw [h1, Res.bind_ok, h3, if_neg c]; rfl, h2.trans h4⟩

theorem State.memWrite_byte_fault (h : s.Inv) {pa : Nat} (lt : s.cfg.memSize < granule pa + 2) (v : Word) :
    ∃ t, s.memWrite .byte pa v = .raise (.backendFault (granule pa)) t ∧ State.Reads s t := by
  obtain ⟨t, h1, h2⟩ := State.dread16_fault h lt
  exact ⟨t, by unfold State.memWrite; dsimp only; rw [h1]; rfl, h2⟩

theorem State.memWrite_word_fault (h : s.Inv) {pa : Nat} (al : pa % 2 = 0) (lt : s.cfg.memSize < pa + 2) (v : Word) :
    ∃ t, s.memWrite .word pa v = .raise (.backendFault pa) t ∧ State.Reads s t := by
  obtain ⟨t, h1, h2⟩ := State.dwrite16_fault h lt (v.extractLsb' 0 16)
  exact ⟨t, by unfold State.memWrite; dsimp only; rw [if_pos al, h1], h2⟩

/-- Of a dword the first granule is stored before the second is written: where the second alone faults, the first
stays stored (R71). -/
theorem State.memWrite_dword_fault (h : s.Inv) (rs : s.self.registered = true) {pa : Nat} (al : pa % 4 = 0)
    (lt : s.cfg.memSize < pa + 4) (v : Word) :
    ∃ t, s.memWrite .dword pa v = .raise (.backendFault (firstFault s.cfg pa)) t
      ∧ s.onlyDataPath t
      ∧ (s.cfg.memSize < pa + 2 → s.sameBytes t)
      ∧ (¬ s.cfg.memSize < pa + 2 → s.sameBytesBut t pa 2 ∧ t.granuleNow pa = v.extractLsb' 0 16) := by
  unfold State.memWrite firstFault
  dsimp only
  rw [if_pos al]
  by_cases c : s.cfg.memSize < pa + 2
  · obtain ⟨t, h1, h2⟩ := State.dwrite16_fault h c (v.extractLsb' 0 16)
    exact ⟨t, by rw [h1, if_pos c]; rfl, h2.frame, fun _ => h2.sameBytes, fun n => absurd c n⟩
  · obtain ⟨t, h1, h2⟩ := State.dwrite16_ok h rs (a := pa) (by omega) (by omega) (v.extractLsb' 0 16)
    obtain ⟨u, h3, h4⟩ := State.dwrite16_fault h2.inv (a := pa + 2) (by rw [h2.frame.cfg]; omega)
      (v.extractLsb' 16 16)
    refine ⟨u, by rw [h1, Res.bind_ok, h3, if_neg c], State.onlyDataPath_trans h2.frame h4.frame,
      fun n => absurd n c, fun _ => ⟨fun b hb => ?_, ?_⟩⟩
    · rw [h4.sameBytes b, h2.sameBytesBut (by omega) b hb]
    · rw [h4.now pa (by omega), h2.now]

end Sys2Proof.Machine
end

