-- ==== Sys2Proof/Laws/Stack.lean ====
section
/-! SUPPORT. Rows of pushes and pops, stack frames, interrupt entry and exit on a well-formed machine (R75, R245, R246,
R290, R293): what each leaves in the registers and in the current bytes, where every slot is served. -/

namespace Sys2Proof.Machine

/-! ## Slots -/

theorem physAddr_mod4 (seg off : Word) : physAddr seg off % 4 = off.toNat % 4 := by
  unfold physAddr segShift
  rw [BitVec.toNat_add, BitVec.toNat_shiftLeft]
  simp only [Nat.shiftLeft_eq]
  omega

theorem physAddr_inj {seg a b : Word} (h : physAddr seg a = physAddr seg b) : a = b := by
  unfold physAddr at h
  exact add_left_cancel (BitVec.eq_of_toNat_eq h)

/-- Two slots of one row are apart, so a dword stored in one leaves the other. -/
theorem slot_apart {cfg : Config} {ds sp : Word} {j k : Nat} (hj : j < 2 ^ 20) (hk : k < 2 ^ 20) (ne : j ≠ k)
    (sj : serves cfg .dword (slot ds sp j)) (sk : serves cfg .dword (slot ds sp k)) :
    slot ds sp j + 4 ≤ slot ds sp k ∨ slot ds sp k + 4 ≤ slot ds sp j := by
  have h1 := sj.1
  have h2 := sk.1
  simp only [accessBytes] at h1 h2
  have hne : slot ds sp j ≠ slot ds sp k := by
    intro h
    have := physAddr_inj h
    have e := congrArg BitVec.toNat this
    have hsp := sp.isLt
    simp only [BitVec.toNat_sub, BitVec.toNat_ofNat] at e
    omega
  omega

/-! ## Pushes -/

/-- `u` is `s` with the values of a row of pushes in their slots, nothing else changed but caches; `SP` is not moved
yet. -/
structure State.Pushed (s u : State) (vs : List Word) : Prop where
  frame : s.onlyDataPath u
  inv : u.Inv
  slots : ∀ k (h : k < vs.length), u.dwordNow (slot (s.reg .ds) (s.reg .sp) k) = vs[k]
  rest : ∀ a, outsideSlots (s.reg .ds) (s.reg .sp) vs.length a → u.byteNow a = s.byteNow a

theorem State.Pushed.nil {s : State} (h : s.Inv) : State.Pushed s s [] :=
  ⟨State.onlyDataPath_refl s, h, fun k hk => by simp at hk, fun _ _ => rfl⟩

/-- The state after a row of `n` pushes of which `u` holds the slots. -/
def State.moved (s u : State) (n : Nat) : State := u.setReg .sp (s.reg .sp - BitVec.ofNat 32 (4 * n))

theorem State.moved_zero (s : State) : State.moved s s 0 = s := by
  unfold State.moved State.setReg State.setRegs State.reg
  simp [Regs.read, Regs.write]

theorem word_sub_step (a : Word) (n : Nat) :
    a - BitVec.ofNat 32 (4 * n) - 4 = a - BitVec.ofNat 32 (4 * (n + 1)) := by
  have : BitVec.ofNat 32 (4 * (n + 1)) = BitVec.ofNat 32 (4 * n) + 4 := by
    rw [Nat.mul_add, BitVec.ofNat_add]; rfl
  rw [this, sub_sub]

/-- One more push of a row (R75). -/
theorem State.Pushed.push {s u : State} {vs : List Word} (h : State.Pushed s u vs)
    (rs : s.self.registered = true) (short : vs.length < 2 ^ 20) (v : Word)
    (ok : slotsServed s.cfg (s.reg .ds) (s.reg .sp) (vs.length + 1)) :
    ∃ w, (s.moved u vs.length).push v = .ok () (s.moved w (vs.length + 1)) ∧ State.Pushed s w (vs ++ [v]) := by
  have ru : u.self.registered = true := h.frame.registered.trans rs
  have nu := h.inv.not_reset ru
  have ti : (s.moved u vs.length).Inv := State.Inv_setReg h.inv nu _ _
  have hds : (s.moved u vs.length).reg .ds = s.reg .ds := h.frame.reg .ds
  have hsp : (s.moved u vs.length).reg .sp = s.reg .sp - BitVec.ofNat 32 (4 * vs.length) := rfl
  have haddr : (s.moved u vs.length).pushAddr = slot (s.reg .ds) (s.reg .sp) vs.length := by
    unfold State.pushAddr slot
    rw [hds, hsp, word_sub_step]
  have hcfg : (s.moved u vs.length).cfg = s.cfg := h.frame.cfg
  obtain ⟨x, h1, h2⟩ := State.push_ok ti ru v (by rw [haddr, hcfg]; exact ok _ (by omega))
  rw [haddr] at h2
  have rx : x.self.registered = true := h2.frame.registered.trans ru
  refine ⟨x.setReg .sp (s.reg .sp), ?_, ?_, State.Inv_setReg h2.inv (h2.inv.not_reset rx) _ _, ?_, ?_⟩
  · rw [h1, hsp, word_sub_step]
    rfl
  · obtain ⟨a1, a0, a2, a3, a4⟩ := h.frame
    obtain ⟨b1, b0, b2, b3, b4⟩ := h2.frame
    have hc : u.cfg = s.cfg := h.frame.cfg
    have hregs : (x.setReg .sp (s.reg .sp)).self.regs = s.self.regs := by
      show x.self.regs.write .sp _ = _
      rw [h2.frame.regs]
      show (u.self.regs.write .sp _).write .sp _ = _
      rw [h.frame.regs]
      rfl
    refine ⟨?_, fun r => (b0 (hc.symm ▸ r)).trans (a0 r), ?_, forall₂_onlyDcache_trans a3 b3, forall₂_onlyDcache_trans a4 b4⟩
    · show (x.setReg .sp (s.reg .sp)) = _
      conv_lhs => rw [State.setReg, State.setRegs, b1]
      unfold State.moved State.setReg State.setRegs
      conv_lhs => rw [a1]
    · unfold Core.onlyDcache
      show { x.self with regs := (x.setReg .sp (s.reg .sp)).self.regs } = _
      rw [hregs]
      conv_lhs => rw [b2]
      show { u.self with regs := s.self.regs, dcache := x.self.dcache } = _
      conv_lhs => rw [a2]
      rfl
  · intro k hk
    rw [State.dwordNow_setReg]
    simp only [List.length_append, List.length_cons, List.length_nil] at hk
    by_cases q : k = vs.length
    · subst q
      rw [List.getElem_append_right (Nat.le_refl _)]
      simpa [State.valueNow, lowBits] using h2.now
    · have lt : k < vs.length := by omega
      have := slot_apart (cfg := s.cfg) (ds := s.reg .ds) (sp := s.reg .sp) (j := k) (k := vs.length)
        (by omega) short q (ok k (by omega)) (ok _ (by omega))
      have al := (ok k (by omega)).1
      simp only [accessBytes] at al
      rw [List.getElem_append_left lt, ← h.slots k lt]
      rw [State.dwordNow_of_sameBytesBut h2.rest (by omega) (by simp only [accessBytes]; omega)]
      exact State.dwordNow_setReg ..
  · intro a ha
    simp only [List.length_append, List.length_cons, List.length_nil] at ha
    rw [State.byteNow_setReg, h2.rest a (by simpa [accessBytes] using ha vs.length (by omega))]
    rw [← h.rest a (fun k hk => ha k (by omega))]
    exact State.byteNow_setReg ..

theorem State.Pushed.moved_reg {s u : State} {vs : List Word} (h : State.Pushed s u vs) {r : Reg} (ne : r ≠ .sp)
    (n : Nat) : (s.moved u n).reg r = s.reg r := by
  unfold State.moved
  rw [State.reg_setReg_ne _ _ _ _ ne, h.frame.reg]

/-- A row of register pushes (R290). -/
theorem State.Pushed.pushRegs {s : State} (rs : s.self.registered = true) :
    ∀ (qs : List Reg) {u : State} {vs : List Word}, State.Pushed s u vs → (∀ r ∈ qs, r ≠ .sp) →
      vs.length + qs.length < 2 ^ 20 →
      slotsServed s.cfg (s.reg .ds) (s.reg .sp) (vs.length + qs.length) →
      ∃ w, State.pushRegs qs (s.moved u vs.length) = .ok () (s.moved w (vs.length + qs.length))
        ∧ State.Pushed s w (vs ++ qs.map s.reg) := by
  intro qs
  induction qs with
  | nil => intro u vs h _ _ _; exact ⟨u, rfl, by simpa using h⟩
  | cons r rest ih =>
    intro u vs h ne short ok
    simp only [List.length_cons] at short ok
    obtain ⟨w, h1, h2⟩ := h.push rs (by omega) (s.reg r) fun k hk => ok k (by omega)
    obtain ⟨x, h3, h4⟩ := ih h2 (fun q hq => ne q (List.mem_cons_of_mem _ hq))
      (by simp only [List.length_append, List.length_cons, List.length_nil]; omega)
      (by simp only [List.length_append, List.length_cons, List.length_nil]; intro k hk; exact ok k (by omega))
    refine ⟨x, ?_, by simpa using h4⟩
    unfold State.pushRegs
    rw [h.moved_reg (ne r (List.mem_cons_self ..)), h1, Res.bind_ok]
    simp only [List.length_append, List.length_cons, List.length_nil] at h3
    rw [h3]
    simp only [List.length_cons]
    congr 2
    omega

/-! ## Pops -/

/-- A pop from a state whose registers are `g` and whose bytes are those of `s` (R75). -/
theorem State.Reads.pop {s u : State} (h : State.Reads s u) (rs : s.self.registered = true) (g : Regs)
    (ok : serves s.cfg .dword (physAddr g.ds g.sp)) :
    ∃ w, (u.setRegs g).pop = .ok (s.dwordNow (physAddr g.ds g.sp)) (w.setRegs { g with sp := g.sp + 4 })
      ∧ State.Reads s w := by
  have ru : u.self.registered = true := h.frame.registered.trans rs
  have nu := h.inv.not_reset ru
  have ti : (u.setRegs g).Inv := State.Inv_setRegs h.inv nu g
  have al := ok.1
  simp only [accessBytes] at al
  obtain ⟨x, h1, h2⟩ := State.pop_ok ti ru (by
    show serves u.cfg .dword (physAddr g.ds g.sp)
    rw [h.frame.cfg]; exact ok)
  have rx : x.self.registered = true := h2.frame.registered.trans ru
  refine ⟨x.setRegs s.self.regs, ?_, ?_, State.Inv_setRegs h2.inv (h2.inv.not_reset rx) _, ?_⟩
  · rw [h1]
    have e1 : (u.setRegs g).dwordNow (u.setRegs g).popAddr = s.dwordNow (physAddr g.ds g.sp) := by
      show (u.setRegs g).dwordNow (physAddr g.ds g.sp) = _
      rw [← h.dwordNow (a := physAddr g.ds g.sp) (by omega)]
      unfold State.dwordNow
      simp
    rw [e1]
    congr 1
    show x.setRegs (x.self.regs.write .sp _) = x.setRegs _
    rw [h2.frame.regs]
    rfl
  · obtain ⟨a1, a0, a2, a3, a4⟩ := h.frame
    obtain ⟨b1, b0, b2, b3, b4⟩ := h2.frame
    have hc : u.cfg = s.cfg := h.frame.cfg
    refine ⟨?_, fun r => (b0 (hc.symm ▸ r)).trans (a0 r), ?_, forall₂_onlyDcache_trans a3 b3, forall₂_onlyDcache_trans a4 b4⟩
    · conv_lhs => rw [State.setRegs, b1]
      unfold State.setRegs
      conv_lhs => rw [a1]
    · unfold Core.onlyDcache
      show { x.self with regs := s.self.regs } = _
      conv_lhs => rw [b2]
      show { u.self with regs := s.self.regs, dcache := x.self.dcache } = _
      conv_lhs => rw [a2]
      rfl
  · intro b hb
    rw [State.granuleNow_setRegs, h2.now b hb, State.granuleNow_setRegs, h.now b hb]

/-- The registers after a row of pops into registers, the slots read through `m` (R75, R293). -/
def Regs.popAll (m : Nat → Word) : List Reg → Regs → Regs
  | [], g => g
  | r :: rest, g => Regs.popAll m rest ({ g with sp := g.sp + 4 }.write r (m (physAddr g.ds g.sp)))

/-- Every slot of a row of pops into registers is served. -/
def Regs.popsServed (cfg : Config) (m : Nat → Word) : List Reg → Regs → Prop
  | [], _ => True
  | r :: rest, g => serves cfg .dword (physAddr g.ds g.sp)
      ∧ Regs.popsServed cfg m rest ({ g with sp := g.sp + 4 }.write r (m (physAddr g.ds g.sp)))

theorem State.Reads.popRegs {s : State} (rs : s.self.registered = true) :
    ∀ (qs : List Reg) {u : State} (g : Regs), State.Reads s u → Regs.popsServed s.cfg s.dwordNow qs g →
      ∃ w, State.popRegs qs (u.setRegs g) = .ok () (w.setRegs (Regs.popAll s.dwordNow qs g)) ∧ State.Reads s w := by
  intro qs
  induction qs with
  | nil => intro u g h _; exact ⟨u, rfl, h⟩
  | cons r rest ih =>
    intro u g h ok
    obtain ⟨w, h1, h2⟩ := h.pop rs g ok.1
    obtain ⟨x, h3, h4⟩ := ih _ h2 ok.2
    refine ⟨x, ?_, h4⟩
    unfold State.popRegs
    rw [h1, Res.bind_ok]
    exact h3

/-- The registers of a state, written back. -/
theorem State.setRegs_self (s : State) : s.setRegs s.self.regs = s := rfl

/-! ## Frames -/

theorem State.pushed_reg {s u : State} (h : s.onlyDataPath u) (n : Nat) {r : Reg} (ne : r ≠ .sp) :
    (s.moved u n).reg r = s.reg r := by
  unfold State.moved
  rw [State.reg_setReg_ne _ _ _ _ ne, h.reg]

/-- `create_frame()` (R245), served, after a row of pushes of which `u` holds the slots: the return address and the
old `FP` in the next two slots, `FP` at the lower one, and the record appended where frames are kept. -/
theorem State.Pushed.createFrame {s u : State} {vs : List Word} (h : State.Pushed s u vs)
    (rs : s.self.registered = true) (short : vs.length + 2 < 2 ^ 20)
    (ok : slotsServed s.cfg (s.reg .ds) (s.reg .sp) (vs.length + 2)) :
    ∃ w, (s.moved u vs.length).createFrame = .ok ()
        (State.recordFrame ((s.moved w (vs.length + 2)).setReg .fp
          (s.reg .sp - BitVec.ofNat 32 (4 * (vs.length + 2)))))
      ∧ State.Pushed s w (vs ++ [s.reg .ip, s.reg .fp]) := by
  obtain ⟨w, h1, h2⟩ := h.push rs (by omega) (s.reg .ip) fun k hk => ok k (by omega)
  obtain ⟨x, h3, h4⟩ := h2.push rs (by simp; omega) (s.reg .fp) fun k hk =>
    ok k (by simp only [List.length_append, List.length_cons, List.length_nil] at hk; omega)
  simp only [List.length_append, List.length_cons, List.length_nil, Nat.zero_add] at h3
  refine ⟨x, ?_, by simpa using h4⟩
  unfold State.createFrame
  rw [h.moved_reg (by decide), h1, Res.bind_ok, h2.moved_reg (by decide), h3, Res.bind_ok]
  rfl

/-- `destroy_frame()` (R246), served, the check passed: `FP` and `IP` come from the two slots, and the record goes
where frames are kept. -/
theorem State.destroyFrame_ok {s : State} (h : s.Inv) (rs : s.self.registered = true)
    (pass : s.cfg.checkFrames = true → s.frameMatches = true)
    (ok : popSlotsServed s.cfg (s.reg .ds) (s.reg .sp) 2) :
    ∃ w, State.Reads s w ∧ s.destroyFrame = .ok () (State.dropFrame (w.setRegs { s.self.regs with
        fp := s.dwordNow (popSlot (s.reg .ds) (s.reg .sp) 0)
        ip := s.dwordNow (popSlot (s.reg .ds) (s.reg .sp) 1)
        sp := s.reg .sp + 8 })) := by
  have e0 : popSlot (s.reg .ds) (s.reg .sp) 0 = physAddr s.self.regs.ds s.self.regs.sp := by
    unfold popSlot; simp; rfl
  have e1 : popSlot (s.reg .ds) (s.reg .sp) 1 = physAddr s.self.regs.ds (s.self.regs.sp + 4) := rfl
  obtain ⟨w, h1, h2⟩ := (State.Reads.refl h).pop rs s.self.regs (by rw [← e0]; exact ok 0 (by omega))
  rw [State.setRegs_self] at h1
  have hfp : (w.setRegs { s.self.regs with sp := s.self.regs.sp + 4 }).setReg .fp
      (s.dwordNow (physAddr s.self.regs.ds s.self.regs.sp)) = w.setRegs { s.self.regs with
        sp := s.self.regs.sp + 4, fp := s.dwordNow (physAddr s.self.regs.ds s.self.regs.sp) } := rfl
  obtain ⟨x, h3, h4⟩ := h2.pop rs { s.self.regs with
        sp := s.self.regs.sp + 4, fp := s.dwordNow (physAddr s.self.regs.ds s.self.regs.sp) }
    (by rw [← e1]; exact ok 1 (by omega))
  refine ⟨x, h4, ?_⟩
  unfold State.destroyFrame
  have cond : (s.cfg.checkFrames && !s.frameMatches) = false := by
    cases hc : s.cfg.checkFrames
    · rfl
    · rw [pass hc]; rfl
  rw [cond]
  simp only [Bool.false_eq_true, if_false]
  rw [h1, Res.bind_ok, hfp, h3, Res.bind_ok, e0, e1]
  congr 2
  show x.setRegs _ = x.setRegs _
  congr 1
  simp only [Regs.write]
  congr 1
  show s.self.regs.sp + 4 + 4 = s.self.regs.sp + 8
  rw [BitVec.add_assoc]
  rfl

end Sys2Proof.Machine
end

