-- ==== Sys2Proof/Laws/Interrupts.lean ====
section
/-! SUPPORT. Interrupt entry and exit on a well-formed machine (R290, R291, R293), where the vector and every slot are
served: one lemma for each says all it leaves. -/

namespace Sys2Proof.Machine

/-- The pushes of `enter_interrupt` before the frame (R290). -/
theorem State.saveContext_ok {s : State} (h : s.Inv) (rs : s.self.registered = true) (oldDs oldSp : Word)
    (ok : slotsServed s.cfg (s.reg .ds) (s.reg .sp) 12) :
    ∃ w, s.saveContext oldDs oldSp = .ok () (s.moved w 12)
      ∧ State.Pushed s w (oldDs :: oldSp :: (.cs :: .flags :: generalRegs).map s.reg) := by
  obtain ⟨w, h1, h2⟩ := (State.Pushed.nil h).push rs (by simp) oldDs fun k hk => ok k (by simp at hk; omega)
  rw [show ([] : List Word).length = 0 from rfl, State.moved_zero] at h1
  obtain ⟨x, h3, h4⟩ := h2.push rs (by simp) oldSp fun k hk => ok k (by simp at hk; omega)
  obtain ⟨y, h5, h6⟩ := h4.pushRegs rs (.cs :: .flags :: generalRegs) (by decide) (by simp [generalRegs])
    fun k hk => ok k (by simpa [generalRegs] using hk)
  refine ⟨y, ?_, by simpa using h6⟩
  unfold State.saveContext
  simp only [List.length_nil, List.nil_append, List.length_cons, Nat.zero_add] at h1 h3 h5
  rw [h1, Res.bind_ok, h3, Res.bind_ok]
  exact h5

/-- `enter_interrupt(table, index)` (R290), served. -/
theorem State.enterInterrupt_ok {s : State} (h : s.Inv) (rs : s.self.registered = true) {table : Word}
    {index : Nat} (le : vectorAddr table index + 16 ≤ s.cfg.memSize)
    (ok : slotsServed s.cfg (s.vectorIn table index).ds (s.vectorIn table index).sp 14) :
    ∃ w, State.Pushed (s.swapStack (s.vectorIn table index)) w s.context
      ∧ s.enterInterrupt table index = .ok () (State.enterHandler (s.vectorIn table index) (State.recordFrame
          (((s.swapStack (s.vectorIn table index)).moved w 14).setReg .fp
            ((s.vectorIn table index).sp - BitVec.ofNat 32 56)))) := by
  generalize hv : s.vectorIn table index = v at ok ⊢
  have nr := h.not_reset rs
  have hi : (s.swapStack v).Inv := State.Inv_setReg (State.Inv_setReg h nr .ds v.ds) nr .sp v.sp
  have hds : (s.swapStack v).reg .ds = v.ds := rfl
  have hsp : (s.swapStack v).reg .sp = v.sp := rfl
  obtain ⟨w, h1, h2⟩ := State.saveContext_ok (s := s.swapStack v) hi rs (s.reg .ds) (s.reg .sp)
    (fun k hk => ok k (by omega))
  obtain ⟨x, h3, h4⟩ := h2.createFrame rs (by simp [generalRegs])
    (fun k hk => ok k (by simpa [generalRegs] using hk))
  simp only [List.length_cons, List.length_map, generalRegs, List.length_nil, Nat.zero_add] at h3
  refine ⟨x, h4, ?_⟩
  unfold State.enterInterrupt
  rw [State.loadVector_ok h.reference le, Res.bind_ok]
  have hv' : (⟨s.mem.dword (vectorAddr table index), s.mem.dword (vectorAddr table index + 4),
    s.mem.dword (vectorAddr table index + 8), s.mem.dword (vectorAddr table index + 12)⟩ : Vec) = v := hv
  rw [hv', h1, Res.bind_ok, h3, Res.bind_ok]
  rfl

/-- The registers `exit_interrupt` restores from fourteen values, the last pushed first (R293). -/
def Regs.restored (g : Regs) (m : Nat → Word) : Regs where
  fp := m 0
  ip := m 1
  r7 := m 2
  r6 := m 3
  r5 := m 4
  r4 := m 5
  r3 := m 6
  r2 := m 7
  r1 := m 8
  r0 := m 9
  flags := Flags.ofWord (m 10)
  cs := m 11
  sp := m 12
  ds := m 13
  cnt := g.cnt

/-- The page of a granule in terms of its base (R63). -/
theorem range_page {cfg : Config} (pos : 1 ≤ cfg.pageSize) (pg x : Nat) :
    (Selector.range (pageBase cfg pg) cfg.pageSize).hits cfg x = (Selector.page pg).hits cfg x := by
  unfold Selector.hits pageBase pageIndex
  rw [Bool.eq_iff_iff]
  simp only [Bool.and_eq_true, decide_eq_true_eq, beq_iff_eq]
  rw [Nat.div_eq_iff (by omega)]
  constructor
  · rintro ⟨h1, h2⟩; exact ⟨h1, by omega⟩
  · rintro ⟨h1, h2⟩; exact ⟨h1, by omega⟩

theorem Config.wf_pageSize {cfg : Config} (h : cfg.wf = true) : 64 ≤ cfg.pageSize := by
  unfold Config.wf at h
  simp only [Bool.and_eq_true, decide_eq_true_eq] at h
  exact h.1.1.2

theorem Core.onlyDcache_fields {c d : Core} (h : c.onlyDcache d) :
    d.registered = c.registered ∧ d.regs = c.regs := by
  rw [h]; exact ⟨rfl, rfl⟩

/-- `free_page` (R63): the page is not allocated, and no registered core holds any of it; every other granule keeps
its current value. -/
theorem State.freePage_ok {s : State} (h : s.Inv) (pg : Nat) :
    ∃ t, s.freePage pg = .ok () t ∧ t.Inv ∧ t.allocated = unmarkPage s.allocated pg
      ∧ State.onlyDataPath { s with allocated := unmarkPage s.allocated pg } t
      ∧ (∀ b, b % 2 = 0 → pageIndex s.cfg b ≠ pg → t.granuleNow b = s.granuleNow b)
      ∧ ∀ c ∈ t.cores, c.registered = true → ∀ e ∈ c.dcache, pageIndex s.cfg e.addr ≠ pg := by
  have pos : 1 ≤ s.cfg.pageSize := by have := Config.wf_pageSize h.1; omega
  have h' : State.Inv { s with allocated := unmarkPage s.allocated pg } :=
    ⟨h.1, ⟨h.2.1.1, h.2.1.2.1, pagesWfAbove_unmark pg h.2.1.2.2.1, h.reference⟩, h.2.2.1, h.2.2.2⟩
  obtain ⟨t, ht, hw⟩ := State.onMemoryStructureChange_swept h' (pageBase s.cfg pg) s.cfg.pageSize false
  have hd := State.onMemoryStructureChange_drop { s with allocated := unmarkPage s.allocated pg }
    (pageBase s.cfg pg) s.cfg.pageSize
  rw [ht] at hd
  injection hd with _ hd
  refine ⟨t, (State.freePage_reference h.reference pg).trans ht, hw.inv h', by rw [hd], ?_, ?_, ?_⟩
  · rw [hd]
    have row : ∀ l : List Core, List.Forall₂ Core.onlyDcache l
        (l.map (Core.swept s.cfg (.range (pageBase s.cfg pg) s.cfg.pageSize) false true)) := by
      intro l
      rw [List.forall₂_map_right_iff, List.forall₂_same]
      exact fun c _ => Core.onlyDcache_swept ..
    exact ⟨rfl, fun _ => rfl, Core.onlyDcache_swept .., row _, row _⟩
  · intro b hb ne
    refine (hw.granuleNow h' hb fun _ _ hits => ?_).trans rfl
    rw [show ({ s with allocated := unmarkPage s.allocated pg } : State).cfg = s.cfg from rfl,
      range_page pos] at hits
    simp only [Selector.hits, beq_iff_eq] at hits
    exact absurd hits ne
  · intro c hc rc e he
    have : c ∈ (s.cores.map (Core.swept s.cfg (.range (pageBase s.cfg pg) s.cfg.pageSize) false true)) := by
      rw [hd] at hc
      simpa [State.cores] using hc
    obtain ⟨d, _, rfl⟩ := List.mem_map.mp this
    have rd : d.registered = true := by
      rw [← (Core.thinned_swept s.cfg (.range (pageBase s.cfg pg) s.cfg.pageSize) false true d).registered]
      exact rc
    unfold Core.swept at he
    rw [if_pos rd] at he
    dsimp only at he
    obtain ⟨f0, _, h0, q0⟩ := releasedEntries_mem he
    have hh := h0 rfl
    rw [range_page pos] at hh
    simp only [if_true] at q0
    rw [q0]
    simpa [Selector.hits] using hh

/-- The end of `exit_interrupt` (R293): `DS` and `SP` return, the page goes. -/
theorem State.leaveStack_ok {s : State} (h : s.Inv) (rs : s.self.registered = true) (oldSp oldDs : Word) :
    ∃ t, s.leaveStack oldSp oldDs = .ok () t ∧ t.Inv ∧ t.allocated = unmarkPage s.allocated s.stackPage
      ∧ State.onlyDataPath { (s.setRegs { s.self.regs with sp := oldSp, ds := oldDs }) with
          allocated := unmarkPage s.allocated s.stackPage } t
      ∧ (∀ b, b % 2 = 0 → pageIndex s.cfg b ≠ s.stackPage → t.granuleNow b = s.granuleNow b)
      ∧ ∀ c ∈ t.cores, c.registered = true → ∀ e ∈ c.dcache, pageIndex s.cfg e.addr ≠ s.stackPage := by
  generalize hp : s.stackPage = pg
  have nr := h.not_reset rs
  have h1 : ((s.setReg .sp oldSp).setReg .ds oldDs).Inv :=
    State.Inv_setReg (State.Inv_setReg h nr .sp oldSp) nr .ds oldDs
  have hw := State.sweptOwn h1 rs (.page pg) false true
  have ho := State.releaseOwn_ok h1 (.page pg) false true
  have hf := State.releaseOwn_onlyDataPath ((s.setReg .sp oldSp).setReg .ds oldDs) (.page pg) false true
  generalize hu : (((s.setReg .sp oldSp).setReg .ds oldDs).setDcache
    (releasedEntries ((s.setReg .sp oldSp).setReg .ds oldDs).cfg (.page pg) false true
      ((s.setReg .sp oldSp).setReg .ds oldDs).self.dcache)).setMem
    (releaseEntries ((s.setReg .sp oldSp).setReg .ds oldDs).cfg (.page pg) false true
      ((s.setReg .sp oldSp).setReg .ds oldDs).allocated
      ((s.setReg .sp oldSp).setReg .ds oldDs).self.dcache ((s.setReg .sp oldSp).setReg .ds oldDs).mem).mem = u
    at hw ho
  rw [ho] at hf
  have hf : State.onlyDataPath ((s.setReg .sp oldSp).setReg .ds oldDs) u := hf
  have hcfg : u.cfg = s.cfg := hf.cfg
  obtain ⟨t, t1, t2, t3, t4, t5, t6⟩ := State.freePage_ok (hw.inv h1) pg
  rw [hcfg] at t5 t6
  refine ⟨t, ?_, t2, ?_, ?_, ?_, t6⟩
  · unfold State.leaveStack
    rw [hp, ho, Res.bind_ok, t1]
  · rw [t3, hf.allocated h1.reference]; rfl
  · refine State.onlyDataPath_trans ?_ t4
    rw [show unmarkPage s.allocated pg = unmarkPage u.allocated pg by rw [hf.allocated h1.reference]; rfl]
    obtain ⟨a1, _, a2, a3, a4⟩ := hf
    refine ⟨?_, fun _ => rfl, a2, a3, a4⟩
    exact congrArg (fun x : State => { x with allocated := unmarkPage u.allocated pg }) a1
  · intro b hb ne
    rw [t5 b hb ne, hw.granuleNow h1 hb]
    · simp
    · intro _ _ hits
      simp only [Selector.hits, beq_iff_eq] at hits
      exact absurd hits ne

theorem word_add_add (a : Word) (m n : Nat) :
    a + BitVec.ofNat 32 m + BitVec.ofNat 32 n = a + BitVec.ofNat 32 (m + n) := by
  rw [BitVec.add_assoc, BitVec.ofNat_add]

/-- Removing frames on both sides keeps what a read keeps. -/
theorem State.Reads.setFrames {s w : State} (h : State.Reads s w) (rs : s.self.registered = true)
    (fs : List StackFrame) (ok : s.cfg.checkFrames = false → fs = []) :
    State.Reads (s.setFrames fs) (w.setFrames fs) := by
  have rw' : w.self.registered = true := h.frame.registered.trans rs
  refine ⟨?_, State.Inv_setFrames h.inv (h.inv.not_reset rw') fs (by rw [h.frame.cfg]; exact ok), fun b hb => ?_⟩
  · obtain ⟨a1, a0, a2, a3, a4⟩ := h.frame
    refine ⟨congrArg (fun x : State => x.setFrames fs) a1, a0, ?_, a3, a4⟩
    exact congrArg (fun x : Core => { x with frames := fs }) a2
  · rw [State.granuleNow_setFrames, State.granuleNow_setFrames, h.now b hb]

/-- Dropping a frame is the frames dropped and nothing else. -/
theorem State.dropFrame_eq (s : State) : s.dropFrame = s.setFrames s.framesDropped := by
  unfold State.dropFrame State.framesDropped
  split <;> rfl

theorem State.framesDropped_ok {s : State} (h : s.Inv) (hc : s.cfg.checkFrames = false) :
    s.framesDropped = [] := by
  unfold State.framesDropped
  rw [hc]
  exact (State.Inv_iff.mp h).2.2.1.2.2.2.2.1 hc

/-- `restoreContext` from the slots (R293). -/
theorem popAll_context (m : Nat → Word) (g : Regs) (ds sp : Word) (hd : g.ds = ds) :
    Regs.popAll m (generalRegs.reverse ++ [.flags, .cs]) { g with sp := sp + 8 } =
      { g with
        r7 := m (popSlot ds sp 2), r6 := m (popSlot ds sp 3), r5 := m (popSlot ds sp 4)
        r4 := m (popSlot ds sp 5), r3 := m (popSlot ds sp 6), r2 := m (popSlot ds sp 7)
        r1 := m (popSlot ds sp 8), r0 := m (popSlot ds sp 9)
        flags := Flags.ofWord (m (popSlot ds sp 10)), cs := m (popSlot ds sp 11)
        sp := sp + 48 } := by
  subst hd
  simp only [generalRegs, List.reverse_cons, List.reverse_nil, List.nil_append, List.cons_append, Regs.popAll,
    Regs.write, popSlot, BitVec.add_assoc, BitVec.reduceAdd, Nat.reduceMul]
  rfl

theorem popsServed_context {cfg : Config} (m : Nat → Word) (g : Regs) (sp : Word)
    (ok : popSlotsServed cfg g.ds sp 14) :
    Regs.popsServed cfg m (generalRegs.reverse ++ [.flags, .cs]) { g with sp := sp + 8 } := by
  simp only [generalRegs, List.reverse_cons, List.reverse_nil, List.nil_append, List.cons_append, Regs.popsServed,
    Regs.write, BitVec.add_assoc, BitVec.reduceAdd]
  exact ⟨ok 2 (by omega), ok 3 (by omega), ok 4 (by omega), ok 5 (by omega), ok 6 (by omega), ok 7 (by omega),
    ok 8 (by omega), ok 9 (by omega), ok 10 (by omega), ok 11 (by omega), trivial⟩

/-- `exit_interrupt()` (R293), served, the frame check passed. -/
theorem State.exitInterrupt_ok {s : State} (h : s.Inv) (rs : s.self.registered = true) (pass : s.framePasses)
    (ok : popSlotsServed s.cfg (s.reg .ds) (s.reg .sp) 14) :
    ∃ t, s.exitInterrupt = .ok () t ∧ t.Inv ∧ t.allocated = unmarkPage s.allocated s.interruptPage
      ∧ State.onlyDataPath { ((s.setFrames s.framesDropped).setRegs (s.self.regs.restored fun k =>
            s.dwordNow (popSlot (s.reg .ds) (s.reg .sp) k))) with
          allocated := unmarkPage s.allocated s.interruptPage } t
      ∧ (∀ b, b % 2 = 0 → pageIndex s.cfg b ≠ s.interruptPage → t.granuleNow b = s.granuleNow b)
      ∧ ∀ c ∈ t.cores, c.registered = true → ∀ e ∈ c.dcache, pageIndex s.cfg e.addr ≠ s.interruptPage := by
  obtain ⟨w, hw, h1⟩ := State.destroyFrame_ok h rs pass fun k hk => ok k (by omega)
  have hfr := State.framesDropped_ok h
  have hs' := State.Inv_setFrames h (h.not_reset rs) s.framesDropped hfr
  have hw' := hw.setFrames rs s.framesDropped hfr
  have hdw : (s.setFrames s.framesDropped).dwordNow = s.dwordNow := funext fun b => State.dwordNow_setFrames ..
  have hdrop : ∀ g : Regs, State.dropFrame (w.setRegs g) = (w.setFrames s.framesDropped).setRegs g := by
    intro g
    rw [State.dropFrame_eq]
    have : (w.setRegs g).framesDropped = s.framesDropped := by
      show (if w.cfg.checkFrames then w.self.frames.dropLast else w.self.frames) = _
      rw [hw.frame.cfg, hw.frame.frames]; rfl
    rw [this]
    rfl
  rw [hdrop] at h1
  generalize hg0 : ({ s.self.regs with
        fp := s.dwordNow (popSlot (s.reg .ds) (s.reg .sp) 0)
        ip := s.dwordNow (popSlot (s.reg .ds) (s.reg .sp) 1) } : Regs) = g0
  have hds : g0.ds = s.reg .ds := by rw [← hg0]; rfl
  have hg : ({ s.self.regs with
        fp := s.dwordNow (popSlot (s.reg .ds) (s.reg .sp) 0)
        ip := s.dwordNow (popSlot (s.reg .ds) (s.reg .sp) 1)
        sp := s.reg .sp + 8 } : Regs) = { g0 with sp := s.reg .sp + 8 } := by rw [← hg0]
  rw [hg] at h1
  have ok' : popSlotsServed s.cfg g0.ds (s.reg .sp) 14 := by rw [hds]; exact ok
  obtain ⟨x, h2, hx⟩ := State.Reads.popRegs (s := s.setFrames s.framesDropped) rs
    (generalRegs.reverse ++ [Reg.flags, Reg.cs]) { g0 with sp := s.reg .sp + 8 } hw'
    (by exact popsServed_context (cfg := s.cfg) _ g0 _ ok')
  rw [hdw, popAll_context _ _ _ _ hds] at h2
  generalize hg1 : ({ g0 with
        r7 := s.dwordNow (popSlot (s.reg .ds) (s.reg .sp) 2), r6 := s.dwordNow (popSlot (s.reg .ds) (s.reg .sp) 3)
        r5 := s.dwordNow (popSlot (s.reg .ds) (s.reg .sp) 4), r4 := s.dwordNow (popSlot (s.reg .ds) (s.reg .sp) 5)
        r3 := s.dwordNow (popSlot (s.reg .ds) (s.reg .sp) 6), r2 := s.dwordNow (popSlot (s.reg .ds) (s.reg .sp) 7)
        r1 := s.dwordNow (popSlot (s.reg .ds) (s.reg .sp) 8), r0 := s.dwordNow (popSlot (s.reg .ds) (s.reg .sp) 9)
        flags := Flags.ofWord (s.dwordNow (popSlot (s.reg .ds) (s.reg .sp) 10))
        cs := s.dwordNow (popSlot (s.reg .ds) (s.reg .sp) 11)
        sp := s.reg .sp + 48 } : Regs) = g1 at h2
  have hds1 : g1.ds = s.reg .ds := by rw [← hg1]; exact hds
  have hsp1 : g1.sp = s.reg .sp + 48 := by rw [← hg1]
  have a12 : physAddr g1.ds g1.sp = popSlot (s.reg .ds) (s.reg .sp) 12 := by rw [hds1, hsp1]; rfl
  obtain ⟨y, h3, hy⟩ := hx.pop rs g1 (by rw [a12]; exact ok 12 (by omega))
  have a13 : physAddr g1.ds (g1.sp + 4) = popSlot (s.reg .ds) (s.reg .sp) 13 := by
    rw [hds1, hsp1, BitVec.add_assoc]; rfl
  obtain ⟨z, h4, hz⟩ := hy.pop rs { g1 with sp := g1.sp + 4 } (by rw [a13]; exact ok 13 (by omega))
  rw [hdw] at h3 h4
  simp only [a12] at h3
  simp only [a13] at h4
  have rz : z.self.registered = true := hz.frame.registered.trans rs
  have hzi := State.Inv_setRegs hz.inv (hz.inv.not_reset rz) { g1 with sp := g1.sp + 4 + 4 }
  obtain ⟨t, t1, t2, t3, t4, t5, t6⟩ := State.leaveStack_ok hzi rz
    (s.dwordNow (popSlot (s.reg .ds) (s.reg .sp) 12)) (s.dwordNow (popSlot (s.reg .ds) (s.reg .sp) 13))
  have hcfgz : (z.setRegs { g1 with sp := g1.sp + 4 + 4 }).cfg = s.cfg := hz.frame.cfg
  have hpage : (z.setRegs { g1 with sp := g1.sp + 4 + 4 }).stackPage = s.interruptPage := by
    unfold State.stackPage State.interruptPage
    rw [hcfgz]
    show pageIndex s.cfg (physAddr g1.ds (g1.sp + 4 + 4 - 1)) = _
    have e : s.reg .sp + 48 + 4 + 4 - 1 = s.reg .sp + 55 := by
      rw [BitVec.add_assoc, BitVec.add_assoc, add_sub_assoc]; rfl
    rw [hds1, hsp1, e]
  rw [hpage] at t3 t4 t5 t6
  rw [hcfgz] at t5 t6
  refine ⟨t, ?_, t2, ?_, ?_, ?_, t6⟩
  · unfold State.exitInterrupt State.restoreContext
    rw [h1, Res.bind_ok, h2, Res.bind_ok, h3, Res.bind_ok, h4, Res.bind_ok, t1]
  · rw [t3]
    have : z.allocated = s.allocated := hz.frame.allocated h.reference
    show unmarkPage z.allocated _ = _
    rw [this]
  · refine State.onlyDataPath_trans ?_ t4
    obtain ⟨a1, _, a2, a3, a4⟩ := hz.frame
    have hall : z.allocated = s.allocated := hz.frame.allocated h.reference
    have hregs : ({ g1 with
        sp := s.dwordNow (popSlot (s.reg .ds) (s.reg .sp) 12)
        ds := s.dwordNow (popSlot (s.reg .ds) (s.reg .sp) 13) } : Regs)
        = s.self.regs.restored fun k => s.dwordNow (popSlot (s.reg .ds) (s.reg .sp) k) := by
      rw [← hg1, ← hg0]; rfl
    refine ⟨?_, fun _ => congrArg (unmarkPage · s.interruptPage) hall, ?_, a3, a4⟩
    · have e := congrArg (fun x : State => { (x.setRegs ({ g1 with
        sp := s.dwordNow (popSlot (s.reg .ds) (s.reg .sp) 12)
        ds := s.dwordNow (popSlot (s.reg .ds) (s.reg .sp) 13) } : Regs)) with
          allocated := unmarkPage s.allocated s.interruptPage }) a1
      rw [show (z.setRegs { g1 with sp := g1.sp + 4 + 4 }).allocated = s.allocated from hall]
      exact e
    · rw [← hregs]
      exact congrArg (fun x : Core => { x with regs := ({ g1 with
        sp := s.dwordNow (popSlot (s.reg .ds) (s.reg .sp) 12)
        ds := s.dwordNow (popSlot (s.reg .ds) (s.reg .sp) 13) } : Regs) }) a2
  · intro b hb ne
    rw [t5 b hb ne, State.granuleNow_setRegs, hz.now b hb, State.granuleNow_setFrames]

end Sys2Proof.Machine
end

