-- ==== Sys2Proof/Laws/CutRows.lean ====
section
/-! SUPPORT. Rows of pushes and pops on a well-formed machine that an access past `MEM_SIZE` cuts short (R63, R75, R245,
R246, R290, R293): what the pushes or pops before it left. -/

namespace Sys2Proof.Machine

/-! ## Pushes -/

/-- Push the values of a list, first to last. -/
def State.pushAll : List Word → State → Res Unit
  | [], s => .ok () s
  | v :: rest, s => (s.push v).bind fun _ s => State.pushAll rest s

theorem State.push_reg {s t : State} {v : Word} (h : s.push v = .ok () t) {r : Reg} (ne : r ≠ .sp) :
    t.reg r = s.reg r := by
  have f := State.memWrite_onlyDataPath s .dword s.pushAddr v
  unfold State.push at h
  cases e : s.memWrite .dword s.pushAddr v with
  | raise x u => rw [e] at h; cases h
  | ok a u =>
    rw [e] at h f
    cases h
    rw [State.reg_setReg_ne _ _ _ _ ne]
    exact State.onlyDataPath.reg f r

/-- A row of register pushes is a row of pushes of their values, `SP` not being among them. -/
theorem State.pushRegs_eq (qs : List Reg) (s : State) (ne : ∀ r ∈ qs, r ≠ .sp) :
    State.pushRegs qs s = State.pushAll (qs.map s.reg) s := by
  induction qs generalizing s with
  | nil => rfl
  | cons r rest ih =>
    unfold State.pushRegs
    rw [List.map_cons]
    unfold State.pushAll
    cases e : s.push (s.reg r) with
    | raise f t => rw [Res.bind_raise, Res.bind_raise]
    | ok a t =>
      rw [Res.bind_ok, Res.bind_ok, ih t fun q hq => ne q (List.mem_cons_of_mem _ hq)]
      congr 1
      exact List.map_congr_left fun q hq => State.push_reg e (ne q (List.mem_cons_of_mem _ hq))

/-- What a row of pushes begun in `s` has done when the push of `v` after those of `vs` faulted, `SP` apart: the slots
of `vs` are stored, and of the next slot the first granule, where its second alone is past `MEM_SIZE`. -/
structure State.PushCut (s w : State) (vs : List Word) (v : Word) : Prop where
  frame : s.onlyDataPath w
  slots : ∀ k (h : k < vs.length), w.dwordNow (slot (s.reg .ds) (s.reg .sp) k) = vs[k]
  first : slot (s.reg .ds) (s.reg .sp) vs.length + 2 ≤ s.cfg.memSize →
    w.granuleNow (slot (s.reg .ds) (s.reg .sp) vs.length) = v.extractLsb' 0 16
  rest : ∀ a, outsideSlots (s.reg .ds) (s.reg .sp) vs.length a →
    (slot (s.reg .ds) (s.reg .sp) vs.length + 2 ≤ s.cfg.memSize →
      a < slot (s.reg .ds) (s.reg .sp) vs.length ∨ slot (s.reg .ds) (s.reg .sp) vs.length + 2 ≤ a) →
    w.byteNow a = s.byteNow a

/-- The push that an access past `MEM_SIZE` cuts short (R75). -/
theorem State.Pushed.push_fault {s u : State} {vs : List Word} (h : State.Pushed s u vs)
    (rs : s.self.registered = true) (v : Word)
    (ok : slotsServed s.cfg (s.reg .ds) (s.reg .sp) vs.length)
    (al : slot (s.reg .ds) (s.reg .sp) vs.length % 4 = 0)
    (lt : s.cfg.memSize < slot (s.reg .ds) (s.reg .sp) vs.length + 4) :
    ∃ w, (s.moved u vs.length).push v
        = .raise (.backendFault (firstFault s.cfg (slot (s.reg .ds) (s.reg .sp) vs.length))) (s.moved w vs.length)
      ∧ State.PushCut s w vs v := by
  have ru : u.self.registered = true := h.frame.registered.trans rs
  have ti : (s.moved u vs.length).Inv := State.Inv_setReg h.inv (h.inv.not_reset ru) _ _
  have hds : (s.moved u vs.length).reg .ds = s.reg .ds := h.frame.reg .ds
  have hsp : (s.moved u vs.length).reg .sp = s.reg .sp - BitVec.ofNat 32 (4 * vs.length) := rfl
  have haddr : (s.moved u vs.length).pushAddr = slot (s.reg .ds) (s.reg .sp) vs.length := by
    unfold State.pushAddr slot
    rw [hds, hsp, word_sub_step]
  have hcfg : (s.moved u vs.length).cfg = s.cfg := h.frame.cfg
  obtain ⟨x, h1, h2, h3, h4⟩ := State.memWrite_dword_fault ti ru (pa := (s.moved u vs.length).pushAddr)
    (by rw [haddr]; exact al) (by rw [haddr, hcfg]; exact lt) v
  rw [haddr, hcfg] at h1 h3 h4
  have back : s.moved (x.setReg .sp (s.reg .sp)) vs.length = x := by
    show x.setRegs ((x.self.regs.write .sp _).write .sp _) = x
    have : x.self.regs = u.self.regs.write .sp (s.reg .sp - BitVec.ofNat 32 (4 * vs.length)) := h2.regs
    conv_rhs => rw [← State.setRegs_self x]
    rw [this]
    rfl
  have now : ∀ b, (x.setReg .sp (s.reg .sp)).byteNow b = x.byteNow b := fun b => State.byteNow_setReg ..
  have outer : ∀ b, (s.moved u vs.length).byteNow b = u.byteNow b := fun b => State.byteNow_setReg ..
  have frame : s.onlyDataPath (x.setReg .sp (s.reg .sp)) := by
    obtain ⟨a1, a0, a2, a3, a4⟩ := h.frame
    obtain ⟨b1, b0, b2, b3, b4⟩ := h2
    have hc : u.cfg = s.cfg := h.frame.cfg
    have hregs : (x.setReg .sp (s.reg .sp)).self.regs = s.self.regs := by
      show x.self.regs.write .sp _ = _
      rw [show x.self.regs = _ from congrArg Core.regs b2]
      show (u.self.regs.write .sp _).write .sp _ = _
      rw [h.frame.regs]
      rfl
    refine ⟨?_, fun r => (b0 (hc.symm ▸ r)).trans (a0 r), ?_, forall₂_onlyDcache_trans a3 b3,
      forall₂_onlyDcache_trans a4 b4⟩
    · conv_lhs => rw [State.setReg, State.setRegs, b1]
      unfold State.moved State.setReg State.setRegs
      conv_lhs => rw [a1]
    · unfold Core.onlyDcache
      show { x.self with regs := (x.setReg .sp (s.reg .sp)).self.regs } = _
      rw [hregs]
      conv_lhs => rw [b2]
      show { u.self with regs := s.self.regs, dcache := x.self.dcache } = _
      conv_lhs => rw [a2]
      rfl
  refine ⟨x.setReg .sp (s.reg .sp), ?_, frame, fun k hk => ?_, fun le => ?_, fun a ha hb => ?_⟩
  · rw [back]
    unfold State.push
    rw [haddr, h1]
    rfl
  · rw [State.dwordNow_setReg, ← h.slots k hk]
    have same : u.dwordNow (slot (s.reg .ds) (s.reg .sp) k) = (s.moved u vs.length).dwordNow _ :=
      (State.dwordNow_setReg ..).symm
    rw [same]
    have even := (ok k hk).1
    have top := (ok k hk).2.2
    simp only [accessBytes] at even top
    by_cases c : s.cfg.memSize < slot (s.reg .ds) (s.reg .sp) vs.length + 2
    · exact State.dwordNow_of_sameBytesBut (pa := slot (s.reg .ds) (s.reg .sp) k + 4) (n := 0)
        (fun b _ => h3 c b) (by omega) (by omega)
    · exact State.dwordNow_of_sameBytesBut (h4 c).1 (by omega) (by omega)
  · rw [State.granuleNow_setReg]
    exact (h4 (by omega)).2
  · rw [now, ← h.rest a ha, ← outer]
    by_cases c : s.cfg.memSize < slot (s.reg .ds) (s.reg .sp) vs.length + 2
    · exact h3 c a
    · exact (h4 c).1 a (hb (by omega))

/-- A row of pushes of which the push number `j` is the first past `MEM_SIZE` (R75). -/
theorem State.Pushed.pushAll_fault {s : State} (rs : s.self.registered = true) :
    ∀ (ws : List Word) (j : Nat) (hj : j < ws.length) {u : State} {vs : List Word}, State.Pushed s u vs →
      vs.length + j < 2 ^ 20 → slotsServed s.cfg (s.reg .ds) (s.reg .sp) (vs.length + j) →
      slot (s.reg .ds) (s.reg .sp) (vs.length + j) % 4 = 0 →
      s.cfg.memSize < slot (s.reg .ds) (s.reg .sp) (vs.length + j) + 4 →
      ∃ w, State.pushAll ws (s.moved u vs.length)
          = .raise (.backendFault (firstFault s.cfg (slot (s.reg .ds) (s.reg .sp) (vs.length + j))))
            (s.moved w (vs.length + j))
        ∧ State.PushCut s w (vs ++ ws.take j) ws[j] := by
  intro ws
  induction ws with
  | nil => intro j hj; exact absurd hj (by simp)
  | cons v rest ih =>
    intro j hj u vs h short ok al lt
    unfold State.pushAll
    match j with
    | 0 =>
      obtain ⟨w, h1, h2⟩ := h.push_fault rs v ok al lt
      exact ⟨w, by rw [h1]; rfl, by simpa using h2⟩
    | j + 1 =>
      obtain ⟨w, h1, h2⟩ := h.push rs (by omega) v fun k hk => ok k (by omega)
      have len : (vs ++ [v]).length + j = vs.length + (j + 1) := by simp; omega
      obtain ⟨x, h3, h4⟩ := ih j (by simpa using hj) h2 (by omega) (by rw [len]; exact ok) (by rw [len]; exact al)
        (by rw [len]; exact lt)
      rw [len, show (vs ++ [v]).length = vs.length + 1 by simp] at h3
      exact ⟨x, by rw [h1, Res.bind_ok]; exact h3, by simpa using h4⟩

/-- `create_frame()` of a state, as a row of pushes (R245). -/
theorem State.createFrame_eq (s : State) :
    s.createFrame = (State.pushAll [s.reg .ip, s.reg .fp] s).bind fun _ s =>
      .ok () (State.recordFrame (s.setReg .fp (s.reg .sp))) := by
  unfold State.createFrame
  rw [State.pushAll]
  cases e : s.push (s.reg .ip) with
  | raise f t => rw [Res.bind_raise, Res.bind_raise, Res.bind_raise]
  | ok a t =>
    rw [Res.bind_ok, Res.bind_ok, State.push_reg e (r := .fp) (by decide), State.pushAll, Res.bind_assoc]
    simp only [Res.bind_ok, State.pushAll]

theorem State.pushAll_append (vs ws : List Word) (s : State) :
    State.pushAll (vs ++ ws) s = (State.pushAll vs s).bind fun _ s => State.pushAll ws s := by
  induction vs generalizing s with
  | nil => rfl
  | cons v rest ih =>
    rw [List.cons_append]
    rw [State.pushAll, State.pushAll, Res.bind_assoc]
    congr 1
    funext _ t
    exact ih t

theorem State.pushAll_reg {vs : List Word} {s t : State} (h : State.pushAll vs s = .ok () t) {r : Reg} (ne : r ≠ .sp) :
    t.reg r = s.reg r := by
  induction vs generalizing s with
  | nil => cases h; rfl
  | cons v rest ih =>
    unfold State.pushAll at h
    cases e : s.push v with
    | raise f u => rw [e] at h; cases h
    | ok a u => rw [e] at h; exact (ih h).trans (State.push_reg e ne)

/-- The pushes of `enter_interrupt` before the frame, as a row (R290). -/
theorem State.saveContext_eq (oldDs oldSp : Word) (s : State) :
    s.saveContext oldDs oldSp = State.pushAll (oldDs :: oldSp :: (.cs :: .flags :: generalRegs).map s.reg) s := by
  unfold State.saveContext
  rw [State.pushAll]
  cases e : s.push oldDs with
  | raise f t => rw [Res.bind_raise, Res.bind_raise]
  | ok a t =>
    rw [Res.bind_ok, Res.bind_ok, State.pushAll]
    cases e' : t.push oldSp with
    | raise f t => rw [Res.bind_raise, Res.bind_raise]
    | ok b u =>
      rw [Res.bind_ok, Res.bind_ok, State.pushRegs_eq _ _ (by decide)]
      congr 1
      refine List.map_congr_left fun q hq => ?_
      have ne : q ≠ .sp := by revert q; decide
      rw [State.push_reg e' ne, State.push_reg e ne]

theorem State.reg_swapStack (s : State) (v : Vec) {q : Reg} (n1 : q ≠ .sp) (n2 : q ≠ .ds) :
    (s.swapStack v).reg q = s.reg q := by
  unfold State.swapStack
  rw [State.reg_setReg_ne _ _ _ _ n1, State.reg_setReg_ne _ _ _ _ n2]

/-- The context is what the row of pushes before the frame and the frame push. -/
theorem State.context_eq (s : State) (v : Vec) :
    s.context = (s.reg .ds :: s.reg .sp :: (.cs :: .flags :: generalRegs).map (s.swapStack v).reg)
      ++ [(s.swapStack v).reg .ip, (s.swapStack v).reg .fp] := by
  have hmap : (.cs :: .flags :: generalRegs).map (s.swapStack v).reg = (.cs :: .flags :: generalRegs).map s.reg :=
    List.map_congr_left fun q hq => by
      have ne : q ≠ .sp ∧ q ≠ .ds := by revert q; decide
      exact State.reg_swapStack s v ne.1 ne.2
  rw [hmap, State.reg_swapStack s v (by decide) (by decide), State.reg_swapStack s v (by decide) (by decide)]
  rfl

/-- `enter_interrupt` after the vector load, as a row of pushes of the context (R290, R291). -/
theorem State.enterInterrupt_eq {s : State} {table : Word} {index : Nat} {v : Vec}
    (h : s.loadVector table index = .ok v s) :
    s.enterInterrupt table index = (State.pushAll s.context (s.swapStack v)).bind fun _ s =>
      .ok () (State.enterHandler v (State.recordFrame (s.setReg .fp (s.reg .sp)))) := by
  unfold State.enterInterrupt
  rw [h, Res.bind_ok, State.saveContext_eq, State.context_eq s v, State.pushAll_append]
  generalize s.reg .ds :: s.reg .sp :: (.cs :: .flags :: generalRegs).map (s.swapStack v).reg = first
  cases e : State.pushAll first (s.swapStack v) with
  | raise f t => rw [Res.bind_raise, Res.bind_raise, Res.bind_raise]
  | ok a t =>
    rw [Res.bind_ok, Res.bind_ok, State.createFrame_eq, State.pushAll_reg e (by decide),
      State.pushAll_reg e (by decide), Res.bind_assoc]
    simp only [Res.bind_ok]

/-! ## Pops -/

/-- The pop that an access past `MEM_SIZE` cuts short, from a state whose registers are `g` and whose bytes are those of
`s` (R75). -/
theorem State.Reads.pop_fault {s u : State} (h : State.Reads s u) (rs : s.self.registered = true) (g : Regs)
    (al : physAddr g.ds g.sp % 4 = 0) (lt : s.cfg.memSize < physAddr g.ds g.sp + 4) :
    ∃ w, (u.setRegs g).pop = .raise (.backendFault (firstFault s.cfg (physAddr g.ds g.sp))) (w.setRegs g)
      ∧ State.Reads s w := by
  have ru : u.self.registered = true := h.frame.registered.trans rs
  have ti : (u.setRegs g).Inv := State.Inv_setRegs h.inv (h.inv.not_reset ru) g
  have hcfg : (u.setRegs g).cfg = s.cfg := h.frame.cfg
  have haddr : (u.setRegs g).popAddr = physAddr g.ds g.sp := rfl
  obtain ⟨x, h1, h2⟩ := State.memRead_dword_fault ti ru (pa := (u.setRegs g).popAddr) (by rw [haddr]; exact al)
    (by rw [haddr, hcfg]; exact lt)
  rw [haddr, hcfg] at h1
  have rx : x.self.registered = true := h2.frame.registered.trans ru
  have back : (x.setRegs s.self.regs).setRegs g = x := by
    conv_rhs => rw [← State.setRegs_self x]
    rw [h2.frame.regs]
    rfl
  refine ⟨x.setRegs s.self.regs, by rw [back]; unfold State.pop; rw [haddr, h1]; rfl, ?_,
    State.Inv_setRegs h2.inv (h2.inv.not_reset rx) _, fun b hb => ?_⟩
  · obtain ⟨a1, a0, a2, a3, a4⟩ := h.frame
    obtain ⟨b1, b0, b2, b3, b4⟩ := h2.frame
    have hc : u.cfg = s.cfg := h.frame.cfg
    refine ⟨?_, fun r => (b0 (hc.symm ▸ r)).trans (a0 r), ?_, forall₂_onlyDcache_trans a3 b3,
      forall₂_onlyDcache_trans a4 b4⟩
    · conv_lhs => rw [State.setRegs, b1]
      unfold State.setRegs
      conv_lhs => rw [a1]
    · unfold Core.onlyDcache
      show { x.self with regs := s.self.regs } = _
      conv_lhs => rw [b2]
      show { u.self with regs := s.self.regs, dcache := x.self.dcache } = _
      conv_lhs => rw [a2]
      rfl
  · rw [State.granuleNow_setRegs, h2.now b hb, State.granuleNow_setRegs, h.now b hb]

/-- The slot that pop number `j` of a row of pops into registers reads is the first past `MEM_SIZE`. -/
def Regs.popFaults (cfg : Config) (m : Nat → Word) : Nat → List Reg → Regs → Prop
  | _, [], _ => False
  | 0, _ :: _, g => physAddr g.ds g.sp % 4 = 0 ∧ cfg.memSize < physAddr g.ds g.sp + 4
  | j + 1, r :: rest, g => serves cfg .dword (physAddr g.ds g.sp)
      ∧ Regs.popFaults cfg m j rest ({ g with sp := g.sp + 4 }.write r (m (physAddr g.ds g.sp)))

/-- A row of pops into registers that pop number `j` cuts short (R75). -/
theorem State.Reads.popRegs_fault {s : State} (rs : s.self.registered = true) :
    ∀ (qs : List Reg) (j : Nat) {u : State} (g : Regs), State.Reads s u → Regs.popFaults s.cfg s.dwordNow j qs g →
      ∃ w, State.popRegs qs (u.setRegs g) = .raise (.backendFault (firstFault s.cfg
            (physAddr (Regs.popAll s.dwordNow (qs.take j) g).ds (Regs.popAll s.dwordNow (qs.take j) g).sp)))
          (w.setRegs (Regs.popAll s.dwordNow (qs.take j) g))
        ∧ State.Reads s w := by
  intro qs
  induction qs with
  | nil => intro j u g _ bad; exact absurd bad (by cases j <;> exact id)
  | cons r rest ih =>
    intro j u g h bad
    unfold State.popRegs
    match j with
    | 0 =>
      obtain ⟨w, h1, h2⟩ := h.pop_fault rs g bad.1 bad.2
      exact ⟨w, by rw [h1]; rfl, h2⟩
    | j + 1 =>
      obtain ⟨w, h1, h2⟩ := h.pop rs g bad.1
      obtain ⟨x, h3, h4⟩ := ih j _ h2 bad.2
      exact ⟨x, by rw [h1, Res.bind_ok]; exact h3, h4⟩

/-- `destroy_frame()`, the check passed, as a row of two pops (R246). -/
theorem State.destroyFrame_eq {s : State} (pass : s.framePasses) :
    s.destroyFrame = (State.popRegs [.fp, .ip] s).bind fun _ s => .ok () s.dropFrame := by
  unfold State.destroyFrame
  rw [if_neg (by simp only [Bool.and_eq_true, Bool.not_eq_true', not_and, Bool.not_eq_false]
                 exact pass)]
  unfold State.popRegs
  cases e : s.pop with
  | raise f t => rw [Res.bind_raise, Res.bind_raise, Res.bind_raise]
  | ok v t =>
    rw [Res.bind_ok, Res.bind_ok]
    unfold State.popRegs
    cases (t.setReg .fp v).pop <;> rfl

/-! ## Slots that are a multiple of 4 -/

theorem word_mod4 {a : Word} : a % 4 = 0 ↔ a.toNat % 4 = 0 :=
  ⟨fun h => by simpa using congrArg BitVec.toNat h, fun h => BitVec.eq_of_toNat_eq (by simpa using h)⟩

theorem slot_mod4 {ds sp : Word} (h : sp % 4 = 0) (k : Nat) : slot ds sp k % 4 = 0 := by
  unfold slot
  rw [physAddr_mod4, BitVec.toNat_sub]
  have := word_mod4.mp h
  simp
  omega

theorem popSlot_mod4 {ds sp : Word} (h : sp % 4 = 0) (k : Nat) : popSlot ds sp k % 4 = 0 := by
  unfold popSlot
  rw [physAddr_mod4, BitVec.toNat_add]
  have := word_mod4.mp h
  simp
  omega

theorem serves_dword {cfg : Config} {a : Nat} (h : a % 4 = 0) (le : a + 4 ≤ cfg.memSize) : serves cfg .dword a :=
  ⟨h, by unfold granule; omega, by simpa only [accessBytes] using le⟩

theorem popSlot_zero (ds sp : Word) : popSlot ds sp 0 = physAddr ds sp := by unfold popSlot; simp

theorem popSlot_add (ds sp : Word) (k j : Nat) : popSlot ds (sp + BitVec.ofNat 32 (4 * k)) j = popSlot ds sp (k + j) := by
  unfold popSlot
  rw [BitVec.add_assoc, Nat.mul_add, BitVec.ofNat_add]

/-- After `n` pops of the row the first slot past `MEM_SIZE` is `n` nearer. -/
theorem firstPopPast_shift {cfg : Config} {ds sp : Word} {k : Nat} (n : Nat) (hn : n ≤ k) (h : firstPopPast cfg ds sp k) :
    firstPopPast cfg ds (sp + BitVec.ofNat 32 (4 * n)) (k - n) := by
  obtain ⟨al, ok, lt⟩ := h
  refine ⟨?_, fun j hj => by rw [popSlot_add]; exact ok _ (by omega), by
    rw [popSlot_add, show n + (k - n) = k by omega]; exact lt⟩
  have := word_mod4.mp al
  rw [word_mod4, BitVec.toNat_add]
  simp
  omega

/-- A row of pushes begun in a well-formed machine whose push number `k` is the first past `MEM_SIZE` (R75). -/
theorem State.pushAll_cut {s : State} (h : s.Inv) (rs : s.self.registered = true) (vs : List Word) (k : Nat)
    (hk : k < vs.length) (short : vs.length < 2 ^ 20) (past : firstPast s.cfg (s.reg .ds) (s.reg .sp) k) :
    ∃ w, State.pushAll vs s
        = .raise (.backendFault (firstFault s.cfg (slot (s.reg .ds) (s.reg .sp) k))) (s.moved w k)
      ∧ State.PushCut s w (vs.take k) vs[k] := by
  obtain ⟨al, ok, lt⟩ := past
  obtain ⟨w, h1, h2⟩ := State.Pushed.pushAll_fault rs vs k hk (State.Pushed.nil h) (by simp; omega)
    (fun j hj => serves_dword (slot_mod4 al j) (ok j (by simpa using hj))) (slot_mod4 al _) (by simpa using lt)
  simp only [List.length_nil, Nat.zero_add, State.moved_zero] at h1
  exact ⟨w, h1, by simpa using h2⟩

/-! ## The registers of a row of pops -/

/-- A pop into a register that is neither `SP` nor `DS` moves `SP` by 4 and leaves `DS`. -/
theorem Regs.pop_one {r : Reg} (ne : r ≠ .sp ∧ r ≠ .ds) (g : Regs) (v : Word) :
    (({ g with sp := g.sp + 4 } : Regs).write r v).ds = g.ds
      ∧ (({ g with sp := g.sp + 4 } : Regs).write r v).sp = g.sp + 4
      ∧ ∀ q, q ≠ .sp → q ≠ r → (({ g with sp := g.sp + 4 } : Regs).write r v).read q = g.read q := by
  obtain ⟨n1, n2⟩ := ne
  refine ⟨?_, ?_, fun q h1 h2 => ?_⟩
  · cases r <;> first | rfl | contradiction
  · cases r <;> first | rfl | contradiction
  · cases q <;> cases r <;> first | rfl | contradiction

theorem word_add_four (a : Word) (n : Nat) : a + 4 + BitVec.ofNat 32 (4 * n) = a + BitVec.ofNat 32 (4 * (n + 1)) := by
  rw [Nat.mul_add, BitVec.ofNat_add, BitVec.add_assoc, BitVec.add_comm 4]
  rfl

theorem popSlot_succ (ds sp : Word) (j : Nat) : popSlot ds (sp + 4) j = popSlot ds sp (j + 1) := by
  unfold popSlot
  rw [word_add_four]

theorem Regs.popAll_append (m : Nat → Word) (a b : List Reg) (g : Regs) :
    Regs.popAll m (a ++ b) g = Regs.popAll m b (Regs.popAll m a g) := by
  induction a generalizing g with
  | nil => rfl
  | cons r rest ih => exact ih _

/-- A row of pops into registers other than `SP` and `DS` moves `SP` over its slots and leaves every register it does
not name. -/
theorem Regs.popAll_frame (m : Nat → Word) (qs : List Reg) (ne : ∀ r ∈ qs, r ≠ .sp ∧ r ≠ .ds) (g : Regs) :
    (Regs.popAll m qs g).ds = g.ds ∧ (Regs.popAll m qs g).sp = g.sp + BitVec.ofNat 32 (4 * qs.length)
      ∧ ∀ q, q ∉ (.sp :: qs) → (Regs.popAll m qs g).read q = g.read q := by
  induction qs generalizing g with
  | nil => simp [Regs.popAll]
  | cons r rest ih =>
    obtain ⟨hd, hs, hq⟩ := Regs.pop_one (ne r (List.mem_cons_self ..)) g (m (physAddr g.ds g.sp))
    obtain ⟨i1, i2, i3⟩ := ih (fun q hq => ne q (List.mem_cons_of_mem _ hq)) _
    refine ⟨i1.trans hd, i2.trans ?_, fun q h => ?_⟩
    · rw [hs, word_add_four, List.length_cons]
    · simp only [List.mem_cons, not_or] at h
      exact (i3 q (by simp [h])).trans (hq q h.1 h.2.1)

/-- A register that a row of pops names once holds what its slot held. -/
theorem Regs.popAll_read (m : Nat → Word) (qs : List Reg) (ne : ∀ r ∈ qs, r ≠ .sp ∧ r ≠ .ds) (nd : qs.Nodup) (g : Regs)
    (j : Nat) (r : Reg) (h : qs[j]? = some r) :
    (Regs.popAll m qs g).read r = if r = .flags then m (popSlot g.ds g.sp j) &&& 0x3F else m (popSlot g.ds g.sp j) := by
  induction qs generalizing g j with
  | nil => simp at h
  | cons q rest ih =>
    have n := ne q (List.mem_cons_self ..)
    have ne' := fun r hr => ne r (List.mem_cons_of_mem q hr)
    obtain ⟨hd, hs, _⟩ := Regs.pop_one n g (m (physAddr g.ds g.sp))
    rw [List.nodup_cons] at nd
    cases j with
    | zero =>
      simp only [List.getElem?_cons_zero, Option.some.injEq] at h
      subst h
      show (Regs.popAll m rest _).read q = _
      rw [(Regs.popAll_frame m rest ne' _).2.2 q (by simp [n.1, nd.1]), popSlot_zero]
      obtain ⟨n1, n2⟩ := n
      cases q <;> first | rfl | contradiction | exact Flags.toWord_ofWord _
    | succ j =>
      simp only [List.getElem?_cons_succ] at h
      show (Regs.popAll m rest _).read r = _
      rw [ih ne' nd.2 _ j h, hd, hs, popSlot_succ]

/-- A row of pops into registers other than `SP` and `DS` whose pop number `k` is the first past `MEM_SIZE`. -/
theorem Regs.popFaults_of {cfg : Config} {m : Nat → Word} :
    ∀ (qs : List Reg) (k : Nat) (g : Regs), (∀ r ∈ qs, r ≠ .sp ∧ r ≠ .ds) → k < qs.length →
      firstPopPast cfg g.ds g.sp k → Regs.popFaults cfg m k qs g := by
  intro qs
  induction qs with
  | nil => intro k g _ h; simp at h
  | cons r rest ih =>
    intro k g ne hk past
    cases k with
    | zero => exact ⟨by rw [← popSlot_zero]; exact popSlot_mod4 past.1 0, by rw [← popSlot_zero]; exact past.2.2⟩
    | succ k =>
      obtain ⟨hd, hs, _⟩ := Regs.pop_one (ne r (List.mem_cons_self ..)) g (m (physAddr g.ds g.sp))
      refine ⟨by rw [← popSlot_zero]; exact serves_dword (popSlot_mod4 past.1 0) (past.2.1 0 (by omega)),
        ih k _ (fun q hq => ne q (List.mem_cons_of_mem _ hq)) (by simpa using hk) ?_⟩
      rw [hd, hs]
      exact firstPopPast_shift 1 (by omega) past

theorem popOrder_ne : ∀ r ∈ popOrder, r ≠ Reg.sp ∧ r ≠ Reg.ds := by decide

/-- The registers after `k` pops of an interrupt exit (R293): those of the slots that go into registers, `SP` moved. -/
def Regs.afterPops (m : Nat → Word) (k : Nat) (g : Regs) : Regs :=
  { Regs.popAll m (popOrder.take k) g with sp := g.sp + BitVec.ofNat 32 (4 * k) }

theorem Regs.afterPops_eq (m : Nat → Word) (k : Nat) (le : k ≤ 12) (g : Regs) :
    Regs.afterPops m k g = Regs.popAll m (popOrder.take k) g := by
  have len : (popOrder.take k).length = k := by simp [popOrder]; omega
  have := (Regs.popAll_frame m (popOrder.take k) (fun r hr => popOrder_ne r (List.mem_of_mem_take hr)) g).2.1
  rw [len] at this
  unfold Regs.afterPops
  rw [← this]

/-- The registers after `k` pops, one by one: those written, and those not. -/
theorem Regs.afterPops_read (m : Nat → Word) (k : Nat) (g : Regs) :
    (Regs.afterPops m k g).sp = g.sp + BitVec.ofNat 32 (4 * k)
      ∧ (∀ q, q ∉ (.sp :: popOrder.take k) → (Regs.afterPops m k g).read q = g.read q)
      ∧ ∀ j r, j < k → popOrder[j]? = some r → (Regs.afterPops m k g).read r
          = if r = .flags then m (popSlot g.ds g.sp j) &&& 0x3F else m (popSlot g.ds g.sp j) := by
  have ne : ∀ r ∈ popOrder.take k, r ≠ .sp ∧ r ≠ .ds := fun r hr => popOrder_ne r (List.mem_of_mem_take hr)
  have rd : ∀ q, q ≠ .sp → (Regs.afterPops m k g).read q = (Regs.popAll m (popOrder.take k) g).read q := by
    intro q hq
    cases q <;> first | rfl | contradiction
  refine ⟨rfl, fun q hq => ?_, fun j r hj h => ?_⟩
  · rw [rd q (by simp at hq; exact hq.1)]
    exact (Regs.popAll_frame _ _ ne _).2.2 q hq
  · rw [rd r (popOrder_ne r (List.mem_of_getElem? h)).1]
    exact Regs.popAll_read _ _ ne ((by decide : popOrder.Nodup).sublist (List.take_sublist ..)) _ j r
      (by rw [List.getElem?_take, if_pos hj, h])

/-! ## Returns and interrupt exits -/

/-- `destroy_frame()`, the check passed, cut short by its pop number `k` (R246). -/
theorem State.destroyFrame_cut {s : State} (h : s.Inv) (rs : s.self.registered = true) (pass : s.framePasses) {k : Nat}
    (hk : k < 2) (past : firstPopPast s.cfg (s.reg .ds) (s.reg .sp) k) :
    ∃ w, s.destroyFrame = .raise (.backendFault (firstFault s.cfg (popSlot (s.reg .ds) (s.reg .sp) k)))
        (w.setRegs (Regs.afterPops s.dwordNow k s.self.regs))
      ∧ State.Reads s w := by
  obtain ⟨w, h1, h2⟩ := (State.Reads.refl h).popRegs_fault rs [.fp, .ip] k s.self.regs
    (Regs.popFaults_of _ _ _ (by decide) hk past)
  have e : [Reg.fp, .ip].take k = popOrder.take k := by interval_cases k <;> rfl
  have len : (popOrder.take k).length = k := by interval_cases k <;> rfl
  obtain ⟨d1, d2, _⟩ := Regs.popAll_frame s.dwordNow (popOrder.take k)
    (fun r hr => popOrder_ne r (List.mem_of_mem_take hr)) s.self.regs
  rw [e, State.setRegs_self, d1, d2, len] at h1
  refine ⟨w, ?_, h2⟩
  rw [State.destroyFrame_eq pass, h1, Res.bind_raise, Regs.afterPops_eq _ _ (by omega)]
  rfl

/-- `exit_interrupt()`, the check passed, cut short by its pop number `k` (R293): the pops before it are done, and the
record is gone if the frame was. -/
theorem State.exitInterrupt_cut {s : State} (h : s.Inv) (rs : s.self.registered = true) (pass : s.framePasses) {k : Nat}
    (hk : k < 14) (past : firstPopPast s.cfg (s.reg .ds) (s.reg .sp) k) :
    ∃ w, s.exitInterrupt = .raise (.backendFault (firstFault s.cfg (popSlot (s.reg .ds) (s.reg .sp) k)))
        (w.setRegs (Regs.afterPops s.dwordNow k s.self.regs))
      ∧ State.Reads (s.setFrames (if k < 2 then s.self.frames else s.framesDropped)) w := by
  by_cases k2 : k < 2
  · obtain ⟨w, h1, h2⟩ := State.destroyFrame_cut h rs pass k2 past
    refine ⟨w, by unfold State.exitInterrupt; rw [h1, Res.bind_raise], ?_⟩
    rw [if_pos k2]
    exact h2
  rw [if_neg k2]
  have served : ∀ j, j < k → serves s.cfg .dword (popSlot (s.reg .ds) (s.reg .sp) j) := fun j hj =>
    serves_dword (popSlot_mod4 past.1 j) (past.2.1 j hj)
  obtain ⟨w, hw, h1⟩ := State.destroyFrame_ok h rs pass fun j hj => served j (by omega)
  have g0e : ({ s.self.regs with
      fp := s.dwordNow (popSlot (s.reg .ds) (s.reg .sp) 0)
      ip := s.dwordNow (popSlot (s.reg .ds) (s.reg .sp) 1)
      sp := s.reg .sp + 8 } : Regs) = Regs.popAll s.dwordNow [.fp, .ip] s.self.regs := by
    simp only [Regs.popAll, Regs.write]
    rw [show popSlot (s.reg .ds) (s.reg .sp) 0 = physAddr s.self.regs.ds s.self.regs.sp from popSlot_zero ..]
    congr 1
    show _ = s.self.regs.sp + 4 + 4
    rw [BitVec.add_assoc]
    rfl
  rw [g0e] at h1
  generalize hg0 : Regs.popAll s.dwordNow [.fp, .ip] s.self.regs = g0 at h1
  have hw' : State.Reads (s.setFrames s.framesDropped) (w.setFrames s.framesDropped) :=
    hw.setFrames rs _ (fun hc => State.framesDropped_ok h hc)
  have hdrop : State.dropFrame (w.setRegs g0) = (w.setFrames s.framesDropped).setRegs g0 := by
    rw [State.dropFrame_eq]
    have : (w.setRegs g0).framesDropped = s.framesDropped := by
      unfold State.framesDropped
      show (if w.cfg.checkFrames then w.self.frames.dropLast else w.self.frames) = _
      rw [hw.frame.cfg, hw.frame.frames]
    rw [this]
    rfl
  rw [hdrop] at h1
  have hdw : (s.setFrames s.framesDropped).dwordNow = s.dwordNow := funext fun a => State.dwordNow_setFrames ..
  have rs' : (s.setFrames s.framesDropped).self.registered = true := rs
  obtain ⟨hds, hsp, _⟩ := Regs.popAll_frame s.dwordNow [.fp, .ip] (by decide) s.self.regs
  rw [hg0] at hds hsp
  have full : ∀ j, Regs.popAll s.dwordNow ((generalRegs.reverse ++ [Reg.flags, .cs]).take j) g0
      = Regs.popAll s.dwordNow (popOrder.take (j + 2)) s.self.regs := fun j => by
    rw [← hg0, ← Regs.popAll_append]
    rfl
  have ne : ∀ r ∈ generalRegs.reverse ++ [Reg.flags, .cs], r ≠ .sp ∧ r ≠ .ds := by decide
  by_cases k12 : k < 12
  · obtain ⟨x, h3, h4⟩ := hw'.popRegs_fault rs' (generalRegs.reverse ++ [.flags, .cs]) (k - 2) g0
      (Regs.popFaults_of _ _ _ ne (by simp [generalRegs]; omega)
        (by rw [hds, hsp]; exact firstPopPast_shift 2 (by omega) past))
    rw [hdw, full, show k - 2 + 2 = k by omega, ← Regs.afterPops_eq _ _ (by omega)] at h3
    have hd : (Regs.afterPops s.dwordNow k s.self.regs).ds = s.reg .ds :=
      (Regs.afterPops_read _ k _).2.1 .ds (by
        simp only [List.mem_cons, reduceCtorEq, false_or]
        exact fun hm => (popOrder_ne _ (List.mem_of_mem_take hm)).2 rfl)
    refine ⟨x, ?_, h4⟩
    unfold State.exitInterrupt State.restoreContext
    rw [h1, Res.bind_ok, h3, Res.bind_raise, hd]
    rfl
  · have le : k ≤ 13 := by omega
    have ok12 : Regs.popsServed s.cfg s.dwordNow (generalRegs.reverse ++ [.flags, .cs]) g0 := by
      have hgg : g0 = { g0 with sp := s.self.regs.sp + 8 } := by rw [show s.self.regs.sp + 8 = g0.sp from hsp.symm]
      rw [hgg]
      simp only [generalRegs, List.reverse_cons, List.reverse_nil, List.nil_append, List.cons_append, Regs.popsServed,
        Regs.write, BitVec.add_assoc, BitVec.reduceAdd, hds]
      exact ⟨served 2 (by omega), served 3 (by omega), served 4 (by omega), served 5 (by omega), served 6 (by omega),
        served 7 (by omega), served 8 (by omega), served 9 (by omega), served 10 (by omega), served 11 (by omega),
        trivial⟩
    obtain ⟨x, h3, h4⟩ := hw'.popRegs rs' (generalRegs.reverse ++ [.flags, .cs]) g0 (by rw [hdw]; exact ok12)
    have all := full 10
    rw [show (generalRegs.reverse ++ [Reg.flags, .cs]).take 10 = generalRegs.reverse ++ [.flags, .cs] from rfl] at all
    rw [hdw, all] at h3
    generalize hg : Regs.popAll s.dwordNow (popOrder.take (10 + 2)) s.self.regs = g1 at h3
    have after : ∀ n, 12 ≤ n → Regs.afterPops s.dwordNow n s.self.regs
        = { g1 with sp := s.reg .sp + BitVec.ofNat 32 (4 * n) } := fun n hn => by
      rw [← hg]
      unfold Regs.afterPops
      rw [List.take_of_length_le (by simp [popOrder]; omega)]
      rfl
    have hd1 : g1.ds = s.reg .ds := by rw [← hg]; exact (Regs.popAll_frame _ _ (by decide) _).1
    have hs1 : g1.sp = s.reg .sp + BitVec.ofNat 32 (4 * 12) := by
      rw [← hg]; exact (Regs.popAll_frame _ _ (by decide) _).2.1
    have pk0 : physAddr g1.ds g1.sp = popSlot (s.reg .ds) (s.reg .sp) 12 := by
      rw [hd1, hs1]
      rfl
    have pk1 : physAddr g1.ds (g1.sp + 4) = popSlot (s.reg .ds) (s.reg .sp) 13 := by
      rw [← popSlot_zero, popSlot_succ, hd1, hs1, popSlot_add]
    by_cases e12 : k = 12
    · subst e12
      obtain ⟨y, h5, h6⟩ := h4.pop_fault rs' g1 (by rw [pk0]; exact popSlot_mod4 past.1 _)
        (by rw [pk0]; exact past.2.2)
      rw [pk0] at h5
      refine ⟨y, ?_, h6⟩
      unfold State.exitInterrupt State.restoreContext
      rw [h1, Res.bind_ok, h3, Res.bind_ok, h5, Res.bind_raise, after 12 (by omega), ← hs1]
      rfl
    · obtain rfl : k = 13 := by omega
      obtain ⟨y, h5, h6⟩ := h4.pop rs' g1 (by rw [pk0]; exact served 12 (by omega))
      obtain ⟨z, h7, h8⟩ := h6.pop_fault rs' { g1 with sp := g1.sp + 4 }
        (by show physAddr g1.ds (g1.sp + 4) % 4 = 0; rw [pk1]; exact popSlot_mod4 past.1 _)
        (by show _ < physAddr g1.ds (g1.sp + 4) + 4; rw [pk1]; exact past.2.2)
      have hs : g1.sp + 4 = s.reg .sp + BitVec.ofNat 32 (4 * 13) := by
        rw [hs1, BitVec.add_assoc]
        rfl
      refine ⟨z, ?_, h8⟩
      unfold State.exitInterrupt State.restoreContext
      rw [h1, Res.bind_ok, h3, Res.bind_ok, h5, Res.bind_ok, h7, Res.bind_raise, after 13 (by omega), ← hs]
      show Res.raise (.backendFault (firstFault s.cfg (physAddr g1.ds (g1.sp + 4)))) _ = _
      rw [pk1]

end Sys2Proof.Machine
end

