-- ==== Sys2Proof/Laws/Encoding.lean ====
section
/-! SUPPORT. The laws of the encoding's parts: register indices, field tuples and words, bytes, and what each
operand form accepts (R122 to R124, R132). -/

namespace Sys2Proof

@[simp] theorem Reg.ofIndex_index (r : Reg) : Reg.ofIndex r.index = some r := by
  cases r <;> rfl

/-- A register has the index it is named by. -/
theorem Reg.index_of_ofIndex {n : BitVec 4} {r : Reg} (h : Reg.ofIndex n = some r) : r.index = n := by
  revert n; cases r <;> decide

/-- Index 15 is the one that names no register (R20). -/
theorem Reg.ofIndex_eq_none (n : BitVec 4) : Reg.ofIndex n = none ↔ n = 15 := by
  revert n; decide

@[simp] theorem Reg.index_ne_fifteen (r : Reg) : ¬ r.index = 15#4 := by
  cases r <;> decide

/-- Bit `i` of a word stands in the field whose place it is (R122). -/
theorem Fields.getLsbD_toWord (f : Fields) (i : Nat) :
    f.toWord.getLsbD i =
      if i < 16 then f.imm.getLsbD i
      else if i < 20 then f.rb.getLsbD (i - 16)
      else if i < 24 then f.ra.getLsbD (i - 20)
      else f.op.getLsbD (i - 24) := by
  have e : f.toWord.getLsbD i = (f.op ++ (f.ra ++ (f.rb ++ f.imm))).getLsbD i := rfl
  rw [e, BitVec.getLsbD_append, BitVec.getLsbD_append, BitVec.getLsbD_append]
  have e1 : i - 16 - 4 = i - 20 := by omega
  have e2 : i - 20 - 4 = i - 24 := by omega
  split_ifs <;> first | rfl | omega

/-- The fields of a word put together from fields are those fields. -/
@[simp] theorem Fields.ofWord_toWord (f : Fields) : Fields.ofWord f.toWord = f := by
  have hop : f.toWord.extractLsb' 24 8 = f.op := by
    apply BitVec.eq_of_getLsbD_eq
    intro i hi
    simp only [BitVec.getLsbD_extractLsb', Fields.getLsbD_toWord, hi, decide_true, Bool.true_and]
    rw [if_neg (by omega), if_neg (by omega), if_neg (by omega), Nat.add_sub_cancel_left]
  have hra : f.toWord.extractLsb' 20 4 = f.ra := by
    apply BitVec.eq_of_getLsbD_eq
    intro i hi
    simp only [BitVec.getLsbD_extractLsb', Fields.getLsbD_toWord, hi, decide_true, Bool.true_and]
    rw [if_neg (by omega), if_neg (by omega), if_pos (by omega), Nat.add_sub_cancel_left]
  have hrb : f.toWord.extractLsb' 16 4 = f.rb := by
    apply BitVec.eq_of_getLsbD_eq
    intro i hi
    simp only [BitVec.getLsbD_extractLsb', Fields.getLsbD_toWord, hi, decide_true, Bool.true_and]
    rw [if_neg (by omega), if_pos (by omega), Nat.add_sub_cancel_left]
  have himm : f.toWord.extractLsb' 0 16 = f.imm := by
    apply BitVec.eq_of_getLsbD_eq
    intro i hi
    simp only [BitVec.getLsbD_extractLsb', Fields.getLsbD_toWord, hi, decide_true, Bool.true_and]
    rw [if_pos (by omega), Nat.zero_add]
  simp only [Fields.ofWord, hop, hra, hrb, himm]

/-- A word is put together from its fields: no bit is dropped. -/
@[simp] theorem Fields.toWord_ofWord (w : Word) : (Fields.ofWord w).toWord = w := by
  apply BitVec.eq_of_getLsbD_eq
  intro i hi
  rw [Fields.getLsbD_toWord]
  simp only [Fields.ofWord, BitVec.getLsbD_extractLsb']
  split_ifs with h1 h2 h3
  · simp [h1]
  · simp [show i - 16 < 4 by omega, show 16 + (i - 16) = i by omega]
  · simp [show i - 20 < 4 by omega, show 20 + (i - 20) = i by omega]
  · simp [show i - 24 < 8 by omega, show 24 + (i - 24) = i by omega]

/-- The bytes of a word put together again are the word (R65). -/
@[simp] theorem wordOfBytes_extract (w : Word) :
    wordOfBytes (w.extractLsb' 0 8) (w.extractLsb' 8 8) (w.extractLsb' 16 8) (w.extractLsb' 24 8) = w := by
  apply BitVec.eq_of_getLsbD_eq
  intro i hi
  have e : (wordOfBytes (w.extractLsb' 0 8) (w.extractLsb' 8 8) (w.extractLsb' 16 8)
      (w.extractLsb' 24 8)).getLsbD i = (w.extractLsb' 24 8 ++ (w.extractLsb' 16 8
        ++ (w.extractLsb' 8 8 ++ w.extractLsb' 0 8))).getLsbD i := rfl
  rw [e, BitVec.getLsbD_append, BitVec.getLsbD_append, BitVec.getLsbD_append]
  simp only [BitVec.getLsbD_extractLsb']
  split_ifs with h1 h2 h3
  · simp [h3]
  · simp [show i - 8 < 8 by omega, show 8 + (i - 8) = i by omega]
  · simp [show i - (8 + 8) < 8 by omega, show 16 + (i - (8 + 8)) = i by omega]
  · simp [show i - (8 + (8 + 8)) < 8 by omega, show 24 + (i - (8 + (8 + 8))) = i by omega]

/-- The bytes of a word in memory order decode as the word (R65, R120). -/
theorem decodeBytes_bytesOfWord (w : Word) : decodeBytes (bytesOfWord w) = decodeWord w := by
  simp [bytesOfWord, decodeBytes]

/-- The decoder reads a table word as the word it is (R120). -/
theorem decodeTableWord_eq (w : Word) : decodeTableWord 32 w.toNat = (decodeWord w).instr? := by
  have : BitVec.ofNat 32 (w.toNat % 2 ^ 32) = w := by
    apply BitVec.eq_of_toNat_eq; simpa using w.isLt
  rw [decodeTableWord, decodeBytes_bytesOfWord, this]

end Sys2Proof
end

