-- ==== Sys2Proof/Laws/Execution.lean ====
section
/-! SUPPORT. What stands around every instruction (R150, R154, R156, R157), the destination check (R27), and each
arithmetic-logic operation as arithmetic modulo 2^32 (R200). -/

namespace Sys2Proof.Machine

/-! ## Around every instruction -/

/-- The effect of an instruction: what stands inside `State.perform` in its meaning. -/
def effectOf : Instr → State → Res Unit
  | .nop => fun s => .ok () s
  | .li ra imm => fun s => (s.checkDest ra).bind fun _ s => .ok () (s.loadReg ra (sext32 imm))
  | .liu ra imm => fun s => (s.checkDest ra).bind fun _ s => .ok () (s.loadReg ra (upperImm imm (s.reg ra)))
  | .mov ra rb => fun s => (s.checkDest ra).bind fun _ s => .ok () (s.setReg ra (s.reg rb))
  | .lb ra rb imm => State.load .byte ra rb imm
  | .lw ra rb imm => State.load .word ra rb imm
  | .ld ra rb imm => State.load .dword ra rb imm
  | .stb ra rb imm => State.store .byte ra rb imm
  | .stw ra rb imm => State.store .word ra rb imm
  | .std ra rb imm => State.store .dword ra rb imm
  | .push ra => fun s => s.push (s.reg ra)
  | .pop ra => fun s => (s.checkDest ra).bind fun _ s => s.pop.bind fun v s => .ok () (s.setReg ra v)
  | .add ra rb => fun s => s.alu false aluAdd ra (s.reg rb)
  | .addi ra imm => State.alu false aluAdd ra (sext32 imm)
  | .sub ra rb => fun s => s.alu false aluSub ra (s.reg rb)
  | .subi ra imm => State.alu false aluSub ra (sext32 imm)
  | .mul ra rb => fun s => s.alu false aluMul ra (s.reg rb)
  | .muli ra imm => State.alu false aluMul ra (sext32 imm)
  | .div ra rb => fun s => s.alu true aluDiv ra (s.reg rb)
  | .divi ra imm => State.alu true aluDiv ra (sext32 imm)
  | .mod ra rb => fun s => s.alu true aluMod ra (s.reg rb)
  | .modi ra imm => State.alu true aluMod ra (sext32 imm)
  | .and ra rb => fun s => s.alu false aluAnd ra (s.reg rb)
  | .andi ra imm => State.alu false aluAnd ra (sext32 imm)
  | .or ra rb => fun s => s.alu false aluOr ra (s.reg rb)
  | .ori ra imm => State.alu false aluOr ra (sext32 imm)
  | .xor ra rb => fun s => s.alu false aluXor ra (s.reg rb)
  | .xori ra imm => State.alu false aluXor ra (sext32 imm)
  | .not ra => State.alu false aluNot ra 0
  | .shl ra rb => fun s => s.alu false aluShl ra (s.reg rb)
  | .shli ra imm => State.alu false aluShl ra (sext32 imm)
  | .shr ra rb => fun s => s.alu false aluShr ra (s.reg rb)
  | .shri ra imm => State.alu false aluShr ra (sext32 imm)
  | .cmp ra rb => fun s => .ok () (s.compare ra (s.reg rb))
  | .cmpi ra imm => fun s => .ok () (s.compare ra (sext32 imm))
  | .j ra => fun s => .ok () (s.jump (s.reg ra))
  | .jr imm => fun s => .ok () (s.jump (s.relTarget imm))
  | .be imm => fun s => .ok () (s.branch s.flags.equal imm)
  | .bne imm => fun s => .ok () (s.branch (!s.flags.equal) imm)
  | .bz imm => fun s => .ok () (s.branch s.flags.zero imm)
  | .bnz imm => fun s => .ok () (s.branch (!s.flags.zero) imm)
  | .bo imm => fun s => .ok () (s.branch s.flags.overflow imm)
  | .bno imm => fun s => .ok () (s.branch (!s.flags.overflow) imm)
  | .bs imm => fun s => .ok () (s.branch s.flags.sign imm)
  | .bns imm => fun s => .ok () (s.branch (!s.flags.sign) imm)
  | .call ra => fun s => s.callTo (s.reg ra)
  | .callr imm => fun s => s.callTo (s.relTarget imm)
  | .ret => State.destroyFrame
  | .int imm => State.doInt imm
  | .retint => State.exitInterrupt
  | .cli => fun s => .ok () (s.setHwint false)
  | .sti => fun s => .ok () (s.setHwint true)
  | .lpm => fun s => .ok () (s.setPrivileged false)
  | .hlt ra => fun s => .ok () (s.halt (s.reg ra))
  | .sis imm => State.switchSet imm.toNat

/-- The privileged-instruction check of a DK0 instruction (R131, R154). -/
theorem State.checkPrivilege_dk0 (i : Instr) (s : State) :
    s.checkPrivilege (.dk0 i) =
      if isPrivileged i && !s.flags.privileged then .raise (.accessViolationInstruction (.dk0 i)) s else .ok () s := rfl

/-- Every meaning is its effect with R150 around it. -/
theorem exec_eq (i : Instr) (s : State) : exec i s = s.perform i (effectOf i) := by cases i <;> rfl

/-- What an instruction does, all cases: the privileged check kills the core, the effect ends and the instruction
retires, or the effect raises a fault and kills the core. -/
theorem exec_cases {i : Instr} {s t : State} (h : exec i s = .next t) :
    (isPrivileged i = true ∧ s.flags.privileged = false ∧ t = s.die (.accessViolationInstruction (.dk0 i)))
      ∨ (isPrivileged i = false ∨ s.flags.privileged = true)
        ∧ ((∃ u, effectOf i s = .ok () u ∧ t = u.retire) ∨ ∃ f u, effectOf i s = .raise f u ∧ t = u.die f) := by
  rw [exec_eq, State.perform, State.checkPrivilege_dk0] at h
  split at h
  · next hp =>
    simp only [Bool.and_eq_true, Bool.not_eq_true'] at hp
    exact .inl ⟨hp.1, hp.2, (Host.Outcome.next.inj h).symm⟩
  · next hp =>
    refine .inr ⟨?_, ?_⟩
    · cases h1 : isPrivileged i <;> cases h2 : s.flags.privileged <;> simp_all
    · rw [Res.bind_ok] at h
      cases he : effectOf i s with
      | ok a u => rw [he] at h; exact .inl ⟨u, rfl, (Host.Outcome.next.inj h).symm⟩
      | raise f u => rw [he] at h; exact .inr ⟨f, u, rfl, (Host.Outcome.next.inj h).symm⟩

/-- An instruction that its mode may run and whose effect ends retires. -/
theorem exec_of_ok {i : Instr} {s t : State} {body : State → Res Unit} (he : exec i s = s.perform i body)
    (hp : isPrivileged i = false ∨ s.flags.privileged = true) (hb : body s = .ok () t) :
    exec i s = .next t.retire := by
  have : (isPrivileged i && !s.flags.privileged) = false := by rcases hp with h | h <;> simp [h]
  rw [he, State.perform, State.checkPrivilege_dk0, this]
  simp only [Bool.false_eq_true, if_false, Res.bind_ok, hb, Res.finish_ok]

/-- An instruction that its mode may run and whose effect raises a fault kills the core. -/
theorem exec_of_raise {i : Instr} {s t : State} {body : State → Res Unit} {f : CoreFault}
    (he : exec i s = s.perform i body) (hp : isPrivileged i = false ∨ s.flags.privileged = true)
    (hb : body s = .raise f t) : exec i s = .next (t.die f) := by
  have : (isPrivileged i && !s.flags.privileged) = false := by rcases hp with h | h <;> simp [h]
  rw [he, State.perform, State.checkPrivilege_dk0, this]
  simp only [Bool.false_eq_true, if_false, Res.bind_ok, hb, Res.finish_raise]

/-- A privileged instruction in unprivileged mode kills the core (R154). -/
theorem exec_of_unprivileged {i : Instr} {s : State} {body : State → Res Unit} (he : exec i s = s.perform i body)
    (hp : isPrivileged i = true) (hs : s.flags.privileged = false) :
    exec i s = .next (s.die (.accessViolationInstruction (.dk0 i))) := by
  rw [he, State.perform, State.checkPrivilege_dk0, hp, hs]
  rfl

/-- The destination check passes (R27). -/
theorem State.checkDest_ok {s : State} {ra : Reg} (h : protectedReg ra = true → s.flags.privileged = true) :
    s.checkDest ra = .ok () s := by
  unfold State.checkDest
  by_cases hp : protectedReg ra = true
  · simp [hp, h hp]
  · simp [hp]

/-- The destination check fails (R27). -/
theorem State.checkDest_raise {s : State} {ra : Reg} (h : protectedReg ra = true)
    (hs : s.flags.privileged = false) : s.checkDest ra = .raise (.accessViolationRegister ra) s := by
  unfold State.checkDest
  simp [h, hs]

/-- `die` leaves the registers as the fault left them (R281). -/
@[simp] theorem State.die_regs (s : State) (f : CoreFault) : (s.die f).self.regs = s.self.regs := by
  unfold State.die State.halt
  split
  · rfl
  · rfl

/-- `die` does not touch the other cores (R281). -/
@[simp] theorem State.die_before (s : State) (f : CoreFault) : (s.die f).before = s.before := by
  unfold State.die State.halt
  split
  · rfl
  · rfl

@[simp] theorem State.die_after (s : State) (f : CoreFault) : (s.die f).after = s.after := by
  unfold State.die State.halt
  split
  · rfl
  · rfl

/-! ## The arithmetic-logic operations modulo 2^32 -/

theorem ofInt_natCast (n : Nat) : BitVec.ofInt 32 (n : Int) = BitVec.ofNat 32 n := by simp

theorem aluAdd_result (a b : Word) : aluAdd.result a b = a + b := by
  show BitVec.ofInt 32 ((a.toNat : Int) + b.toNat) = _
  rw [show ((a.toNat : Int) + b.toNat) = ((a.toNat + b.toNat : Nat) : Int) by push_cast; rfl, ofInt_natCast]
  apply BitVec.eq_of_toNat_eq
  simp

theorem aluSub_result (a b : Word) : aluSub.result a b = a - b := by
  show BitVec.ofInt 32 ((a.toNat : Int) - b.toNat) = _
  apply BitVec.eq_of_toNat_eq
  have := a.isLt
  have := b.isLt
  simp only [BitVec.toNat_ofInt, BitVec.toNat_sub]
  omega

theorem aluMul_result (a b : Word) : aluMul.result a b = a * b := by
  show BitVec.ofInt 32 ((a.toNat : Int) * b.toNat) = _
  rw [show ((a.toNat : Int) * b.toNat) = ((a.toNat * b.toNat : Nat) : Int) by push_cast; rfl, ofInt_natCast]
  apply BitVec.eq_of_toNat_eq
  simp

theorem aluDiv_result (a b : Word) : aluDiv.result a b = BitVec.ofNat 32 (a.toNat / b.toNat) := ofInt_natCast _

theorem aluMod_result (a b : Word) : aluMod.result a b = BitVec.ofNat 32 (a.toNat % b.toNat) := ofInt_natCast _

theorem ofInt_toNat (a : Word) : BitVec.ofInt 32 (a.toNat : Int) = a := by simp

theorem aluAnd_result (a b : Word) : aluAnd.result a b = a &&& b := ofInt_toNat _

theorem aluOr_result (a b : Word) : aluOr.result a b = a ||| b := ofInt_toNat _

theorem aluXor_result (a b : Word) : aluXor.result a b = a ^^^ b := ofInt_toNat _

theorem aluNot_result (a b : Word) : aluNot.result a b = ~~~a := by
  have e : (2 ^ 32 - 1 - (a.toNat : Int)) = ((2 ^ 32 - 1 - a.toNat : Nat) : Int) := by have := a.isLt; omega
  show BitVec.ofInt 32 (2 ^ 32 - 1 - (a.toNat : Int)) = _
  rw [e, ofInt_natCast]
  apply BitVec.eq_of_toNat_eq
  simp [BitVec.toNat_not]
  omega

/-- The shift amount is the operand modulo 32 (R218, R222). -/
theorem shiftAmount_eq (b : Word) : shiftAmount b = b.toNat % 32 := by
  unfold shiftAmount
  simp [BitVec.extractLsb'_toNat]

/-- Sign extension plays no part in an immediate shift amount (R219). -/
theorem shiftAmount_sext32 (imm : Half) : shiftAmount (sext32 imm) = imm.toNat % 32 := by
  have e : (sext32 imm).extractLsb' 0 5 = imm.extractLsb' 0 5 := by
    apply BitVec.eq_of_getLsbD_eq
    intro i hi
    simp only [sext32, BitVec.getLsbD_extractLsb', hi, decide_true, Bool.true_and, Nat.zero_add,
      BitVec.getLsbD_signExtend, show i < 32 by omega, show i < 16 by omega, if_true]
  unfold shiftAmount
  rw [e]
  simp [BitVec.extractLsb'_toNat]

theorem aluShl_result (a b : Word) : aluShl.result a b = a <<< shiftAmount b := by
  show BitVec.ofInt 32 ((a.toNat : Int) * 2 ^ shiftAmount b) = _
  rw [show ((a.toNat : Int) * 2 ^ shiftAmount b) = ((a.toNat * 2 ^ shiftAmount b : Nat) : Int) by push_cast; rfl,
    ofInt_natCast]
  apply BitVec.eq_of_toNat_eq
  simp [BitVec.toNat_shiftLeft, Nat.shiftLeft_eq]

theorem aluShr_result (a b : Word) : aluShr.result a b = a >>> shiftAmount b := by
  show BitVec.ofInt 32 ((a.toNat / 2 ^ shiftAmount b : Nat) : Int) = _
  rw [ofInt_natCast]
  apply BitVec.eq_of_toNat_eq
  have lt : a.toNat / 2 ^ shiftAmount b < 2 ^ 32 := lt_of_le_of_lt (Nat.div_le_self ..) a.isLt
  simp only [BitVec.toNat_ushiftRight, Nat.shiftRight_eq_div_pow, BitVec.toNat_ofNat, Nat.mod_eq_of_lt lt]

end Sys2Proof.Machine
end

