-- ==== Sys2Proof/Laws/HostOps.lean ====
section
/-! SUPPORT. What the machine does with a transition that is asked for (R100, R310), what `boot` leaves, in one update
(R312), which core a free choice takes (R281), and that `boot`, `suspend`, `wake_up` and the host's page calls keep the invariant of the machine (R312 to R314). -/

namespace Sys2Proof.Machine

/-! ## A transition that is asked for -/

/-- An existing core, brought to the front. -/
theorem State.focus_at {s : State} {rest : List HostOp} {k : Nat} {c : Core} (hc : s.cores[k]? = some c) :
    k < s.nCores ∧ (State.focus { s with inputs := rest } k).self = c
      ∧ (State.focus { s with inputs := rest } k).cores = s.cores
      ∧ (State.focus { s with inputs := rest } k).selfId = k := by
  obtain ⟨lt, e⟩ := List.getElem?_eq_some_iff.mp hc
  have f := State.focus_of_lt (s := { s with inputs := rest }) (k := k) lt
  exact ⟨lt, f.2.2.1.trans e, f.1, f.2.1⟩

/-- A step of an existing Booted core that is asked for (R150, R161). -/
theorem State.step_at {s u : State} {k : Nat} {rest : List HostOp} (hi : s.inputs = .step k :: rest)
    (hk : k < s.nCores) (hu : u = State.focus { s with inputs := rest } k) (hl : u.self.life = .booted) :
    step s = u.stepSelf := by
  unfold step
  rw [hi]
  dsimp only
  unfold State.transition State.stepCore
  dsimp only
  rw [if_pos (show k < State.nCores { s with inputs := rest } from hk), ← hu,
    if_pos (by unfold Core.isRunnable; rw [hl]; rfl)]

/-- A host operation that is asked for (R310). -/
theorem State.step_host {s : State} {op : HostOp} {rest : List HostOp} (hi : s.inputs = op :: rest)
    (no : ∀ k, op ≠ .step k) : step s = State.hostOp { s with inputs := rest } op := by
  unfold step
  rw [hi]
  dsimp only
  unfold State.transition
  split
  · exact absurd rfl (no _)
  · rfl

/-- A host operation on an existing core acts on that core, brought to the front. -/
theorem State.onCore_at {s : State} {k : Nat} {rest : List HostOp} {c : Core} (hc : s.cores[k]? = some c)
    (f : State → State) :
    State.onCore k f { s with inputs := rest } = .next (f (State.focus { s with inputs := rest } k)) := by
  unfold State.onCore
  rw [if_pos (show k < State.nCores { s with inputs := rest } from (State.focus_at (rest := rest) hc).1)]

/-- The executing core replaced, as a change of the row of cores. -/
theorem State.cores_with_self (s : State) (c : Core) :
    State.cores { s with self := c } = s.cores.set s.selfId c := by
  unfold State.cores State.selfId
  simp

/-! ## Choosing a core -/

/-- The numbers that a test picks out of a list of cores. -/
theorem mem_numbersFrom {p : Core → Bool} {cs : List Core} {n k : Nat} :
    k ∈ numbersFrom p n cs ↔ ∃ j c, k = n + j ∧ cs[j]? = some c ∧ p c = true := by
  induction cs generalizing n with
  | nil => simp [numbersFrom]
  | cons d rest ih =>
    have tail : k ∈ numbersFrom p (n + 1) rest ↔ ∃ j c, k = n + (j + 1) ∧ rest[j]? = some c ∧ p c = true := by
      rw [ih]
      exact exists_congr fun j => by rw [show n + 1 + j = n + (j + 1) by omega]
    constructor
    · intro h
      unfold numbersFrom at h
      split at h
      · next hd =>
        obtain rfl | h := List.mem_cons.mp h
        · exact ⟨0, d, rfl, rfl, hd⟩
        · obtain ⟨j, c, e⟩ := tail.mp h
          exact ⟨j + 1, c, e⟩
      · obtain ⟨j, c, e⟩ := tail.mp h
        exact ⟨j + 1, c, e⟩
    · rintro ⟨j, c, e, hc, hp⟩
      unfold numbersFrom
      cases j with
      | zero =>
        cases hc
        rw [if_pos hp, e]
        exact List.mem_cons_self
      | succ j =>
        have := tail.mpr ⟨j, c, e, hc, hp⟩
        split
        · exact List.mem_cons_of_mem _ this
        · exact this

/-- A choice among no cores is none; any other is one of them, and at most the counter moves. -/
theorem State.choose_cases (free : Nat → Nat) (ks : List Nat) (s : State) :
    (ks = [] ∧ s.choose free ks = none) ∨ ∃ k ∈ ks, ∃ n, s.choose free ks = some (k, { s with tick := n }) := by
  unfold State.choose
  split
  · exact .inl ⟨rfl, rfl⟩
  · exact .inr ⟨_, List.mem_cons_self, s.tick, rfl⟩
  · next h1 h2 =>
    have pos : 0 < ks.length := List.length_pos_iff.mpr h1
    have lt := Nat.mod_lt (free s.tick) pos
    exact .inr ⟨_, List.getElem_mem lt, s.tick + 1, by rw [List.getElem?_eq_getElem lt]; rfl⟩

/-- What a fault of a host operation that names no core does: some core that is not Halted dies, if there is one. -/
theorem State.dieFree_cases (f : CoreFault) (s : State) :
    ((∀ c ∈ s.cores, c.life.isHalted = true) ∧ s.dieFree f = s)
      ∨ ∃ (k n : Nat) (c : Core), s.cores[k]? = some c ∧ c.life.isHalted = false
        ∧ s.dieFree f = (State.focus { s with tick := n } k).die f := by
  unfold State.dieFree
  obtain ⟨e, h⟩ | ⟨k, hk, n, h⟩ := s.choose_cases Config.blamedCore s.notHalted
  · rw [h]
    refine .inl ⟨fun c hc => ?_, rfl⟩
    obtain ⟨j, hj⟩ := List.getElem?_of_mem hc
    cases hl : c.life.isHalted with
    | true => rfl
    | false =>
      have : j ∈ s.notHalted := mem_numbersFrom.mpr ⟨j, c, by omega, hj, by simp [hl]⟩
      rw [e] at this
      cases this
  · rw [h]
    obtain ⟨j, c, rfl, hc, hp⟩ := mem_numbersFrom.mp hk
    exact .inr ⟨0 + j, n, c, by rw [Nat.zero_add]; exact hc, by simpa using hp, rfl⟩

/-! ## `boot`, `suspend` and `wake_up` -/

theorem State.setRegs_setReg (s : State) (g : Regs) (r : Reg) (v : Word) :
    (s.setRegs g).setReg r v = s.setRegs (g.write r v) := rfl

/-- The register file that `boot` leaves (R312). -/
theorem State.bootRegs_eq (s : State) (a : BootArgs) :
    s.bootRegs a = s.setRegs { s.self.regs with
      cs := a.cs, ds := a.ds, sp := a.sp, fp := a.sp, ip := a.ip
      flags := { s.self.regs.flags with privileged := a.privileged } } := by
  have e : s.setReg .cs a.cs = s.setRegs (s.self.regs.write .cs a.cs) := rfl
  unfold State.bootRegs State.setPrivileged State.setFlags
  rw [e]
  simp only [State.setRegs_setReg, Regs.write, State.flags, State.setRegs_self_regs, State.setRegs_setRegs]

/-- `boot` from Reset, in one update (R312). -/
theorem State.boot_eq {s : State} (h : s.self.life = .reset) (a : BootArgs) :
    s.boot a = { s with self := { s.self with
      life := .booted
      registered := true
      regs := { s.self.regs with
        cs := a.cs, ds := a.ds, sp := a.sp, fp := a.sp, ip := a.ip
        flags := { s.self.regs.flags with privileged := a.privileged } } } } := by
  unfold State.boot
  rw [h]
  dsimp only
  rw [State.bootRegs_eq]
  rfl

/-- `boot` keeps the invariant: a core in Reset has empty caches and no frames (R340). -/
theorem State.boot_inv {s : State} (h : s.Inv) (a : BootArgs) : (s.boot a).Inv := by
  by_cases e : s.self.life = .reset
  · obtain ⟨h1, h2, ⟨w1, w2, w3, _, w5, w6, _⟩, h4, _, h6, _, h8⟩ := State.Inv_iff.mp h
    have hd : s.self.dcache = [] := by rw [w6 e]; rfl
    rw [State.boot_eq e]
    generalize Regs.mk .. = g
    refine State.Inv_iff.mpr ⟨h1, h2, ⟨w1, w2, w3, rfl, w5, fun x => Lifecycle.noConfusion x,
      fun x => Bool.noConfusion x⟩, h4, ?_, h6, ?_, h8⟩
    · intro c _ _ _ x hx
      rw [show (_ : State).self.dcache = s.self.dcache from rfl, hd] at hx
      cases hx
    · intro _ x hx
      rw [show (_ : State).self.dcache = s.self.dcache from rfl, hd] at hx
      cases hx
  · unfold State.boot
    split
    · contradiction
    all_goals exact h

/-- A change of the lifecycle state of an alive core to an alive state keeps the invariant. -/
theorem State.setLife_inv {s : State} (h : s.Inv) (alive : s.self.life.isAlive = true) {l : Lifecycle}
    (hl : l.isAlive = true) : (s.setLife l).Inv := by
  obtain ⟨w1, w2, w3, w4, w5, _, w7⟩ := (State.Inv_iff.mp h).2.2.1
  refine State.Inv_self h { s.self with life := l } ⟨w1, w2, w3, (w4.trans alive).trans hl.symm, w5, ?_, w7⟩ rfl rfl
  intro x
  rw [show l = .reset from x] at hl
  cases hl

/-- The host's page calls change the page marks alone, and keep the invariant (R63). -/
theorem State.pageCall_inv {s : State} (h : s.Inv) (pages : List Nat) (fault : Option Nat) :
    s.pageCall pages fault = .ok () (s.setPages (markPages pages)) ∧ (s.setPages (markPages pages)).Inv := by
  have e : s.pageCall pages fault = .ok () (s.setPages (markPages pages)) := by
    unfold State.pageCall
    rw [h.reference]
  exact ⟨e, ⟨h.1, ⟨h.2.1.1, h.2.1.2.1, pagesWfAbove_markPages pages, h.reference⟩, h.2.2.1, h.2.2.2⟩⟩

theorem State.suspend_inv {s : State} (h : s.Inv) : s.suspend.Inv := by
  unfold State.suspend
  split
  · next e => exact State.setLife_inv h (by rw [e]; rfl) rfl
  all_goals exact h

theorem State.wakeUp_inv {s : State} (h : s.Inv) : s.wakeUp.Inv := by
  unfold State.wakeUp
  split
  · next e => exact State.setLife_inv h (by rw [e]; rfl) rfl
  all_goals exact h

end Sys2Proof.Machine
end

