-- ==== Sys2Proof/Laws/PerInstr.lean ====
section
/-! SUPPORT. The family `EncodingWellFormed`: the fields of every instruction pass the check of R124, one lemma per
constructor. -/

namespace Sys2Proof.Laws.EncodingWellFormed

/-- The instruction's own fields are a legal instruction word (R123, R124). -/
def Statement (i : Instr) : Prop := i.wellFormed = true

/-- A tuple of form N with an assigned opcode is legal. -/
theorem formN (op : BitVec 8) (h : formOf op = some .n) :
    Fields.wellFormed ⟨op, 0, 0, 0⟩ = true := by
  simp [Fields.wellFormed, h, Fields.unusedZero, Fields.registersNamed, Form.usesRa, Form.usesRb, Form.usesImm]

/-- A tuple of form A with an assigned opcode is legal. -/
theorem formA (op : BitVec 8) (h : formOf op = some .a) (ra : Reg) :
    Fields.wellFormed ⟨op, ra.index, 0, 0⟩ = true := by
  simp [Fields.wellFormed, h, Fields.unusedZero, Fields.registersNamed, Form.usesRa, Form.usesRb, Form.usesImm]

/-- A tuple of form AB with an assigned opcode is legal. -/
theorem formAB (op : BitVec 8) (h : formOf op = some .ab) (ra rb : Reg) :
    Fields.wellFormed ⟨op, ra.index, rb.index, 0⟩ = true := by
  simp [Fields.wellFormed, h, Fields.unusedZero, Fields.registersNamed, Form.usesRa, Form.usesRb, Form.usesImm]

/-- A tuple of form AI with an assigned opcode is legal. -/
theorem formAI (op : BitVec 8) (h : formOf op = some .ai) (ra : Reg) (imm : Half) :
    Fields.wellFormed ⟨op, ra.index, 0, imm⟩ = true := by
  simp [Fields.wellFormed, h, Fields.unusedZero, Fields.registersNamed, Form.usesRa, Form.usesRb, Form.usesImm]

/-- A tuple of form ABI with an assigned opcode is legal. -/
theorem formABI (op : BitVec 8) (h : formOf op = some .abi) (ra rb : Reg) (imm : Half) :
    Fields.wellFormed ⟨op, ra.index, rb.index, imm⟩ = true := by
  simp [Fields.wellFormed, h, Fields.unusedZero, Fields.registersNamed, Form.usesRa, Form.usesRb, Form.usesImm]

/-- A tuple of form I with an assigned opcode is legal. -/
theorem formI (op : BitVec 8) (h : formOf op = some .i) (imm : Half) :
    Fields.wellFormed ⟨op, 0, 0, imm⟩ = true := by
  simp [Fields.wellFormed, h, Fields.unusedZero, Fields.registersNamed, Form.usesRa, Form.usesRb, Form.usesImm]

theorem nop : Statement (.nop) := formN 0x00 rfl

theorem li (ra : Reg) (imm : Half) : Statement (.li ra imm) := formAI 0x01 rfl ra imm

theorem liu (ra : Reg) (imm : Half) : Statement (.liu ra imm) := formAI 0x02 rfl ra imm

theorem mov (ra rb : Reg) : Statement (.mov ra rb) := formAB 0x03 rfl ra rb

theorem lb (ra rb : Reg) (imm : Half) : Statement (.lb ra rb imm) := formABI 0x04 rfl ra rb imm

theorem lw (ra rb : Reg) (imm : Half) : Statement (.lw ra rb imm) := formABI 0x05 rfl ra rb imm

theorem ld (ra rb : Reg) (imm : Half) : Statement (.ld ra rb imm) := formABI 0x06 rfl ra rb imm

theorem stb (ra rb : Reg) (imm : Half) : Statement (.stb ra rb imm) := formABI 0x07 rfl ra rb imm

theorem stw (ra rb : Reg) (imm : Half) : Statement (.stw ra rb imm) := formABI 0x08 rfl ra rb imm

theorem std (ra rb : Reg) (imm : Half) : Statement (.std ra rb imm) := formABI 0x09 rfl ra rb imm

theorem push (ra : Reg) : Statement (.push ra) := formA 0x0A rfl ra

theorem pop (ra : Reg) : Statement (.pop ra) := formA 0x0B rfl ra

theorem add (ra rb : Reg) : Statement (.add ra rb) := formAB 0x10 rfl ra rb

theorem addi (ra : Reg) (imm : Half) : Statement (.addi ra imm) := formAI 0x11 rfl ra imm

theorem sub (ra rb : Reg) : Statement (.sub ra rb) := formAB 0x12 rfl ra rb

theorem subi (ra : Reg) (imm : Half) : Statement (.subi ra imm) := formAI 0x13 rfl ra imm

theorem mul (ra rb : Reg) : Statement (.mul ra rb) := formAB 0x14 rfl ra rb

theorem muli (ra : Reg) (imm : Half) : Statement (.muli ra imm) := formAI 0x15 rfl ra imm

theorem div (ra rb : Reg) : Statement (.div ra rb) := formAB 0x16 rfl ra rb

theorem divi (ra : Reg) (imm : Half) : Statement (.divi ra imm) := formAI 0x17 rfl ra imm

theorem mod (ra rb : Reg) : Statement (.mod ra rb) := formAB 0x18 rfl ra rb

theorem modi (ra : Reg) (imm : Half) : Statement (.modi ra imm) := formAI 0x19 rfl ra imm

theorem and (ra rb : Reg) : Statement (.and ra rb) := formAB 0x1A rfl ra rb

theorem andi (ra : Reg) (imm : Half) : Statement (.andi ra imm) := formAI 0x1B rfl ra imm

theorem or (ra rb : Reg) : Statement (.or ra rb) := formAB 0x1C rfl ra rb

theorem ori (ra : Reg) (imm : Half) : Statement (.ori ra imm) := formAI 0x1D rfl ra imm

theorem xor (ra rb : Reg) : Statement (.xor ra rb) := formAB 0x1E rfl ra rb

theorem xori (ra : Reg) (imm : Half) : Statement (.xori ra imm) := formAI 0x1F rfl ra imm

theorem not (ra : Reg) : Statement (.not ra) := formA 0x20 rfl ra

theorem shl (ra rb : Reg) : Statement (.shl ra rb) := formAB 0x22 rfl ra rb

theorem shli (ra : Reg) (imm : Half) : Statement (.shli ra imm) := formAI 0x23 rfl ra imm

theorem shr (ra rb : Reg) : Statement (.shr ra rb) := formAB 0x24 rfl ra rb

theorem shri (ra : Reg) (imm : Half) : Statement (.shri ra imm) := formAI 0x25 rfl ra imm

theorem cmp (ra rb : Reg) : Statement (.cmp ra rb) := formAB 0x26 rfl ra rb

theorem cmpi (ra : Reg) (imm : Half) : Statement (.cmpi ra imm) := formAI 0x27 rfl ra imm

theorem j (ra : Reg) : Statement (.j ra) := formA 0x30 rfl ra

theorem jr (imm : Half) : Statement (.jr imm) := formI 0x31 rfl imm

theorem be (imm : Half) : Statement (.be imm) := formI 0x32 rfl imm

theorem bne (imm : Half) : Statement (.bne imm) := formI 0x33 rfl imm

theorem bz (imm : Half) : Statement (.bz imm) := formI 0x34 rfl imm

theorem bnz (imm : Half) : Statement (.bnz imm) := formI 0x35 rfl imm

theorem bo (imm : Half) : Statement (.bo imm) := formI 0x36 rfl imm

theorem bno (imm : Half) : Statement (.bno imm) := formI 0x37 rfl imm

theorem bs (imm : Half) : Statement (.bs imm) := formI 0x38 rfl imm

theorem bns (imm : Half) : Statement (.bns imm) := formI 0x39 rfl imm

theorem call (ra : Reg) : Statement (.call ra) := formA 0x3A rfl ra

theorem callr (imm : Half) : Statement (.callr imm) := formI 0x3B rfl imm

theorem ret : Statement (.ret) := formN 0x3C rfl

theorem int (imm : Half) : Statement (.int imm) := formI 0x40 rfl imm

theorem retint : Statement (.retint) := formN 0x41 rfl

theorem cli : Statement (.cli) := formN 0x42 rfl

theorem sti : Statement (.sti) := formN 0x43 rfl

theorem lpm : Statement (.lpm) := formN 0x44 rfl

theorem hlt (ra : Reg) : Statement (.hlt ra) := formA 0x45 rfl ra

theorem sis (imm : Half) : Statement (.sis imm) := formI 0x46 rfl imm

end Sys2Proof.Laws.EncodingWellFormed
end

