-- ==== Sys2Proof/Laws/Snoop.lean ====
section
/-! SUPPORT. What a coherency request and a fill leave, written out: which entries a `release` keeps and in which order
(R88, R89), what the fill snoop leaves of the other cores and of the backend (R91), and what an access writes to the
backend (R85 to R87). -/

namespace Sys2Proof.Machine

/-! ## Which entries a `release` keeps -/

/-- `d'` is what is left of the entries `d`: some are gone, and of the others, in their order, some are clean now. -/
def entriesReleased (d d' : List DEntry) : Prop :=
  ∃ kept, kept.Sublist d ∧ List.Forall₂ (fun f e => e = f ∨ e = { f with dirty := false }) kept d'

theorem entriesReleased.refl (d : List DEntry) : entriesReleased d d :=
  ⟨d, List.Sublist.refl _, List.forall₂_same.mpr fun _ _ => .inl rfl⟩

theorem entriesReleased.cons {d d' : List DEntry} (h : entriesReleased d d') {f e : DEntry}
    (hf : e = f ∨ e = { f with dirty := false }) : entriesReleased (f :: d) (e :: d') := by
  obtain ⟨kept, sub, all⟩ := h
  exact ⟨f :: kept, sub.cons_cons f, .cons hf all⟩

theorem entriesReleased.drop {d d' : List DEntry} (h : entriesReleased d d') (f : DEntry) :
    entriesReleased (f :: d) d' := by
  obtain ⟨kept, sub, all⟩ := h
  exact ⟨kept, sub.cons f, all⟩

/-- A row of entries out of which some were taken, seen through a relation. -/
theorem forall₂_sublist {R : DEntry → DEntry → Prop} {d d' : List DEntry} (all : List.Forall₂ R d d')
    {kept : List DEntry} (sub : kept.Sublist d') : ∃ kept₀, kept₀.Sublist d ∧ List.Forall₂ R kept₀ kept := by
  induction sub generalizing d with
  | slnil => exact ⟨[], List.nil_sublist _, .nil⟩
  | cons x _ ih =>
    cases all with
    | cons hx rest =>
      obtain ⟨k, hk, hr⟩ := ih rest
      exact ⟨k, hk.cons _, hr⟩
  | cons_cons x _ ih =>
    cases all with
    | cons hx rest =>
      obtain ⟨k, hk, hr⟩ := ih rest
      exact ⟨_ :: k, hk.cons_cons _, .cons hx hr⟩

theorem forall₂_cleaned {a b c : List DEntry} (h : List.Forall₂ (fun f e => e = f ∨ e = { f with dirty := false }) a b)
    (k : List.Forall₂ (fun f e => e = f ∨ e = { f with dirty := false }) b c) :
    List.Forall₂ (fun f e => e = f ∨ e = { f with dirty := false }) a c := by
  induction h generalizing c with
  | nil => cases k; exact .nil
  | cons hx _ ih =>
    cases k with
    | cons hy rest =>
      refine .cons ?_ (ih rest)
      rcases hx with rfl | rfl <;> rcases hy with rfl | rfl
      · exact .inl rfl
      · exact .inr rfl
      · exact .inr rfl
      · exact .inr rfl

theorem entriesReleased.trans {a b c : List DEntry} (h : entriesReleased a b) (k : entriesReleased b c) :
    entriesReleased a c := by
  obtain ⟨k1, s1, f1⟩ := h
  obtain ⟨k2, s2, f2⟩ := k
  obtain ⟨k3, s3, f3⟩ := forall₂_sublist f1 s2
  exact ⟨k3, s3.trans s1, forall₂_cleaned f3 f2⟩

/-- A `release` drops entries and cleans entries, and moves none, whether a write-back faults or not (R88, R89). -/
theorem releaseEntries_released (cfg : Config) (pages : List Nat) (sel : Selector) (wb rm : Bool) (d : List DEntry)
    (m : Memory) : entriesReleased d (releaseEntries cfg sel wb rm pages d m).entries := by
  induction d generalizing pages m with
  | nil => exact entriesReleased.refl _
  | cons e rest ih =>
    rw [releaseEntries]
    dsimp only
    split
    · split
      · split
        · exact entriesReleased.refl _
        · split
          · exact (ih ..).drop e
          · exact (ih ..).cons (.inr rfl)
      · split
        · exact (ih ..).drop e
        · exact (ih ..).cons (.inl rfl)
    · exact (ih ..).cons (.inl rfl)

/-- A core of which the data cache alone differs, by entries that left or became clean. -/
def Core.released (c c' : Core) : Prop := c.onlyDcache c' ∧ entriesReleased c.dcache c'.dcache

/-- A coherency request leaves every core so, on any machine (R91 to R93, R96). -/
theorem sweepCores_released (cfg : Config) (pages : List Nat) (sel : Selector) (wb rm : Bool) (cs : List Core)
    (m : Memory) : List.Forall₂ Core.released cs (sweepCores cfg sel wb rm pages cs m).cores := by
  have same : ∀ l : List Core, List.Forall₂ Core.released l l := fun l =>
    List.forall₂_same.mpr fun c _ => ⟨rfl, entriesReleased.refl _⟩
  induction cs generalizing pages m with
  | nil => exact .nil
  | cons c rest ih =>
    rw [sweepCores]
    dsimp only
    split
    · split
      · exact .cons ⟨rfl, releaseEntries_released ..⟩ (same _)
      · exact .cons ⟨rfl, releaseEntries_released ..⟩ (ih ..)
    · exact .cons ⟨rfl, entriesReleased.refl _⟩ (ih ..)

/-! ## The fill, written out -/

/-- The fill snoop leaves a registered core's entry for the granule in its place, clean (R91). -/
theorem Core.swept_snoop (cfg : Config) (a : Nat) (c : Core) : c.swept cfg (.single a) true false =
    if c.registered then { c with dcache := c.dcache.map fun e => if e.addr = a then { e with dirty := false } else e }
    else c := by
  unfold Core.swept releasedEntries
  split
  · congr 1
    simp only [Bool.false_eq_true, if_false]
    refine List.map_congr_left fun e _ => ?_
    unfold DEntry.released
    by_cases q : e.addr = a <;> by_cases d : e.dirty = true
    · simp [Selector.hits, q, d]
    · simp only [Bool.not_eq_true] at d
      rw [if_pos q, ← d, if_neg (by simp [d])]
    · simp [Selector.hits, q]
    · simp [Selector.hits, q]
  · rfl

/-- The backend's bytes after an eviction to make room (R85, R87). -/
def State.memWithRoom (s : State) : Memory :=
  if s.self.dcache.length = s.cfg.dcacheSize then
    match s.self.dcache with
    | e :: _ => if e.dirty then s.mem.setHalf e.addr e.value else s.mem
    | [] => s.mem
  else s.mem

theorem State.makeRoom_mem {s t : State} (h : s.Inv) (rs : s.self.registered = true) (e : s.makeRoom = .ok () t) :
    t.mem = s.memWithRoom ∧ t.before = s.before ∧ t.after = s.after := by
  unfold State.makeRoom at e
  unfold State.memWithRoom
  split at e
  · next full =>
    rw [if_pos full]
    cases hd : s.self.dcache with
    | nil =>
      unfold State.evict at e
      rw [hd] at e
      cases e
      exact ⟨rfl, rfl, rfl⟩
    | cons x rest =>
      obtain ⟨u, h1, _, _, h4, h5, h6⟩ := State.evict_ok h rs hd
      rw [h1] at e
      cases e
      exact ⟨h6, h4, h5⟩
  · next full =>
    rw [if_neg full]
    cases e
    exact ⟨rfl, rfl, rfl⟩

/-- What a fill leaves of the other cores and of the backend (R85, R87, R91): the holder keeps the granule, clean, the
backend holds the current value of it, and of another granule what it held, or what an eviction wrote back. -/
theorem State.fill_snoops {s t : State} (h : s.Inv) (rs : s.self.registered = true) {a : Nat} (even : a % 2 = 0)
    (le : a + 2 ≤ s.cfg.memSize) (miss : ∀ e ∈ s.self.dcache, e.addr ≠ a) {v : Half} (e : s.fill a = .ok v t) :
    t.before = s.before.map (Core.swept s.cfg (.single a) true false)
      ∧ t.after = s.after.map (Core.swept s.cfg (.single a) true false)
      ∧ t.mem.half a = s.granuleNow a
      ∧ ∀ b, b % 2 = 0 → b ≠ a → t.mem.half b = s.mem.half b
        ∨ s.self.dcache.length = s.cfg.dcacheSize ∧ s.self.dcache.head? = some ⟨b, true, t.mem.half b⟩ := by
  have ok := State.releaseOthers_ok h (.single a) true false
  have hw := State.sweptOthers h (.single a) true false
  obtain ⟨u, hu, hr, hself, hclean⟩ := State.onFill_ok h a
  have eq : u = { s with before := s.before.map (Core.swept s.cfg (.single a) true false)
                         after := s.after.map (Core.swept s.cfg (.single a) true false)
                         mem := (sweepCores s.cfg (.single a) true false s.allocated s.others s.mem).mem } := by
    rw [show s.onFill a = s.releaseOthers (.single a) true false from rfl, ok] at hu
    cases hu
    rfl
  have ru : u.self.registered = true := by rw [hself]; exact rs
  have half : ∀ b, b % 2 = 0 → b ≠ a → u.mem.half b = s.mem.half b := by
    intro b hb ne
    rcases hw.wrote h b hb with x | x
    · rw [eq]; exact x
    · rw [eq]
      show (sweepCores ..).mem.half b = _
      have wf : ∀ c ∈ s.others, c.dcacheWf s.cfg := fun c hc => h.dcacheWf c (State.others_mem hc)
      have coh : s.others.Pairwise Core.coherentWith := h.2.2.2.1.sublist hw.sub
      rw [sweepCores_half _ _ _ _ _ _ _ h.reference wf coh h.memWf b hb]
      have none_ : s.others.findSome? (Core.writesBack s.cfg (.single a) true b) = none := by
        rw [List.findSome?_eq_none_iff]
        intro c _
        cases hv : c.writesBack s.cfg (.single a) true b with
        | none => rfl
        | some w =>
          obtain ⟨_, f, _, q, _, hits, _⟩ := Core.writesBack_eq_some hv
          simp only [Selector.hits, beq_iff_eq] at hits
          exact absurd (q.symm.trans hits) ne
      rw [none_]
      rfl
  have now : u.mem.half a = s.granuleNow a := by
    rw [← hr.now a even]
    symm
    refine State.granuleNow_of_clean hr.inv fun c hc rc f hf q => ?_
    rcases State.mem_cores.mp hc with rfl | hc
    · rw [hself] at hf; exact absurd q (miss f hf)
    · exact hclean c (State.mem_others.mpr hc) rc f hf q
  unfold State.fill at e
  rw [hu, Res.bind_ok, u.bread16_ok (by rw [hr.frame.cfg]; exact h.reference) (by rw [hr.frame.cfg]; exact le),
    Res.bind_ok] at e
  cases hm : u.makeRoom with
  | raise f w => rw [hm] at e; cases e
  | ok x w =>
    rw [hm, Res.bind_ok] at e
    obtain ⟨m1, m2, m3⟩ := State.makeRoom_mem hr.inv ru hm
    cases e
    have mem : ∀ b, b % 2 = 0 → w.mem.half b = u.mem.half b
        ∨ s.self.dcache.length = s.cfg.dcacheSize ∧ s.self.dcache.head? = some ⟨b, true, w.mem.half b⟩ := by
      intro b hb
      rw [m1]
      unfold State.memWithRoom
      rw [hself, hr.frame.cfg]
      split
      · next full =>
        split
        · next y rest hd =>
          split
          · next dy =>
            have ey := (h.dcacheWf _ s.self_mem).2.2 y (by rw [hd]; exact List.mem_cons_self ..)
            by_cases q : b = y.addr
            · refine .inr ⟨full, ?_⟩
              rw [q, Memory.half_setHalf_same hr.inv.memWf, hd, ← dy]
              rfl
            · exact .inl (Memory.half_setHalf_ne hr.inv.memWf _ ey.1 hb q)
          · exact .inl rfl
        · exact .inl rfl
      · exact .inl rfl
    refine ⟨?_, ?_, ?_, fun b hb ne => ?_⟩
    · show w.before = _; rw [m2, eq]
    · show w.after = _; rw [m3, eq]
    · show w.mem.half a = _
      rcases mem a even with x | ⟨_, x⟩
      · exact x.trans now
      · exact absurd rfl (miss _ (List.mem_of_mem_head? (by rw [x]; rfl)))
    · rcases mem b hb with x | x
      · exact .inl (x.trans (half b hb ne))
      · exact .inr x

/-! ## A write of a granule that the cache holds -/

/-- A write of a granule that the cache holds writes nothing to the backend, on any machine (R86). -/
theorem State.dwrite16_hit {s : State} {a : Nat} (hit : ∃ e ∈ s.self.dcache, e.addr = a) (v : Half) :
    ∃ t, s.dwrite16 a v = .ok () t ∧ t.mem = s.mem ∧ t.self.dcache = dcacheWithout s.self.dcache a ++ [⟨a, true, v⟩] := by
  obtain ⟨e, he, q⟩ := hit
  unfold State.dwrite16 State.ensure
  cases hf : dcacheFind s.self.dcache a with
  | none => exact absurd q (dcacheFind_none hf e he)
  | some f =>
    dsimp only
    rw [Res.bind_ok]
    unfold State.onWrite
    rw [State.releaseOthers_drop]
    exact ⟨_, rfl, rfl, rfl⟩

/-- A read of a granule that the cache holds touches only the order of the cache (R84). -/
theorem State.dread16_hit {s : State} {a : Nat} (hit : ∃ e ∈ s.self.dcache, e.addr = a) :
    ∃ (e : DEntry), e ∈ s.self.dcache ∧ e.addr = a
      ∧ s.dread16 a = .ok e.value (s.setDcache (dcacheWithout s.self.dcache a ++ [e])) := by
  obtain ⟨e, he, q⟩ := hit
  unfold State.dread16
  cases hf : dcacheFind s.self.dcache a with
  | none => exact absurd q (dcacheFind_none hf e he)
  | some f => exact ⟨f, (dcacheFind_some hf).1, (dcacheFind_some hf).2, rfl⟩

end Sys2Proof.Machine
end

