-- ==== Sys2Proof/Laws/Tables.lean ====
section
/-! SUPPORT. No shared operation changes the parameters (R41), and a program of a replacement table, which uses the
primitives of R155 alone, keeps the invariant of the machine as DK0's instructions do (R158). -/

namespace Sys2Proof.Machine

/-- An operation leaves the parameters `C`, whether it ends or faults. -/
def Res.HasCfg {α : Type} (C : Config) (r : Res α) : Prop := r.state.cfg = C

theorem Res.HasCfg.bind {α β : Type} {C : Config} {r : Res α} {k : α → State → Res β} (h : r.HasCfg C)
    (hk : ∀ a t, t.cfg = C → (k a t).HasCfg C) : (r.bind k).HasCfg C := by
  cases r with
  | ok a t => exact hk a t h
  | raise f t => exact h

variable {s : State} {C : Config}

theorem State.memRead_cfg (h : s.cfg = C) (width : Width) (pa : Nat) : (s.memRead width pa).HasCfg C :=
  (State.memRead_onlyDataPath s width pa).cfg.trans h

theorem State.memWrite_cfg (h : s.cfg = C) (width : Width) (pa : Nat) (v : Word) : (s.memWrite width pa v).HasCfg C :=
  (State.memWrite_onlyDataPath s width pa v).cfg.trans h

theorem State.push_cfg (h : s.cfg = C) (v : Word) : (s.push v).HasCfg C :=
  Res.HasCfg.bind (State.memWrite_cfg h _ _ _) fun _ _ ht => ht

theorem State.pop_cfg (h : s.cfg = C) : s.pop.HasCfg C :=
  Res.HasCfg.bind (State.memRead_cfg h _ _) fun _ _ ht => ht

theorem State.pushRegs_cfg (rs : List Reg) (h : s.cfg = C) : (State.pushRegs rs s).HasCfg C := by
  induction rs generalizing s with
  | nil => exact h
  | cons r rest ih => exact Res.HasCfg.bind (State.push_cfg h _) fun _ _ ht => ih ht

theorem State.popRegs_cfg (rs : List Reg) (h : s.cfg = C) : (State.popRegs rs s).HasCfg C := by
  induction rs generalizing s with
  | nil => exact h
  | cons r rest ih => exact Res.HasCfg.bind (State.pop_cfg h) fun _ _ ht => ih ht

theorem State.createFrame_cfg (h : s.cfg = C) : s.createFrame.HasCfg C :=
  Res.HasCfg.bind (State.push_cfg h _) fun _ _ ht => Res.HasCfg.bind (State.push_cfg ht _) fun _ u hu => by
    show (State.recordFrame (u.setReg .fp (u.reg .sp))).cfg = C
    unfold State.recordFrame
    split <;> exact hu

theorem State.destroyFrame_cfg (h : s.cfg = C) : s.destroyFrame.HasCfg C := by
  unfold State.destroyFrame
  split
  · exact h
  · refine Res.HasCfg.bind (State.pop_cfg h) fun v t ht => 
      Res.HasCfg.bind (State.pop_cfg (s := t.setReg .fp v) ht) fun w u hu => ?_
    show (State.dropFrame (u.setReg .ip w)).cfg = C
    unfold State.dropFrame
    split <;> exact hu

theorem State.fromRead_cfg {α : Type} (h : s.cfg = C) (a : Nat) (r : Option α) : (s.fromRead a r).HasCfg C := by
  unfold Res.HasCfg
  rw [State.fromRead_state]
  exact h

theorem State.fromWrite_cfg (h : s.cfg = C) (a : Nat) (r : Option Memory × List Nat) :
    (s.fromWrite a r).HasCfg C := by
  unfold State.fromWrite
  split <;> exact h

theorem State.loadVector_cfg (h : s.cfg = C) (table : Word) (index : Nat) : (s.loadVector table index).HasCfg C := by
  unfold State.loadVector
  dsimp only
  split <;> exact h

theorem State.enterInterrupt_cfg (h : s.cfg = C) (table : Word) (index : Nat) :
    (s.enterInterrupt table index).HasCfg C := by
  refine Res.HasCfg.bind (State.loadVector_cfg h table index) fun v t ht => ?_
  have save : (State.saveContext (t.reg .ds) (t.reg .sp) (t.swapStack v)).HasCfg C :=
    Res.HasCfg.bind (State.push_cfg (s := t.swapStack v) ht _) fun _ a ha =>
      Res.HasCfg.bind (State.push_cfg ha _) fun _ b hb => State.pushRegs_cfg _ hb
  exact Res.HasCfg.bind save fun _ u hu => Res.HasCfg.bind (State.createFrame_cfg hu) fun _ w hw => hw

theorem State.releaseOwn_cfg (h : s.cfg = C) (sel : Selector) (wb rm : Bool) : (s.releaseOwn sel wb rm).HasCfg C :=
  (State.releaseOwn_onlyDataPath s sel wb rm).cfg.trans h

theorem State.withCores_cfg (k : Nat) (cs : List Core) : (s.withCores k cs).cfg = s.cfg := by
  unfold State.withCores
  split <;> rfl

theorem State.onMemoryStructureChange_cfg (h : s.cfg = C) (a size : Nat) (wb : Bool) :
    (s.onMemoryStructureChange a size wb).HasCfg C := by
  unfold State.onMemoryStructureChange
  dsimp only
  split <;> exact (State.withCores_cfg _ _).trans h

theorem State.freePage_cfg (h : s.cfg = C) (pg : Nat) : (s.freePage pg).HasCfg C := by
  unfold State.freePage
  dsimp only
  split
  · exact h
  · exact h
  · exact State.onMemoryStructureChange_cfg (s := s.setPages (s.cfg.backendOf.freePage s.mem s.allocated pg).2) h _ _ _

theorem State.exitInterrupt_cfg (h : s.cfg = C) : s.exitInterrupt.HasCfg C :=
  Res.HasCfg.bind (State.destroyFrame_cfg h) fun _ _ ha =>
    Res.HasCfg.bind (State.popRegs_cfg _ ha) fun _ _ hb =>
      Res.HasCfg.bind (State.pop_cfg hb) fun oldSp _ hc =>
        Res.HasCfg.bind (State.pop_cfg hc) fun oldDs d hd =>
          Res.HasCfg.bind (State.releaseOwn_cfg (s := (d.setReg .sp oldSp).setReg .ds oldDs) hd _ _ _) fun _ _ ht =>
            State.freePage_cfg ht _

theorem State.iget_cfg (h : s.cfg = C) (pa : Nat) : (s.iget pa).HasCfg C := by
  unfold State.iget
  split
  · split
    · exact h
    · refine Res.HasCfg.bind (State.fromRead_cfg h _ _) fun w t ht => ?_
      split <;> exact ht
  · exact h

theorem State.hostRead_cfg (h : s.cfg = C) (width : Width) (a : Nat) : (s.hostRead width a).HasCfg C := by
  unfold State.hostRead
  split
  · exact Res.HasCfg.bind (State.fromRead_cfg h _ _) fun _ _ ht => ht
  · exact Res.HasCfg.bind (State.fromRead_cfg h _ _) fun _ _ ht => ht
  · exact State.fromRead_cfg h _ _

theorem State.hostWrite_cfg (h : s.cfg = C) (width : Width) (a : Nat) (v : Word) :
    (s.hostWrite width a v).HasCfg C := by
  unfold State.hostWrite
  split <;> exact State.fromWrite_cfg h _ _

/-- A virtual handler changes no parameter, whatever it does (R295). -/
theorem VirtProg.run_cfg (p : VirtProg) (h : s.cfg = C) : (VirtProg.run p s).HasCfg C := by
  induction p generalizing s with
  | done => exact h
  | raise f => exact h
  | readCore k ih => exact ih _ h
  | writeCore c k ih => exact ih h
  | readReg r k ih => exact ih _ h
  | writeReg r v k ih => exact ih h
  | memRead width pa k ih => exact Res.HasCfg.bind (State.memRead_cfg h _ _) fun v t ht => ih v ht
  | memWrite width pa v k ih => exact Res.HasCfg.bind (State.memWrite_cfg h _ _ _) fun _ t ht => ih ht
  | bread width pa k ih => exact Res.HasCfg.bind (State.hostRead_cfg h _ _) fun v t ht => ih v ht
  | bwrite width pa v k ih => exact Res.HasCfg.bind (State.hostWrite_cfg h _ _ _) fun _ t ht => ih ht
  | push v k ih => exact Res.HasCfg.bind (State.push_cfg h _) fun _ t ht => ih ht
  | pop k ih => exact Res.HasCfg.bind (State.pop_cfg h) fun v t ht => ih v ht
  | iget pa k ih => exact Res.HasCfg.bind (State.iget_cfg h _) fun i t ht => ih i ht

theorem performAct_cfg (got : List Word) (h : s.cfg = C) (a : HandlerAct) : (performAct got s a).HasCfg C := by
  cases a with
  | setReg r v => exact h
  | memRead width pa => exact Res.HasCfg.bind (State.memRead_cfg h _ _) fun _ _ ht => ht
  | memWrite width pa v => exact Res.HasCfg.bind (State.memWrite_cfg h _ _ _) fun _ _ ht => ht
  | push v => exact Res.HasCfg.bind (State.push_cfg h _) fun _ _ ht => ht
  | pop => exact Res.HasCfg.bind (State.pop_cfg h) fun _ _ ht => ht
  | raise f => exact h

theorem runActs_cfg (acts : List HandlerAct) (got : List Word) (h : s.cfg = C) : (runActs acts got s).HasCfg C := by
  induction acts generalizing got s with
  | nil => exact h
  | cons a rest ih => exact Res.HasCfg.bind (performAct_cfg got h a) fun new t ht => ih _ ht

theorem State.doInt_cfg (h : s.cfg = C) (index : Half) : (s.doInt index).HasCfg C := by
  unfold State.doInt
  split
  · next x _ =>
    cases x with
    | given acts => exact runActs_cfg acts [] h
    | free n => exact VirtProg.run_cfg _ h
  · exact State.enterInterrupt_cfg h _ _

theorem State.checkDest_state (s : State) (r : Reg) : (s.checkDest r).state = s := by
  unfold State.checkDest
  split <;> rfl

theorem State.switchSet_cfg (h : s.cfg = C) (n : Nat) : (s.switchSet n).HasCfg C := by
  unfold State.switchSet
  split <;> exact h

/-- A change of the instruction set keeps the invariant, on a halted core too, and the core's place in the lifecycle and
in the registry (R266). -/
theorem State.switchSet_keeps (h : s.Inv) (nr : s.self.life ≠ .reset) (n : Nat) : (s.switchSet n).state.Inv
    ∧ (s.switchSet n).state.self.life = s.self.life
    ∧ (s.switchSet n).state.self.registered = s.self.registered := by
  unfold State.switchSet
  split
  · next lt =>
    obtain ⟨w1, _, _, w4, w5, _, w7⟩ := (State.Inv_iff.mp h).2.2.1
    exact ⟨State.Inv_self h { s.self with iset := n, icache := [] }
      ⟨w1, ⟨Nat.zero_le _, List.nodup_nil, fun e he => by simp at he⟩, lt, w4, w5, fun x => absurd x nr, w7⟩ rfl rfl,
      rfl, rfl⟩
  · exact ⟨h, rfl, rfl⟩

theorem State.switchSet_safe (h : s.Inv) (hr : s.self.registered = true) (n : Nat) : (s.switchSet n).Safe :=
  have k := State.switchSet_keeps h (h.not_reset hr) n
  ⟨k.1, k.2.2.trans hr⟩

/-- An operation leaves a well-formed machine with the parameters `C` whose core is out of Reset. -/
def Res.Fine (C : Config) (r : Res Unit) : Prop :=
  r.state.Inv ∧ r.state.self.life ≠ .reset ∧ r.state.cfg = C

/-- A safe operation, and then one that is fine wherever the first may end. -/
theorem Res.Fine.after {α : Type} {r : Res α} {k : α → State → Res Unit} (h : r.Safe) (hc : r.HasCfg C)
    (hk : ∀ a t, t.Inv → t.self.registered = true → t.cfg = C → (k a t).Fine C) : (r.bind k).Fine C := by
  cases r with
  | ok a t => exact hk a t h.1 h.2 hc
  | raise f t => exact ⟨h.1, State.Inv.not_reset h.1 h.2, hc⟩

/-- `halt` never leaves a core in Reset, and changes no parameter (R315). -/
theorem State.halt_life (s : State) (code : Word) (nr : s.self.life ≠ .reset) :
    (s.halt code).self.life ≠ .reset ∧ (s.halt code).cfg = s.cfg := by
  unfold State.halt
  split
  · exact ⟨nr, rfl⟩
  · exact ⟨by simp, rfl⟩

/-- A program that touches no memory leaves a well-formed machine, whether its core has halted or not. -/
theorem TableProg.run_offMemory (p : TableProg) (off : p.offMemory) (h : s.Inv) (nr : s.self.life ≠ .reset)
    (hc : s.cfg = C) : (TableProg.run p s).Fine C := by
  induction p generalizing s with
  | done => exact ⟨h, nr, hc⟩
  | raise f => exact ⟨h, nr, hc⟩
  | readReg r k ih => exact ih _ (off _) h nr hc
  | operandWrite r v k ih =>
    unfold TableProg.run State.checkDest
    split
    · exact ⟨h, nr, hc⟩
    · exact ih off (State.Inv_setReg h nr r v) nr hc
  | internalWrite r v k ih => exact ih off (State.Inv_setReg h nr r.reg v) nr hc
  | switchSet n k ih =>
    have f := State.switchSet_keeps h nr n
    have c := State.switchSet_cfg hc n
    unfold TableProg.run
    cases e : s.switchSet n with
    | ok a t => rw [e] at f c; exact ih off f.1 (fun x => nr (f.2.1.symm.trans x)) c
    | raise g t => rw [e] at f c; exact ⟨f.1, fun x => nr (f.2.1.symm.trans x), c⟩
  | halt code k ih =>
    have l := State.halt_life s code nr
    exact ih off (State.halt_inv h code).1 l.1 (l.2.trans hc)
  | memRead | memWrite | push | pop | createFrame | destroyFrame | doInt | exitInterrupt => exact off.elim

/-- A program of a replacement table that leaves memory alone after `halt` leaves a well-formed machine (R155, R158); of
the virtual handlers it may call, `handlersKeep` is assumed (U11). -/
theorem TableProg.run_fine (p : TableProg) (off : p.haltsOffMemory) (keep : C.handlersKeep) (h : s.Inv)
    (hr : s.self.registered = true) (hc : s.cfg = C) : (TableProg.run p s).Fine C := by
  induction p generalizing s with
  | done => exact ⟨h, h.not_reset hr, hc⟩
  | raise f => exact ⟨h, h.not_reset hr, hc⟩
  | readReg r k ih => exact ih _ (off _) h hr hc
  | operandWrite r v k ih =>
    refine Res.Fine.after (r := s.checkDest r) ?_ ?_ fun _ t ht rt ct =>
      ih off (State.Inv_setReg ht (ht.not_reset rt) r v) rt ct
    · unfold Res.Safe; rw [State.checkDest_state]; exact ⟨h, hr⟩
    · unfold Res.HasCfg; rw [State.checkDest_state]; exact hc
  | internalWrite r v k ih => exact ih off (State.Inv_setReg h (h.not_reset hr) r.reg v) hr hc
  | memRead width pa k ih => exact Res.Fine.after (State.memRead_safe h hr _ _) (State.memRead_cfg hc _ _) fun v _ => ih v (off v)
  | memWrite width pa v k ih =>
    exact Res.Fine.after (State.memWrite_safe h hr _ _ _) (State.memWrite_cfg hc _ _ _) fun _ _ => ih off
  | push v k ih => exact Res.Fine.after (State.push_safe h hr _) (State.push_cfg hc _) fun _ _ => ih off
  | pop k ih => exact Res.Fine.after (State.pop_safe h hr) (State.pop_cfg hc) fun v _ => ih v (off v)
  | createFrame k ih => exact Res.Fine.after (State.createFrame_safe h hr) (State.createFrame_cfg hc) fun _ _ => ih off
  | destroyFrame k ih => exact Res.Fine.after (State.destroyFrame_safe h hr) (State.destroyFrame_cfg hc) fun _ _ => ih off
  | doInt index k ih =>
    exact Res.Fine.after (State.doInt_safe h hr (hc ▸ keep) _) (State.doInt_cfg hc _) fun _ _ => ih off
  | exitInterrupt k ih =>
    exact Res.Fine.after (State.exitInterrupt_safe h hr) (State.exitInterrupt_cfg hc) fun _ _ => ih off
  | switchSet n k ih => exact Res.Fine.after (State.switchSet_safe h hr _) (State.switchSet_cfg hc _) fun _ _ => ih off
  | halt code k =>
    have l := State.halt_life s code (h.not_reset hr)
    exact TableProg.run_offMemory k off (State.halt_inv h code).1 l.1 (l.2.trans hc)

end Sys2Proof.Machine
end

