-- ==== Sys2Proof/Machine/Disassemble.lean ====
section
/-! DEFINITION. `disassemble` (R151): the text of an instruction in the notation of R129. It touches no state. -/

namespace Sys2Proof.Machine

/-- The name of a register (R129). -/
def Reg.text : Reg → String
  | .r0 => "r0" | .r1 => "r1" | .r2 => "r2" | .r3 => "r3" | .r4 => "r4" | .r5 => "r5" | .r6 => "r6"
  | .r7 => "r7" | .fp => "FP" | .sp => "SP" | .ds => "DS" | .cs => "CS" | .ip => "IP" | .flags => "FLAGS"
  | .cnt => "CNT"

/-- A signed immediate in decimal (R129). -/
def textSigned (imm : Half) : String := toString imm.toInt

/-- An upper or index immediate in decimal (R129). -/
def textIndex (imm : Half) : String := toString imm.toNat

/-- One register operand. -/
def textA (m : String) (ra : Reg) : String := m ++ " " ++ Reg.text ra

/-- One immediate operand, as its text. -/
def textI (m imm : String) : String := m ++ " " ++ imm

/-- A register and an immediate. -/
def textAI (m : String) (ra : Reg) (imm : String) : String := textA m ra ++ ", " ++ imm

/-- Two registers. -/
def textAB (m : String) (ra rb : Reg) : String := textA m ra ++ ", " ++ Reg.text rb

/-- A register and a memory operand. -/
def textABI (m : String) (ra rb : Reg) (imm : Half) : String :=
  textA m ra ++ ", [" ++ Reg.text rb ++ " + " ++ textSigned imm ++ "]"

/-- `disassemble(insn)` (R129, R151). -/
def disassemble : Instr → String
  | .nop => "NOP"
  | .li ra imm => textAI "LI" ra (textSigned imm)
  | .liu ra imm => textAI "LIU" ra (textIndex imm)
  | .mov ra rb => textAB "MOV" ra rb
  | .lb ra rb imm => textABI "LB" ra rb imm
  | .lw ra rb imm => textABI "LW" ra rb imm
  | .ld ra rb imm => textABI "LD" ra rb imm
  | .stb ra rb imm => textABI "STB" ra rb imm
  | .stw ra rb imm => textABI "STW" ra rb imm
  | .std ra rb imm => textABI "STD" ra rb imm
  | .push ra => textA "PUSH" ra
  | .pop ra => textA "POP" ra
  | .add ra rb => textAB "ADD" ra rb
  | .addi ra imm => textAI "ADDI" ra (textSigned imm)
  | .sub ra rb => textAB "SUB" ra rb
  | .subi ra imm => textAI "SUBI" ra (textSigned imm)
  | .mul ra rb => textAB "MUL" ra rb
  | .muli ra imm => textAI "MULI" ra (textSigned imm)
  | .div ra rb => textAB "DIV" ra rb
  | .divi ra imm => textAI "DIVI" ra (textSigned imm)
  | .mod ra rb => textAB "MOD" ra rb
  | .modi ra imm => textAI "MODI" ra (textSigned imm)
  | .and ra rb => textAB "AND" ra rb
  | .andi ra imm => textAI "ANDI" ra (textSigned imm)
  | .or ra rb => textAB "OR" ra rb
  | .ori ra imm => textAI "ORI" ra (textSigned imm)
  | .xor ra rb => textAB "XOR" ra rb
  | .xori ra imm => textAI "XORI" ra (textSigned imm)
  | .not ra => textA "NOT" ra
  | .shl ra rb => textAB "SHL" ra rb
  | .shli ra imm => textAI "SHLI" ra (textSigned imm)
  | .shr ra rb => textAB "SHR" ra rb
  | .shri ra imm => textAI "SHRI" ra (textSigned imm)
  | .cmp ra rb => textAB "CMP" ra rb
  | .cmpi ra imm => textAI "CMPI" ra (textSigned imm)
  | .j ra => textA "J" ra
  | .jr imm => textI "JR" (textSigned imm)
  | .be imm => textI "BE" (textSigned imm)
  | .bne imm => textI "BNE" (textSigned imm)
  | .bz imm => textI "BZ" (textSigned imm)
  | .bnz imm => textI "BNZ" (textSigned imm)
  | .bo imm => textI "BO" (textSigned imm)
  | .bno imm => textI "BNO" (textSigned imm)
  | .bs imm => textI "BS" (textSigned imm)
  | .bns imm => textI "BNS" (textSigned imm)
  | .call ra => textA "CALL" ra
  | .callr imm => textI "CALLR" (textSigned imm)
  | .ret => "RET"
  | .int imm => textI "INT" (textIndex imm)
  | .retint => "RETINT"
  | .cli => "CLI"
  | .sti => "STI"
  | .lpm => "LPM"
  | .hlt ra => textA "HLT" ra
  | .sis imm => textI "SIS" (textIndex imm)

/-- `disassemble(insn)` of the table an instruction is of (R151). -/
def Insn.text : Insn → String
  | .dk0 i => disassemble i
  | .other n code => (Config.freeTable n).disassemble code

end Sys2Proof.Machine
end

