-- ==== Sys2Proof/Tests/Slice0.lean ====
section
/-! SUPPORT. The model's own tests: the checks of R124 on ill-formed words, the decoding of every constructor, single
steps whose expected values are those of `spec/95_test_vectors.md` (the identifier in a test's name is the vector's),
and for every statement with hypotheses a concrete state and operands that meet them. -/

namespace Sys2Proof.Tests

open Sys2Proof.Machine Sys2Proof.Spec

set_option maxRecDepth 4000

/-! ## Well-formed words (R124): each check refuses an ill-formed term -/

theorem wf_accepts : Fields.wellFormed ⟨0x04, 3, 14, 0xFFFF⟩ = true := by decide

theorem wf_unassigned_opcode : Fields.wellFormed ⟨0x21, 0, 0, 0⟩ = false := by decide

theorem wf_unused_ra : Fields.wellFormed ⟨0x31, 1, 0, 8⟩ = false := by decide

theorem wf_unused_rb : Fields.wellFormed ⟨0x0A, 1, 1, 0⟩ = false := by decide

theorem wf_unused_imm : Fields.wellFormed ⟨0x10, 1, 2, 1⟩ = false := by decide

theorem wf_ra_fifteen : Fields.wellFormed ⟨0x01, 15, 0, 5⟩ = false := by decide

theorem wf_rb_fifteen : Fields.wellFormed ⟨0x03, 0, 15, 0⟩ = false := by decide

/-! ## Decoding: one word of each row of R126, written out from the field layout of R122 -/

theorem decode_nop : decodeWord 0x00000000 = .ok .nop := by decide
theorem decode_li : decodeWord 0x01308123 = .ok (.li .r3 0x8123) := by decide
theorem decode_liu : decodeWord 0x02308123 = .ok (.liu .r3 0x8123) := by decide
theorem decode_mov : decodeWord 0x033D0000 = .ok (.mov .r3 .flags) := by decide
theorem decode_lb : decodeWord 0x043D8123 = .ok (.lb .r3 .flags 0x8123) := by decide
theorem decode_lw : decodeWord 0x053D8123 = .ok (.lw .r3 .flags 0x8123) := by decide
theorem decode_ld : decodeWord 0x063D8123 = .ok (.ld .r3 .flags 0x8123) := by decide
theorem decode_stb : decodeWord 0x073D8123 = .ok (.stb .r3 .flags 0x8123) := by decide
theorem decode_stw : decodeWord 0x083D8123 = .ok (.stw .r3 .flags 0x8123) := by decide
theorem decode_std : decodeWord 0x093D8123 = .ok (.std .r3 .flags 0x8123) := by decide
theorem decode_push : decodeWord 0x0A300000 = .ok (.push .r3) := by decide
theorem decode_pop : decodeWord 0x0B300000 = .ok (.pop .r3) := by decide
theorem decode_add : decodeWord 0x103D0000 = .ok (.add .r3 .flags) := by decide
theorem decode_addi : decodeWord 0x11308123 = .ok (.addi .r3 0x8123) := by decide
theorem decode_sub : decodeWord 0x123D0000 = .ok (.sub .r3 .flags) := by decide
theorem decode_subi : decodeWord 0x13308123 = .ok (.subi .r3 0x8123) := by decide
theorem decode_mul : decodeWord 0x143D0000 = .ok (.mul .r3 .flags) := by decide
theorem decode_muli : decodeWord 0x15308123 = .ok (.muli .r3 0x8123) := by decide
theorem decode_div : decodeWord 0x163D0000 = .ok (.div .r3 .flags) := by decide
theorem decode_divi : decodeWord 0x17308123 = .ok (.divi .r3 0x8123) := by decide
theorem decode_mod : decodeWord 0x183D0000 = .ok (.mod .r3 .flags) := by decide
theorem decode_modi : decodeWord 0x19308123 = .ok (.modi .r3 0x8123) := by decide
theorem decode_and : decodeWord 0x1A3D0000 = .ok (.and .r3 .flags) := by decide
theorem decode_andi : decodeWord 0x1B308123 = .ok (.andi .r3 0x8123) := by decide
theorem decode_or : decodeWord 0x1C3D0000 = .ok (.or .r3 .flags) := by decide
theorem decode_ori : decodeWord 0x1D308123 = .ok (.ori .r3 0x8123) := by decide
theorem decode_xor : decodeWord 0x1E3D0000 = .ok (.xor .r3 .flags) := by decide
theorem decode_xori : decodeWord 0x1F308123 = .ok (.xori .r3 0x8123) := by decide
theorem decode_not : decodeWord 0x20300000 = .ok (.not .r3) := by decide
theorem decode_shl : decodeWord 0x223D0000 = .ok (.shl .r3 .flags) := by decide
theorem decode_shli : decodeWord 0x23308123 = .ok (.shli .r3 0x8123) := by decide
theorem decode_shr : decodeWord 0x243D0000 = .ok (.shr .r3 .flags) := by decide
theorem decode_shri : decodeWord 0x25308123 = .ok (.shri .r3 0x8123) := by decide
theorem decode_cmp : decodeWord 0x263D0000 = .ok (.cmp .r3 .flags) := by decide
theorem decode_cmpi : decodeWord 0x27308123 = .ok (.cmpi .r3 0x8123) := by decide
theorem decode_j : decodeWord 0x30300000 = .ok (.j .r3) := by decide
theorem decode_jr : decodeWord 0x31008123 = .ok (.jr 0x8123) := by decide
theorem decode_be : decodeWord 0x32008123 = .ok (.be 0x8123) := by decide
theorem decode_bne : decodeWord 0x33008123 = .ok (.bne 0x8123) := by decide
theorem decode_bz : decodeWord 0x34008123 = .ok (.bz 0x8123) := by decide
theorem decode_bnz : decodeWord 0x35008123 = .ok (.bnz 0x8123) := by decide
theorem decode_bo : decodeWord 0x36008123 = .ok (.bo 0x8123) := by decide
theorem decode_bno : decodeWord 0x37008123 = .ok (.bno 0x8123) := by decide
theorem decode_bs : decodeWord 0x38008123 = .ok (.bs 0x8123) := by decide
theorem decode_bns : decodeWord 0x39008123 = .ok (.bns 0x8123) := by decide
theorem decode_call : decodeWord 0x3A300000 = .ok (.call .r3) := by decide
theorem decode_callr : decodeWord 0x3B008123 = .ok (.callr 0x8123) := by decide
theorem decode_ret : decodeWord 0x3C000000 = .ok .ret := by decide
theorem decode_int : decodeWord 0x40008123 = .ok (.int 0x8123) := by decide
theorem decode_retint : decodeWord 0x41000000 = .ok .retint := by decide
theorem decode_cli : decodeWord 0x42000000 = .ok .cli := by decide
theorem decode_sti : decodeWord 0x43000000 = .ok .sti := by decide
theorem decode_lpm : decodeWord 0x44000000 = .ok .lpm := by decide
theorem decode_hlt : decodeWord 0x45300000 = .ok (.hlt .r3) := by decide
theorem decode_sis : decodeWord 0x46008123 = .ok (.sis 0x8123) := by decide

theorem decode_rejects_unassigned : decodeWord 0x0C000000 = .rejected .unassignedOpcode := by decide

theorem decode_rejects_unused : decodeWord 0x3C000001 = .rejected .unusedFieldNotZero := by decide

theorem decode_rejects_fifteen : decodeWord 0x09F00000 = .rejected .registerFifteen := by decide

theorem decode_rejects_short : decodeBytes [0, 0, 0] = .rejected .truncated := by decide

theorem decode_little_endian : decodeBytes [0x05, 0x00, 0x00, 0x01, 0xFF] = .ok (.li .r0 5) := by decide

theorem encode_hlt : encode (.hlt .flags) = 0x45D00000 := by decide

theorem disassemble_lb : disassemble (.lb .r0 .r1 0xFFFE) = "LB r0, [r1 + -2]" := by decide

/-! ## Single steps, from the vectors of the spec -/

/-- The common start of the vectors with registers, dwords of memory and frames as listed, and one instruction word
where the next step fetches. -/
def start (word : Nat) (regs : List (Reg × Word)) (mem : List (Nat × Word)) (frames : List StackFrame) : State :=
  let s := State.boot ⟨1, 2, 0x1000, 0, true⟩ State.reset
  let s := regs.foldl (fun s p => s.setReg p.1 p.2) s
  let s := mem.foldl (fun s p => s.setMem (s.mem.setDword p.1 p.2)) s
  (s.setFrames frames).withFetchWord 32 word

/-- The state after one step from such a start. -/
def ran (word : Nat) (regs : List (Reg × Word)) (mem : List (Nat × Word)) (frames : List StackFrame) : State :=
  match step (start word regs mem frames) with
  | .next t => t
  | .fault _ | .refused _ => start word regs mem frames

/-- The core is in the lifecycle state, with the recorded fault and the registers listed. -/
def ends (t : State) (life : Lifecycle) (fault : Option CoreFault) (regs : List (Reg × Word)) : Bool :=
  t.self.life == life && t.self.lastException == fault && regs.all fun p => t.reg p.1 == p.2

/-- The same, with the data cache from least to most recently used. -/
def endsWith (t : State) (life : Lifecycle) (fault : Option CoreFault) (regs : List (Reg × Word))
    (cache : List DEntry) : Bool :=
  ends t life fault regs && t.self.dcache == cache

theorem test_M2_nop :
    ends (ran 0x00000000 [(.flags, 0x3E)] [] []) .booted none [(.ip, 0x4), (.flags, 0x3E), (.cnt, 1)] := by decide

theorem test_M4_li :
    ends (ran 0x0100FFFF [] [] []) .booted none [(.r0, 0xFFFFFFFF), (.ip, 0x4), (.flags, 0x23), (.cnt, 1)] := by decide

theorem test_M8_li :
    ends (ran 0x01A00005 [(.flags, 0x02)] [] []) (.halted 1) (some (.accessViolationRegister .ds))
      [(.ip, 0x4), (.flags, 0x02), (.cnt, 0)] := by decide

theorem test_M9_liu :
    ends (ran 0x02001234 [(.r0, 0xFFFFBEEF)] [] []) .booted none
      [(.r0, 0x1234BEEF), (.ip, 0x4), (.flags, 0x03), (.cnt, 1)] := by decide

theorem test_M11_liu :
    ends (ran 0x02000000 [(.r0, 0xABCD0000)] [] []) .booted none
      [(.r0, 0x0), (.ip, 0x4), (.flags, 0x0B), (.cnt, 1)] := by decide

theorem test_M13_mov :
    ends (ran 0x03120000 [(.r2, 0x80000000)] [] []) .booted none
      [(.r1, 0x80000000), (.ip, 0x4), (.flags, 0x03), (.cnt, 1)] := by decide

theorem test_M19_mov :
    ends (ran 0x03E00000 [(.r0, 0xFFFFFFFF)] [] []) .booted none [(.ip, 0x4), (.flags, 0x03), (.cnt, 0)] := by decide

theorem test_M21_lb :
    endsWith (ran 0x04010003 [(.r1, 0x100)] [(0x20100, 0x91223344)] []) .booted none
      [(.r0, 0x91), (.ip, 0x4), (.flags, 0x03), (.cnt, 1)]
      [⟨0x20102, false, 0x9122⟩] := by decide

theorem test_M30_lb :
    endsWith (ran 0x04010000 [(.r1, 0xFFFFFFFF), (.ds, 0xFF)] [] []) .booted none
      [(.ip, 0x4), (.flags, 0x0B), (.cnt, 1)]
      [⟨0xFEFFFE, false, 0x0000⟩] := by decide

theorem test_M22_lw :
    endsWith (ran 0x05010002 [(.r1, 0x100)] [(0x20100, 0x91223344)] []) .booted none
      [(.r0, 0x9122), (.ip, 0x4), (.flags, 0x03), (.cnt, 1)]
      [⟨0x20102, false, 0x9122⟩] := by decide

theorem test_M23_lw :
    ends (ran 0x05010001 [(.r1, 0x100)] [(0x20100, 0x91223344)] []) (.halted 1) (some (.unalignedAccess 0x20101))
      [(.ip, 0x4), (.flags, 0x03), (.cnt, 0)] := by decide

theorem test_M27_ld :
    endsWith (ran 0x0601FFFC [(.r1, 0x104)] [(0x20100, 0x91223344)] []) .booted none
      [(.r0, 0x91223344), (.ip, 0x4), (.flags, 0x23), (.cnt, 1)]
      [⟨0x20100, false, 0x3344⟩, ⟨0x20102, false, 0x9122⟩] := by decide

theorem test_M29_ld :
    ends (ran 0x06810000 [(.r1, 0x101), (.flags, 0x02)] [(0x20100, 0x91223344)] [])
      (.halted 1) (some (.accessViolationRegister .fp))
      [(.ip, 0x4), (.flags, 0x02), (.cnt, 0)] := by decide

theorem test_M31_stb :
    endsWith (ran 0x07010001 [(.r1, 0x100), (.r0, 0x1AB)] [(0x20100, 0x91223344)] []) .booted none
      [(.ip, 0x4), (.flags, 0x03), (.cnt, 1)]
      [⟨0x20100, true, 0xAB44⟩] := by decide

theorem test_M32_stb :
    endsWith (ran 0x07010000 [(.r1, 0x100), (.r0, 0xFF)] [(0x20100, 0x91223344)] []) .booted none
      [(.ip, 0x4), (.flags, 0x03), (.cnt, 1)]
      [⟨0x20100, true, 0x33FF⟩] := by decide

theorem test_M33_stw :
    endsWith (ran 0x08010000 [(.r1, 0x100), (.r0, 0x12345678)] [(0x20100, 0x91223344)] []) .booted none
      [(.ip, 0x4), (.flags, 0x03), (.cnt, 1)]
      [⟨0x20100, true, 0x5678⟩] := by decide

theorem test_M34_stw :
    ends (ran 0x08010001 [(.r1, 0x100), (.r0, 0x1)] [(0x20100, 0x91223344)] [])
      (.halted 1) (some (.unalignedAccess 0x20101))
      [(.ip, 0x4), (.flags, 0x03), (.cnt, 0)] := by decide

theorem test_M35_std :
    endsWith (ran 0x09010000 [(.r1, 0x100), (.r0, 0x12345678)] [(0x20100, 0x91223344)] []) .booted none
      [(.ip, 0x4), (.flags, 0x03), (.cnt, 1)]
      [⟨0x20100, true, 0x5678⟩, ⟨0x20102, true, 0x1234⟩] := by decide

theorem test_M37_std :
    endsWith (ran 0x09D10000 [(.r1, 0x100), (.flags, 0x2A)] [] []) .booted none
      [(.ip, 0x4), (.flags, 0x2A), (.cnt, 1)]
      [⟨0x20100, true, 0x002A⟩, ⟨0x20102, true, 0x0000⟩] := by decide

theorem test_M40_push :
    endsWith (ran 0x0A900000 [] [] []) .booted none
      [(.sp, 0xFFC), (.ip, 0x4), (.flags, 0x03), (.cnt, 1)]
      [⟨0x20FFC, true, 0x1000⟩, ⟨0x20FFE, true, 0x0000⟩] := by decide

theorem test_M41_push :
    ends (ran 0x0A100000 [(.sp, 0x1002)] [] []) (.halted 1) (some (.unalignedAccess 0x20FFE))
      [(.ip, 0x4), (.flags, 0x03), (.cnt, 0)] := by decide

theorem test_M44_pop :
    endsWith (ran 0x0B900000 [(.sp, 0xFFC)] [(0x20FFC, 0x00002000)] []) .booted none
      [(.sp, 0x2000), (.ip, 0x4), (.flags, 0x03), (.cnt, 1)]
      [⟨0x20FFC, false, 0x2000⟩, ⟨0x20FFE, false, 0x0000⟩] := by decide

theorem test_M46_pop :
    endsWith (ran 0x0BD00000 [(.sp, 0xFFC)] [(0x20FFC, 0xFFFFFFF8)] []) .booted none
      [(.sp, 0x1000), (.ip, 0x4), (.flags, 0x38), (.cnt, 1)]
      [⟨0x20FFC, false, 0xFFF8⟩, ⟨0x20FFE, false, 0xFFFF⟩] := by decide

theorem test_A2_add :
    ends (ran 0x10010000 [(.r0, 0xFFFFFFFF), (.r1, 0x1)] [] []) .booted none
      [(.r0, 0x0), (.ip, 0x4), (.flags, 0x1B), (.cnt, 1)] := by decide

theorem test_A6_add :
    ends (ran 0x10810000 [(.r1, 0x10), (.flags, 0x02)] [] []) (.halted 1) (some (.accessViolationRegister .fp))
      [(.ip, 0x4), (.flags, 0x02), (.cnt, 0)] := by decide

theorem test_A7_addi :
    ends (ran 0x1100FFFF [(.r0, 0x5)] [] []) .booted none
      [(.r0, 0x4), (.ip, 0x4), (.flags, 0x13), (.cnt, 1)] := by decide

theorem test_A9_addi :
    ends (ran 0x11007FFF [(.r0, 0x1)] [] []) .booted none
      [(.r0, 0x8000), (.ip, 0x4), (.flags, 0x03), (.cnt, 1)] := by decide

theorem test_A10_sub :
    ends (ran 0x12010000 [(.r0, 0x3), (.r1, 0x5)] [] []) .booted none
      [(.r0, 0xFFFFFFFE), (.ip, 0x4), (.flags, 0x33), (.cnt, 1)] := by decide

theorem test_A12_sub :
    ends (ran 0x12010000 [(.r0, 0x80000000), (.r1, 0x1)] [] []) .booted none
      [(.r0, 0x7FFFFFFF), (.ip, 0x4), (.flags, 0x03), (.cnt, 1)] := by decide

theorem test_A13_subi :
    ends (ran 0x13000001 [(.r0, 0x0)] [] []) .booted none
      [(.r0, 0xFFFFFFFF), (.ip, 0x4), (.flags, 0x33), (.cnt, 1)] := by decide

theorem test_A14_subi :
    ends (ran 0x1300FFFF [(.r0, 0x0)] [] []) .booted none
      [(.r0, 0x1), (.ip, 0x4), (.flags, 0x13), (.cnt, 1)] := by decide

theorem test_A16_mul :
    ends (ran 0x14010000 [(.r0, 0x10000), (.r1, 0x10000)] [] []) .booted none
      [(.r0, 0x0), (.ip, 0x4), (.flags, 0x1B), (.cnt, 1)] := by decide

theorem test_A17_mul :
    ends (ran 0x14010000 [(.r0, 0xFFFFFFFF), (.r1, 0xFFFFFFFF)] [] []) .booted none
      [(.r0, 0x1), (.ip, 0x4), (.flags, 0x13), (.cnt, 1)] := by decide

theorem test_A18_muli :
    ends (ran 0x1500FFFF [(.r0, 0x2)] [] []) .booted none
      [(.r0, 0xFFFFFFFE), (.ip, 0x4), (.flags, 0x33), (.cnt, 1)] := by decide

theorem test_A19_muli :
    ends (ran 0x15000000 [(.r0, 0x1234)] [] []) .booted none
      [(.r0, 0x0), (.ip, 0x4), (.flags, 0x0B), (.cnt, 1)] := by decide

theorem test_A21_div :
    ends (ran 0x16010000 [(.r0, 0xFFFFFFFE), (.r1, 0x2)] [] []) .booted none
      [(.r0, 0x7FFFFFFF), (.ip, 0x4), (.flags, 0x03), (.cnt, 1)] := by decide

theorem test_A24_div :
    ends (ran 0x16810000 [(.r1, 0x0), (.flags, 0x02)] [] []) (.halted 1) (some (.accessViolationRegister .fp))
      [(.ip, 0x4), (.flags, 0x02), (.cnt, 0)] := by decide

theorem test_A25_divi :
    ends (ran 0x1700FFFF [(.r0, 0x64)] [] []) .booted none
      [(.r0, 0x0), (.ip, 0x4), (.flags, 0x0B), (.cnt, 1)] := by decide

theorem test_A26_divi :
    ends (ran 0x17000000 [(.r0, 0x64)] [] []) (.halted 1) (some .divideByZero)
      [(.ip, 0x4), (.flags, 0x03), (.cnt, 0)] := by decide

theorem test_A27_mod :
    ends (ran 0x18010000 [(.r0, 0x7), (.r1, 0x3)] [] []) .booted none
      [(.r0, 0x1), (.ip, 0x4), (.flags, 0x03), (.cnt, 1)] := by decide

theorem test_A28_mod :
    ends (ran 0x18010000 [(.r0, 0x7), (.r1, 0x0)] [] []) (.halted 1) (some .divideByZero)
      [(.ip, 0x4), (.flags, 0x03), (.cnt, 0)] := by decide

theorem test_A29_modi :
    ends (ran 0x19000008 [(.r0, 0xFFFFFFFF)] [] []) .booted none
      [(.r0, 0x7), (.ip, 0x4), (.flags, 0x03), (.cnt, 1)] := by decide

theorem test_A30_modi :
    ends (ran 0x19000000 [(.r0, 0x1)] [] []) (.halted 1) (some .divideByZero)
      [(.ip, 0x4), (.flags, 0x03), (.cnt, 0)] := by decide

theorem test_A31_and :
    ends (ran 0x1A010000 [(.r0, 0xF0F0F0F0), (.r1, 0xFF00FF00)] [] []) .booted none
      [(.r0, 0xF000F000), (.ip, 0x4), (.flags, 0x23), (.cnt, 1)] := by decide

theorem test_A32_and :
    ends (ran 0x1A010000 [(.r0, 0xF0), (.r1, 0xF), (.flags, 0x13)] [] []) .booted none
      [(.r0, 0x0), (.ip, 0x4), (.flags, 0x0B), (.cnt, 1)] := by decide

theorem test_A33_andi :
    ends (ran 0x1B0000FF [(.r0, 0x12345678)] [] []) .booted none
      [(.r0, 0x78), (.ip, 0x4), (.flags, 0x03), (.cnt, 1)] := by decide

theorem test_A34_andi :
    ends (ran 0x1B00FF00 [(.r0, 0x12345678)] [] []) .booted none
      [(.r0, 0x12345600), (.ip, 0x4), (.flags, 0x03), (.cnt, 1)] := by decide

theorem test_A35_or :
    ends (ran 0x1C010000 [(.r0, 0xF), (.r1, 0x80000000)] [] []) .booted none
      [(.r0, 0x8000000F), (.ip, 0x4), (.flags, 0x23), (.cnt, 1)] := by decide

theorem test_A36_ori :
    ends (ran 0x1D000001 [(.r0, 0x0)] [] []) .booted none
      [(.r0, 0x1), (.ip, 0x4), (.flags, 0x03), (.cnt, 1)] := by decide

theorem test_A37_ori :
    ends (ran 0x1D008000 [(.r0, 0x0)] [] []) .booted none
      [(.r0, 0xFFFF8000), (.ip, 0x4), (.flags, 0x23), (.cnt, 1)] := by decide

theorem test_A38_xor :
    ends (ran 0x1E000000 [(.r0, 0xDEADBEEF)] [] []) .booted none
      [(.r0, 0x0), (.ip, 0x4), (.flags, 0x0B), (.cnt, 1)] := by decide

theorem test_A39_xor :
    ends (ran 0x1E010000 [(.r0, 0xFF), (.r1, 0xF)] [] []) .booted none
      [(.r0, 0xF0), (.ip, 0x4), (.flags, 0x03), (.cnt, 1)] := by decide

theorem test_A40_xori :
    ends (ran 0x1F00FFFF [(.r0, 0xFFFF)] [] []) .booted none
      [(.r0, 0xFFFF0000), (.ip, 0x4), (.flags, 0x23), (.cnt, 1)] := by decide

theorem test_A41_not :
    ends (ran 0x20000000 [(.r0, 0x0)] [] []) .booted none
      [(.r0, 0xFFFFFFFF), (.ip, 0x4), (.flags, 0x23), (.cnt, 1)] := by decide

theorem test_A42_not :
    ends (ran 0x20000000 [(.r0, 0xFFFFFFFF)] [] []) .booted none
      [(.r0, 0x0), (.ip, 0x4), (.flags, 0x0B), (.cnt, 1)] := by decide

theorem test_A44_shl :
    ends (ran 0x22010000 [(.r0, 0x1), (.r1, 0x20)] [] []) .booted none
      [(.ip, 0x4), (.flags, 0x03), (.cnt, 1)] := by decide

theorem test_A45_shl :
    ends (ran 0x22010000 [(.r0, 0x80000001), (.r1, 0x1)] [] []) .booted none
      [(.r0, 0x2), (.ip, 0x4), (.flags, 0x13), (.cnt, 1)] := by decide

theorem test_A48_shli :
    ends (ran 0x23000024 [(.r0, 0xFFFFFFF)] [] []) .booted none
      [(.r0, 0xFFFFFFF0), (.ip, 0x4), (.flags, 0x23), (.cnt, 1)] := by decide

theorem test_A49_shli :
    ends (ran 0x2300FFFF [(.r0, 0x3)] [] []) .booted none
      [(.r0, 0x80000000), (.ip, 0x4), (.flags, 0x33), (.cnt, 1)] := by decide

theorem test_A50_shr :
    ends (ran 0x24010000 [(.r0, 0x80000000), (.r1, 0x1F)] [] []) .booted none
      [(.r0, 0x1), (.ip, 0x4), (.flags, 0x03), (.cnt, 1)] := by decide

theorem test_A51_shr :
    ends (ran 0x24010000 [(.r0, 0x80000000), (.r1, 0x0)] [] []) .booted none
      [(.ip, 0x4), (.flags, 0x23), (.cnt, 1)] := by decide

theorem test_A53_shri :
    ends (ran 0x25000010 [(.r0, 0xFFFF0000)] [] []) .booted none
      [(.r0, 0xFFFF), (.ip, 0x4), (.flags, 0x03), (.cnt, 1)] := by decide

theorem test_A54_shri :
    ends (ran 0x25000021 [(.r0, 0xFFFF0000)] [] []) .booted none
      [(.r0, 0x7FFF8000), (.ip, 0x4), (.flags, 0x03), (.cnt, 1)] := by decide

theorem test_A56_cmp :
    ends (ran 0x26010000 [(.r0, 0x3), (.r1, 0x5)] [] []) .booted none
      [(.ip, 0x4), (.flags, 0x33), (.cnt, 1)] := by decide

theorem test_A57_cmp :
    ends (ran 0x26010000 [(.r0, 0x5), (.r1, 0x3), (.flags, 0x3F)] [] []) .booted none
      [(.ip, 0x4), (.flags, 0x03), (.cnt, 1)] := by decide

theorem test_A60_cmpi :
    ends (ran 0x2700FFFF [(.r0, 0xFFFFFFFF)] [] []) .booted none [(.ip, 0x4), (.flags, 0x0F), (.cnt, 1)] := by decide

theorem test_A61_cmpi :
    ends (ran 0x2700FFFF [(.r0, 0x0)] [] []) .booted none [(.ip, 0x4), (.flags, 0x13), (.cnt, 1)] := by decide

theorem test_T1_j :
    ends (ran 0x30100000 [(.r1, 0x2000)] [] []) .booted none [(.ip, 0x2000), (.flags, 0x03), (.cnt, 1)] := by decide

theorem test_T4_j :
    ends (ran 0x30C00000 [] [] []) .booted none [(.ip, 0x4), (.flags, 0x03), (.cnt, 1)] := by decide

theorem test_T6_jr :
    ends (ran 0x3100FFFC [] [] []) .booted none [(.ip, 0x0), (.flags, 0x03), (.cnt, 1)] := by decide

theorem test_T7_jr :
    ends (ran 0x3100FFF8 [] [] []) .booted none [(.ip, 0xFFFFFFFC), (.flags, 0x03), (.cnt, 1)] := by decide

theorem test_T9_be :
    ends (ran 0x32000020 [(.flags, 0x07)] [] []) .booted none [(.ip, 0x24), (.flags, 0x07), (.cnt, 1)] := by decide

theorem test_T10_be :
    ends (ran 0x32000020 [] [] []) .booted none [(.ip, 0x4), (.flags, 0x03), (.cnt, 1)] := by decide

theorem test_T11_bne :
    ends (ran 0x33000020 [(.flags, 0x07)] [] []) .booted none [(.ip, 0x4), (.flags, 0x07), (.cnt, 1)] := by decide

theorem test_T12_bne :
    ends (ran 0x33000020 [] [] []) .booted none [(.ip, 0x24), (.flags, 0x03), (.cnt, 1)] := by decide

theorem test_T13_bz :
    ends (ran 0x34000020 [(.flags, 0x0B)] [] []) .booted none [(.ip, 0x24), (.flags, 0x0B), (.cnt, 1)] := by decide

theorem test_T14_bz :
    ends (ran 0x34000020 [] [] []) .booted none [(.ip, 0x4), (.flags, 0x03), (.cnt, 1)] := by decide

theorem test_T15_bnz :
    ends (ran 0x35000020 [(.flags, 0x0B)] [] []) .booted none [(.ip, 0x4), (.flags, 0x0B), (.cnt, 1)] := by decide

theorem test_T16_bnz :
    ends (ran 0x35000020 [] [] []) .booted none [(.ip, 0x24), (.flags, 0x03), (.cnt, 1)] := by decide

theorem test_T17_bo :
    ends (ran 0x36000020 [(.flags, 0x13)] [] []) .booted none [(.ip, 0x24), (.flags, 0x13), (.cnt, 1)] := by decide

theorem test_T18_bo :
    ends (ran 0x36000020 [] [] []) .booted none [(.ip, 0x4), (.flags, 0x03), (.cnt, 1)] := by decide

theorem test_T19_bno :
    ends (ran 0x37000020 [(.flags, 0x13)] [] []) .booted none [(.ip, 0x4), (.flags, 0x13), (.cnt, 1)] := by decide

theorem test_T20_bno :
    ends (ran 0x37000020 [] [] []) .booted none [(.ip, 0x24), (.flags, 0x03), (.cnt, 1)] := by decide

theorem test_T21_bs :
    ends (ran 0x38000020 [(.flags, 0x23)] [] []) .booted none [(.ip, 0x24), (.flags, 0x23), (.cnt, 1)] := by decide

theorem test_T22_bs :
    ends (ran 0x38000020 [] [] []) .booted none [(.ip, 0x4), (.flags, 0x03), (.cnt, 1)] := by decide

theorem test_T23_bns :
    ends (ran 0x39000020 [(.flags, 0x23)] [] []) .booted none [(.ip, 0x4), (.flags, 0x23), (.cnt, 1)] := by decide

theorem test_T24_bns :
    ends (ran 0x39000020 [] [] []) .booted none [(.ip, 0x24), (.flags, 0x03), (.cnt, 1)] := by decide

theorem test_T27_call :
    ends (ran 0x3A100000 [(.r1, 0x2000)] [] []) .booted none
      [(.fp, 0xFF8), (.sp, 0xFF8), (.ip, 0x2000), (.flags, 0x03), (.cnt, 1)] := by decide

theorem test_T29_call :
    ends (ran 0x3A100000 [(.r1, 0x2000), (.sp, 0x1002)] [] []) (.halted 1) (some (.unalignedAccess 0x20FFE))
      [(.ip, 0x4), (.flags, 0x03), (.cnt, 0)] := by decide

theorem test_T30_callr :
    ends (ran 0x3B000020 [] [] []) .booted none
      [(.fp, 0xFF8), (.sp, 0xFF8), (.ip, 0x24), (.flags, 0x03), (.cnt, 1)] := by decide

theorem test_T31_callr :
    ends (ran 0x3B00FFFC [] [] []) .booted none
      [(.fp, 0xFF8), (.sp, 0xFF8), (.ip, 0x0), (.flags, 0x03), (.cnt, 1)] := by decide

theorem test_T32_ret :
    ends (ran 0x3C000000 [(.sp, 0xFF8), (.fp, 0xFF8)] [(0x20FF8, 0x00001000), (0x20FFC, 0x00000104)]
      [⟨1, 2, 0xFF8, 0x104⟩])
      .booted none
      [(.fp, 0x1000), (.sp, 0x1000), (.ip, 0x104), (.flags, 0x03), (.cnt, 1)] := by decide

theorem test_T33_ret :
    ends (ran 0x3C000000 [(.sp, 0xFF4), (.fp, 0xFF8)] [(0x20FF8, 0x00001000), (0x20FFC, 0x00000104)]
      [⟨1, 2, 0xFF8, 0x104⟩])
      (.halted 1) (some (.invalidFrame 0xFF4))
      [(.ip, 0x4), (.flags, 0x03), (.cnt, 0)] := by decide

theorem test_Y18_int :
    ends (ran 0x40000003 [(.r0, 0x7), (.flags, 0x02)] [(0x130, 3), (0x134, 4), (0x138, 0x40), (0x13C, 0x200)] [])
      .booted none
      [(.fp, 0x1C8), (.sp, 0x1C8), (.ds, 0x4), (.cs, 0x3), (.ip, 0x40), (.flags, 0x03), (.cnt, 1)] := by decide

/-- The step of `INT 5` with the handlers listed, from unprivileged code. -/
def ranVirtual (virt : List (Half × Handler)) (mem : List (Nat × Word)) : State :=
  let s := start 0x40000005 [(.flags, 0x02)] mem []
  match step { s with cfg := { s.cfg with virt := virt } } with
  | .next t => t
  | .fault _ | .refused _ => s

theorem test_Y19_int :
    ends (ranVirtual [(5, .given [.setReg .r0 (.const 0x1234)])] []) .booted none
      [(.r0, 0x1234), (.ip, 0x4), (.flags, 0x02), (.cnt, 1)] := by decide

/-- R295, R11: a handler loads a dword, pushes it and pops it into `r1` plus 1; the later pair for 5 does not count. -/
theorem test_virtual_handler_uses_memory :
    ends (ranVirtual [(5, .given [.memRead .dword (.const 0x20100), .push (.got 0), .pop,
        .setReg .r1 (.add (.got 1) (.const 1))]), (5, .given [.raise .divideByZero])] [(0x20100, 0x91223344)])
      .booted none [(.r1, 0x91223345), (.sp, 0x1000), (.ip, 0x4), (.flags, 0x02), (.cnt, 1)] := by decide

theorem test_Y20_int :
    ends (ran 0x4000FFFF [(.flags, 0x02)] [] []) (.halted 1) (some (.backendFault 0xFFFFFFFC))
      [(.sp, 0x0), (.ds, 0x0), (.ip, 0x4), (.flags, 0x02), (.cnt, 0)] := by decide

theorem test_Y21_retint :
    ends (ran 0x41000000 [(.flags, 0x02)] [] []) (.halted 1) (some (.accessViolationInstruction (.dk0 .retint)))
      [(.ip, 0x4), (.flags, 0x02), (.cnt, 0)] := by decide

theorem test_Y22_retint :
    ends (ran 0x41000000 [] [] []) (.halted 1) (some (.invalidFrame 0x1000))
      [(.ip, 0x4), (.flags, 0x03), (.cnt, 0)] := by decide

theorem test_Y1_cli :
    ends (ran 0x42000000 [] [] []) .booted none [(.ip, 0x4), (.flags, 0x01), (.cnt, 1)] := by decide

theorem test_Y2_cli :
    ends (ran 0x42000000 [(.flags, 0x02)] [] []) (.halted 1) (some (.accessViolationInstruction (.dk0 .cli)))
      [(.ip, 0x4), (.flags, 0x02), (.cnt, 0)] := by decide

theorem test_Y3_sti :
    ends (ran 0x43000000 [(.flags, 0x01)] [] []) .booted none [(.ip, 0x4), (.flags, 0x03), (.cnt, 1)] := by decide

theorem test_Y4_sti :
    ends (ran 0x43000000 [(.flags, 0x00)] [] []) (.halted 1) (some (.accessViolationInstruction (.dk0 .sti)))
      [(.ip, 0x4), (.flags, 0x00), (.cnt, 0)] := by decide

theorem test_Y6_lpm :
    ends (ran 0x44000000 [] [] []) .booted none [(.ip, 0x4), (.flags, 0x02), (.cnt, 1)] := by decide

theorem test_Y7_lpm :
    ends (ran 0x44000000 [(.flags, 0x02)] [] []) (.halted 1) (some (.accessViolationInstruction (.dk0 .lpm)))
      [(.ip, 0x4), (.flags, 0x02), (.cnt, 0)] := by decide

theorem test_Y10_hlt :
    ends (ran 0x45100000 [(.r1, 0x2A)] [] []) (.halted 42) none [(.ip, 0x4), (.flags, 0x03), (.cnt, 1)] := by decide

theorem test_Y12_hlt :
    ends (ran 0x45100000 [(.r1, 0x2A), (.flags, 0x02)] [] [])
      (.halted 1) (some (.accessViolationInstruction (.dk0 (.hlt .r1))))
      [(.ip, 0x4), (.flags, 0x02), (.cnt, 0)] := by decide

theorem test_Y14_sis :
    ends (ran 0x46000000 [] [] []) .booted none [(.ip, 0x4), (.flags, 0x03), (.cnt, 1)] := by decide

theorem test_Y16_sis :
    ends (ran 0x46000001 [] [] []) (.halted 1) (some (.invalidInstructionSet 1))
      [(.ip, 0x4), (.flags, 0x03), (.cnt, 0)] := by decide

theorem test_F1_decode :
    ends (ran 0xFF000000 [] [] []) (.halted 1) (some (.invalidOpcode 0xFF000000 0x10000))
      [(.ip, 0x0), (.flags, 0x03), (.cnt, 0)] := by decide

theorem test_F3_decode :
    ends (ran 0x00000001 [] [] []) (.halted 1) (some (.invalidOpcode 0x00000001 0x10000))
      [(.ip, 0x0), (.flags, 0x03), (.cnt, 0)] := by decide

theorem test_F5_decode :
    ends (ran 0x01F00005 [] [] []) (.halted 1) (some (.invalidOpcode 0x01F00005 0x10000))
      [(.ip, 0x0), (.flags, 0x03), (.cnt, 0)] := by decide

theorem test_F9_decode :
    ends (ran 0x00000000 [(.ip, 0x2)] [] []) (.halted 1) (some (.unalignedAccess 0x10002))
      [(.ip, 0x2), (.flags, 0x03), (.cnt, 0)] := by decide

theorem test_F10_decode :
    ends (ran 0x00000000 [(.cs, 0x100)] [] []) (.halted 1) (some (.backendFault 0x1000000))
      [(.ip, 0x0), (.flags, 0x03), (.cnt, 0)] := by decide

/-- R62, R63, R65: the accesses of the backend at its last byte, little-endian, and past it. -/
theorem test_backend_accesses :
    let m := Memory.setDword [] 0xFFFFFC 0x91223344
    m.bread8 Config.default [] 0xFFFFFF = some 0x91 ∧ m.bread8 Config.default [] 0x1000000 = none
      ∧ m.bread32 Config.default [] 0xFFFFFC = some 0x91223344 ∧ m.bread32 Config.default [] 0xFFFFFD = none
      ∧ (m.bwrite8 Config.default [7] 0xFFFFFC 0).1.map (·.dword 0xFFFFFC) = some 0x91223300
      ∧ m.bwrite8 Config.default [7] 0x1000000 0 = (none, [7])
      ∧ Memory.bwrite32 Config.default [7] [] 0xFFFFFC 0x91223344 = (some m, [7])
      ∧ m.bwrite32 Config.default [7] 0xFFFFFE 0 = (none, [7]) := by decide

/-! ## Witnesses: for every statement with hypotheses, a state and operands that meet them -/

/-- One core, booted privileged at the common start of the vectors. -/
def one : State := State.boot ⟨1, 2, 0x1000, 0, true⟩ State.reset

/-- The same core, unprivileged. -/
def user : State := State.boot ⟨1, 2, 0x1000, 0, false⟩ State.reset

/-- The one core with these registers. -/
def having (regs : List (Reg × Word)) : State := regs.foldl (fun s p => s.setReg p.1 p.2) one

/-- The one core at the last instruction slot of the backend. -/
def edge : State := having [(.cs, 0xFF), (.ip, 0xFFFC), (.ds, 0xFF), (.r1, 0xFFFC)]

/-- Two booted cores with room for two granules each: core 0 executes and holds granule 0x20100 dirty, core 1 holds
0x20102 clean. -/
def two : State :=
  let s := (State.bootFrom 0 [⟨1, 2, 0x1000, 0, true⟩, ⟨1, 2, 0x800, 0, false⟩]
    (State.resetOf { Config.default with dcacheSize := 2 } 1 [])).focus 1
  (((s.setDcache [⟨0x20102, false, 0⟩]).focus 0).setDcache [⟨0x20100, true, 0xBEEF⟩]).setReg .r1 0x100

/-- A state with a host operation pending. -/
def asked (op : HostOp) (s : State) : State := { s with inputs := [op] }

/-- The one core inside an interrupt handler: fourteen slots up to 0x200 in segment 4, and the frame. -/
def handler : State :=
  (having [(.ds, 4), (.sp, 0x1C8), (.fp, 0x1C8), (.cs, 3)]).setFrames [⟨1, 4, 0x1C8, 4⟩]

/-- A state with the vector {cs 3, ds 4, ip 0x40, sp} at index 2 of both tables. -/
def vectored (sp : Word) (s : State) : State :=
  [(0x20, 3), (0x24, 4), (0x28, 0x40), (0x2C, sp), (0x120, 3), (0x124, 4), (0x128, 0x40), (0x12C, sp)].foldl
    (fun (s : State) (p : Nat × Word) => s.setMem (s.mem.setDword p.1 p.2)) s

/-- The same with a stack of fifty-two bytes at the bottom of memory: of the fourteen slots the last wraps to the top of
the address space. -/
def shallow (s : State) : State :=
  let v := vectored 0x34 s
  v.setMem ((v.mem.setDword 0x24 0).setDword 0x124 0)

/-- The one core with a virtual handler for index 5. -/
def virtual : State :=
  { one with cfg := { one.cfg with virt := [(5, .given [.setReg .r0 (.const 0x1234)])] } }

/-- The one core with so much memory. -/
def sized (memSize : Nat) (s : State) : State := { s with cfg := { s.cfg with memSize := memSize } }

/-- A core whose data cache holds a dirty granule the backend does not have: no run reaches it, but `halt` is defined
on it (R315). -/
def broken : State := one.setDcache [⟨0x20100, true, 1⟩, ⟨0x01000000, true, 2⟩, ⟨0x20102, true, 3⟩]

theorem inv_of {s : State} (h : s.cfg.wf = true ∧ s.backendWf) (w : ∀ c ∈ s.cores, c.wf s.cfg) (c : s.coherent) :
    s.Inv := ⟨h.1, h.2, w, c⟩

/-- Where every handler is given as data, none is arbitrary. -/
theorem no_free {cfg : Config} (h : ∀ p ∈ cfg.virt, ∀ n, p.2 ≠ .free n) :
    ∀ index n, cfg.handler index ≠ some (.free n) := by
  intro index n hn
  unfold Config.handler at hn
  obtain ⟨p, hp, eq⟩ := Option.map_eq_some_iff.mp hn
  exact h p (List.mem_of_find?_eq_some hp) n eq

theorem none_given : ∀ p ∈ Config.default.virt, ∀ n, p.2 ≠ .free n := fun _ h => absurd h List.not_mem_nil

theorem virtual_given : ∀ p ∈ virtual.cfg.virt, ∀ n, p.2 ≠ .free n := by
  intro p hp n
  rw [List.mem_singleton.mp hp]
  nofun

theorem running_one : Running one := ⟨inv_of (by decide) (by decide) (by decide), rfl⟩

theorem running_user : Running user := ⟨inv_of (by decide) (by decide) (by decide), rfl⟩

theorem running_edge : Running edge := ⟨inv_of (by decide) (by decide) (by decide), rfl⟩

theorem running_two : Running two := ⟨inv_of (by decide) (by decide) (by decide), rfl⟩

theorem running_handler : Running handler := ⟨inv_of (by decide) (by decide) (by decide), rfl⟩

theorem running_vectored : Running (vectored 0x200 user) := ⟨inv_of (by decide) (by decide) (by decide), rfl⟩

/-! ### Encoding and the step -/

theorem witness_EncodeDecodeRoundTrip : (Instr.std .cnt .flags 0xFFFF).wellFormed = true := by decide

theorem witness_DecodedWordIsTheEncoding : decode 0 0x091E8000 = .ok (.std .r1 .cnt 0x8000) := by decide

/-- The instruction at the last aligned dword of the backend, not yet in the instruction cache. -/
theorem witness_StepRunsDecodedInstruction_miss : ∃ s u : State,
    s.inputs = .step 0 :: [] ∧ 0 < s.nCores ∧ u = State.focus { s with inputs := [] } 0 ∧ u.self.life = .booted
      ∧ u.fetchAddr % 4 = 0 ∧ (∀ e ∈ u.self.icache, e.addr ≠ u.fetchAddr) ∧ u.fetchAddr + 4 = u.cfg.memSize
      ∧ u.cfg.backendOf.read u.mem u.allocated u.fetchAddr 4 = false
      ∧ decodesTo u (u.mem.dword u.fetchAddr) (.dk0 (.li .r0 0xFFFF)) :=
  ⟨edge.withFetchWord 32 0x0100FFFF, _, rfl, by decide, rfl, rfl, by decide, by decide, by decide, by decide,
    .inl ⟨rfl, _, by decide, rfl⟩⟩

/-- A hit: the instruction cache holds `CLI` where memory holds `NOP`. -/
theorem witness_StepRunsDecodedInstruction_hit : ∃ s u : State,
    s.inputs = .step 0 :: [] ∧ 0 < s.nCores ∧ u = State.focus { s with inputs := [] } 0 ∧ u.self.life = .booted
      ∧ u.fetchAddr % 4 = 0
      ∧ u.self.icache.find? (fun e => e.addr == u.fetchAddr) = some ⟨u.fetchAddr, .dk0 .cli⟩ :=
  ⟨asked (.step 0) (one.setIcache [⟨0x10000, .dk0 .cli⟩]), _, rfl, by decide, rfl, rfl, by decide, by decide⟩

theorem witness_FetchFaultsKillAtTheInstruction_unaligned : ∃ s u : State,
    s.inputs = .step 0 :: [] ∧ 0 < s.nCores ∧ u = State.focus { s with inputs := [] } 0 ∧ u.self.life = .booted
      ∧ u.fetchAddr % 4 ≠ 0 :=
  ⟨asked (.step 0) (having [(.ip, 2)]), _, rfl, by decide, rfl, rfl, by decide⟩

theorem witness_FetchFaultsKillAtTheInstruction_outside : ∃ s u : State,
    s.inputs = .step 0 :: [] ∧ 0 < s.nCores ∧ u = State.focus { s with inputs := [] } 0 ∧ u.self.life = .booted
      ∧ u.fetchAddr % 4 = 0 ∧ (∀ e ∈ u.self.icache, e.addr ≠ u.fetchAddr) ∧ u.fetchAddr = u.cfg.memSize
      ∧ u.cfg.backend = .reference ∧ u.cfg.backendOf.read u.mem u.allocated u.fetchAddr 4 = true :=
  ⟨asked (.step 0) (having [(.cs, 0x100)]), _, rfl, by decide, rfl, rfl, by decide, by decide, by decide, rfl,
    by decide⟩

theorem witness_FetchFaultsKillAtTheInstruction_invalid : ∃ s u : State,
    s.inputs = .step 0 :: [] ∧ 0 < s.nCores ∧ u = State.focus { s with inputs := [] } 0 ∧ u.self.life = .booted
      ∧ u.fetchAddr % 4 = 0 ∧ (∀ e ∈ u.self.icache, e.addr ≠ u.fetchAddr)
      ∧ u.cfg.backendOf.read u.mem u.allocated u.fetchAddr 4 = false
      ∧ ∀ insn, ¬ decodesTo u (u.mem.dword u.fetchAddr) insn :=
  ⟨edge.withFetchWord 32 0xFF000000, _, rfl, by decide, rfl, rfl, by decide, by decide, by decide, by
    rintro insn (⟨_, i, h, _⟩ | ⟨n, h, _⟩)
    · exact absurd h (by rw [show decode _ _ = .rejected .unassignedOpcode from by decide]; nofun)
    · cases h⟩

theorem witness_SchedulerChoosesABootedCore :
    two.inputs = [] ∧ two.runnable = [0, 1] ∧ one.runnable = [0] ∧ State.reset.runnable = [] := by decide

theorem witness_NotBootedHasNoStep :
    (asked (.step 0) State.reset).inputs = .step 0 :: [] ∧ State.reset.cores[0]? = some Core.reset
      ∧ Core.reset.life ≠ .booted := by decide

/-! ### Reset, boot and the lifecycle -/

theorem witness_ResetInvariant :
    Config.default.wf = true ∧ Config.default.backend = .reference ∧ 1 ≤ Config.default.nIsets ∧ Memory.wf [⟨0xFFFFFF, 0x45⟩] = true
      ∧ ∀ p ∈ ([⟨0xFFFFFF, 0x45⟩] : Memory), p.1 < Config.default.memSize := by decide

/-- A step of `STD` on the two cores: it also meets the hypotheses of the statements about every transition. -/
theorem witness_StepKeepsInvariant : ∃ s t : State,
    s.Inv ∧ s.cfg.handlersKeep ∧ s.cfg.tableHaltsOffMemory ∧ s.inputs = .step 0 :: [] ∧ step s = .next t :=
  ⟨two.withFetchWord 32 0x09010000, _, inv_of (by decide) (by decide) (by decide),
    fun index n h => absurd h (no_free none_given index n), fun h => absurd rfl h, rfl, rfl⟩

/-- A step of `INT 5` into a handler given as data. -/
theorem witness_StepKeepsInvariant_virtual : ∃ s t : State,
    s.Inv ∧ s.cfg.handlersKeep ∧ s.cfg.tableHaltsOffMemory ∧ handlersFollowEdges s.cfg ∧ s.inputs = .step 0 :: []
      ∧ step s = .next t :=
  ⟨virtual.withFetchWord 32 0x40000005, _, inv_of (by decide) (by decide) (by decide),
    fun index n h => absurd h (no_free virtual_given index n), fun h => absurd rfl h,
    fun index n h => absurd h (no_free virtual_given index n), rfl, rfl⟩

theorem witness_LifecycleMovesAlongItsEdges :
    handlersFollowEdges two.cfg ∧ ∃ t, step (asked (.cpuHalt) two) = .next t :=
  ⟨fun index n h => absurd h (no_free none_given index n), _, rfl⟩

theorem witness_ParametersNeverChange : ∃ t, step (asked (.suspend 1) two) = .next t := ⟨_, rfl⟩

theorem witness_BootEntryState :
    (asked (.boot 0 ⟨1, 1, 0x100, 0x20000, true⟩) State.reset).Inv ∧ State.reset.cores[0]? = some Core.reset
      ∧ Core.reset.life = .reset ∧ one.cores[0]? = some one.self ∧ one.self.life ≠ .reset :=
  ⟨inv_of (by decide) (by decide) (by decide), by decide⟩

theorem witness_SuspendAndWakeUp :
    (asked (.suspend 1) two).inputs = .suspend 1 :: [] ∧ two.cores[1]? = some (two.focus 1).self
      ∧ (two.focus 1).self.life = .booted ∧ (two.setLife .suspended).cores[0]? = some (two.setLife .suspended).self := by
  decide

theorem witness_CpuOperations :
    (asked .cpuSuspend two).Inv ∧ (asked (.cpuBoot [⟨1, 2, 0, 0, true⟩, ⟨1, 2, 0, 0, true⟩]) two).Inv
      ∧ two.nCores = 2 :=
  ⟨inv_of (by decide) (by decide) (by decide), inv_of (by decide) (by decide) (by decide), by decide⟩

theorem witness_VmExitStatus_zero :
    ∀ c ∈ [Core.reset, { Core.reset with life := .halted 0 }], ∀ code, c.life = .halted code → code = 0 := by
  intro c hc code h
  simp only [List.mem_cons, List.not_mem_nil, or_false] at hc
  rcases hc with rfl | rfl
  · cases h
  · injection h with h; exact h.symm

theorem witness_VmExitStatus_first :
    ((two.setLife (.halted 7)).focus 1).cores = [] ++ (two.setLife (.halted 7)).self :: [(two.focus 1).self]
      ∧ (two.setLife (.halted 7)).self.life = .halted 7 := by decide

theorem witness_AccessorsReadTheState :
    Core.wf { Config.default with checkFrames := false } one.self
      ∧ ({ Config.default with checkFrames := false } : Config).checkFrames = false := by decide

/-- R283, R319: a core that died of a division by 0. -/
theorem test_snapshot_of_a_dead_core :
    (match exec (.div .r0 .r1) (having [(.sp, 0x1000), (.r3, 9)]) with
      | .next t => t.self.snapshot.lastException == some (.divideByZero, 4) && t.self.snapshot.exitCode == some 1
        && t.self.snapshot.registers == [0, 0, 0, 9, 0, 0, 0, 0, 0x1000, 0x1000, 2, 1, 0, 3, 0]
      | .fault _ | .refused _ => false) = true := by decide

/-! ### Instructions -/

/-- Unprivileged, a register that is not protected; privileged, any. This is all that `NopAndRegisterMoves` and
`AddSubMulResults`, `LogicResults` and `ShiftResults` (through `computes`) ask for. -/
theorem witness_mayWrite : (mayWrite user .sp ∧ user.flags.privileged = false) ∧ mayWrite one .cnt := by decide

/-- The last byte, word and dword of the backend. -/
theorem witness_LoadsReadCurrentMemory :
    Running edge ∧ serves edge.cfg .byte (edge.dataAddr .r1 3) ∧ serves edge.cfg .word (edge.dataAddr .r1 2)
      ∧ serves edge.cfg .dword (edge.dataAddr .r1 0) ∧ edge.dataAddr .r1 3 + 1 = edge.cfg.memSize
      ∧ mayWrite edge .flags := ⟨running_edge, by decide⟩

theorem witness_StoresWriteTheirBytes :
    Running user ∧ serves user.cfg .byte (user.dataAddr .r1 0xFFFF) ∧ serves user.cfg .word (user.dataAddr .r1 0xFFFE)
      ∧ serves user.cfg .dword (user.dataAddr .r1 0) := ⟨running_user, by decide⟩

/-- Down to the wrap of `SP` below 0 in segment 2 as well. -/
theorem witness_PushAndPop :
    Running one ∧ serves one.cfg .dword one.pushAddr ∧ mayWrite one .flags ∧ serves one.cfg .dword one.popAddr
      ∧ serves (having [(.sp, 0)]).cfg .dword (having [(.sp, 0)]).pushAddr := ⟨running_one, by decide⟩

theorem witness_DivModResults : (having [(.r1, 0xFFFFFFFF)]).reg .r1 ≠ 0 ∧ (1 : Half) ≠ 0 := by decide

theorem witness_DivideByZeroKills : mayWrite user .r0 ∧ user.reg .r1 = 0 := by decide

theorem witness_JumpsAndBranches :
    (Instr.bns 0x8000, !one.flags.sign) ∈ [(Instr.be 0x8000, one.flags.equal), (Instr.bns 0x8000, !one.flags.sign)] := by
  decide

/-- Also the hypotheses of `ReturnUndoesCall`; the second clause is the lowest stack that holds a frame. -/
theorem witness_CallsMakeAFrame :
    Running user ∧ slotsServed user.cfg (user.reg .ds) (user.reg .sp) 2 ∧ slotsServed one.cfg 0 8 2
      ∧ (Instr.callr 0x8000, user.reg .ip + (0x8000 : Half).signExtend 32) ∈
        [(Instr.call .r1, user.reg .r1), (Instr.callr 0x8000, user.reg .ip + (0x8000 : Half).signExtend 32)]
      ∧ Instr.call .r1 ∈ [Instr.call .r1, Instr.callr 0x8000] := ⟨running_user, by decide⟩

theorem witness_RetRestoresTheFrame :
    Running handler ∧ handler.framePasses ∧ popSlotsServed handler.cfg (handler.reg .ds) (handler.reg .sp) 2
      ∧ handler.cfg.checkFrames = true := ⟨running_handler, by decide⟩

theorem witness_InvalidFrameKills :
    one.cfg.checkFrames = true ∧ (∀ f ∈ one.self.frames.getLast?, f.fp ≠ one.reg .sp)
      ∧ ∀ f ∈ (handler.setReg .sp 0x1C4).self.frames.getLast?, f.fp ≠ (handler.setReg .sp 0x1C4).reg .sp := by decide

/-! ### Interrupts -/

/-- Also the hypotheses of `ReturnUndoesInterrupt`, from unprivileged code. -/
theorem witness_IntEntersTheInterrupt :
    Running (vectored 0x200 user) ∧ noHandler user 2
      ∧ vectorAddr user.cfg.intTable 2 + 16 ≤ user.cfg.memSize
      ∧ (vectored 0x200 user).vectorIn user.cfg.intTable 2 = ⟨3, 4, 0x40, 0x200⟩ ∧ slotsServed user.cfg 4 0x200 14 :=
  ⟨running_vectored, by decide⟩

theorem witness_RetintRestoresTheContext : Running handler ∧ handler.flags.privileged = true ∧ handler.framePasses
    ∧ popSlotsServed handler.cfg (handler.reg .ds) (handler.reg .sp) 14
    ∧ ∃ m : Nat → Word, ∀ k, m k = handler.dwordNow (popSlot (handler.reg .ds) (handler.reg .sp) k) :=
  ⟨running_handler, by decide, by decide, by decide, _, fun _ => rfl⟩

theorem witness_VirtualInterruptRunsTheHandler :
    virtual.cfg.virt = [] ++ (5, .given [.setReg .r0 (.const 0x1234)]) :: [] ∧ Reg.r0 ≠ .cnt := by decide

/-- An address that is served and one that is not aligned, of a dword; a stack that is served and one that is not
aligned; and what an earlier read answered. -/
theorem witness_VirtualInterruptRunsTheHandler_actions :
    Running two ∧ serves two.cfg .dword (evalExpr two [] (.const 0x20100)).toNat
      ∧ (evalExpr two [] (.const 0x20102)).toNat % accessBytes .dword ≠ 0
      ∧ serves (two.setReg .sp 0x200).cfg .dword (two.setReg .sp 0x200).pushAddr
      ∧ serves (two.setReg .sp 0x200).cfg .dword (two.setReg .sp 0x200).popAddr
      ∧ (two.setReg .sp 0x202).reg .sp % 4 ≠ 0 ∧ [(7 : Word)][0]? = some 7 := ⟨running_two, by decide⟩

/-- R295: a handler that reads a dword and pushes what it read. -/
theorem test_given_handler_reads_and_pushes :
    (match runHandler (.given [.memRead .dword (.const 0x20100), .push (.add (.got 0) (.const 1))])
        (two.setReg .sp 0x200) with
      | .ok _ t => t.reg .sp == 0x1FC && t.dwordNow t.popAddr == two.dwordNow 0x20100 + 1
      | .raise _ _ => false) = true := by decide

/-- What the statement asks for before its clauses: the host asks for the interrupt 2 of the core 0. -/
abbrev irqAsked (s u : State) : Prop :=
  s.Inv ∧ s.inputs = .irq 0 2 :: [] ∧ 0 < s.nCores ∧ u = State.focus { s with inputs := [] } 0
    ∧ u.flags.hwintEnabled = true

/-- A suspended core: the vector at `IRQ_TABLE`. -/
theorem witness_IrqEntersTheInterrupt : ∃ s u : State, irqAsked s u ∧ u.self.life = .suspended
      ∧ vectorAddr u.cfg.irqTable 2 + 16 ≤ u.cfg.memSize ∧ u.vectorIn u.cfg.irqTable 2 = ⟨3, 4, 0x40, 0x200⟩
      ∧ slotsServed u.cfg 4 0x200 14 :=
  ⟨asked (.irq 0 2) ((vectored 0x200 user).setLife .suspended), _,
    ⟨inv_of (by decide) (by decide) (by decide), rfl, by decide, rfl, rfl⟩, rfl, by decide, by decide, by decide⟩

theorem witness_IrqEntersTheInterrupt_misaligned : ∃ s u : State, irqAsked s u ∧ u.self.life = .booted
      ∧ vectorAddr u.cfg.irqTable 2 + 16 ≤ u.cfg.memSize ∧ (u.vectorIn u.cfg.irqTable 2).sp % 4 ≠ 0 :=
  ⟨asked (.irq 0 2) (vectored 0x201 user), _,
    ⟨inv_of (by decide) (by decide) (by decide), rfl, by decide, rfl, rfl⟩, rfl, by decide, by decide⟩

/-- The memory ends inside the first slot of the vector's stack. -/
theorem witness_IrqEntersTheInterrupt_noStack : ∃ s u : State, irqAsked s u ∧ u.self.life = .booted
      ∧ vectorAddr u.cfg.irqTable 2 + 16 ≤ u.cfg.memSize
      ∧ firstPast u.cfg (u.vectorIn u.cfg.irqTable 2).ds (u.vectorIn u.cfg.irqTable 2).sp 0
      ∧ u.cfg.memSize = slot (u.vectorIn u.cfg.irqTable 2).ds (u.vectorIn u.cfg.irqTable 2).sp 0 + 2 :=
  ⟨asked (.irq 0 2) (sized 0x401FE (vectored 0x200 user)), _,
    ⟨inv_of (by decide) (by decide) (by decide), rfl, by decide, rfl, rfl⟩, rfl, by decide, by decide, by decide⟩

/-- The last slot of the vector's stack is the one outside. -/
theorem witness_IrqEntersTheInterrupt_lastSlot : ∃ s u : State, irqAsked s u ∧ u.self.life = .booted
      ∧ vectorAddr u.cfg.irqTable 2 + 16 ≤ u.cfg.memSize ∧ 13 < u.context.length
      ∧ firstPast u.cfg (u.vectorIn u.cfg.irqTable 2).ds (u.vectorIn u.cfg.irqTable 2).sp 13 :=
  ⟨asked (.irq 0 2) (shallow user), _,
    ⟨inv_of (by decide) (by decide) (by decide), rfl, by decide, rfl, rfl⟩, rfl, by decide, by decide, by decide⟩

/-- The memory ends inside the first and inside the last dword of the vector; in both the entry raises a fault. -/
theorem witness_IrqEntersTheInterrupt_noVector :
    (∃ s u : State, irqAsked s u ∧ u.self.life = .booted ∧ vectorAddr u.cfg.irqTable 2 + 4 * 0 = u.cfg.memSize)
      ∧ ∃ s u w : State, irqAsked s u ∧ u.self.life = .booted ∧ w = u.setLife .booted
        ∧ vectorAddr u.cfg.irqTable 2 + 4 * 3 + 3 = u.cfg.memSize
        ∧ ∃ f t, w.enterInterrupt u.cfg.irqTable 2 = .raise f t :=
  ⟨⟨asked (.irq 0 2) (sized 0x20 user), _, ⟨inv_of (by decide) (by decide) (by decide), rfl, by decide, rfl, rfl⟩,
      rfl, by decide⟩,
    asked (.irq 0 2) (sized 0x2F user), _, _, ⟨inv_of (by decide) (by decide) (by decide), rfl, by decide, rfl, rfl⟩,
      rfl, rfl, by decide, _, _, rfl⟩

theorem witness_IrqIsDropped :
    State.reset.cores[0]? = some Core.reset ∧ Core.reset.life = .reset
      ∧ (one.setHwint false).cores[0]? = some (one.setHwint false).self
      ∧ (one.setHwint false).self.regs.flags.hwintEnabled = false
      ∧ (one.setLife (.halted 3)).self.life.isHalted = true := by decide

/-! ### System instructions, faults and protection -/

theorem witness_FlagInstructions :
    one.flags.privileged = true ∧ (Instr.lpm, { one.flags with privileged := false }) ∈
      [(Instr.sti, { one.flags with hwintEnabled := true }), (Instr.lpm, { one.flags with privileged := false })] := by
  decide

theorem witness_HltHalts : Running one ∧ one.flags.privileged = true := ⟨running_one, by decide⟩

theorem witness_SisSwitchesTheSet :
    (0 : Half).toNat < one.cfg.nIsets ∧ one.cfg.nIsets ≤ (1 : Half).toNat ∧ one.cfg.table = .dk0 := by decide

theorem witness_PrivilegedInstructionCheck :
    user.flags.privileged = false ∧ privilegedInstruction (.hlt .r1) := ⟨by decide, .inr (.inr (.inr (.inr ⟨_, rfl⟩)))⟩

theorem witness_ProtectedDestinationKills :
    destination (.div .fp .r1) = some .fp ∧ Reg.fp ∈ protectedRegs ∧ user.flags.privileged = false := by decide

theorem witness_MisalignedAccessKills :
    one.dataAddr .r1 1 % 2 ≠ 0 ∧ one.dataAddr .r1 2 % 4 ≠ 0 ∧ (having [(.sp, 2)]).reg .sp % 4 ≠ 0
      ∧ (handler.setReg .sp 0x1C9).reg .sp % 4 ≠ 0
      ∧ (State.framePasses ((handler.setReg .sp 0x1C9).setFrames [⟨1, 4, 0x1C9, 4⟩]))
      ∧ noHandler one 2 ∧ one.cfg.backend = .reference ∧ ((vectored 0x202 one).vectorIn 0x100 2).sp % 4 ≠ 0 := by decide

/-- A machine whose last byte is the last but one of a granule, and one that ends in the middle of a dword: the first
address past it is where `r1` points, and the stack and the vector of index 2 lie there too. -/
theorem witness_OutOfRangeAccessKills :
    Running (sized 0x20101 (having [(.r1, 0x100)])) ∧ mayWrite one .r0
      ∧ (sized 0x20101 (having [(.r1, 0x100)])).dataAddr .r1 0 + 1 = 0x20101
      ∧ 0x20101 < granule ((sized 0x20101 (having [(.r1, 0x100)])).dataAddr .r1 0) + 2
      ∧ Running (sized 0x20102 (having [(.r1, 0x100)])) ∧ (having [(.r1, 0x100)]).dataAddr .r1 0 % 4 = 0
      ∧ (having [(.r1, 0x100)]).dataAddr .r1 0 + 2 = 0x20102
      ∧ firstFault { Config.default with memSize := 0x20102 } 0x20100 = 0x20102 :=
  ⟨⟨inv_of (by decide) (by decide) (by decide), rfl⟩, by decide, by decide, by decide,
    ⟨inv_of (by decide) (by decide) (by decide), rfl⟩, by decide, by decide, by decide⟩

/-- A push whose slot's second granule alone is outside; a call whose second slot alone is, wrapped to the top of the
address space, all of it and its second granule alone. -/
theorem witness_OutOfRangeAccessKills_push :
    (Running (sized 0x20FFE one) ∧ firstPast (sized 0x20FFE one).cfg 2 0x1000 0 ∧ slot 2 0x1000 0 + 2 = 0x20FFE)
      ∧ (Running (having [(.ds, 0), (.sp, 4)]) ∧ firstPast one.cfg 0 4 1)
      ∧ (Running (sized 0xFFFFFFFE (having [(.ds, 0), (.sp, 4)])) ∧ firstPast (sized 0xFFFFFFFE one).cfg 0 4 1
        ∧ slot 0 4 1 + 2 = 0xFFFFFFFE)
      ∧ (Instr.callr 0, [one.reg .ip, one.reg .fp]) ∈ [(Instr.push .r0, [one.reg .r0]),
        (Instr.call .r0, [one.reg .ip, one.reg .fp]), (Instr.callr 0, [one.reg .ip, one.reg .fp])] :=
  ⟨⟨⟨inv_of (by decide) (by decide) (by decide), rfl⟩, by decide⟩,
    ⟨⟨inv_of (by decide) (by decide) (by decide), rfl⟩, by decide⟩,
    ⟨⟨inv_of (by decide) (by decide) (by decide), rfl⟩, by decide⟩, by decide⟩

/-- A memory that ends inside the first, right before the second and inside the last of the fourteen slots that a
return or an interrupt exit pops. -/
theorem witness_OutOfRangeAccessKills_pop :
    (Running (sized 0x401CA handler) ∧ firstPopPast (sized 0x401CA handler).cfg 4 0x1C8 0)
      ∧ (Running (sized 0x401CC handler) ∧ firstPopPast (sized 0x401CC handler).cfg 4 0x1C8 1)
      ∧ (Running (sized 0x401FE handler) ∧ firstPopPast (sized 0x401FE handler).cfg 4 0x1C8 13)
      ∧ handler.reg .ds = 4 ∧ handler.reg .sp = 0x1C8 ∧ handler.framePasses ∧ handler.flags.privileged = true :=
  ⟨⟨⟨inv_of (by decide) (by decide) (by decide), rfl⟩, by decide⟩,
    ⟨⟨inv_of (by decide) (by decide) (by decide), rfl⟩, by decide⟩,
    ⟨⟨inv_of (by decide) (by decide) (by decide), rfl⟩, by decide⟩, by decide⟩

/-- `CALL` with `SP` = 4 in segment 0: the return address lands at 0, the push of `FP` is outside. -/
theorem test_call_second_push_faults :
    (match exec (.call .r1) (having [(.ds, 0), (.sp, 4), (.ip, 0x44)]) with
      | .next t => t.self.lastException == some (.backendFault 0xFFFFFFFC) && t.reg .sp == 0 && t.mem.dword 0 == 0x44
        && t.reg .ip == 0x44
      | .fault _ | .refused _ => false) = true := by decide

/-- `RET` whose second slot is past the memory has popped `FP`. -/
theorem test_ret_second_pop_faults :
    (match exec .ret ((sized 0x401CC handler).setMem (Memory.setDword [] 0x401C8 7)) with
      | .next t => t.self.lastException == some (.backendFault 0x401CC) && t.reg .sp == 0x1CC && t.reg .fp == 7
        && t.self.frames.length == 1
      | .fault _ | .refused _ => false) = true := by decide

theorem witness_OutOfRangeAccessKills_vector :
    (Running (sized 0x110 user) ∧ noHandler user 2 ∧ 0x110 + 0x10 = vectorAddr user.cfg.intTable 2 + 4 * 0)
      ∧ (Running (sized 0x12F user) ∧ 0x12F = vectorAddr user.cfg.intTable 2 + 4 * 3 + 3)
      ∧ (Running (sized 0x401FE (vectored 0x200 user))
        ∧ firstPast (sized 0x401FE user).cfg ((vectored 0x200 user).vectorIn 0x100 2).ds
          ((vectored 0x200 user).vectorIn 0x100 2).sp 0)
      ∧ Running (shallow user) ∧ 13 < (shallow user).context.length
      ∧ firstPast user.cfg ((shallow user).vectorIn 0x100 2).ds ((shallow user).vectorIn 0x100 2).sp 13 :=
  ⟨⟨⟨inv_of (by decide) (by decide) (by decide), rfl⟩, by decide⟩,
    ⟨⟨inv_of (by decide) (by decide) (by decide), rfl⟩, by decide⟩,
    ⟨⟨inv_of (by decide) (by decide) (by decide), rfl⟩, by decide⟩,
    ⟨inv_of (by decide) (by decide) (by decide), rfl⟩, by decide⟩

theorem witness_DieRecordsAndFlushes :
    two.Inv ∧ (two.self.life.isHalted = false ∧ two.self.registered = true ∧ two.self.dcache = [⟨0x20100, true, 0xBEEF⟩])
      ∧ (one.halt 3).Inv ∧ (one.halt 3).self.life.isHalted = true
      ∧ (asked (.die 1 .divideByZero) two).Inv ∧ two.cores[1]? = some (two.focus 1).self :=
  ⟨running_two.1, by decide, inv_of (by decide) (by decide) (by decide), by decide,
    inv_of (by decide) (by decide) (by decide), by decide⟩

theorem witness_HaltAbsorbsAFlushFault :
    broken.self.life.isHalted = false
      ∧ broken.self.dcache = [⟨0x20100, true, 1⟩] ++ ⟨0x01000000, true, 2⟩ :: [⟨0x20102, true, 3⟩]
      ∧ writeBacks broken.cfg [⟨0x20100, true, 1⟩] (broken.mem, broken.allocated) = some ([⟨0x20100, 1⟩], [])
      ∧ (Memory.bwrite16 broken.cfg [] [⟨0x20100, 1⟩] 0x01000000 2).1 = none
      ∧ writeBacks two.cfg two.self.dcache (two.mem, two.allocated)
        = some ([⟨0x20100, 0xEF⟩, ⟨0x20101, 0xBE⟩], []) := by
  decide

theorem witness_HaltAbsorbsAFlushFault_host :
    (asked (.halt 0 7) two).Inv ∧ two.cores[0]? = some two.self ∧ two.self.life.isHalted = false
      ∧ (two.setLife (.halted 7)).cores[0]? = some (two.setLife (.halted 7)).self
      ∧ (two.setLife (.halted 7)).self.life.isHalted = true :=
  ⟨inv_of (by decide) (by decide) (by decide), by decide⟩

theorem witness_UnprivilegedCodeIsConfined :
    user.flags.privileged = false ∧ (∀ imm, Instr.sis 1 ≠ .int imm) ∧ ∃ t, exec (.sis 1) user = .next t :=
  ⟨by decide, nofun, _, rfl⟩

theorem witness_CounterCountsRetiredInstructions :
    destination (.div .r0 .r1) ≠ some .cnt ∧ (∀ imm, Instr.div .r0 .r1 = .int imm → noHandler one imm)
      ∧ one.self.life.isHalted = false ∧ ∃ t, exec (.div .r0 .r1) one = .next t := ⟨by decide, nofun, by decide, _, rfl⟩

theorem witness_OtherCoresOnlyLoseCopies : ∃ t,
    (two.withFetchWord 32 0x08010002).inputs = .step 0 :: [] ∧ step (two.withFetchWord 32 0x08010002) = .next t
      ∧ two.cores[1]? = some (two.focus 1).self := ⟨_, rfl, rfl, by decide⟩

theorem witness_OnlySisClearsTheInstructionCache :
    (∀ imm, Instr.stw .r0 .r1 0 ≠ .sis imm) ∧ ∃ t, exec (.stw .r0 .r1 0) one = .next t := ⟨nofun, _, rfl⟩

/-! ### The data cache and coherency -/

/-- A hit on granule 0x20100, a miss on 0x20104, and a dword of which the cache holds both granules. -/
theorem witness_StoreLeavesTheWriterAlone :
    Running two ∧ serves two.cfg .word (two.dataAddr .r1 0) ∧ serves two.cfg .word (two.dataAddr .r1 4)
      ∧ (∃ e ∈ two.self.dcache, e.addr = two.dataAddr .r1 0) ∧ (∀ e ∈ two.self.dcache, e.addr ≠ two.dataAddr .r1 4)
      ∧ Running (one.setDcache [⟨0x20100, true, 1⟩, ⟨0x20102, true, 2⟩]) ∧ serves one.cfg .dword 0x20100
      ∧ ∀ b, b % 2 = 0 → granule 0x20100 ≤ b → b < 0x20100 + accessBytes .dword →
        ∃ e ∈ (one.setDcache [⟨0x20100, true, 1⟩, ⟨0x20102, true, 2⟩]).self.dcache, e.addr = b := by
  refine ⟨running_two, by decide, by decide, by decide, by decide,
    ⟨inv_of (by decide) (by decide) (by decide), rfl⟩, by decide, fun b even lo hi => ?_⟩
  have lo : 0x20100 ≤ b := lo
  have hi : b < 0x20104 := hi
  obtain rfl | rfl : b = 0x20100 ∨ b = 0x20102 := by omega
  · exact ⟨_, List.mem_cons_self, rfl⟩
  · exact ⟨_, List.mem_cons_of_mem _ List.mem_cons_self, rfl⟩

/-- A hit on granule 0x20100, and a miss on 0x20104. -/
theorem witness_LoadsKeepRecencyOrder :
    Running two ∧ mayWrite two .r0 ∧ serves two.cfg .word (two.dataAddr .r1 0) ∧ serves two.cfg .word (two.dataAddr .r1 4)
      ∧ ⟨two.dataAddr .r1 0, true, 0xBEEF⟩ ∈ two.self.dcache
      ∧ (∀ e ∈ two.self.dcache, e.addr ≠ two.dataAddr .r1 4) := ⟨running_two, by decide⟩

/-- The second core misses a granule that the first holds dirty. -/
theorem witness_LoadsKeepRecencyOrder_snoop :
    (two.focus 1).Inv ∧ (two.focus 1).self.life = .booted ∧ mayWrite (two.focus 1) .r2
      ∧ serves two.cfg .word ((two.focus 1).dataAddr .r0 0x100)
      ∧ (∀ e ∈ (two.focus 1).self.dcache, e.addr ≠ (two.focus 1).dataAddr .r0 0x100)
      ∧ ∃ c ∈ (two.focus 1).before, c.registered = true
        ∧ ∃ e ∈ c.dcache, e.addr = (two.focus 1).dataAddr .r0 0x100 ∧ e.dirty = true :=
  ⟨inv_of (by decide) (by decide) (by decide), by decide⟩

theorem witness_StoreIsSeenByOtherCores :
    Running two ∧ serves two.cfg .dword (two.dataAddr .r1 0) ∧ 1 < two.nCores ∧ 1 ≠ two.selfId ∧ (two.focus 1).self.life = .booted
      ∧ mayWrite (two.focus 1) .r2 ∧ (two.focus 1).dataAddr .r0 0x100 = two.dataAddr .r1 0 :=
  ⟨running_two, by decide⟩

theorem witness_BytesOfAStoredDword :
    Running two ∧ serves two.cfg .dword (two.dataAddr .r1 0) ∧ 3 < 4 ∧ Reg.r0 ≠ .cnt ∧ mayWrite two .cnt
      ∧ two.dataAddr .r0 0x103 = two.dataAddr .r1 0 + 3 := ⟨running_two, by decide⟩

theorem witness_MemoryStructureChange :
    (asked (.memoryStructureChange 0x20100 2 false) two).Inv
      ∧ (0x20100 ≤ 0x20100 ∧ 0x20100 < 0x20100 + 2) ∧ ¬ (0x20100 ≤ 0x20102 ∧ 0x20102 < 0x20100 + 2) :=
  ⟨inv_of (by decide) (by decide) (by decide), by decide, by decide⟩

/-- R62, R63: the page marks after the host marked pages 5 and 3, one twice. -/
theorem test_page_call :
    (match step (asked (.pageCall [5, 3, 5] none) two) with
      | .next t => t.allocated == [3, 5] && t.cores == two.cores
      | .fault _ | .refused _ => false) = true := by decide

/-- A write-back outside the backend, of a core in the registry (`broken`). -/
theorem witness_MemoryStructureChange_raises : ∃ f u,
    State.onMemoryStructureChange 0x01000000 2 true (asked (.memoryStructureChange 0x01000000 2 true) broken)
      = .raise f u := ⟨_, _, rfl⟩

/-- R12, R281: the change kills the one core, and a core that is Halted already does not die again. -/
theorem test_structure_change_that_faults_kills_a_core :
    (match step (asked (.memoryStructureChange 0x01000000 2 true) broken),
        step (asked (.memoryStructureChange 0x01000000 2 true) (broken.setLife (.halted 7))) with
      | .next t, .next u => t.self.life == .halted 1 && t.self.lastException == some (.backendFault 0x01000000)
        && u.self.life == .halted 7 && u.self.lastException == none
      | _, _ => false) = true := by decide

/-- Two cores, the first Halted, on a backend other than RefBackend. -/
def elsewhere : State :=
  { two with cfg := { two.cfg with backend := .other 0 }, self := { two.self with life := .halted 7 } }

theorem witness_MemoryStructureChange_pageCall :
    (asked (.pageCall [9] (some 4)) elsewhere).inputs = .pageCall [9] (some 4) :: []
      ∧ elsewhere.cfg.backend = .other 0 ∧ (∃ c ∈ elsewhere.cores, c.life.isHalted = false)
      ∧ two.cfg.backend = .reference := by decide

/-- R62, R281: the page call's fault kills the core that is not Halted. -/
theorem test_page_call_that_faults_kills_a_core :
    (match step (asked (.pageCall [9] (some 4)) elsewhere) with
      | .next t => t.selfId == 1 && t.self.life == .halted 1 && t.self.lastException == some (.backendFault 4)
        && t.allocated == [9]
      | .fault _ | .refused _ => false) = true := by decide

/-- R155, R158: an `execute` that goes on after `halt`; the fault it then raises is not recorded (R281). -/
theorem test_table_program_goes_on_after_halt :
    (match Res.finish (TableProg.run (.halt 7 (.internalWrite .sp 5 (.raise .divideByZero))) one) with
      | .next t => t.self.life == .halted 7 && t.reg .sp == 5 && t.self.lastException == none
      | .fault _ | .refused _ => false) = true := by decide

theorem witness_HostReleaseFlushes_raises : ∃ f u,
    State.releaseOwn .all true true (State.focus (asked (.release 0 .all true true) broken) 0) = .raise f u
      ∧ 0 < broken.nCores := ⟨_, _, rfl, by decide⟩

/-- R12, R281: a host's `release` that faults keeps its first write-back, and the core dies. -/
theorem test_release_that_faults_kills_its_core :
    (match step (asked (.release 0 (.range 0x20100 0xFEFF00) true true) broken) with
      | .next t => t.self.life == .halted 1 && t.self.lastException == some (.backendFault 0x01000000)
        && t.mem.half 0x20100 == 1 && t.self.dcache.map (·.addr) == [0x01000000, 0x20102]
      | .fault _ | .refused _ => false) = true := by decide

theorem witness_HostReleaseFlushes :
    (asked (.release 0 .all true false) two).Inv ∧ two.cores[0]? = some two.self ∧ two.self.life = .booted :=
  ⟨inv_of (by decide) (by decide) (by decide), by decide, by decide⟩

/-! ### Reset -/

theorem reset_inv : State.reset.Inv := inv_of (by decide) (by decide) (by decide)

/-- A word placed at the fetch address of the machine right after reset runs in the next step: `LI r0, 5`. -/
theorem test_reset_runs_a_fetched_word :
    (match step (State.reset.withFetchWord 32 0x01000005) with
      | .next t => t.reg .r0 == 5 && t.reg .ip == 4 && t.reg .cnt == 1
      | .fault _ | .refused _ => false) = true := by decide

/-- From reset nothing is asked for and no core is Booted (log entries 2 and 7). -/
theorem test_reset_has_no_step : step State.reset = .fault .noEnabledStep := rfl

end Sys2Proof.Tests
end

section
/-! PROOFS. The privileged instructions and the check that keeps unprivileged code from them (R131, R154). -/

namespace Sys2Proof.Machine

open Sys2Proof.Spec

/-- The model's check `isPrivileged` holds of the five instructions that R131 lists, and of no other. -/
theorem isPrivileged_iff (i : Instr) : isPrivileged i = true ↔ privilegedInstruction i := by
  constructor
  · intro h
    cases i with
    | retint => exact .inl rfl
    | cli => exact .inr (.inl rfl)
    | sti => exact .inr (.inr (.inl rfl))
    | lpm => exact .inr (.inr (.inr (.inl rfl)))
    | hlt ra => exact .inr (.inr (.inr (.inr ⟨ra, rfl⟩)))
    | _ => exact absurd h Bool.false_ne_true
  · rintro (rfl | rfl | rfl | rfl | ⟨ra, rfl⟩) <;> rfl

/-- Settles O45: the check of R154 comes before the effect, and `die` leaves the register file alone (R281). -/
theorem privilegedInstructionCheck : Obligations.PrivilegedInstructionCheck := by
  intro i s
  refine ⟨isPrivileged_iff i, fun hi hs => ?_⟩
  have hp : isPrivileged i = true := (isPrivileged_iff i).mpr hi
  exact ⟨exec_of_unprivileged (exec_eq i s) hp hs, State.die_regs s _⟩

end Sys2Proof.Machine
end

section
/-! PROOFS. The jumps and the conditional branches (R240 to R243, R250 to R257). -/

namespace Sys2Proof.Machine

open Sys2Proof.Spec

/-! ## Internal writes of `IP` -/

/-- A branch amounts to one internal write of `IP`; not taken, of the value that stands there already (R242). -/
theorem State.branch_eq_jump (taken : Bool) (imm : Half) (s : State) :
    s.branch taken imm = s.jump (if taken then s.reg .ip + imm.signExtend 32 else s.reg .ip) := by
  cases taken <;> rfl

/-- An internal write of `IP` and the retirement after it touch `IP` and `CNT` and nothing else (R28, R240). -/
theorem jumped_retire_jump (s : State) (target : Word) : jumped s (s.jump target).retire target := by
  have other (q : Reg) (hq : q ∉ [Reg.ip, .cnt]) : (s.jump target).retire.reg q = s.reg q := by
    obtain ⟨hip, hcnt⟩ : q ≠ .ip ∧ q ≠ .cnt := by simpa using hq
    rw [State.retire_eq, State.reg_setReg_ne _ _ _ _ hcnt, State.jump_eq, State.reg_setReg_ne _ _ _ _ hip]
  have bytes : s.sameBytes (s.jump target).retire := fun a => by simp
  exact ⟨rfl, bytes, other, rfl, rfl⟩

/-! ## Instructions whose effect is such a write -/

/-- An unprivileged instruction whose effect is an internal write of `IP` runs in either mode. -/
theorem exec_of_jump {i : Instr} {s : State} {target : Word} (hp : isPrivileged i = false)
    (he : effectOf i s = .ok () (s.jump target)) : ∃ t, exec i s = .next t ∧ jumped s t target :=
  ⟨_, exec_of_ok (exec_eq i s) (.inl hp) he, jumped_retire_jump s target⟩

/-- The branch template (R242), for any condition. -/
theorem exec_of_branch {i : Instr} {s : State} {taken : Bool} {imm : Half} (hp : isPrivileged i = false)
    (he : effectOf i s = .ok () (s.branch taken imm)) :
    ∃ t, exec i s = .next t ∧ jumped s t (if taken then s.reg .ip + imm.signExtend 32 else s.reg .ip) :=
  exec_of_jump hp (he.trans (congrArg _ (State.branch_eq_jump taken imm s)))

/-- Settles O31: the two jumps are an internal write of `IP`, and each of the eight branches is the template of R242
with its own flag as the condition. -/
theorem jumpsAndBranches : Obligations.JumpsAndBranches := by
  intro s ra imm
  refine ⟨exec_of_jump rfl rfl, exec_of_jump rfl rfl, fun i taken hi => ?_⟩
  simp only [List.mem_cons, List.not_mem_nil, or_false, Prod.mk.injEq] at hi
  obtain ⟨rfl, rfl⟩ | ⟨rfl, rfl⟩ | ⟨rfl, rfl⟩ | ⟨rfl, rfl⟩ | ⟨rfl, rfl⟩ | ⟨rfl, rfl⟩ | ⟨rfl, rfl⟩ | ⟨rfl, rfl⟩ := hi
  all_goals exact exec_of_branch rfl rfl

end Sys2Proof.Machine
end

section
/-! PROOFS. The lifecycle operations the host asks of one core: `boot`, `suspend` and `wake_up` (R312 to R314). -/

namespace Sys2Proof.Machine

open Sys2Proof.Spec

/-! ## What each operation makes of the executing core -/

/-- `boot` acts on the executing core alone, and in Reset alone (R312). -/
theorem State.boot_eq_ite (args : BootArgs) (s : State) :
    s.boot args = { s with self := if s.self.life = .reset then booted args s.self else s.self } := by
  by_cases reset : s.self.life = .reset
  · rw [State.boot_eq reset, if_pos reset]
    rfl
  · rw [if_neg reset]
    unfold State.boot
    split
    · contradiction
    all_goals rfl

/-- `suspend` acts on the executing core alone, and in Booted alone (R313). -/
theorem State.suspend_eq_ite (s : State) :
    s.suspend = { s with
      self := if s.self.life = .booted then { s.self with life := .suspended } else s.self } := by
  unfold State.suspend
  cases life : s.self.life <;> rfl

/-- `wake_up` acts on the executing core alone, and in Suspended alone (R314). -/
theorem State.wakeUp_eq_ite (s : State) :
    s.wakeUp = { s with
      self := if s.self.life = .suspended then { s.self with life := .booted } else s.self } := by
  unfold State.wakeUp
  cases life : s.self.life <;> rfl

/-! ## Such an operation asked of a core -/

/-- A transition that does to core `k` an operation which replaces the executing core in the lifecycle state `l`, and
changes nothing else, replaces core `k` in that state, and changes nothing else. -/
theorem State.step_replaces_core {s : State} {k : Nat} {rest : List HostOp} {c : Core} {op : State → State}
    {l : Lifecycle} {g : Core → Core} (hs : step s = State.onCore k op { s with inputs := rest })
    (hc : s.cores[k]? = some c)
    (hop : ∀ u : State, op u = { u with self := if u.self.life = l then g u.self else u.self }) :
    ∃ t, step s = .next t ∧ t.mem = s.mem ∧ sameRest { s with inputs := rest } t
      ∧ t.cores = if c.life = l then s.cores.set k (g c) else s.cores := by
  obtain ⟨_, self_eq, cores_eq, id_eq⟩ := State.focus_at (rest := rest) hc
  obtain ⟨cfg_eq, mem_eq, pages_eq, inputs_eq, tick_eq⟩ := State.focus_rest { s with inputs := rest } k
  refine ⟨_, hs.trans (State.onCore_at hc op), ?_⟩
  rw [hop, State.cores_with_self, self_eq, cores_eq, id_eq]
  refine ⟨mem_eq, ⟨cfg_eq, pages_eq, inputs_eq, tick_eq⟩, ?_⟩
  split
  · rfl
  · obtain ⟨lt, rfl⟩ := List.getElem?_eq_some_iff.mp hc
    exact List.set_getElem_self lt

/-- Settles O13: each of the two is an operation on one core in one lifecycle state, and sets that state alone. -/
theorem suspendAndWakeUp : Obligations.SuspendAndWakeUp := by
  intro s k rest c hc
  refine ⟨fun hi => ?_, fun hi => ?_⟩
  · exact State.step_replaces_core (g := fun c => { c with life := .suspended }) (State.step_host hi nofun) hc
      State.suspend_eq_ite
  · exact State.step_replaces_core (g := fun c => { c with life := .booted }) (State.step_host hi nofun) hc
      State.wakeUp_eq_ite

/-- The registers at the first fetch of a core that was in Reset (R312): of `FLAGS`, `hwint_enabled` is set and
`privileged` as asked for (R26, R32). -/
theorem booted_reset_read (args : BootArgs) (r : Reg) :
    (booted args Core.reset).regs.read r = match r with
      | .cs => args.cs
      | .ds => args.ds
      | .sp => args.sp
      | .fp => args.sp
      | .ip => args.ip
      | .flags => if args.privileged then 3 else 2
      | _ => 0 := by
  have flags (p : Bool) : ({ Flags.reset with privileged := p } : Flags).toWord = if p then 3 else 2 := by
    cases p <;> decide
  cases r with
  | flags => exact flags args.privileged
  | _ => rfl

/-- Settles O12: `boot` is an operation on one core in Reset, and the invariant says that such a core holds its reset
values (R340). -/
theorem bootEntryState : Obligations.BootEntryState := by
  intro s k args rest c inv hi hc
  obtain ⟨t, ht, mem_eq, same, cores_eq⟩ :=
    State.step_replaces_core (State.step_host hi nofun) hc (State.boot_eq_ite args)
  refine ⟨t, ht, mem_eq, same, fun other => by rw [cores_eq, if_neg other], fun reset => ?_⟩
  obtain ⟨_, _, cores_wf, _⟩ := inv
  obtain ⟨_, _, _, _, _, reset_values, _⟩ := cores_wf c (List.mem_of_getElem? hc)
  rw [if_pos reset] at cores_eq
  obtain rfl := reset_values reset
  exact ⟨cores_eq, rfl, rfl, rfl, rfl, rfl, booted_reset_read args⟩

end Sys2Proof.Machine
end

section
/-! PROOFS. What reset leaves (R32, R40, R340). -/

namespace Sys2Proof.Machine

theorem State.cores_resetOf (cfg : Config) (siblings : Nat) (mem : Memory) :
    (State.resetOf cfg siblings mem).cores = List.replicate (siblings + 1) Core.reset := rfl

/-- The registers of a core in Reset (R32): of `FLAGS`, bit 1 is `hwint_enabled` (R26). -/
theorem Core.reset_regs_read (r : Reg) : Core.reset.regs.read r = if r = .flags then 2 else 0 := by
  cases r with
  | flags => decide
  | _ => rfl

/-- Registration is per core (R38): where no core has the flag, the registry is empty. -/
theorem State.registry_eq_nil {s : State} (h : ∀ c ∈ s.cores, c.registered = false) : s.registry = [] := by
  refine List.eq_nil_iff_forall_not_mem.mpr fun k hk => ?_
  obtain ⟨_, c, _, hc, registered⟩ := mem_numbersFrom.mp hk
  exact Bool.false_ne_true ((h c (List.mem_of_getElem? hc)).symm.trans registered)

/-- Settles O9: reset leaves `siblings + 1` copies of one core, whose fields are the reset values. -/
theorem resetValues : Obligations.ResetValues := by
  intro cfg siblings mem
  have every_core : ∀ c ∈ (State.resetOf cfg siblings mem).cores, c = Core.reset := fun c hc =>
    List.eq_of_mem_replicate (State.cores_resetOf cfg siblings mem ▸ hc)
  have count : (State.resetOf cfg siblings mem).nCores = siblings + 1 :=
    (congrArg List.length (State.cores_resetOf cfg siblings mem)).trans List.length_replicate
  refine ⟨count, rfl, State.registry_eq_nil fun c hc => ?_, fun c hc => ?_⟩
  · rw [every_core c hc]
    rfl
  · obtain rfl := every_core c hc
    exact ⟨rfl, Core.reset_regs_read, rfl, rfl, rfl, rfl, rfl⟩

end Sys2Proof.Machine
end

section
/-! PROOFS. The encoding: an instruction and its word determine each other, and the words that decode are those of the
opcode table (R120 to R132). -/

namespace Sys2Proof

open Sys2Proof.Spec

/-! ## Decoding what each operand form encodes -/

@[simp] theorem decodeN_encoded (op : BitVec 8) (k : Instr) : decodeN ⟨op, 0#4, 0#4, 0#16⟩ k = .ok k := rfl

@[simp] theorem decodeI_encoded (op : BitVec 8) (imm : Half) (k : Half → Instr) :
    decodeI ⟨op, 0#4, 0#4, imm⟩ k = .ok (k imm) := rfl

@[simp] theorem decodeA_encoded (op : BitVec 8) (ra : Reg) (k : Reg → Instr) :
    decodeA ⟨op, ra.index, 0#4, 0#16⟩ k = .ok (k ra) := by
  simp [decodeA, Fields.unusedZero, Form.usesRa]

@[simp] theorem decodeAI_encoded (op : BitVec 8) (ra : Reg) (imm : Half) (k : Reg → Half → Instr) :
    decodeAI ⟨op, ra.index, 0#4, imm⟩ k = .ok (k ra imm) := by
  simp [decodeAI, Fields.unusedZero, Form.usesRa, Form.usesImm]

@[simp] theorem decodeAB_encoded (op : BitVec 8) (ra rb : Reg) (k : Reg → Reg → Instr) :
    decodeAB ⟨op, ra.index, rb.index, 0#16⟩ k = .ok (k ra rb) := by
  simp [decodeAB, Fields.unusedZero, Form.usesRa, Form.usesRb]

@[simp] theorem decodeABI_encoded (op : BitVec 8) (ra rb : Reg) (imm : Half) (k : Reg → Reg → Half → Instr) :
    decodeABI ⟨op, ra.index, rb.index, imm⟩ k = .ok (k ra rb imm) := by
  simp [decodeABI]

/-- The opcode map reads an instruction's fields as the instruction: one row per constructor (R126). -/
theorem decodeFields_fields (i : Instr) : decodeFields i.fields = .ok i := by
  cases i <;> simp [Instr.fields, decodeFields]

theorem decodeWord_encode (i : Instr) : decodeWord (encode i) = .ok i := by
  rw [decodeWord, encode, Fields.ofWord_toWord, decodeFields_fields]

/-- Settles O1: a word is put together from its fields without loss, by whichever path the decoder gets it. -/
theorem encodeDecodeRoundTrip : Obligations.EncodeDecodeRoundTrip := by
  intro i _
  refine ⟨decodeWord_encode i, ?_, ?_⟩
  · rw [decodeBytes_bytesOfWord, decodeWord_encode]
  · rw [decodeTableWord_eq, decodeWord_encode]
    rfl

/-! ## What a field tuple that decodes holds

For each operand form: what it decodes is built from the tuple's own fields, the unused ones being zero. -/

theorem Fields.unusedZero_iff (form : Form) (f : Fields) : f.unusedZero form = true ↔
    (form.usesRa = false → f.ra = 0) ∧ (form.usesRb = false → f.rb = 0) ∧ (form.usesImm = false → f.imm = 0) := by
  cases form <;> simp [Fields.unusedZero, Form.usesRa, Form.usesRb, Form.usesImm, and_assoc]

theorem Fields.eq_mk {f : Fields} {ra rb : BitVec 4} {imm : Half} (ha : f.ra = ra) (hb : f.rb = rb)
    (hi : f.imm = imm) : f = ⟨f.op, ra, rb, imm⟩ := by
  subst ha hb hi
  rfl

theorem decodeN_eq_ok {f : Fields} {k i : Instr} (h : decodeN f k = .ok i) :
    i = k ∧ f = ⟨f.op, 0, 0, 0⟩ := by
  unfold decodeN at h
  split at h
  · next z =>
    obtain ⟨ra, rb, imm⟩ := (Fields.unusedZero_iff _ f).mp z
    cases h
    exact ⟨rfl, Fields.eq_mk (ra rfl) (rb rfl) (imm rfl)⟩
  · cases h

theorem decodeI_eq_ok {f : Fields} {k : Half → Instr} {i : Instr} (h : decodeI f k = .ok i) :
    i = k f.imm ∧ f = ⟨f.op, 0, 0, f.imm⟩ := by
  unfold decodeI at h
  split at h
  · next z =>
    obtain ⟨ra, rb, _⟩ := (Fields.unusedZero_iff _ f).mp z
    cases h
    exact ⟨rfl, Fields.eq_mk (ra rfl) (rb rfl) rfl⟩
  · cases h

theorem decodeA_eq_ok {f : Fields} {k : Reg → Instr} {i : Instr} (h : decodeA f k = .ok i) :
    ∃ ra, i = k ra ∧ f = ⟨f.op, ra.index, 0, 0⟩ := by
  unfold decodeA at h
  split at h
  · next z =>
    obtain ⟨_, rb, imm⟩ := (Fields.unusedZero_iff _ f).mp z
    split at h
    · next ra ha =>
      cases h
      exact ⟨ra, rfl, Fields.eq_mk (Reg.index_of_ofIndex ha).symm (rb rfl) (imm rfl)⟩
    · cases h
  · cases h

theorem decodeAI_eq_ok {f : Fields} {k : Reg → Half → Instr} {i : Instr} (h : decodeAI f k = .ok i) :
    ∃ ra, i = k ra f.imm ∧ f = ⟨f.op, ra.index, 0, f.imm⟩ := by
  unfold decodeAI at h
  split at h
  · next z =>
    obtain ⟨_, rb, _⟩ := (Fields.unusedZero_iff _ f).mp z
    split at h
    · next ra ha =>
      cases h
      exact ⟨ra, rfl, Fields.eq_mk (Reg.index_of_ofIndex ha).symm (rb rfl) rfl⟩
    · cases h
  · cases h

theorem decodeAB_eq_ok {f : Fields} {k : Reg → Reg → Instr} {i : Instr} (h : decodeAB f k = .ok i) :
    ∃ ra rb, i = k ra rb ∧ f = ⟨f.op, ra.index, rb.index, 0⟩ := by
  unfold decodeAB at h
  split at h
  · next z =>
    obtain ⟨_, _, imm⟩ := (Fields.unusedZero_iff _ f).mp z
    split at h
    · next ra rb ha hb =>
      cases h
      exact ⟨ra, rb, rfl,
        Fields.eq_mk (Reg.index_of_ofIndex ha).symm (Reg.index_of_ofIndex hb).symm (imm rfl)⟩
    · cases h
  · cases h

theorem decodeABI_eq_ok {f : Fields} {k : Reg → Reg → Half → Instr} {i : Instr} (h : decodeABI f k = .ok i) :
    ∃ ra rb, i = k ra rb f.imm ∧ f = ⟨f.op, ra.index, rb.index, f.imm⟩ := by
  unfold decodeABI at h
  split at h
  · next ra rb ha hb =>
    cases h
    exact ⟨ra, rb, rfl, Fields.eq_mk (Reg.index_of_ofIndex ha).symm (Reg.index_of_ofIndex hb).symm rfl⟩
  · cases h

/-- The opcode map inverts `Instr.fields`: its rows, by operand form (R123, R126). -/
theorem fields_of_decodeFields {f : Fields} {i : Instr} (h : decodeFields f = .ok i) : i.fields = f := by
  have op {n : Nat} (hn : f.op.toNat = n) : BitVec.ofNat 8 n = f.op := by rw [← hn]; exact BitVec.ofNat_toNat ..
  unfold decodeFields at h
  split at h
  case h_1 hn | h_48 hn | h_50 hn | h_51 hn | h_52 hn | h_53 hn =>
    obtain ⟨rfl, e⟩ := decodeN_eq_ok h
    rw [e, ← op hn]
    rfl
  case h_37 hn | h_38 hn | h_39 hn | h_40 hn | h_41 hn | h_42 hn | h_43 hn | h_44 hn | h_45 hn | h_47 hn | h_49 hn
      | h_55 hn =>
    obtain ⟨rfl, e⟩ := decodeI_eq_ok h
    rw [e, ← op hn]
    rfl
  case h_11 hn | h_12 hn | h_29 hn | h_36 hn | h_46 hn | h_54 hn =>
    obtain ⟨ra, rfl, e⟩ := decodeA_eq_ok h
    rw [e, ← op hn]
    rfl
  case h_2 hn | h_3 hn | h_14 hn | h_16 hn | h_18 hn | h_20 hn | h_22 hn | h_24 hn | h_26 hn | h_28 hn | h_31 hn
      | h_33 hn | h_35 hn =>
    obtain ⟨ra, rfl, e⟩ := decodeAI_eq_ok h
    rw [e, ← op hn]
    rfl
  case h_4 hn | h_13 hn | h_15 hn | h_17 hn | h_19 hn | h_21 hn | h_23 hn | h_25 hn | h_27 hn | h_30 hn | h_32 hn
      | h_34 hn =>
    obtain ⟨ra, rb, rfl, e⟩ := decodeAB_eq_ok h
    rw [e, ← op hn]
    rfl
  case h_5 hn | h_6 hn | h_7 hn | h_8 hn | h_9 hn | h_10 hn =>
    obtain ⟨ra, rb, rfl, e⟩ := decodeABI_eq_ok h
    rw [e, ← op hn]
    rfl
  case h_56 => cases h

theorem encode_of_decodeWord {w : Word} {i : Instr} (h : decodeWord w = .ok i) : encode i = w := by
  rw [encode, fields_of_decodeFields h, Fields.toWord_ofWord]

/-- Every instruction that can be written down passes the check of R124, by the operand form of its row. -/
theorem Instr.wellFormed_true (i : Instr) : i.wellFormed = true := by
  unfold Instr.wellFormed Fields.wellFormed
  cases i <;> simp [Instr.fields, formOf, Fields.unusedZero, Fields.registersNamed, Form.usesRa, Form.usesRb, Form.usesImm]

/-- Settles O2: the decoder has the encoder as its inverse, so it is injective where it decodes. -/
theorem decodedWordIsTheEncoding : Obligations.DecodedWordIsTheEncoding := by
  refine ⟨fun w i h => ⟨encode_of_decodeWord h, i.wellFormed_true⟩, fun w x i hw hx => ?_⟩
  rw [← encode_of_decodeWord hw, encode_of_decodeWord hx]

/-- Settles O4: twelve runs of the decoder. -/
theorem sampleWordsDecode : Obligations.SampleWordsDecode := by
  unfold Obligations.SampleWordsDecode
  decide

/-! ## The opcode table -/

/-- A legal tuple decodes: a used register field that is not 15 names a register (R20), and the form's unused fields
are zero. -/
theorem Fields.exists_regs {form : Form} {f : Fields} (h : f.registersNamed form = true) :
    (form.usesRa = true → ∃ ra, Reg.ofIndex f.ra = some ra) ∧ (form.usesRb = true → ∃ rb, Reg.ofIndex f.rb = some rb) := by
  have named {n : BitVec 4} (ne : n ≠ 15) : ∃ r, Reg.ofIndex n = some r :=
    Option.ne_none_iff_exists'.mp fun e => ne ((Reg.ofIndex_eq_none n).mp e)
  simp only [Fields.registersNamed, Bool.and_eq_true, Bool.not_eq_true', Bool.and_eq_false_imp, beq_eq_false_iff_ne] at h
  exact ⟨fun u => named (h.1 u), fun u => named (h.2 u)⟩

/-- A tuple that is legal for an operand form is decoded by it. -/
theorem decodeN_of_legal {f : Fields} (zero : f.unusedZero .n = true) (k : Instr) : ∃ i, decodeN f k = .ok i :=
  ⟨_, if_pos zero⟩

theorem decodeI_of_legal {f : Fields} (zero : f.unusedZero .i = true) (k : Half → Instr) : ∃ i, decodeI f k = .ok i :=
  ⟨_, if_pos zero⟩

theorem decodeA_of_legal {f : Fields} (zero : f.unusedZero .a = true) (named : f.registersNamed .a = true)
    (k : Reg → Instr) : ∃ i, decodeA f k = .ok i := by
  obtain ⟨ra, ha⟩ := (Fields.exists_regs named).1 rfl
  exact ⟨k ra, by rw [decodeA, if_pos zero, ha]⟩

theorem decodeAI_of_legal {f : Fields} (zero : f.unusedZero .ai = true) (named : f.registersNamed .ai = true)
    (k : Reg → Half → Instr) : ∃ i, decodeAI f k = .ok i := by
  obtain ⟨ra, ha⟩ := (Fields.exists_regs named).1 rfl
  exact ⟨k ra f.imm, by rw [decodeAI, if_pos zero, ha]⟩

theorem decodeAB_of_legal {f : Fields} (zero : f.unusedZero .ab = true) (named : f.registersNamed .ab = true)
    (k : Reg → Reg → Instr) : ∃ i, decodeAB f k = .ok i := by
  obtain ⟨ra, ha⟩ := (Fields.exists_regs named).1 rfl
  obtain ⟨rb, hb⟩ := (Fields.exists_regs named).2 rfl
  exact ⟨k ra rb, by rw [decodeAB, if_pos zero, ha, hb]⟩

theorem decodeABI_of_legal {f : Fields} (named : f.registersNamed .abi = true) (k : Reg → Reg → Half → Instr) :
    ∃ i, decodeABI f k = .ok i := by
  obtain ⟨ra, ha⟩ := (Fields.exists_regs named).1 rfl
  obtain ⟨rb, hb⟩ := (Fields.exists_regs named).2 rfl
  exact ⟨k ra rb f.imm, by rw [decodeABI, ha, hb]⟩

/-- The check of R124 accepts only tuples that decode: `formOf` gives every opcode the form of its row. -/
theorem exists_of_wellFormed {f : Fields} (h : f.wellFormed = true) : ∃ i, decodeFields f = .ok i := by
  unfold Fields.wellFormed at h
  unfold decodeFields
  split
  case h_1 hn | h_48 hn | h_50 hn | h_51 hn | h_52 hn | h_53 hn =>
    simp only [formOf, hn, Bool.and_eq_true] at h
    exact decodeN_of_legal h.1 _
  case h_37 hn | h_38 hn | h_39 hn | h_40 hn | h_41 hn | h_42 hn | h_43 hn | h_44 hn | h_45 hn | h_47 hn | h_49 hn
      | h_55 hn =>
    simp only [formOf, hn, Bool.and_eq_true] at h
    exact decodeI_of_legal h.1 _
  case h_11 hn | h_12 hn | h_29 hn | h_36 hn | h_46 hn | h_54 hn =>
    simp only [formOf, hn, Bool.and_eq_true] at h
    exact decodeA_of_legal h.1 h.2 _
  case h_2 hn | h_3 hn | h_14 hn | h_16 hn | h_18 hn | h_20 hn | h_22 hn | h_24 hn | h_26 hn | h_28 hn | h_31 hn
      | h_33 hn | h_35 hn =>
    simp only [formOf, hn, Bool.and_eq_true] at h
    exact decodeAI_of_legal h.1 h.2 _
  case h_4 hn | h_13 hn | h_15 hn | h_17 hn | h_19 hn | h_21 hn | h_23 hn | h_25 hn | h_27 hn | h_30 hn | h_32 hn
      | h_34 hn =>
    simp only [formOf, hn, Bool.and_eq_true] at h
    exact decodeAB_of_legal h.1 h.2 _
  case h_5 hn | h_6 hn | h_7 hn | h_8 hn | h_9 hn | h_10 hn =>
    simp only [formOf, hn, Bool.and_eq_true] at h
    exact decodeABI_of_legal h.2 _
  case h_56 =>
    simp only [formOf] at h
    exact absurd h Bool.false_ne_true

/-- A word decodes exactly where the check of R124 accepts its fields. -/
theorem decodes_iff (w : Word) : (∃ i, decode 0 w = .ok i) ↔ (Fields.ofWord w).wellFormed = true := by
  constructor
  · rintro ⟨i, h⟩
    rw [← fields_of_decodeFields h]
    exact i.wellFormed_true
  · exact exists_of_wellFormed

/-- The mask of a form in the opcode table (R123), and which register fields it uses. -/
def formRow (form : Form) : Word × Bool × Bool :=
  (Fields.toWord ⟨0xFF, if form.usesRa then 0 else 15, if form.usesRb then 0 else 15, if form.usesImm then 0 else 0xFFFF⟩,
    form.usesRa, form.usesRb)

/-- The opcode table lists the assigned opcodes, each with the row of its form (R126). -/
theorem mem_opcodeTable {row : Word × Word × Bool × Bool} :
    row ∈ opcodeTable ↔ ∃ op form, formOf op = some form ∧ row = (op.zeroExtend 32, formRow form) := by
  constructor
  · have rows : ∀ row ∈ opcodeTable, ∃ form, formOf (row.1.setWidth 8) = some form
        ∧ row = ((row.1.setWidth 8).zeroExtend 32, formRow form) := by
      simp only [opcodeTable, List.forall_mem_append, List.forall_mem_cons, List.not_mem_nil, false_implies,
        implies_true, and_true]
      constructorm* _ ∧ _
      all_goals exact ⟨_, rfl, rfl⟩
    intro h
    obtain ⟨form, hf, e⟩ := rows row h
    exact ⟨_, form, hf, e⟩
  · rintro ⟨op, form, h, rfl⟩
    have e : op = BitVec.ofNat 8 op.toNat := by simp
    unfold formOf at h
    split at h
    case h_56 => cases h
    all_goals
      next hn =>
      rw [hn] at e
      cases h
      rw [e]
      decide

theorem Fields.toWord_and (f g : Fields) :
    f.toWord &&& g.toWord = Fields.toWord ⟨f.op &&& g.op, f.ra &&& g.ra, f.rb &&& g.rb, f.imm &&& g.imm⟩ := by
  apply BitVec.eq_of_getLsbD_eq
  intro i _
  simp only [BitVec.getLsbD_and, Fields.getLsbD_toWord]
  split_ifs <;> rfl

theorem Fields.toWord_opcode (op : BitVec 8) : Fields.toWord ⟨op, 0, 0, 0⟩ = (op.zeroExtend 32) <<< 24 := by
  apply BitVec.eq_of_getLsbD_eq
  intro i hi
  rw [Fields.getLsbD_toWord]
  simp only [BitVec.getLsbD_shiftLeft, BitVec.truncate_eq_setWidth, BitVec.getLsbD_setWidth]
  split_ifs with h1 h2 h3
  · simp; omega
  · simp; omega
  · simp [h3]
  · simp [hi, h3, show i - 24 < 32 by omega]

theorem Fields.toWord_inj {f g : Fields} : f.toWord = g.toWord ↔ f = g :=
  ⟨fun h => by rw [← Fields.ofWord_toWord f, h, Fields.ofWord_toWord], congrArg _⟩

/-- A word matches the row of a form exactly when it has the row's opcode and the unused fields are zero. -/
theorem matches_formRow (f : Fields) (op : BitVec 8) (form : Form) :
    f.toWord &&& (formRow form).1 = (op.zeroExtend 32) <<< 24 ↔ f.op = op ∧ f.unusedZero form = true := by
  have ones {n : Nat} (v : BitVec n) : v &&& BitVec.allOnes n = v := BitVec.and_allOnes
  rw [← Fields.toWord_opcode, formRow, Fields.toWord_and, Fields.toWord_inj, Fields.mk.injEq, Fields.unusedZero_iff]
  have o8 : f.op &&& 255#8 = f.op := ones f.op
  have oa : f.ra &&& 15#4 = f.ra := ones f.ra
  have ob : f.rb &&& 15#4 = f.rb := ones f.rb
  have oi : f.imm &&& 65535#16 = f.imm := ones f.imm
  cases form <;> simp [Form.usesRa, Form.usesRb, Form.usesImm, o8, oa, ob, oi]

theorem Fields.registersNamed_iff (form : Form) (f : Fields) : f.registersNamed form = true ↔
    (form.usesRa = true → f.ra ≠ 15) ∧ (form.usesRb = true → f.rb ≠ 15) := by
  cases form <;> simp [Fields.registersNamed, Form.usesRa, Form.usesRb]

theorem Fields.wellFormed_iff (f : Fields) : f.wellFormed = true ↔
    ∃ form, formOf f.op = some form ∧ f.unusedZero form = true ∧ f.registersNamed form = true := by
  unfold Fields.wellFormed
  cases formOf f.op <;> simp

/-- Settles O3: the check of R124, read off the row of the word's opcode. -/
theorem legalWordsAreTheTable : Obligations.LegalWordsAreTheTable := by
  intro w
  rw [decodes_iff, Fields.wellFormed_iff]
  have row (op form) := matches_formRow (Fields.ofWord w) op form
  rw [Fields.toWord_ofWord] at row
  constructor
  · rintro ⟨form, hf, zero, named⟩
    exact ⟨_, mem_opcodeTable.mpr ⟨_, form, hf, rfl⟩, (row _ form).mpr ⟨rfl, zero⟩,
      (Fields.registersNamed_iff form _).mp named⟩
  · rintro ⟨_, mem, matched, named⟩
    obtain ⟨op, form, hf, rfl⟩ := mem_opcodeTable.mp mem
    obtain ⟨rfl, zero⟩ := (row op form).mp matched
    exact ⟨form, hf, zero, (Fields.registersNamed_iff form _).mpr named⟩

end Sys2Proof
end

section
/-! PROOFS. What an operation of one core can reach: of its own core, some registers, its frames and its data cache; of
every other core, data-cache entries that leave or become clean (R23, R96). One relation says so, every shared operation
is in it, and the statements about privilege, counting, the instruction cache and the other cores are read off it. -/

namespace Sys2Proof.Machine

open Sys2Proof.Spec

/-! ## The relation -/

theorem Core.released_refl (c : Core) : c.released c := ⟨rfl, entriesReleased.refl _⟩

theorem Core.released_trans {c d e : Core} (h : c.released d) (k : d.released e) : c.released e :=
  ⟨Core.onlyDcache_trans h.1 k.1, h.2.trans k.2⟩

theorem forall₂_released_refl (l : List Core) : List.Forall₂ Core.released l l :=
  List.forall₂_same.mpr fun c _ => Core.released_refl c

theorem forall₂_trans {R : Core → Core → Prop} (trans : ∀ c d e, R c d → R d e → R c e) {l m n : List Core}
    (h : List.Forall₂ R l m) (k : List.Forall₂ R m n) : List.Forall₂ R l n := by
  induction h generalizing n with
  | nil => exact k
  | cons hc _ ih =>
    cases k with
    | cons kc kl => exact .cons (trans _ _ _ hc kc) (ih kl)

/-- The parameters stay, and of the other cores data-cache entries leave or become clean. -/
structure State.Local (s t : State) : Prop where
  cfg : t.cfg = s.cfg
  before : List.Forall₂ Core.released s.before t.before
  after : List.Forall₂ Core.released s.after t.after

/-- Besides, of the own core only the registers `W`, the frames and the data cache change. -/
structure State.Acts (W : List Reg) (s t : State) : Prop extends State.Local s t where
  core : t.self = { s.self with regs := t.self.regs, frames := t.self.frames, dcache := t.self.dcache }
  regs : keeps s t W

theorem State.Local.refl (s : State) : s.Local s :=
  ⟨rfl, forall₂_released_refl _, forall₂_released_refl _⟩

theorem State.Local.trans {s t u : State} (h : s.Local t) (k : t.Local u) : s.Local u :=
  ⟨k.cfg.trans h.cfg, forall₂_trans (R := Core.released) (fun _ _ _ => Core.released_trans) h.before k.before,
    forall₂_trans (R := Core.released) (fun _ _ _ => Core.released_trans) h.after k.after⟩

/-- An update of the own core, of the backend and of the model's own fields. -/
theorem State.Local.of_eq {s t : State} (cfg : t.cfg = s.cfg) (before : t.before = s.before)
    (after : t.after = s.after) : s.Local t :=
  ⟨cfg, before ▸ forall₂_released_refl _, after ▸ forall₂_released_refl _⟩

variable {W : List Reg} {s t u : State}

theorem State.Acts.refl (W : List Reg) (s : State) : s.Acts W s := ⟨.refl s, rfl, fun _ _ => rfl⟩

theorem State.Acts.trans (h : s.Acts W t) (k : t.Acts W u) : s.Acts W u :=
  ⟨h.toLocal.trans k.toLocal, by rw [k.core, h.core], fun q hq => (k.regs q hq).trans (h.regs q hq)⟩

theorem State.Acts.life (h : s.Acts W t) : t.self.life = s.self.life := by rw [h.core]
theorem State.Acts.lastException (h : s.Acts W t) : t.self.lastException = s.self.lastException := by rw [h.core]
theorem State.Acts.iset (h : s.Acts W t) : t.self.iset = s.self.iset := by rw [h.core]
theorem State.Acts.icache (h : s.Acts W t) : t.self.icache = s.self.icache := by rw [h.core]

/-- Where `FLAGS` is not among the registers, no flag changes (R26). -/
theorem State.Acts.flags (h : s.Acts W t) (hf : .flags ∉ W) : t.flags = s.flags := by
  have e : t.flags.toWord = s.flags.toWord := h.regs .flags hf
  rw [← Flags.ofWord_toWord t.flags, e, Flags.ofWord_toWord]

/-! ## A relation along an operation -/

/-- A reflexive and transitive relation that holds along an operation and along whatever follows it holds along both
together, whether they end or raise. -/
theorem Res.bind_state {R : State → State → Prop} (trans : ∀ s t u, R s t → R t u → R s u) {α β : Type}
    {r : Res α} {k : α → State → Res β} (h : R s r.state) (hk : ∀ a t, R t (k a t).state) : R s (r.bind k).state := by
  cases r with
  | ok a t => exact trans _ _ _ h (hk a t)
  | raise f t => exact h

theorem State.Acts.bind {α β : Type} {r : Res α} {k : α → State → Res β} (h : s.Acts W r.state)
    (hk : ∀ a t, State.Acts W t (k a t).state) : s.Acts W (r.bind k).state :=
  Res.bind_state (R := State.Acts W) (fun _ _ _ => State.Acts.trans) h hk

/-! ## The updates -/

theorem State.setReg_acts (s : State) {r : Reg} (hr : r ∈ W) (v : Word) : s.Acts W (s.setReg r v) :=
  ⟨.of_eq rfl rfl rfl, rfl, fun _ hq => State.reg_setReg_ne _ _ _ _ fun e => hq (e ▸ hr)⟩

theorem State.setFlags_acts (s : State) (hf : .flags ∈ W) (f : Flags) : s.Acts W (s.setFlags f) :=
  ⟨.of_eq rfl rfl rfl, rfl, fun _ hq => State.reg_setFlags_ne _ _ _ fun e => hq (e ▸ hf)⟩

theorem State.setFrames_acts (s : State) (fs : List StackFrame) : s.Acts W (s.setFrames fs) :=
  ⟨.of_eq rfl rfl rfl, rfl, fun _ _ => rfl⟩

theorem State.setDcache_acts (s : State) (d : List DEntry) : s.Acts W (s.setDcache d) :=
  ⟨.of_eq rfl rfl rfl, rfl, fun _ _ => rfl⟩

theorem State.setPages_acts (s : State) (pages : List Nat) : s.Acts W (s.setPages pages) :=
  ⟨.of_eq rfl rfl rfl, rfl, fun _ _ => rfl⟩

/-! ## The data path -/

theorem State.fromRead_acts {α : Type} (s : State) (a : Nat) (r : Option α) : s.Acts W (s.fromRead a r).state := by
  rw [State.fromRead_state]
  exact .refl W s

theorem State.fromWrite_acts (s : State) (a : Nat) (r : Option Memory × List Nat) :
    s.Acts W (s.fromWrite a r).state := by
  unfold State.fromWrite
  split <;> exact ⟨.of_eq rfl rfl rfl, rfl, fun _ _ => rfl⟩

/-- A coherency request drops and cleans entries of the other cores, and moves none (R91, R93, R96). -/
theorem State.releaseOthers_acts (s : State) (sel : Selector) (wb rm : Bool) :
    s.Acts W (s.releaseOthers sel wb rm).state := by
  unfold State.releaseOthers
  dsimp only
  split
  · exact ⟨⟨rfl, sweepCores_released .., forall₂_released_refl _⟩, rfl, fun _ _ => rfl⟩
  · split <;> exact ⟨⟨rfl, sweepCores_released .., sweepCores_released ..⟩, rfl, fun _ _ => rfl⟩

theorem State.releaseOwn_acts (s : State) (sel : Selector) (wb rm : Bool) :
    s.Acts W (s.releaseOwn sel wb rm).state := by
  unfold State.releaseOwn
  dsimp only
  split <;> exact ⟨.of_eq rfl rfl rfl, rfl, fun _ _ => rfl⟩

theorem State.evict_acts (s : State) : s.Acts W s.evict.state := by
  unfold State.evict
  split
  · exact .refl W s
  · split
    · exact (State.fromWrite_acts ..).bind fun _ t => t.setDcache_acts _
    · exact s.setDcache_acts _

theorem State.makeRoom_acts (s : State) : s.Acts W s.makeRoom.state := by
  unfold State.makeRoom
  split
  · exact s.evict_acts
  · exact .refl W s

theorem State.fill_acts (s : State) (a : Nat) : s.Acts W (s.fill a).state :=
  (s.releaseOthers_acts ..).bind fun _ t => (t.fromRead_acts ..).bind fun _ u =>
    u.makeRoom_acts.bind fun _ v => v.setDcache_acts _

theorem State.dread16_acts (s : State) (a : Nat) : s.Acts W (s.dread16 a).state := by
  unfold State.dread16
  split
  · exact s.setDcache_acts _
  · exact s.fill_acts a

theorem State.ensure_acts (s : State) (a : Nat) : s.Acts W (s.ensure a).state := by
  unfold State.ensure
  split
  · exact .refl W s
  · exact (s.fill_acts a).bind fun _ t => .refl W t

theorem State.dwrite16_acts (s : State) (a : Nat) (v : Half) : s.Acts W (s.dwrite16 a v).state :=
  (s.ensure_acts a).bind fun _ t => (t.setDcache_acts _).trans (State.releaseOthers_acts ..)

theorem State.memRead_acts (s : State) (width : Width) (pa : Nat) : s.Acts W (s.memRead width pa).state := by
  unfold State.memRead
  split
  · exact (s.dread16_acts _).bind fun _ t => .refl W t
  · split
    · exact (s.dread16_acts _).bind fun _ t => .refl W t
    · exact .refl W s
  · split
    · exact (s.dread16_acts _).bind fun _ t => (t.dread16_acts _).bind fun _ u => .refl W u
    · exact .refl W s

theorem State.memWrite_acts (s : State) (width : Width) (pa : Nat) (v : Word) :
    s.Acts W (s.memWrite width pa v).state := by
  unfold State.memWrite
  split
  · exact (s.dread16_acts _).bind fun _ t => t.dwrite16_acts ..
  · split
    · exact s.dwrite16_acts ..
    · exact .refl W s
  · split
    · exact (s.dwrite16_acts ..).bind fun _ t => t.dwrite16_acts ..
    · exact .refl W s

/-! ## The stack and the stack frames -/

theorem State.push_acts (s : State) (hs : .sp ∈ W) (v : Word) : s.Acts W (s.push v).state :=
  (s.memWrite_acts ..).bind fun _ t => t.setReg_acts hs _

theorem State.pop_acts (s : State) (hs : .sp ∈ W) : s.Acts W s.pop.state :=
  (s.memRead_acts ..).bind fun _ t => t.setReg_acts hs _

theorem State.pushRegs_acts (hs : .sp ∈ W) (rs : List Reg) (s : State) : s.Acts W (State.pushRegs rs s).state := by
  induction rs generalizing s with
  | nil => exact .refl W s
  | cons r rest ih => exact (s.push_acts hs _).bind fun _ t => ih t

theorem State.popRegs_acts (hs : .sp ∈ W) (rs : List Reg) (hr : ∀ r ∈ rs, r ∈ W) (s : State) :
    s.Acts W (State.popRegs rs s).state := by
  induction rs generalizing s with
  | nil => exact .refl W s
  | cons r rest ih =>
    obtain ⟨here, later⟩ := List.forall_mem_cons.mp hr
    exact (s.pop_acts hs).bind fun _ t => (t.setReg_acts here _).trans (ih later _)

theorem State.recordFrame_acts (s : State) : s.Acts W s.recordFrame := by
  unfold State.recordFrame
  split
  · exact s.setFrames_acts _
  · exact .refl W s

theorem State.dropFrame_acts (s : State) : s.Acts W s.dropFrame := by
  unfold State.dropFrame
  split
  · exact s.setFrames_acts _
  · exact .refl W s

theorem State.createFrame_acts (s : State) (hs : .sp ∈ W) (hf : .fp ∈ W) : s.Acts W s.createFrame.state :=
  (s.push_acts hs _).bind fun _ t => (t.push_acts hs _).bind fun _ u =>
    (u.setReg_acts hf _).trans (State.recordFrame_acts _)

theorem State.destroyFrame_acts (s : State) (hs : .sp ∈ W) (hf : .fp ∈ W) (hi : .ip ∈ W) :
    s.Acts W s.destroyFrame.state := by
  unfold State.destroyFrame
  split
  · exact .refl W s
  · exact (s.pop_acts hs).bind fun v t => (t.setReg_acts hf v).trans
      ((State.pop_acts _ hs).bind fun w u => (u.setReg_acts hi w).trans (State.dropFrame_acts _))

/-! ## Interrupts -/

/-- The registers that interrupt entry may write (R290). -/
def entryRegs : List Reg := [.ds, .sp, .fp, .flags, .cs, .ip]

/-- The registers that interrupt exit may write: all but `CNT` (R293). -/
def exitRegs : List Reg := [.r0, .r1, .r2, .r3, .r4, .r5, .r6, .r7, .fp, .sp, .ds, .cs, .ip, .flags]

theorem State.loadVector_acts (s : State) (table : Word) (index : Nat) :
    s.Acts W (s.loadVector table index).state := by
  unfold State.loadVector
  dsimp only
  split <;> exact s.setPages_acts _

theorem State.saveContext_acts (s : State) (hs : .sp ∈ W) (oldDs oldSp : Word) :
    s.Acts W (s.saveContext oldDs oldSp).state :=
  (s.push_acts hs _).bind fun _ t => (t.push_acts hs _).bind fun _ u => State.pushRegs_acts hs _ u

theorem State.enterInterrupt_acts (s : State) (table : Word) (index : Nat) :
    s.Acts entryRegs (s.enterInterrupt table index).state := by
  have ds : .ds ∈ entryRegs := by decide
  have sp : .sp ∈ entryRegs := by decide
  have fp : .fp ∈ entryRegs := by decide
  have flags : .flags ∈ entryRegs := by decide
  have cs : .cs ∈ entryRegs := by decide
  have ip : .ip ∈ entryRegs := by decide
  refine (s.loadVector_acts table index).bind fun v t => ?_
  have swap : t.Acts entryRegs (t.swapStack v) := (t.setReg_acts ds _).trans (State.setReg_acts _ sp _)
  refine (swap.trans (State.saveContext_acts _ sp _ _)).bind fun _ u => ?_
  exact (u.createFrame_acts sp fp).bind fun _ w =>
    ((w.setFlags_acts flags _).trans (State.setReg_acts _ cs _)).trans (State.setReg_acts _ ip _)

/-- The cores a list puts in the place of the own core and of the others stand to them as the rows do. -/
theorem State.withCores_rel {R : Core → Core → Prop} {cs : List Core} (h : List.Forall₂ R s.cores cs) :
    List.Forall₂ R s.before (s.withCores s.selfId cs).before ∧ R s.self (s.withCores s.selfId cs).self
      ∧ List.Forall₂ R s.after (s.withCores s.selfId cs).after := by
  have front := List.forall₂_take s.selfId h
  have back := List.forall₂_drop s.selfId h
  have e : s.cores.drop s.selfId = s.self :: s.after := by simp [State.cores, State.selfId]
  rw [show s.cores.take s.selfId = s.before by simp [State.cores, State.selfId]] at front
  obtain ⟨c, rest, hc, hrest, e'⟩ := List.forall₂_cons_left_iff.mp (e ▸ back)
  unfold State.withCores
  rw [e']
  exact ⟨front, hc, hrest⟩

/-- A memory-structure change asks the own core too, of whose state its data cache alone changes (R92). -/
theorem State.onMemoryStructureChange_acts (s : State) (a size : Nat) (wb : Bool) :
    s.Acts W (s.onMemoryStructureChange a size wb).state := by
  obtain ⟨before, self, after⟩ :=
    State.withCores_rel (sweepCores_released s.cfg s.allocated (.range a size) wb true s.cores s.mem)
  have cfg := s.withCores_cfg s.selfId (sweepCores s.cfg (.range a size) wb true s.allocated s.cores s.mem).cores
  have core := self.1
  have key : ∀ u : State, u.cfg = s.cfg → List.Forall₂ Core.released s.before u.before → s.self.onlyDcache u.self →
      List.Forall₂ Core.released s.after u.after → s.Acts W u := by
    intro u hc hb hs ha
    have same : u.self = { s.self with dcache := u.self.dcache } := hs
    have regs : u.self.regs = s.self.regs := by rw [same]
    exact ⟨⟨hc, hb, ha⟩, by rw [same], fun q _ => congrArg (Regs.read · q) regs⟩
  unfold State.onMemoryStructureChange
  dsimp only
  split <;> exact key _ cfg before core after

theorem State.freePage_acts (s : State) (pg : Nat) : s.Acts W (s.freePage pg).state := by
  unfold State.freePage
  dsimp only
  split
  · exact s.setPages_acts _
  · exact s.setPages_acts _
  · exact (s.setPages_acts _).trans (State.onMemoryStructureChange_acts ..)

theorem State.exitInterrupt_acts (s : State) : s.Acts exitRegs s.exitInterrupt.state := by
  have sp : .sp ∈ exitRegs := by decide
  have fp : .fp ∈ exitRegs := by decide
  have ip : .ip ∈ exitRegs := by decide
  have ds : .ds ∈ exitRegs := by decide
  have context : ∀ r ∈ generalRegs.reverse ++ [.flags, .cs], r ∈ exitRegs := by decide
  exact (s.destroyFrame_acts sp fp ip).bind fun _ a => (State.popRegs_acts sp _ context a).bind fun _ b =>
    (b.pop_acts sp).bind fun oldSp c => (c.pop_acts sp).bind fun oldDs d =>
      (((d.setReg_acts sp oldSp).trans (State.setReg_acts _ ds oldDs)).trans (State.releaseOwn_acts ..)).bind
        fun _ e => e.freePage_acts _

/-! ## The instructions of DK0 -/

/-- The registers that the effect of an instruction may write; retirement, which writes `CNT`, is not part of it. -/
def effectRegs : Instr → List Reg
  | .nop | .stb _ _ _ | .stw _ _ _ | .std _ _ _ | .hlt _ | .sis _ => []
  | .li ra _ | .liu ra _ | .lb ra _ _ | .lw ra _ _ | .ld ra _ _ | .add ra _ | .addi ra _ | .sub ra _ | .subi ra _
  | .mul ra _ | .muli ra _ | .div ra _ | .divi ra _ | .mod ra _ | .modi ra _ | .and ra _ | .andi ra _ | .or ra _
  | .ori ra _ | .xor ra _ | .xori ra _ | .not ra | .shl ra _ | .shli ra _ | .shr ra _ | .shri ra _ => [ra, .flags]
  | .mov ra _ => [ra]
  | .push _ => [.sp]
  | .pop ra => [ra, .sp]
  | .cmp _ _ | .cmpi _ _ | .cli | .sti | .lpm => [.flags]
  | .j _ | .jr _ | .be _ | .bne _ | .bz _ | .bnz _ | .bo _ | .bno _ | .bs _ | .bns _ => [.ip]
  | .call _ | .callr _ | .ret => [.sp, .fp, .ip]
  | .int _ => entryRegs
  | .retint => exitRegs

theorem State.checkDest_acts (s : State) (r : Reg) : s.Acts W (s.checkDest r).state := by
  rw [State.checkDest_state]
  exact .refl W s

theorem State.loadReg_acts (s : State) {ra : Reg} (hr : ra ∈ W) (hf : .flags ∈ W) (v : Word) :
    s.Acts W (s.loadReg ra v) :=
  (s.setReg_acts hr v).trans (State.setFlags_acts _ hf _)

theorem State.load_acts (s : State) (width : Width) {ra : Reg} (hr : ra ∈ W) (hf : .flags ∈ W) (rb : Reg)
    (imm : Half) : s.Acts W (s.load width ra rb imm).state :=
  (s.checkDest_acts ra).bind fun _ t => (t.memRead_acts ..).bind fun _ u => u.loadReg_acts hr hf _

theorem State.store_acts (s : State) (width : Width) (ra rb : Reg) (imm : Half) :
    s.Acts W (s.store width ra rb imm).state :=
  s.memWrite_acts ..

theorem State.alu_acts (s : State) (divides : Bool) (op : AluOp) {ra : Reg} (hr : ra ∈ W) (hf : .flags ∈ W)
    (b : Word) : s.Acts W (s.alu divides op ra b).state := by
  refine (s.checkDest_acts ra).bind fun _ t => ?_
  split
  · exact .refl W t
  · exact (t.setReg_acts hr _).trans (State.setFlags_acts _ hf _)

theorem State.branch_acts (s : State) (hi : .ip ∈ W) (taken : Bool) (imm : Half) : s.Acts W (s.branch taken imm) := by
  rw [State.branch_eq_jump]
  exact s.setReg_acts hi _

theorem State.callTo_acts (s : State) (hs : .sp ∈ W) (hf : .fp ∈ W) (hi : .ip ∈ W) (target : Word) :
    s.Acts W (s.callTo target).state :=
  (s.createFrame_acts hs hf).bind fun _ t => t.setReg_acts hi target

theorem State.doInt_acts {index : Half} (none : noHandler s index) :
    s.Acts entryRegs (s.doInt index).state := by
  have e : s.cfg.handler index = Option.none := by
    simpa [Config.handler, List.find?_eq_none] using fun a b h => none (a, b) h
  unfold State.doInt
  rw [e]
  exact s.enterInterrupt_acts ..

/-- The effect of an instruction other than `HLT`, `SIS` and a virtual interrupt, case by case, whether it ends or
raises. -/
theorem effectOf_acts (i : Instr) (s : State) (hlt : ∀ ra, i ≠ .hlt ra) (sis : ∀ imm, i ≠ .sis imm)
    (int : ∀ imm, i = .int imm → noHandler s imm) : s.Acts (effectRegs i) (effectOf i s).state := by
  cases i with
  | nop => exact .refl _ s
  | li | liu =>
    exact (s.checkDest_acts _).bind fun _ t => t.loadReg_acts (by simp [effectRegs]) (by simp [effectRegs]) _
  | mov => exact (s.checkDest_acts _).bind fun _ t => t.setReg_acts (by simp [effectRegs]) _
  | lb | lw | ld => exact s.load_acts _ (by simp [effectRegs]) (by simp [effectRegs]) _ _
  | stb | stw | std => exact s.store_acts ..
  | push => exact s.push_acts (by simp [effectRegs]) _
  | pop =>
    exact (s.checkDest_acts _).bind fun _ t => (t.pop_acts (by simp [effectRegs])).bind fun _ u =>
      u.setReg_acts (by simp [effectRegs]) _
  | cmp | cmpi | cli | sti | lpm => exact s.setFlags_acts (by simp [effectRegs]) _
  | j | jr => exact s.setReg_acts (by simp [effectRegs]) _
  | be | bne | bz | bnz | bo | bno | bs | bns => exact s.branch_acts (by simp [effectRegs]) _ _
  | call | callr =>
    exact s.callTo_acts (by simp [effectRegs]) (by simp [effectRegs]) (by simp [effectRegs]) _
  | ret => exact s.destroyFrame_acts (by simp [effectRegs]) (by simp [effectRegs]) (by simp [effectRegs])
  | int imm => exact State.doInt_acts (int imm rfl)
  | retint => exact s.exitInterrupt_acts
  | hlt ra => exact absurd rfl (hlt ra)
  | sis imm => exact absurd rfl (sis imm)
  | _ => exact s.alu_acts _ _ (by simp [effectRegs]) (by simp [effectRegs]) _

/-! ## `halt` and `die` -/

@[simp] theorem State.halt_regs (s : State) (code : Word) : (s.halt code).self.regs = s.self.regs := by
  unfold State.halt
  split <;> rfl

@[simp] theorem State.halt_icache (s : State) (code : Word) : (s.halt code).self.icache = s.self.icache := by
  unfold State.halt
  split <;> rfl

@[simp] theorem State.halt_iset (s : State) (code : Word) : (s.halt code).self.iset = s.self.iset := by
  unfold State.halt
  split <;> rfl

@[simp] theorem State.die_icache (s : State) (f : CoreFault) : (s.die f).self.icache = s.self.icache := by
  unfold State.die
  split
  · rfl
  · rw [State.halt_icache]

@[simp] theorem State.die_iset (s : State) (f : CoreFault) : (s.die f).self.iset = s.self.iset := by
  unfold State.die
  split
  · rfl
  · rw [State.halt_iset]

theorem State.halt_self_life (code : Word) (nh : s.self.life.isHalted = false) :
    (s.halt code).self.life = .halted code := by
  unfold State.halt
  rw [nh]
  rfl

/-- A core that dies is halted with exit code 1, and a fault is recorded of it (R281). -/
theorem State.die_taken (f : CoreFault) (nh : s.self.life.isHalted = false) :
    (s.die f).self.life = .halted 1 ∧ (s.die f).self.lastException ≠ none := by
  unfold State.die State.halt
  simp [nh]

/-! ## What the relation says of an instruction -/

theorem State.switchSet_state_cases (s : State) (n : Nat) :
    s.switchSet n = .ok () (s.setIset n).clearIcache ∨ s.switchSet n = .raise (.invalidInstructionSet n) s := by
  unfold State.switchSet
  split
  · exact .inl rfl
  · exact .inr rfl

/-- The effect of an instruction that does not name `CNT` as its destination leaves `CNT`, the recorded fault and the
lifecycle state (R28, R156). -/
theorem effectOf_uncounted {i : Instr} (hlt : ∀ ra, i ≠ .hlt ra) (int : ∀ imm, i = .int imm → noHandler s imm)
    (dest : destination i ≠ some .cnt) :
    (effectOf i s).state.reg .cnt = s.reg .cnt ∧ (effectOf i s).state.self.lastException = s.self.lastException
      ∧ (effectOf i s).state.self.life = s.self.life := by
  have cnt : .cnt ∉ effectRegs i := by
    cases i with
    | int | retint => simp [effectRegs, entryRegs, exitRegs]
    | _ => simp_all [effectRegs, destination, eq_comm]
  by_cases sis : ∃ imm, i = .sis imm
  · obtain ⟨imm, rfl⟩ := sis
    obtain e | e := s.switchSet_state_cases imm.toNat
    all_goals rw [effectOf, e]; exact ⟨rfl, rfl, rfl⟩
  · have acts := effectOf_acts i s hlt (fun imm e => sis ⟨imm, e⟩) int
    exact ⟨acts.regs _ cnt, acts.lastException, acts.life⟩

/-- Settles O52: retirement adds 1 to a `CNT` that no effect writes, and a raised fault ends in `die`. -/
theorem counterCountsRetiredInstructions : Obligations.CounterCountsRetiredInstructions := by
  intro i s t dest int nh h
  obtain ⟨_, _, rfl⟩ | ⟨_, ended⟩ := exec_cases h
  · have died := State.die_taken (.accessViolationInstruction (.dk0 i)) nh
    exact .inr ⟨congrArg (Regs.read · .cnt) (State.die_regs ..), died⟩
  by_cases hlt : ∃ ra, i = .hlt ra
  · obtain ⟨ra, rfl⟩ := hlt
    obtain ⟨u, e, rfl⟩ | ⟨f, u, e, _⟩ := ended
    · cases e
      have regs : (s.halt (s.reg ra)).reg .cnt = s.reg .cnt := congrArg (Regs.read · .cnt) (s.halt_regs _)
      refine .inl ⟨congrArg (· + 1) regs, .inr ⟨ra, rfl, State.halt_self_life _ nh, fun inv => ?_⟩⟩
      rw [State.halt_eq inv _ nh]
      rfl
    · cases e
  · obtain ⟨cnt, exception, life⟩ := effectOf_uncounted (fun ra e => hlt ⟨ra, e⟩) int dest
    obtain ⟨u, e, rfl⟩ | ⟨f, u, e, rfl⟩ := ended
    · rw [e] at cnt exception life
      exact .inl ⟨congrArg (· + 1) cnt, .inl ⟨exception, life⟩⟩
    · rw [e] at cnt life
      have died := State.die_taken f ((congrArg Lifecycle.isHalted life).trans nh)
      exact .inr ⟨(congrArg (Regs.read · .cnt) (State.die_regs u f)).trans cnt, died⟩

/-- Settles O54: of the own core an effect changes registers, frames and the data cache alone, `halt` and `die` leave
the instruction cache and the set too, and `SIS` is excluded. -/
theorem onlySisClearsTheInstructionCache : Obligations.OnlySisClearsTheInstructionCache := by
  intro i s t sis int h
  have effect : (effectOf i s).state.self.icache = s.self.icache ∧ (effectOf i s).state.self.iset = s.self.iset := by
    by_cases hlt : ∃ ra, i = .hlt ra
    · obtain ⟨ra, rfl⟩ := hlt
      exact ⟨s.halt_icache _, s.halt_iset _⟩
    · have acts := effectOf_acts i s (fun ra e => hlt ⟨ra, e⟩) sis int
      exact ⟨acts.icache, acts.iset⟩
  obtain ⟨_, _, rfl⟩ | ⟨_, ⟨u, e, rfl⟩ | ⟨f, u, e, rfl⟩⟩ := exec_cases h
  · exact ⟨State.die_icache .., State.die_iset ..⟩
  · rw [e] at effect
    exact effect
  · rw [e] at effect
    exact ⟨(State.die_icache u f).trans effect.1, (State.die_iset u f).trans effect.2⟩

/-! ## Unprivileged code -/

/-- The privilege, the interrupt enable and the segments are as they were (R300). -/
structure State.Confined (s t : State) : Prop where
  privileged : t.flags.privileged = s.flags.privileged
  hwint : t.flags.hwintEnabled = s.flags.hwintEnabled
  ds : t.reg .ds = s.reg .ds
  cs : t.reg .cs = s.reg .cs

theorem State.Confined.trans (h : s.Confined t) (k : t.Confined u) : s.Confined u :=
  ⟨k.privileged.trans h.privileged, k.hwint.trans h.hwint, k.ds.trans h.ds, k.cs.trans h.cs⟩

theorem State.Confined.of_regs (h : t.self.regs = s.self.regs) : s.Confined t := by
  have flags : t.flags = s.flags := congrArg Regs.flags h
  exact ⟨by rw [flags], by rw [flags], congrArg Regs.ds h, congrArg Regs.cs h⟩

theorem State.Acts.confined (h : s.Acts W t) (hf : .flags ∉ W) (hd : .ds ∉ W) (hc : .cs ∉ W) : s.Confined t :=
  ⟨by rw [h.flags hf], by rw [h.flags hf], h.regs _ hd, h.regs _ hc⟩

theorem State.setFlags_confined {f : Flags} (hp : f.privileged = s.flags.privileged)
    (hi : f.hwintEnabled = s.flags.hwintEnabled) : s.Confined (s.setFlags f) :=
  ⟨hp, hi, rfl, rfl⟩

/-- A register that is not protected is none of those (R27). -/
theorem State.setReg_confined {ra : Reg} (free : protectedReg ra = false) (v : Word) : s.Confined (s.setReg ra v) := by
  refine (s.setReg_acts List.mem_cons_self v : s.Acts [ra] _).confined ?_ ?_ ?_
  all_goals
    rw [List.mem_singleton]
    rintro rfl
    cases free

theorem State.loadReg_confined {ra : Reg} (free : protectedReg ra = false) (v : Word) :
    s.Confined (s.loadReg ra v) :=
  (State.setReg_confined free v).trans (State.setFlags_confined rfl rfl)

theorem Res.bind_confined {α β : Type} {r : Res α} {k : α → State → Res β} (h : s.Confined r.state)
    (hk : ∀ a t, State.Confined t (k a t).state) : s.Confined (r.bind k).state :=
  Res.bind_state (R := State.Confined) (fun _ _ _ => State.Confined.trans) h hk

/-- Unprivileged, an instruction with a destination operand raises, or its destination is not protected (R27). -/
theorem State.checkDest_confined (hs : s.flags.privileged = false) {ra : Reg} {k : Unit → State → Res Unit}
    (hk : protectedReg ra = false → s.Confined (k () s).state) : s.Confined ((s.checkDest ra).bind k).state := by
  cases free : protectedReg ra with
  | true =>
    rw [State.checkDest_raise free hs]
    exact .of_regs rfl
  | false =>
    rw [State.checkDest_ok (by simp [free])]
    exact hk free

theorem State.load_confined (hs : s.flags.privileged = false) (width : Width) (ra rb : Reg) (imm : Half) :
    s.Confined (s.load width ra rb imm).state :=
  State.checkDest_confined hs fun free =>
    Res.bind_confined ((s.memRead_acts (W := []) ..).confined (by simp) (by simp) (by simp)) fun _ _ =>
      State.loadReg_confined free _

theorem State.alu_confined (hs : s.flags.privileged = false) (divides : Bool) (op : AluOp) (ra : Reg) (b : Word) :
    s.Confined (s.alu divides op ra b).state := by
  refine State.checkDest_confined hs fun free => ?_
  split
  · exact .of_regs rfl
  · exact (State.setReg_confined free _).trans (State.setFlags_confined rfl rfl)

/-- The effect of an unprivileged instruction other than `INT`, case by case, whether it ends or raises. -/
theorem effectOf_confined {i : Instr} (hs : s.flags.privileged = false) (hp : isPrivileged i = false)
    (int : ∀ imm, i ≠ .int imm) : s.Confined (effectOf i s).state := by
  cases i with
  | li | liu => exact State.checkDest_confined hs fun free => State.loadReg_confined free _
  | mov => exact State.checkDest_confined hs fun free => State.setReg_confined free _
  | lb | lw | ld => exact State.load_confined hs ..
  | pop =>
    exact State.checkDest_confined hs fun free =>
      Res.bind_confined ((s.pop_acts (W := [.sp]) (by simp)).confined (by simp) (by simp) (by simp)) fun _ _ =>
        State.setReg_confined free _
  | cmp | cmpi => exact State.setFlags_confined rfl rfl
  | sis imm =>
    obtain e | e := s.switchSet_state_cases imm.toNat
    all_goals rw [effectOf, e]; exact .of_regs rfl
  | int imm => exact absurd rfl (int imm)
  | retint | cli | sti | lpm | hlt => cases hp
  | nop | stb | stw | std | push | j | jr | be | bne | bz | bnz | bo | bno | bs | bns | call | callr | ret =>
    refine State.Acts.confined (effectOf_acts _ s ?_ ?_ ?_) ?_ ?_ ?_
    all_goals simp [effectRegs]
  | _ => exact State.alu_confined hs ..

/-- Settles O51: `CheckDest` keeps protected registers from operand writes (R27), the privileged instructions have no
effect (R154), and of the flags the others write the four condition flags alone. -/
theorem unprivilegedCodeIsConfined : Obligations.UnprivilegedCodeIsConfined := by
  intro i s t hs int h
  have confined : s.Confined t := by
    obtain ⟨_, _, rfl⟩ | ⟨hp | hp, ended⟩ := exec_cases h
    · exact .of_regs (State.die_regs ..)
    · have effect := effectOf_confined hs hp int
      obtain ⟨u, e, rfl⟩ | ⟨f, u, e, rfl⟩ := ended
      · rw [e] at effect
        exact effect.trans ⟨rfl, rfl, rfl, rfl⟩
      · rw [e] at effect
        exact effect.trans (.of_regs (State.die_regs ..))
    · rw [hs] at hp
      cases hp
  exact ⟨confined.privileged.trans hs, confined.hwint, confined.ds, confined.cs⟩

end Sys2Proof.Machine
end

section
/-! PROOFS. What a transition can do to the row of cores: a step reaches the other cores by coherency requests alone, no
transition changes a parameter or the number of cores, and every core moves along an edge of the lifecycle (R41, R96,
R311, R322). -/

namespace Sys2Proof.Machine

open Sys2Proof.Spec

/-! ## What a step can do, for a relation between states -/

/-- A relation between states that each thing a step can do is in. -/
structure StepClosed (R : State → State → Prop) : Prop where
  refl : ∀ s, R s s
  trans : ∀ s t u, R s t → R t u → R s u
  acts : ∀ W s t, State.Acts W s t → R s t
  icache : ∀ s c, R s (s.setIcache c)
  iset : ∀ s n, R s (s.setIset n)
  halt : ∀ s code, R s (s.halt code)
  die : ∀ s f, R s (s.die f)
  handler : ∀ s index h, s.cfg.handler index = some h → R s (runHandler h s).state

namespace StepClosed

variable {R : State → State → Prop} (closed : StepClosed R)

include closed

theorem bind {α β : Type} {s : State} {r : Res α} {k : α → State → Res β} (h : R s r.state)
    (hk : ∀ a t, R t (k a t).state) : R s (r.bind k).state :=
  Res.bind_state closed.trans h hk

theorem iget (s : State) (pa : Nat) : R s (s.iget pa).state := by
  unfold State.iget
  split
  · split
    · exact closed.icache s _
    · refine closed.bind (closed.acts [] _ _ (s.fromRead_acts ..)) fun w t => ?_
      split
      · exact closed.icache t _
      · exact closed.refl t
  · exact closed.refl s

theorem fetch (s : State) : R s s.fetch.state :=
  closed.bind (closed.iget s _) fun _ t => closed.acts [.ip] _ _ (t.setReg_acts (by simp) _)

theorem doInt (s : State) (index : Half) : R s (s.doInt index).state := by
  unfold State.doInt
  split
  · next h hh => exact closed.handler s index h hh
  · exact closed.acts _ _ _ (s.enterInterrupt_acts ..)

theorem switchSet (s : State) (n : Nat) : R s (s.switchSet n).state := by
  obtain e | e := s.switchSet_state_cases n
  · rw [e]
    exact closed.trans _ _ _ (closed.iset s n) (closed.icache _ [])
  · rw [e]
    exact closed.refl s

theorem effectOf (i : Instr) (s : State) : R s (effectOf i s).state := by
  by_cases hlt : ∃ ra, i = .hlt ra
  · obtain ⟨ra, rfl⟩ := hlt
    exact closed.halt s _
  by_cases sis : ∃ imm, i = .sis imm
  · obtain ⟨imm, rfl⟩ := sis
    exact closed.switchSet s _
  by_cases int : ∃ imm, i = .int imm
  · obtain ⟨imm, rfl⟩ := int
    exact closed.doInt s imm
  · exact closed.acts _ _ _ (effectOf_acts i s (fun ra e => hlt ⟨ra, e⟩) (fun imm e => sis ⟨imm, e⟩)
      fun imm e => absurd ⟨imm, e⟩ int)

/-- A program of a replacement table uses the primitives of R155 alone. -/
theorem tableRun (p : TableProg) (s : State) : R s (TableProg.run p s).state := by
  have sp : Reg.sp ∈ exitRegs := by decide
  have fp : Reg.fp ∈ exitRegs := by decide
  have ip : Reg.ip ∈ exitRegs := by decide
  induction p generalizing s with
  | done | raise => exact closed.refl s
  | readReg r k ih => exact ih _ s
  | operandWrite r v k ih =>
    exact closed.bind (closed.acts [] _ _ (s.checkDest_acts r)) fun _ t =>
      closed.trans _ _ _ (closed.acts [r] _ _ (t.setReg_acts (by simp) v)) (ih _)
  | internalWrite r v k ih => exact closed.trans _ _ _ (closed.acts [r.reg] _ _ (s.setReg_acts (by simp) v)) (ih _)
  | memRead width pa k ih => exact closed.bind (closed.acts [] _ _ (s.memRead_acts ..)) ih
  | memWrite width pa v k ih => exact closed.bind (closed.acts [] _ _ (s.memWrite_acts ..)) fun _ => ih
  | push v k ih => exact closed.bind (closed.acts _ _ _ (s.push_acts sp v)) fun _ => ih
  | pop k ih => exact closed.bind (closed.acts _ _ _ (s.pop_acts sp)) ih
  | createFrame k ih => exact closed.bind (closed.acts _ _ _ (s.createFrame_acts sp fp)) fun _ => ih
  | destroyFrame k ih => exact closed.bind (closed.acts _ _ _ (s.destroyFrame_acts sp fp ip)) fun _ => ih
  | doInt index k ih => exact closed.bind (closed.doInt s index) fun _ => ih
  | exitInterrupt k ih => exact closed.bind (closed.acts _ _ _ s.exitInterrupt_acts) fun _ => ih
  | switchSet n k ih => exact closed.bind (closed.switchSet s n) fun _ => ih
  | halt code k ih => exact closed.trans _ _ _ (closed.halt s code) (ih _)

/-- The end of a step: retirement or `die` (R150). -/
theorem finish {s t : State} {r : Res Unit} (h : R s r.state) (e : r.finish = .next t) : R s t := by
  cases r with
  | ok a u =>
    cases e
    exact closed.trans _ _ _ h (closed.acts [.cnt] _ _ (u.setReg_acts (by simp) _))
  | raise f u =>
    cases e
    exact closed.trans _ _ _ h (closed.die u f)

theorem checkPrivilege (i : Insn) (s : State) : R s (s.checkPrivilege i).state := by
  unfold State.checkPrivilege
  split <;> exact closed.refl s

theorem execInsn {i : Insn} {s t : State} (h : execInsn i s = .next t) : R s t := by
  cases i with
  | dk0 i =>
    rw [Machine.execInsn, exec_eq] at h
    exact closed.finish (closed.bind (closed.checkPrivilege _ s) fun _ => closed.effectOf i) h
  | other table code =>
    exact closed.finish (closed.bind (closed.checkPrivilege _ s) fun _ => closed.tableRun _) h

/-- A step of one core (R150). -/
theorem stepSelf {s t : State} (h : s.stepSelf = .next t) : R s t := by
  have fetched := closed.fetch s
  unfold State.stepSelf at h
  cases e : s.fetch with
  | ok i u =>
    rw [e] at h fetched
    exact closed.trans _ _ _ fetched (closed.execInsn h)
  | raise f u =>
    rw [e] at h fetched
    cases h
    exact closed.trans _ _ _ fetched (closed.die u f)

end StepClosed

/-! ## Virtual handlers -/

/-- All fifteen registers. -/
def allRegs : List Reg := .cnt :: exitRegs

theorem mem_allRegs (r : Reg) : r ∈ allRegs := by cases r <;> decide

theorem performAct_acts (got : List Word) (s : State) (a : HandlerAct) : s.Acts allRegs (performAct got s a).state := by
  cases a with
  | setReg r v => exact s.setReg_acts (mem_allRegs r) _
  | memRead width pa => exact (s.memRead_acts ..).bind fun _ t => .refl _ t
  | memWrite width pa v => exact (s.memWrite_acts ..).bind fun _ t => .refl _ t
  | push v => exact (s.push_acts (mem_allRegs _) _).bind fun _ t => .refl _ t
  | pop => exact (s.pop_acts (mem_allRegs _)).bind fun _ t => .refl _ t
  | raise f => exact .refl _ s

/-- A handler given as data changes registers and memory alone. -/
theorem runActs_acts (acts : List HandlerAct) (got : List Word) (s : State) :
    s.Acts allRegs (runActs acts got s).state := by
  induction acts generalizing got s with
  | nil => exact .refl _ s
  | cons a rest ih => exact (performAct_acts got s a).bind fun new t => ih _ t

theorem State.setSelf_local (s : State) (c : Core) : s.Local { s with self := c } := .of_eq rfl rfl rfl

theorem State.Local.bind {α β : Type} {s : State} {r : Res α} {k : α → State → Res β} (h : s.Local r.state)
    (hk : ∀ a t, State.Local t (k a t).state) : s.Local (r.bind k).state :=
  Res.bind_state (R := State.Local) (fun _ _ _ => State.Local.trans) h hk

theorem State.hostRead_acts {W : List Reg} (s : State) (width : Width) (a : Nat) :
    s.Acts W (s.hostRead width a).state := by
  unfold State.hostRead
  split
  · exact (s.fromRead_acts ..).bind fun _ t => .refl W t
  · exact (s.fromRead_acts ..).bind fun _ t => .refl W t
  · exact s.fromRead_acts ..

theorem State.hostWrite_acts {W : List Reg} (s : State) (width : Width) (a : Nat) (v : Word) :
    s.Acts W (s.hostWrite width a v).state := by
  unfold State.hostWrite
  split <;> exact s.fromWrite_acts ..

theorem State.iget_local (s : State) (pa : Nat) : s.Local (s.iget pa).state := by
  unfold State.iget
  split
  · split
    · exact .of_eq rfl rfl rfl
    · refine .bind (s.fromRead_acts (W := []) ..).toLocal fun w t => ?_
      split <;> exact .of_eq rfl rfl rfl
  · exact .refl s

/-- An arbitrary handler may replace the state of its own core, but reaches the others by the data path alone (R295). -/
theorem VirtProg.run_local (p : VirtProg) (s : State) : s.Local (VirtProg.run p s).state := by
  induction p generalizing s with
  | done | raise => exact .refl s
  | readCore k ih => exact ih _ s
  | writeCore c k ih => exact (s.setSelf_local c).trans (ih _)
  | readReg r k ih => exact ih _ s
  | writeReg r v k ih => exact (s.setReg_acts (mem_allRegs r) v).toLocal.trans (ih _)
  | memRead width pa k ih => exact .bind (s.memRead_acts (W := []) ..).toLocal ih
  | memWrite width pa v k ih => exact .bind (s.memWrite_acts (W := []) ..).toLocal fun _ => ih
  | bread width pa k ih => exact .bind (s.hostRead_acts (W := []) ..).toLocal ih
  | bwrite width pa v k ih => exact .bind (s.hostWrite_acts (W := []) ..).toLocal fun _ => ih
  | push v k ih => exact .bind (s.push_acts (mem_allRegs _) v).toLocal fun _ => ih
  | pop k ih => exact .bind (s.pop_acts (mem_allRegs _)).toLocal ih
  | iget pa k ih => exact .bind (s.iget_local _) ih

/-! ## The two relations a step is in -/

theorem State.halt_local (s : State) (code : Word) : s.Local (s.halt code) := by
  unfold State.halt
  split
  · exact .refl s
  · exact .of_eq rfl rfl rfl

theorem State.die_local (s : State) (f : CoreFault) : s.Local (s.die f) := by
  unfold State.die
  split
  · exact .refl s
  · exact (s.setSelf_local _).trans (State.halt_local _ 1)

theorem local_stepClosed : StepClosed State.Local where
  refl := .refl
  trans _ _ _ := .trans
  acts _ _ _ h := h.toLocal
  icache _ _ := .of_eq rfl rfl rfl
  iset _ _ := .of_eq rfl rfl rfl
  halt := State.halt_local
  die := State.die_local
  handler s _ h _ := by
    cases h with
    | given acts => exact (runActs_acts acts [] s).toLocal
    | free n => exact VirtProg.run_local _ s

/-- A core that is out of Reset moves along an edge exactly if it does not get back there, nor out of Halted (R311). -/
theorem lifecycleEdge_iff {l m : Lifecycle} (hl : l ≠ .reset) :
    lifecycleEdge l m ↔ m ≠ .reset ∧ (l.isHalted = true → m = l) := by
  cases l <;> cases m <;> simp_all [lifecycleEdge, Lifecycle.isHalted]

/-- The parameters stay, and the own core, if it is out of Reset, moves along an edge or not at all, if free handlers
do. -/
def State.Follows (s t : State) : Prop :=
  t.cfg = s.cfg ∧ (handlersFollowEdges s.cfg → s.self.life ≠ .reset →
    t.self.life ≠ .reset ∧ (s.self.life.isHalted = true → t.self.life = s.self.life))

theorem State.Follows.of_life {s t : State} (cfg : t.cfg = s.cfg) (life : t.self.life = s.self.life) : s.Follows t :=
  ⟨cfg, fun _ nr => ⟨life ▸ nr, fun _ => life⟩⟩

theorem State.Follows.trans {s t u : State} (h : s.Follows t) (k : t.Follows u) : s.Follows u := by
  refine ⟨k.1.trans h.1, fun follow nr => ?_⟩
  obtain ⟨nt, ht⟩ := h.2 follow nr
  obtain ⟨nu, hu⟩ := k.2 (h.1.symm ▸ follow) nt
  exact ⟨nu, fun halted => (hu (ht halted ▸ halted)).trans (ht halted)⟩

theorem State.halt_follows (s : State) (code : Word) : s.Follows (s.halt code) := by
  refine ⟨(s.halt_local code).cfg, fun _ nr => ⟨(State.halt_life s code nr).1, fun halted => ?_⟩⟩
  rw [State.halt_halted code halted]

theorem State.die_follows (s : State) (f : CoreFault) : s.Follows (s.die f) := by
  unfold State.die
  split
  · exact .of_life rfl rfl
  · have recorded : s.Follows { s with self := { s.self with lastException := some f } } := .of_life rfl rfl
    exact recorded.trans (State.halt_follows _ 1)

theorem follows_stepClosed : StepClosed State.Follows where
  refl _ := .of_life rfl rfl
  trans _ _ _ := .trans
  acts _ _ _ h := .of_life h.cfg h.life
  icache _ _ := .of_life rfl rfl
  iset _ _ := .of_life rfl rfl
  halt := State.halt_follows
  die := State.die_follows
  handler s index h hh := by
    cases h with
    | given acts =>
      have a := runActs_acts acts [] s
      exact .of_life a.cfg a.life
    | free n =>
      refine ⟨(VirtProg.run_local _ s).cfg, fun follow nr => ?_⟩
      exact (lifecycleEdge_iff nr).mp (follow index n hh s nr)

/-! ## The row of cores -/

theorem forall₂_getElem? {R : Core → Core → Prop} {l m : List Core} (h : List.Forall₂ R l m) {j : Nat} {c : Core}
    (hc : l[j]? = some c) : ∃ d, m[j]? = some d ∧ R c d := by
  induction h generalizing j with
  | nil => cases hc
  | cons hd _ ih =>
    cases j with
    | zero =>
      cases hc
      exact ⟨_, rfl, hd⟩
    | succ j => exact ih hc

/-- The row of cores stands to the row before as the executing core and the others do. -/
theorem State.Local.forall₂_cores {R : Core → Core → Prop} {s t : State} (h : s.Local t)
    (others : ∀ c d, Core.released c d → R c d) (own : R s.self t.self) : List.Forall₂ R s.cores t.cores :=
  List.rel_append (h.before.imp others) (.cons own (h.after.imp others))

theorem State.Local.selfId {s t : State} (h : s.Local t) : t.selfId = s.selfId := h.before.length_eq.symm

/-- Every other core stands in its place, and only lost copies. -/
theorem State.Local.other {s t : State} (h : s.Local t) {j : Nat} {c : Core} (ne : j ≠ s.selfId)
    (hc : s.cores[j]? = some c) : ∃ d, t.cores[j]? = some d ∧ c.released d := by
  have same : s.Local { t with self := s.self } := ⟨h.cfg, h.before, h.after⟩
  have rows := same.forall₂_cores (fun _ _ => id) (Core.released_refl _)
  rw [State.cores_with_self t, h.selfId] at rows
  obtain ⟨d, hd, released⟩ := forall₂_getElem? rows hc
  exact ⟨d, (List.getElem?_set_ne ne.symm).symm.trans hd, released⟩

/-- What a transition can be: a step of a Booted core, or a host operation that is asked for. -/
theorem step_cases {s t : State} (h : step s = .next t) :
    (∃ (ops : List HostOp) (n k : Nat), k < s.nCores ∧ (s.inputs = [] ∨ s.inputs = .step k :: ops)
        ∧ (State.focus { s with inputs := ops, tick := n } k).self.life = .booted
        ∧ (State.focus { s with inputs := ops, tick := n } k).stepSelf = .next t)
      ∨ ∃ (op : HostOp) (ops : List HostOp), s.inputs = op :: ops ∧ State.hostOp { s with inputs := ops } op = .next t := by
  have stepped {u : State} {k : Nat} (hu : u.stepCore k = .next t) :
      k < u.nCores ∧ (u.focus k).self.life = .booted ∧ (u.focus k).stepSelf = .next t := by
    unfold State.stepCore at hu
    split at hu
    · split at hu
      · next lt runnable =>
        refine ⟨lt, ?_, hu⟩
        unfold Core.isRunnable Lifecycle.isBooted at runnable
        split at runnable
        · assumption
        all_goals cases runnable
      · cases hu
    · cases hu
  unfold step at h
  split at h
  · next op ops hi =>
    unfold State.transition at h
    split at h
    · next k =>
      obtain ⟨lt, booted, ht⟩ := stepped h
      exact .inl ⟨ops, s.tick, k, lt, .inr hi, booted, ht⟩
    · exact .inr ⟨op, ops, hi, h⟩
  · next hi =>
    split at h
    · next k u chosen =>
      obtain ⟨_, none⟩ | ⟨j, _, n, some⟩ := s.choose_cases Config.schedule s.runnable
      · cases none.symm.trans chosen
      · cases some.symm.trans chosen
        obtain ⟨lt, booted, ht⟩ := stepped h
        have same : ({ s with tick := n } : State) = { s with inputs := [], tick := n } := by rw [← hi]
        rw [same] at booted ht
        exact .inl ⟨[], n, k, lt, .inl hi, booted, ht⟩
    · cases h

/-- Settles O53: a step is local to the core that executes. -/
theorem otherCoresOnlyLoseCopies : Obligations.OtherCoresOnlyLoseCopies := by
  intro s t k rest hi h j c ne hc
  obtain ⟨ops, n, k', lt, asked, _, ht⟩ | ⟨op, ops, hi', ht⟩ := step_cases h
  · rw [hi] at asked
    obtain asked | asked := asked <;> cases asked
    obtain ⟨cores, selfId, _⟩ := State.focus_of_lt (s := { s with inputs := rest, tick := n }) lt
    exact (local_stepClosed.stepSelf ht).other (by rwa [selfId]) (cores ▸ hc)
  · rw [hi] at hi'
    cases hi'
    cases ht

/-! ## Host operations -/

/-- The parameters stay, and a core whose lifecycle state changes goes from a state in `P` to one in `Q`. -/
structure State.Moves (P Q : Lifecycle → Prop) (s t : State) : Prop where
  cfg : t.cfg = s.cfg
  lives : List.Forall₂ (fun c d : Core => d.life = c.life ∨ P c.life ∧ Q d.life) s.cores t.cores

variable {P Q : Lifecycle → Prop} {s t u : State}

theorem State.Moves.of_cores (cfg : t.cfg = s.cfg) (cores : t.cores = s.cores) : s.Moves P Q t :=
  ⟨cfg, cores ▸ List.forall₂_same.mpr fun _ _ => .inl rfl⟩

theorem State.Moves.refl (s : State) : s.Moves P Q s := .of_cores rfl rfl

theorem State.Moves.trans (h : s.Moves P Q t) (k : t.Moves P Q u) : s.Moves P Q u := by
  refine ⟨k.cfg.trans h.cfg, forall₂_trans (fun c d e hc hd => ?_) h.lives k.lives⟩
  obtain hd | ⟨hp, hq⟩ := hd
  · rw [hd]
    exact hc
  · obtain hc | ⟨hp', _⟩ := hc
    · exact .inr ⟨hc ▸ hp, hq⟩
    · exact .inr ⟨hp', hq⟩

theorem State.Local.moves (h : s.Local t) (own : t.self.life = s.self.life ∨ P s.self.life ∧ Q t.self.life) :
    s.Moves P Q t :=
  ⟨h.cfg, h.forall₂_cores (fun c d r => .inl (by rw [r.1])) own⟩

theorem State.focus_moves (s : State) (k : Nat) : s.Moves P Q (s.focus k) :=
  .of_cores (s.focus_rest k).1 (s.focus_cores k)

theorem State.onCores_moves {op : State → State} (hop : ∀ u, State.Moves P Q u (op u)) (ks : List Nat) (s : State) :
    s.Moves P Q (State.onCores op ks s) := by
  induction ks generalizing s with
  | nil => exact .refl s
  | cons k rest ih => exact ((s.focus_moves k).trans (hop _)).trans (ih _)

theorem State.bootFrom_moves (hop : ∀ a u, State.Moves P Q u (State.boot a u)) (args : List BootArgs) (k : Nat)
    (s : State) : s.Moves P Q (State.bootFrom k args s) := by
  induction args generalizing k s with
  | nil => exact .refl s
  | cons a rest ih => exact ((s.focus_moves k).trans (hop a _)).trans (ih _ _)

/-- A core that halts was not halted before (R311, R315). -/
theorem State.halt_moves (s : State) (code : Word) : s.Moves (·.isHalted = false) (·.isHalted = true) (s.halt code) := by
  cases nh : s.self.life.isHalted with
  | true => rw [State.halt_halted code nh]; exact .refl s
  | false => exact (s.halt_local code).moves (.inr ⟨nh, by rw [State.halt_self_life code nh]; rfl⟩)

theorem State.die_moves (s : State) (f : CoreFault) : s.Moves (·.isHalted = false) (·.isHalted = true) (s.die f) := by
  cases nh : s.self.life.isHalted with
  | true => rw [State.die_halted f nh]; exact .refl s
  | false => exact (s.die_local f).moves (.inr ⟨nh, by rw [(State.die_taken f nh).1]; rfl⟩)

theorem State.suspend_moves (s : State) : s.Moves (· = .booted) (· = .suspended) s.suspend := by
  rw [State.suspend_eq_ite]
  refine (s.setSelf_local _).moves ?_
  split
  · next booted => exact .inr ⟨booted, rfl⟩
  · exact .inl rfl

theorem State.wakeUp_moves (s : State) : s.Moves (· = .suspended) (· = .booted) s.wakeUp := by
  rw [State.wakeUp_eq_ite]
  refine (s.setSelf_local _).moves ?_
  split
  · next suspended => exact .inr ⟨suspended, rfl⟩
  · exact .inl rfl

theorem State.boot_moves (args : BootArgs) (s : State) : s.Moves (· = .reset) (· = .booted) (s.boot args) := by
  rw [State.boot_eq_ite]
  refine (s.setSelf_local _).moves ?_
  split
  · next reset => exact .inr ⟨reset, rfl⟩
  · exact .inl rfl

theorem State.dieFree_moves (f : CoreFault) (s : State) :
    s.Moves (·.isHalted = false) (·.isHalted = true) (s.dieFree f) := by
  obtain ⟨_, e⟩ | ⟨k, n, _, _, _, e⟩ := s.dieFree_cases f
  · rw [e]
    exact .refl s
  · rw [e]
    have counted : s.Moves (·.isHalted = false) (·.isHalted = true) { s with tick := n } := .of_cores rfl rfl
    exact (counted.trans (State.focus_moves _ k)).trans (State.die_moves _ f)

theorem Res.orDie_moves {r : Res Unit} (h : s.Moves (·.isHalted = false) (·.isHalted = true) r.state) :
    s.Moves (·.isHalted = false) (·.isHalted = true) r.orDie := by
  cases r with
  | ok a t => exact h
  | raise f t => exact h.trans (t.die_moves f)

theorem Res.orDieFree_moves {r : Res Unit} (h : s.Moves (·.isHalted = false) (·.isHalted = true) r.state) :
    s.Moves (·.isHalted = false) (·.isHalted = true) r.orDieFree := by
  cases r with
  | ok a t => exact h
  | raise f t => exact h.trans (t.dieFree_moves f)

theorem State.pageCall_cores (s : State) (pages : List Nat) (fault : Option Nat) :
    (s.pageCall pages fault).state.cfg = s.cfg ∧ (s.pageCall pages fault).state.cores = s.cores := by
  unfold State.pageCall
  split <;> exact ⟨rfl, rfl⟩

/-- An interrupt wakes the core, and may kill it (R296). -/
theorem State.irq_local (s : State) (index : Nat) :
    s.Local (s.irq index) ∧ lifecycleEdge s.self.life (s.irq index).self.life := by
  unfold State.irq
  split
  · next accepted =>
    have alive : s.self.life = .booted ∨ s.self.life = .suspended := by
      unfold State.acceptsIrq at accepted
      split at accepted
      · next e => exact .inl e
      · next e => exact .inr e
      all_goals cases accepted
    have woken : s.Local (s.setLife .booted) := .of_eq rfl rfl rfl
    have entry := (s.setLife .booted).enterInterrupt_acts s.cfg.irqTable index
    split
    · next a t e =>
      rw [e] at entry
      have life : t.self.life = .booted := entry.life
      refine ⟨woken.trans entry.toLocal, ?_⟩
      rw [life]
      obtain e | e := alive <;> simp [lifecycleEdge, e]
    · next f t e =>
      rw [e] at entry
      have life : t.self.life = .booted := entry.life
      refine ⟨(woken.trans entry.toLocal).trans (t.die_local f), ?_⟩
      have taken := (State.die_taken (s := t) f (by rw [life]; rfl)).1
      rw [taken]
      obtain e | e := alive <;> simp [lifecycleEdge, e, Lifecycle.isHalted]
  · exact ⟨.refl s, .inl rfl⟩

/-! ## The statements about every transition -/

/-- The parameters stay, and every core moves along an edge of the lifecycle or not at all (R41, R311). -/
def State.MovesAlong (s t : State) : Prop :=
  t.cfg = s.cfg ∧ List.Forall₂ (fun c d : Core => lifecycleEdge c.life d.life) s.cores t.cores

theorem State.Moves.along (h : s.Moves P Q t) (edge : ∀ l m, P l → Q m → lifecycleEdge l m) : s.MovesAlong t :=
  ⟨h.cfg, h.lives.imp fun _ _ hm => hm.elim .inl fun m => edge _ _ m.1 m.2⟩

theorem State.Local.movesAlong (h : s.Local t) (own : lifecycleEdge s.self.life t.self.life) : s.MovesAlong t :=
  ⟨h.cfg, h.forall₂_cores (fun _ _ r => .inl (by rw [r.1])) own⟩

/-- Seen from the state in which the core asked for is not yet in front. -/
theorem State.MovesAlong.of_focus {k : Nat} (h : (s.focus k).MovesAlong t) : s.MovesAlong t := by
  obtain ⟨cfg, cores⟩ := h
  exact ⟨cfg.trans (s.focus_rest k).1, s.focus_cores k ▸ cores⟩

theorem State.onCore_movesAlong {op : State → State} {k : Nat} (hop : ∀ u, State.MovesAlong u (op u))
    (h : s.onCore k op = .next t) : s.MovesAlong t := by
  unfold State.onCore at h
  split at h
  · cases h
    exact .of_focus (hop _)
  · cases h

theorem State.hostOp_movesAlong {op : HostOp} (h : s.hostOp op = .next t) : s.MovesAlong t := by
  have boots (u : State) (a : BootArgs) := (State.boot_moves a u).along fun l m hl hm => .inr (.inl ⟨hl, hm⟩)
  have suspends (l m : Lifecycle) (hl : l = .booted) (hm : m = .suspended) : lifecycleEdge l m :=
    .inr (.inr (.inl ⟨hl, hm⟩))
  have wakes (l m : Lifecycle) (hl : l = .suspended) (hm : m = .booted) : lifecycleEdge l m :=
    .inr (.inr (.inr (.inl ⟨hl, hm⟩)))
  have halts (l m : Lifecycle) (hl : l.isHalted = false) (hm : m.isHalted = true) : lifecycleEdge l m :=
    .inr (.inr (.inr (.inr ⟨hl, hm⟩)))
  cases op with
  | step k => cases h
  | boot k args => exact State.onCore_movesAlong (fun u => boots u args) h
  | suspend k => exact State.onCore_movesAlong (fun u => u.suspend_moves.along suspends) h
  | wakeUp k => exact State.onCore_movesAlong (fun u => u.wakeUp_moves.along wakes) h
  | halt k code => exact State.onCore_movesAlong (fun u => (u.halt_moves code).along halts) h
  | die k f => exact State.onCore_movesAlong (fun u => (u.die_moves f).along halts) h
  | irq k index =>
    refine State.onCore_movesAlong (fun u => ?_) h
    obtain ⟨loc, edge⟩ := u.irq_local index
    exact loc.movesAlong edge
  | cpuBoot args =>
    rw [State.hostOp] at h
    split at h
    · cases h
      exact (State.bootFrom_moves State.boot_moves args 0 s).along fun l m hl hm => .inr (.inl ⟨hl, hm⟩)
    · cases h
  | cpuSuspend =>
    cases h
    exact (State.onCores_moves State.suspend_moves _ s).along suspends
  | cpuWakeUp =>
    cases h
    exact (State.onCores_moves State.wakeUp_moves _ s).along wakes
  | cpuHalt =>
    cases h
    exact (State.onCores_moves (State.halt_moves · 0) _ s).along halts
  | pageCall pages fault =>
    cases h
    obtain ⟨cfg, cores⟩ := s.pageCall_cores pages fault
    exact (Res.orDieFree_moves (.of_cores cfg cores)).along halts
  | memoryStructureChange a size wb =>
    cases h
    have acts := s.onMemoryStructureChange_acts (W := []) a size wb
    exact (Res.orDieFree_moves (acts.toLocal.moves (.inl acts.life))).along halts
  | release k sel wb rm =>
    refine State.onCore_movesAlong (op := fun u => (u.releaseOwn sel wb rm).orDie) (fun u => ?_) h
    have acts := u.releaseOwn_acts (W := []) sel wb rm
    exact (Res.orDie_moves (acts.toLocal.moves (.inl acts.life))).along halts

/-- Settles O18: a step is local to its core and keeps the parameters, and so does every host operation. -/
theorem parametersNeverChange : Obligations.ParametersNeverChange := by
  intro s t h
  obtain ⟨ops, n, k, _, _, _, ht⟩ | ⟨op, ops, _, ht⟩ := step_cases h
  · have loc := local_stepClosed.stepSelf ht
    have rows := loc.forall₂_cores (R := fun _ _ => True) (fun _ _ _ => trivial) trivial
    refine ⟨loc.cfg.trans (State.focus_rest _ k).1, rows.length_eq.symm.trans ?_⟩
    rw [State.focus_cores]
    rfl
  · obtain ⟨cfg, rows⟩ := State.hostOp_movesAlong ht
    exact ⟨cfg, rows.length_eq.symm⟩

/-- Settles O17: a step moves the core that executes along an edge, the others stay, and each host operation moves cores
along the edge it is named for. -/
theorem lifecycleMovesAlongItsEdges : Obligations.LifecycleMovesAlongItsEdges := by
  intro s t follow h
  obtain ⟨ops, n, k, _, _, booted, ht⟩ | ⟨op, ops, _, ht⟩ := step_cases h
  · have nr : (State.focus { s with inputs := ops, tick := n } k).self.life ≠ .reset := by
      rw [booted]
      nofun
    obtain ⟨_, moved⟩ := follows_stepClosed.stepSelf ht
    have edge := (lifecycleEdge_iff nr).mpr (moved ((State.focus_rest _ k).1.symm ▸ follow) nr)
    exact ((local_stepClosed.stepSelf ht).movesAlong edge).of_focus.2
  · exact (State.hostOp_movesAlong ht).2

/-! ## The invariant -/

/-- An operation leaves a well-formed machine whose core is out of Reset. -/
theorem Res.finish_inv {r : Res Unit} (inv : r.state.Inv) (nr : r.state.self.life ≠ .reset) (h : r.finish = .next t) :
    t.Inv := by
  cases r with
  | ok a u =>
    cases h
    exact State.Inv_setReg inv nr _ _
  | raise f u =>
    cases h
    exact (State.die_inv inv f).1

section Effects

variable (inv : s.Inv) (hr : s.self.registered = true)

include inv hr

theorem State.setReg_safe (r : Reg) (v : Word) : (Res.ok () (s.setReg r v)).Safe :=
  ⟨State.Inv_setReg inv (inv.not_reset hr) r v, hr⟩

theorem State.setFlags_safe (f : Flags) : (Res.ok () (s.setFlags f)).Safe :=
  ⟨State.Inv_setFlags inv (inv.not_reset hr) f, hr⟩

/-- A register write and then one of the flags, which loads and the arithmetic-logic template end with. -/
theorem State.setRegFlags_safe (r : Reg) (v : Word) (f : Flags) : (Res.ok () ((s.setReg r v).setFlags f)).Safe :=
  State.setFlags_safe (s := s.setReg r v) (State.Inv_setReg inv (inv.not_reset hr) r v) hr f

theorem State.checkDest_safe (r : Reg) : (s.checkDest r).Safe := by
  unfold Res.Safe
  rw [State.checkDest_state]
  exact ⟨inv, hr⟩

theorem State.load_safe (width : Width) (ra rb : Reg) (imm : Half) : (s.load width ra rb imm).Safe :=
  (State.checkDest_safe inv hr ra).bind fun _ _ ht rt => (State.memRead_safe ht rt _ _).bind fun _ _ hu ru =>
    State.setRegFlags_safe hu ru _ _ _

theorem State.store_safe (width : Width) (ra rb : Reg) (imm : Half) : (s.store width ra rb imm).Safe :=
  State.memWrite_safe inv hr _ _ _

theorem State.alu_safe (divides : Bool) (op : AluOp) (ra : Reg) (b : Word) : (s.alu divides op ra b).Safe := by
  refine (State.checkDest_safe inv hr ra).bind fun _ t ht rt => ?_
  split
  · exact ⟨ht, rt⟩
  · exact State.setRegFlags_safe ht rt _ _ _

theorem State.branch_safe (taken : Bool) (imm : Half) : (Res.ok () (s.branch taken imm)).Safe := by
  rw [State.branch_eq_jump]
  exact State.setReg_safe inv hr _ _

theorem State.callTo_safe (target : Word) : (s.callTo target).Safe :=
  (State.createFrame_safe inv hr).bind fun _ _ ht rt => State.setReg_safe ht rt _ _

/-- Every effect but that of `HLT` keeps the invariant and the core in the registry, by the laws of the shared
operations it is made of. -/
theorem effectOf_safe {i : Instr} (hlt : ∀ ra, i ≠ .hlt ra) (keep : s.cfg.handlersKeep) : (effectOf i s).Safe := by
  cases i with
  | nop => exact ⟨inv, hr⟩
  | li | liu => exact (State.checkDest_safe inv hr _).bind fun _ _ ht rt => State.setRegFlags_safe ht rt _ _ _
  | mov => exact (State.checkDest_safe inv hr _).bind fun _ _ ht rt => State.setReg_safe ht rt _ _
  | lb | lw | ld => exact State.load_safe inv hr ..
  | stb | stw | std => exact State.store_safe inv hr ..
  | push => exact State.push_safe inv hr _
  | pop =>
    exact (State.checkDest_safe inv hr _).bind fun _ _ ht rt => (State.pop_safe ht rt).bind fun _ _ hu ru =>
      State.setReg_safe hu ru _ _
  | cmp | cmpi | cli | sti | lpm => exact State.setFlags_safe inv hr _
  | j | jr => exact State.setReg_safe inv hr _ _
  | be | bne | bz | bnz | bo | bno | bs | bns => exact State.branch_safe inv hr _ _
  | call | callr => exact State.callTo_safe inv hr _
  | ret => exact State.destroyFrame_safe inv hr
  | int imm => exact State.doInt_safe inv hr keep imm
  | retint => exact State.exitInterrupt_safe inv hr
  | hlt ra => exact absurd rfl (hlt ra)
  | sis imm => exact State.switchSet_safe inv hr _
  | _ => exact State.alu_safe inv hr ..

end Effects

theorem exec_inv {i : Instr} (inv : s.Inv) (hr : s.self.registered = true) (keep : s.cfg.handlersKeep)
    (h : exec i s = .next t) : t.Inv := by
  obtain ⟨_, _, rfl⟩ | ⟨_, ended⟩ := exec_cases h
  · exact (State.die_inv inv _).1
  by_cases hlt : ∃ ra, i = .hlt ra
  · obtain ⟨ra, rfl⟩ := hlt
    obtain ⟨u, e, rfl⟩ | ⟨f, u, e, _⟩ := ended
    · cases e
      exact State.Inv_setReg (State.halt_inv inv _).1 (State.halt_life s _ (inv.not_reset hr)).1 _ _
    · cases e
  · obtain ⟨inv', hr'⟩ := effectOf_safe inv hr (fun ra e => hlt ⟨ra, e⟩) keep
    obtain ⟨u, e, rfl⟩ | ⟨f, u, e, rfl⟩ := ended
    · rw [e] at inv' hr'
      exact State.Inv_setReg inv' (State.Inv.not_reset inv' hr') _ _
    · rw [e] at inv'
      exact (State.die_inv inv' f).1

theorem performOther_inv {table code : Nat} (inv : s.Inv) (hr : s.self.registered = true)
    (keep : s.cfg.handlersKeep) (off : ((Config.freeTable table).execute code).haltsOffMemory)
    (h : s.performOther table code = .next t) : t.Inv := by
  unfold State.performOther State.checkPrivilege at h
  split at h
  · cases h
    exact (State.die_inv inv _).1
  · obtain ⟨inv', nr, _⟩ := TableProg.run_fine _ off keep inv hr rfl
    exact Res.finish_inv inv' nr h

theorem stepSelf_inv (inv : s.Inv) (hr : s.self.registered = true) (keep : s.cfg.handlersKeep)
    (off : s.cfg.tableHaltsOffMemory) (h : s.stepSelf = .next t) : t.Inv := by
  obtain ⟨inv', hr'⟩ := State.fetch_safe inv hr
  have cfg := (local_stepClosed.fetch s).cfg
  unfold State.stepSelf at h
  cases e : s.fetch with
  | ok i u =>
    rw [e] at h inv' hr' cfg
    have keep' : u.cfg.handlersKeep := cfg.symm ▸ keep
    cases i with
    | dk0 i => exact exec_inv inv' hr' keep' h
    | other table code =>
      have replaced : s.cfg.table ≠ .dk0 := fun dk0 => by
        have ofTable := State.fetch_ofTable inv e
        rw [dk0] at ofTable
        cases ofTable
      exact performOther_inv inv' hr' keep' (off replaced table code) h
  | raise f u =>
    rw [e] at h inv'
    cases h
    exact (State.die_inv inv' f).1

theorem State.irq_inv (inv : s.Inv) (index : Nat) : (s.irq index).Inv := by
  unfold State.irq
  split
  · next accepted =>
    have alive : s.self.life.isAlive = true := by
      unfold State.acceptsIrq at accepted
      split at accepted
      · next e => rw [e]; rfl
      · next e => rw [e]; rfl
      all_goals cases accepted
    have hr : s.self.registered = true := by
      obtain ⟨_, _, wf, _⟩ := State.Inv_iff.mp inv
      obtain ⟨_, _, _, registered, _⟩ := wf
      exact registered.trans alive
    have woken : (s.setLife .booted).Inv := State.setLife_inv inv alive rfl
    have safe := State.enterInterrupt_safe woken hr s.cfg.irqTable index
    split
    · next a u e => rw [e] at safe; exact safe.1
    · next f u e => rw [e] at safe; exact (State.die_inv safe.1 f).1
  · exact inv

theorem State.onCores_inv {op : State → State} (hop : ∀ u, State.Inv u → (op u).Inv) (ks : List Nat) (inv : s.Inv) :
    (State.onCores op ks s).Inv := by
  induction ks generalizing s with
  | nil => exact inv
  | cons k rest ih => exact ih (hop _ (State.focus_inv inv k))

theorem State.bootFrom_inv (args : List BootArgs) (k : Nat) (inv : s.Inv) : (State.bootFrom k args s).Inv := by
  induction args generalizing k s with
  | nil => exact inv
  | cons a rest ih => exact ih _ (State.boot_inv (State.focus_inv inv k) a)

theorem State.onCore_inv {op : State → State} {k : Nat} (hop : ∀ u, State.Inv u → (op u).Inv) (inv : s.Inv)
    (h : s.onCore k op = .next t) : t.Inv := by
  unfold State.onCore at h
  split at h
  · cases h
    exact hop _ (State.focus_inv inv k)
  · cases h

theorem State.hostOp_inv {op : HostOp} (inv : s.Inv) (h : s.hostOp op = .next t) : t.Inv := by
  cases op with
  | step k => cases h
  | boot k args => exact State.onCore_inv (fun u hu => State.boot_inv hu args) inv h
  | suspend k => exact State.onCore_inv (fun u hu => State.suspend_inv hu) inv h
  | wakeUp k => exact State.onCore_inv (fun u hu => State.wakeUp_inv hu) inv h
  | halt k code => exact State.onCore_inv (fun u hu => (State.halt_inv hu code).1) inv h
  | die k f => exact State.onCore_inv (fun u hu => (State.die_inv hu f).1) inv h
  | irq k index => exact State.onCore_inv (fun u hu => State.irq_inv hu index) inv h
  | cpuBoot args =>
    rw [State.hostOp] at h
    split at h
    · cases h
      exact State.bootFrom_inv args 0 inv
    · cases h
  | cpuSuspend =>
    cases h
    exact State.onCores_inv (fun u hu => State.suspend_inv hu) _ inv
  | cpuWakeUp =>
    cases h
    exact State.onCores_inv (fun u hu => State.wakeUp_inv hu) _ inv
  | cpuHalt =>
    cases h
    exact State.onCores_inv (fun u hu => (State.halt_inv hu 0).1) _ inv
  | pageCall pages fault =>
    cases h
    obtain ⟨e, inv'⟩ := State.pageCall_inv inv pages fault
    rw [e]
    exact inv'
  | memoryStructureChange a size wb =>
    cases h
    obtain ⟨u, e, swept⟩ := State.onMemoryStructureChange_swept inv a size wb
    rw [e]
    exact swept.inv inv
  | release k sel wb rm =>
    refine State.onCore_inv (op := fun u => (u.releaseOwn sel wb rm).orDie) (fun u hu => ?_) inv h
    have inv' := State.releaseOwn_inv hu sel wb rm
    rw [State.releaseOwn_ok hu] at inv' ⊢
    exact inv'

/-- Settles O11: a step runs laws that keep the invariant on a core that is registered because it is Booted, and so
does every host operation. -/
theorem stepKeepsInvariant : Obligations.StepKeepsInvariant := by
  intro s t inv keep off h
  obtain ⟨ops, n, k, _, _, booted, ht⟩ | ⟨op, ops, _, ht⟩ := step_cases h
  · have inv' : (State.focus { s with inputs := ops, tick := n } k).Inv :=
      State.focus_inv (s := { s with inputs := ops, tick := n }) inv k
    have cfg := (State.focus_rest { s with inputs := ops, tick := n } k).1
    have registered : (State.focus { s with inputs := ops, tick := n } k).self.registered = true := by
      obtain ⟨_, _, wf, _⟩ := State.Inv_iff.mp inv'
      obtain ⟨_, _, _, registered, _⟩ := wf
      rw [registered, booted]
      rfl
    exact stepSelf_inv inv' registered (cfg.symm ▸ keep) (cfg.symm ▸ off) ht
  · exact State.hostOp_inv (s := { s with inputs := ops }) inv ht

end Sys2Proof.Machine
end

section
/-! PROOFS. The step of one core: the fetch and its three faults, what runs after it, and which core steps (R80, R81, R150
to R153, R161, R285). -/

namespace Sys2Proof.Machine

open Sys2Proof.Spec

/-! ## The statements' own words for decoding and running -/

theorem decodesTo_iff {s : State} {w : Word} {insn : Insn} :
    decodesTo s w insn ↔ s.cfg.decodeInsn s.self.iset w = some insn := by
  unfold decodesTo Config.decodeInsn
  cases s.cfg.table with
  | dk0 => cases decode s.self.iset w <;> simp [eq_comm]
  | other n => simp

theorem runsAs_eq (insn : Insn) (s : State) : runsAs insn s = execInsn insn s := by
  cases insn with
  | dk0 i => rfl
  | other n code =>
    rw [runsAs, execInsn, State.performOther, State.checkPrivilege, Insn.isPrivileged]
    by_cases protect : (Config.freeTable n).isPrivileged code = true ∧ s.flags.privileged = false
    · rw [if_pos protect, if_pos (by simp [protect])]
      rfl
    · rw [if_neg protect, if_neg (by simpa using protect), Res.bind_ok]
      cases TableProg.run ((Config.freeTable n).execute code) s <;> rfl

/-! ## The instruction cache and the fetch -/

theorem State.bread32_of_read {s : State} {a : Nat} (read : s.cfg.backendOf.read s.mem s.allocated a 4 = false) :
    s.bread32 a = .ok (s.mem.dword a) s := by
  rw [State.bread32, Memory.bread32, read]
  rfl

theorem icacheFind_none {c : List IEntry} {a : Nat} (miss : ∀ e ∈ c, e.addr ≠ a) : icacheFind c a = none := by
  simpa [icacheFind, List.find?_eq_none] using miss

section Fetch

variable {s : State} (al : s.fetchAddr % 4 = 0)

include al

/-- The fetch on a hit (R80): the entry becomes the most recently used. -/
theorem State.fetch_hit {insn : Insn}
    (hit : s.self.icache.find? (fun e => e.addr == s.fetchAddr) = some ⟨s.fetchAddr, insn⟩) :
    s.fetch = .ok insn ((s.setIcache
      (s.self.icache.filter (fun e => e.addr != s.fetchAddr) ++ [⟨s.fetchAddr, insn⟩])).setReg .ip (s.reg .ip + 4)) := by
  unfold State.fetch State.iget icacheFind
  rw [if_pos al, hit]
  rfl

variable (miss : ∀ e ∈ s.self.icache, e.addr ≠ s.fetchAddr)

include miss

/-- The fetch on a miss reads the word and decodes it (R80, R152). -/
theorem State.fetch_miss : s.fetch = (s.bread32 s.fetchAddr).bind fun w t =>
    match t.cfg.decodeInsn t.self.iset w with
    | some i => .ok i (State.advance (t.setIcache (icacheInsert t.cfg t.self.icache ⟨s.fetchAddr, i⟩)))
    | none => .raise (.invalidOpcode w s.fetchAddr) t := by
  unfold State.fetch State.iget
  rw [if_pos al, icacheFind_none miss, Res.bind_assoc]
  refine congrArg _ (funext fun w => funext fun t => ?_)
  cases t.cfg.decodeInsn t.self.iset w <;> rfl

theorem State.fetch_backendFault (fault : s.cfg.backendOf.read s.mem s.allocated s.fetchAddr 4 = true) :
    s.fetch = .raise (.backendFault s.fetchAddr) s := by
  rw [State.fetch_miss al miss, State.bread32, Memory.bread32, if_pos fault]
  rfl

variable (read : s.cfg.backendOf.read s.mem s.allocated s.fetchAddr 4 = false)

include read

theorem State.fetch_invalidOpcode (invalid : ∀ insn, ¬ decodesTo s (s.mem.dword s.fetchAddr) insn) :
    s.fetch = .raise (.invalidOpcode (s.mem.dword s.fetchAddr) s.fetchAddr) s := by
  have undecoded : s.cfg.decodeInsn s.self.iset (s.mem.dword s.fetchAddr) = none :=
    Option.eq_none_iff_forall_ne_some.mpr fun i e => invalid i (decodesTo_iff.mpr e)
  rw [State.fetch_miss al miss, State.bread32_of_read read, Res.bind_ok, undecoded]

theorem State.fetch_decoded {insn : Insn} (decodes : decodesTo s (s.mem.dword s.fetchAddr) insn) :
    s.fetch = .ok insn ((s.setIcache (icacheInsert s.cfg s.self.icache ⟨s.fetchAddr, insn⟩)).setReg .ip
      (s.reg .ip + 4)) := by
  rw [State.fetch_miss al miss, State.bread32_of_read read, Res.bind_ok, decodesTo_iff.mp decodes]
  rfl

end Fetch

theorem State.stepSelf_ok {s t : State} {insn : Insn} (h : s.fetch = .ok insn t) : s.stepSelf = runsAs insn t := by
  rw [State.stepSelf, h, runsAs_eq]

theorem State.stepSelf_raise {s t : State} {f : CoreFault} (h : s.fetch = .raise f t) :
    s.stepSelf = .next (t.die f) := by
  rw [State.stepSelf, h]

/-- Settles O5: the step is the fetch and then what it fetched. -/
theorem stepRunsDecodedInstruction : Obligations.StepRunsDecodedInstruction := by
  intro s u k rest insn hi hk hu booted al
  rw [State.step_at hi hk hu booted]
  refine ⟨fun miss read decodes => ?_, fun hit => ?_⟩
  · exact State.stepSelf_ok (State.fetch_decoded al miss read decodes)
  · exact State.stepSelf_ok (State.fetch_hit al hit)

/-- Settles O6: the three checks of the fetch stand in this order, and each raises before `IP` is advanced. -/
theorem fetchFaultsKillAtTheInstruction : Obligations.FetchFaultsKillAtTheInstruction := by
  refine ⟨fun s u k rest hi hk hu booted => ⟨fun f => u.die_regs f, ?_⟩, fun cfg m pages a n v ref => ?_⟩
  · rw [State.step_at hi hk hu booted]
    by_cases al : u.fetchAddr % 4 = 0
    · rw [if_neg (not_not_intro al)]
      intro miss
      split
      · next fault => exact State.stepSelf_raise (State.fetch_backendFault al miss fault)
      · next read =>
        exact fun invalid =>
          State.stepSelf_raise (State.fetch_invalidOpcode al miss (Bool.eq_false_iff.mpr read) invalid)
    · rw [if_pos al]
      refine State.stepSelf_raise ?_
      unfold State.fetch State.iget
      rw [if_neg al]
      rfl
  · obtain ⟨read, write⟩ := Backend.reference_access ref m pages a n v
    rw [read, write]
    exact ⟨decide_eq_true_iff, decide_eq_true_iff, rfl⟩

/-! ## Which core steps -/

theorem Lifecycle.isBooted_iff (l : Lifecycle) : l.isBooted = true ↔ l = .booted := by
  cases l <;> simp [Lifecycle.isBooted]

theorem State.mem_runnable {s : State} {k : Nat} : k ∈ s.runnable ↔ ∃ c, s.cores[k]? = some c ∧ c.life = .booted := by
  unfold State.runnable
  rw [mem_numbersFrom]
  constructor
  · rintro ⟨j, c, e, hc, runnable⟩
    rw [Nat.zero_add] at e
    exact ⟨c, e ▸ hc, (Lifecycle.isBooted_iff _).mp runnable⟩
  · rintro ⟨c, hc, booted⟩
    exact ⟨k, c, (Nat.zero_add k).symm, hc, (Lifecycle.isBooted_iff _).mpr booted⟩

theorem step_asked {s : State} {k : Nat} {rest : List HostOp} (hi : s.inputs = .step k :: rest) :
    step s = State.stepCore k { s with inputs := rest } := by
  unfold step
  rw [hi]
  rfl

theorem step_idle {s : State} (hi : s.inputs = []) (idle : s.nextCore = none) : step s = .fault .noEnabledStep := by
  unfold step
  rw [hi, idle]

theorem step_scheduled {s t : State} {k : Nat} (hi : s.inputs = []) (chosen : s.nextCore = some (k, t)) :
    step s = t.stepCore k := by
  unfold step
  rw [hi, chosen]

/-- Settles O7: the scheduler's choice is one of the runnable cores. -/
theorem schedulerChoosesABootedCore : Obligations.SchedulerChoosesABootedCore := by
  intro s hi
  refine ⟨fun k => State.mem_runnable, fun idle => ?_, fun busy => ?_⟩
  · exact step_idle hi (congrArg (State.choose Config.schedule · s) idle)
  · obtain ⟨idle, _⟩ | ⟨k, hk, n, chosen⟩ := s.choose_cases Config.schedule s.runnable
    · exact absurd idle busy
    · refine ⟨k, hk, n, ?_⟩
      rw [step_scheduled hi chosen, step_asked rfl]
      show State.stepCore k { s with tick := n } = State.stepCore k { s with inputs := [], tick := n }
      rw [← hi]

/-- Settles O8: `stepCore` looks at the lifecycle state first (R161). -/
theorem notBootedHasNoStep : Obligations.NotBootedHasNoStep := by
  intro s k rest c hi hc other
  obtain ⟨lt, self_eq, _⟩ := State.focus_at (rest := rest) hc
  have idle : ¬ c.isRunnable = true := fun h => other ((Lifecycle.isBooted_iff _).mp h)
  rw [step_asked hi, State.stepCore, if_pos (show k < State.nCores { s with inputs := rest } from lt), self_eq,
    if_neg idle]

end Sys2Proof.Machine
end

section
/-! PROOFS. Registers, addresses, accessors and the exit status: what reads the state without changing it (R26, R30, R60,
R317 to R319, R340). -/

namespace Sys2Proof.Machine

open Sys2Proof.Spec

theorem Core.reset_wf {cfg : Config} (table : 1 ≤ cfg.nIsets) : Core.reset.wf cfg :=
  ⟨⟨Nat.zero_le _, List.nodup_nil, nofun⟩, ⟨Nat.zero_le _, List.nodup_nil, nofun⟩, table, rfl, fun _ => rfl,
    fun _ => rfl, nofun⟩

/-- Settles O10: every core is `Core.reset`, which is well formed and not registered, so nothing is coherent or
incoherent with it. -/
theorem resetInvariant : Obligations.ResetInvariant := by
  intro cfg siblings mem wf ref table mem_wf bound
  have reset : ∀ c ∈ (State.resetOf cfg siblings mem).cores, c = Core.reset := by
    rw [State.cores_resetOf]
    exact fun c => List.eq_of_mem_replicate
  have unregistered (c : Core) (hc : c ∈ (State.resetOf cfg siblings mem).cores) : ¬ c.registered = true := by
    rw [reset c hc]
    exact Bool.false_ne_true
  refine ⟨wf, ⟨mem_wf, bound, rfl, ref⟩, fun c hc => reset c hc ▸ Core.reset_wf table, ?_, fun c hc => ?_⟩
  · exact List.pairwise_of_forall_mem_list fun c hc _ _ registered => absurd registered (unregistered c hc)
  · exact fun registered => absurd registered (unregistered c hc)

/-! ## The exit status -/

theorem Core.exitCode_eq_some {c : Core} {code : Word} : c.exitCode = some code ↔ c.life = .halted code := by
  unfold Core.exitCode
  cases c.life <;> simp

/-- Cores that are not Halted, or are with code 0, do not count. -/
theorem exitStatus_append {before : List Core} (rest : List Core)
    (zero : ∀ c ∈ before, ∀ code, c.life = .halted code → code = 0) :
    exitStatus (before ++ rest) = exitStatus rest := by
  induction before with
  | nil => rfl
  | cons c before ih =>
    have tail := ih fun d hd => zero d (List.mem_cons_of_mem c hd)
    rw [List.cons_append, exitStatus]
    split
    · next code h =>
      rw [if_pos (zero c List.mem_cons_self code (Core.exitCode_eq_some.mp h)), tail]
    · exact tail

/-- Settles O15: the cores before the first code other than 0 do not count, and that code ends the search. -/
theorem vmExitStatus : Obligations.VmExitStatus := by
  refine fun s => ⟨fun zero => ?_, fun before c after code cores halted ne zero => ?_⟩
  · have h := exitStatus_append [] zero
    rwa [List.append_nil] at h
  · rw [State.vmExitStatus, cores, exitStatus_append _ zero, exitStatus, Core.exitCode_eq_some.mpr halted]
    exact if_neg ne

/-- Settles O16: each accessor returns fields of the core. -/
theorem accessorsReadTheState : Obligations.AccessorsReadTheState := by
  refine ⟨fun cfg c => ⟨Lifecycle.isBooted_iff _, ?_, fun wf off => ?_, rfl, rfl, fun code => Core.exitCode_eq_some,
    fun f n => ?_⟩, ?_⟩
  · rw [Core.backtrace, List.map_reverse]
  · obtain ⟨_, _, _, _, frames, _⟩ := wf
    rw [Core.backtrace, frames off]
    rfl
  · show c.lastException.map (fun f => (f, f.code)) = some (f, n) ↔ _
    cases c.lastException with
    | none => simp
    | some g =>
      simp only [Option.map_some, Option.some.injEq, Prod.mk.injEq]
      exact ⟨fun ⟨e, hn⟩ => ⟨e, hn ▸ e ▸ rfl⟩, fun ⟨e, hn⟩ => ⟨e, hn ▸ e ▸ rfl⟩⟩
  · exact ⟨fun _ _ => rfl, fun _ => rfl, fun _ => rfl, fun _ => rfl, fun _ => rfl, rfl, fun _ => rfl, fun _ => rfl,
      fun _ => rfl, fun _ => rfl⟩

/-! ## Addresses and `FLAGS` -/

theorem physAddr_eq (seg off : Word) : physAddr seg off = (seg.toNat * 2 ^ 16 + off.toNat) % 2 ^ 32 := by
  rw [physAddr, segShift, BitVec.toNat_add, BitVec.toNat_shiftLeft, Nat.shiftLeft_eq, Nat.mod_add_mod]

/-- Settles O19: every address but a vector's is a `physAddr` by definition. -/
theorem physicalAddress : Obligations.PhysicalAddress :=
  ⟨physAddr_eq, fun _ => rfl, rfl, fun _ _ _ => physAddr_eq _ _, fun _ => ⟨physAddr_eq _ _, physAddr_eq _ _⟩,
    fun _ _ => rfl⟩

theorem Flags.toWord_eq_sum (f : Flags) :
    f.toWord = (if f.privileged then 1 else 0) + (if f.hwintEnabled then 2 else 0) + (if f.equal then 4 else 0)
      + (if f.zero then 8 else 0) + (if f.overflow then 16 else 0) + (if f.sign then 32 else 0) := by
  obtain ⟨p, h, e, z, o, n⟩ := f
  revert p h e z o n
  decide

/-- Settles O20. -/
theorem flagsRegister : Obligations.FlagsRegister :=
  fun s v => ⟨rfl, Flags.toWord_ofWord v, Flags.toWord_eq_sum s.flags⟩

end Sys2Proof.Machine
end

section
/-! PROOFS. The host operations: halting and dying with what the flush writes back, the CPU-level operations, interrupt
requests that are dropped, `release` and memory-structure changes (R12, R88, R92, R109, R281, R296, R315 to R317). -/

namespace Sys2Proof.Machine

open Sys2Proof.Spec

/-! ## What an operation on core `k` leaves -/

theorem State.sameBytes_of_granules {s t : State} (h : ∀ b, b % 2 = 0 → t.granuleNow b = s.granuleNow b) :
    s.sameBytes t :=
  fun a => State.byteNow_of_granule (h _ (granule_even a))

theorem State.focus_sameBytes (s : State) (k : Nat) : s.sameBytes (s.focus k) :=
  State.sameBytes_of_granules fun b _ => State.focus_granuleNow s k b

/-- An operation on core `k` that gives the core another value, and may write the backend. -/
theorem State.replaced_at {s u : State} {rest : List HostOp} {k : Nat} {c : Core} (hc : s.cores[k]? = some c)
    (hu : u = State.focus { s with inputs := rest } k) (m : Memory) (d : Core) :
    State.cores { u with mem := m, self := d } = s.cores.set k d
      ∧ sameRest { s with inputs := rest } { u with mem := m, self := d } := by
  obtain ⟨_, _, cores_eq, id_eq⟩ := State.focus_at (rest := rest) hc
  obtain ⟨cfg_eq, _, pages_eq, inputs_eq, tick_eq⟩ := State.focus_rest { s with inputs := rest } k
  rw [← hu] at cores_eq id_eq cfg_eq pages_eq inputs_eq tick_eq
  refine ⟨(State.cores_with_self (u.setMem m) d).trans ?_, cfg_eq, pages_eq, inputs_eq, tick_eq⟩
  show u.cores.set u.selfId d = s.cores.set k d
  rw [cores_eq, id_eq]

/-- The machine with core `k` brought to the front and an input consumed, where nothing else happened. -/
theorem State.focus_unchanged {s u : State} {rest : List HostOp} {k : Nat} {c : Core} (hc : s.cores[k]? = some c)
    (hu : u = State.focus { s with inputs := rest } k) :
    u.self = c ∧ u.cores = s.cores ∧ u.mem = s.mem ∧ sameRest { s with inputs := rest } u ∧ s.sameBytes u
      ∧ (s.Inv → u.Inv) := by
  obtain ⟨_, self_eq, cores_eq, _⟩ := State.focus_at (rest := rest) hc
  obtain ⟨cfg_eq, mem_eq, pages_eq, inputs_eq, tick_eq⟩ := State.focus_rest { s with inputs := rest } k
  subst hu
  exact ⟨self_eq, cores_eq, mem_eq, ⟨cfg_eq, pages_eq, inputs_eq, tick_eq⟩, State.focus_sameBytes _ _,
    fun inv => State.focus_inv (s := { s with inputs := rest }) inv k⟩

/-! ## `halt` and `die` on a well-formed machine -/

/-- `halt` flushes, and makes the core `halted` (R315). -/
theorem State.halt_eq_halted {s : State} (inv : s.Inv) (code : Word) (alive : s.self.life.isHalted = false) :
    s.halt code = { s with mem := s.flush.mem, self := halted code s.self } :=
  State.halt_eq inv code alive

theorem State.die_eq_halted {s : State} (inv : s.Inv) (f : CoreFault) (alive : s.self.life.isHalted = false) :
    s.die f = { s with mem := s.flush.mem, self := { halted 1 s.self with lastException := some f } } :=
  State.die_eq inv f alive

theorem State.halt_sameBytes {s : State} (inv : s.Inv) (code : Word) : s.sameBytes (s.halt code) :=
  State.sameBytes_of_granules (State.halt_inv inv code).2

theorem State.die_sameBytes {s : State} (inv : s.Inv) (f : CoreFault) : s.sameBytes (s.die f) :=
  State.sameBytes_of_granules (State.die_inv inv f).2

/-- After the flush of a registered core the backend holds every value its cache holds: a dirty one was written back,
and a clean one was there already (R103, R315). -/
theorem State.flush_holds {s : State} (inv : s.Inv) (registered : s.self.registered = true) {e : DEntry}
    (he : e ∈ s.self.dcache) : s.flush.mem.half e.addr = e.value := by
  obtain ⟨_, nodup, even⟩ := inv.dcacheWf s.self s.self_mem
  rw [State.flush_half inv _ (even e he).1]
  cases found : s.self.dcache.find? fun f => f.addr == e.addr && f.dirty with
  | none =>
    have clean : e.dirty = false := by simpa using List.find?_eq_none.mp found e he
    obtain ⟨_, _, _, _, _, _, clean_eq, _⟩ := State.Inv_iff.mp inv
    exact (clean_eq registered e he clean).symm
  | some f =>
    have same : f.addr = e.addr := by
      have h := List.find?_some found
      simp only [Bool.and_eq_true, beq_iff_eq] at h
      exact h.1
    rw [entry_unique nodup (List.mem_of_find?_eq_some found) he same]
    rfl

/-- Settles O49. -/
theorem dieRecordsAndFlushes : Obligations.DieRecordsAndFlushes := by
  refine fun s f inv => ⟨State.die_halted f, fun alive => ?_, fun k rest c hi hc => ?_⟩
  · have e := State.die_eq_halted inv f alive
    refine ⟨by rw [e], by rw [e], by rw [e], by rw [e]; exact ⟨rfl, rfl, rfl, rfl⟩, State.die_sameBytes inv f,
      fun registered x hx => ?_⟩
    rw [e]
    exact State.flush_holds inv registered hx
  · obtain ⟨self_eq, cores_eq, _, same, bytes, keep⟩ := State.focus_unchanged (rest := rest) hc rfl
    refine ⟨_, (State.step_host hi nofun).trans (State.onCore_at hc (State.die f)), ?_⟩
    by_cases halted : c.life.isHalted = true
    · rw [State.die_halted f (self_eq ▸ halted), if_pos halted]
      exact ⟨bytes, same, cores_eq⟩
    · have died := State.die_sameBytes (keep inv) f
      rw [State.die_eq_halted (keep inv) f (by rw [self_eq]; exact Bool.eq_false_iff.mpr halted)] at died ⊢
      rw [if_neg halted, ← self_eq]
      obtain ⟨replaced, rest_eq⟩ := State.replaced_at (rest := rest) hc rfl _ _
      exact ⟨fun a => (died a).trans (bytes a), rest_eq, replaced⟩

/-! ## The flush entry by entry, where the backend may fault -/

/-- The flush of a row of entries whose write-backs all succeed goes on with the entries after it (R88, R315). -/
theorem releaseEntries_all_append {cfg : Config} {older : List DEntry} (rest : List DEntry) {m m' : Memory}
    {pages pages' : List Nat} (h : writeBacks cfg older (m, pages) = some (m', pages')) :
    releaseEntries cfg .all true false pages (older ++ rest) m =
      let r := releaseEntries cfg .all true false pages' rest m'
      { r with entries := allClean older ++ r.entries } := by
  induction older generalizing m pages with
  | nil =>
    obtain ⟨rfl, rfl⟩ : m = m' ∧ pages = pages' := by simpa [writeBacks] using h
    rfl
  | cons e older ih =>
    rw [List.cons_append, releaseEntries, if_pos (show Selector.hits cfg .all e.addr = true from rfl)]
    rw [writeBacks] at h
    by_cases dirty : e.dirty = true
    · rw [if_pos (by rw [dirty]; rfl)]
      rw [if_pos dirty] at h
      cases write : m.bwrite16 cfg pages e.addr e.value with
      | mk written pages₁ =>
        rw [write] at h
        cases written with
        | none => cases h
        | some m₁ =>
          simp only [ih h]
          rfl
    · rw [if_neg (by simp [dirty])]
      rw [if_neg dirty] at h
      have clean : { e with dirty := false } = e := by rw [← Bool.eq_false_iff.mpr dirty]
      simp only [ih h, allClean, List.map_cons, clean]
      rfl

theorem releaseEntries_all_ok {cfg : Config} {d : List DEntry} {m m' : Memory} {pages pages' : List Nat}
    (h : writeBacks cfg d (m, pages) = some (m', pages')) :
    releaseEntries cfg .all true false pages d m = ⟨allClean d, m', pages', none⟩ := by
  have e := releaseEntries_all_append [] h
  rw [List.append_nil] at e
  rw [e]
  simp [releaseEntries]

theorem releaseEntries_all_fault {cfg : Config} {older newer : List DEntry} {e : DEntry} {m m' : Memory}
    {pages pages' : List Nat} (h : writeBacks cfg older (m, pages) = some (m', pages')) (dirty : e.dirty = true)
    (fault : (m'.bwrite16 cfg pages' e.addr e.value).1 = none) :
    releaseEntries cfg .all true false pages (older ++ e :: newer) m =
      ⟨allClean older ++ e :: newer, m', (m'.bwrite16 cfg pages' e.addr e.value).2, some e.addr⟩ := by
  have first : releaseEntries cfg .all true false pages' (e :: newer) m' =
      ⟨e :: newer, m', (m'.bwrite16 cfg pages' e.addr e.value).2, some e.addr⟩ := by
    rw [releaseEntries, if_pos (show Selector.hits cfg .all e.addr = true from rfl), if_pos (by rw [dirty]; rfl)]
    cases write : m'.bwrite16 cfg pages' e.addr e.value with
    | mk written pages₁ =>
      rw [write] at fault
      cases fault
      rfl
  rw [releaseEntries_all_append (e :: newer) h, first]

/-- What `halt` leaves, in the words of the flush (R315). -/
theorem State.halt_unfolded {s : State} (code : Word) (alive : s.self.life.isHalted = false) {d : List DEntry}
    {m : Memory} {pages : List Nat} {fault : Option Nat} (flush : s.flush = ⟨d, m, pages, fault⟩) :
    s.halt code = { s with
      mem := m
      allocated := pages
      self := { s.self with
        dcache := d
        lastException := s.self.lastException.or (fault.map .backendFault)
        registered := false
        life := .halted code } } := by
  rw [State.halt, alive, flush]
  rfl

/-- Settles O50: the flush either ends or stops at the first write-back that faults; the host's operation on core `k` is
`halt` of that core brought to the front. -/
theorem haltAbsorbsAFlushFault : Obligations.HaltAbsorbsAFlushFault := by
  refine ⟨fun s code alive => ?_, fun s u k code rest c hi hc hu => ?_⟩
  · refine ⟨?_, ?_, s.halt_regs code, fun m pages wrote => ?_, fun older e newer m pages entries wrote dirty fault => ?_⟩
    · rw [State.halt_unfolded code alive rfl]
    · rw [State.halt_unfolded code alive rfl]
    · rw [State.halt_unfolded code alive (releaseEntries_all_ok wrote)]
      exact ⟨rfl, Option.or_none, rfl, rfl⟩
    · have flush := releaseEntries_all_fault (newer := newer) wrote dirty fault
      rw [← entries] at flush
      rw [State.halt_unfolded code alive flush]
      refine ⟨rfl, ?_, rfl, rfl⟩
      cases s.self.lastException <;> rfl
  · obtain ⟨self_eq, cores_eq, _, _, bytes, keep⟩ := State.focus_unchanged hc hu
    refine ⟨self_eq, ?_, fun halted => ?_, fun inv alive => ?_⟩
    · rw [hu]
      exact (State.step_host hi nofun).trans (State.onCore_at hc (State.halt code))
    · rw [State.halt_halted code (self_eq ▸ halted), cores_eq]
    · have same := State.halt_sameBytes (keep inv) code
      rw [State.halt_eq_halted (keep inv) code (self_eq ▸ alive)] at same ⊢
      rw [← self_eq]
      obtain ⟨replaced, rest_eq⟩ := State.replaced_at hc hu _ _
      exact ⟨replaced, fun a => (same a).trans (bytes a), rest_eq⟩

/-! ## The CPU-level operations -/

/-- An operation that keeps `P` and gives the executing core another value, done on each core of a list in turn, gives
each core of the list its value, whatever the order (log entry 22). -/
theorem State.onCores_each {P : State → Prop} {op : State → State} {g : Core → Core}
    (focus : ∀ u k, P u → P (u.focus k))
    (hop : ∀ u, P u → P (op u) ∧ (op u).cores = u.cores.set u.selfId (g u.self)) {ks : List Nat} (nodup : ks.Nodup)
    {s : State} (hs : P s) (exist : ∀ k ∈ ks, k < s.nCores) :
    P (s.onCores op ks) ∧ ∀ i, (s.onCores op ks).cores[i]? = (s.cores[i]?).map fun c => if i ∈ ks then g c else c := by
  induction ks generalizing s with
  | nil => exact ⟨hs, fun i => by simp [State.onCores]⟩
  | cons k ks ih =>
    obtain ⟨new, nodup⟩ := List.nodup_cons.mp nodup
    have lt := exist k List.mem_cons_self
    obtain ⟨cores_eq, id_eq, self_eq, _⟩ := State.focus_of_lt lt
    obtain ⟨kept, replaced⟩ := hop (s.focus k) (focus s k hs)
    rw [cores_eq, id_eq, self_eq] at replaced
    have exist' : ∀ j ∈ ks, j < (op (s.focus k)).nCores := fun j hj => by
      rw [State.nCores, replaced, List.length_set]
      exact exist j (List.mem_cons_of_mem k hj)
    obtain ⟨last, each⟩ := ih nodup kept exist'
    refine ⟨last, fun i => (each i).trans ?_⟩
    rw [replaced]
    by_cases same : i = k
    · subst same
      rw [List.getElem?_set_self lt, List.getElem?_eq_getElem lt]
      simp [new]
    · rw [List.getElem?_set_ne (Ne.symm same)]
      simp [same]

theorem State.onCores_all {P : State → Prop} {op : State → State} {g : Core → Core}
    (focus : ∀ u k, P u → P (u.focus k))
    (hop : ∀ u, P u → P (op u) ∧ (op u).cores = u.cores.set u.selfId (g u.self)) {s : State} (hs : P s) :
    P (s.onCores op (List.range s.nCores)) ∧ (s.onCores op (List.range s.nCores)).cores = s.cores.map g := by
  obtain ⟨kept, each⟩ := State.onCores_each focus hop List.nodup_range hs fun k => List.mem_range.mp
  refine ⟨kept, List.ext_getElem? fun i => (each i).trans ?_⟩
  rw [List.getElem?_map]
  by_cases lt : i < s.nCores
  · simp [lt]
  · simp [List.getElem?_eq_none (Nat.le_of_not_lt lt)]

/-- What `CPU.boot` makes of a core, with the entry state matched to it, if there is one (R317). -/
def bootedBy (args : Option BootArgs) (c : Core) : Core :=
  args.elim c fun a => if c.life = .reset then booted a c else c

/-- `CPU.boot` from core `k` on: core `k + n` gets the `n`-th entry state (R317). -/
theorem State.bootFrom_each {P : State → Prop} (focus : ∀ u k, P u → P (u.focus k))
    (hop : ∀ args u, P u → P (State.boot args u)) {args : List BootArgs} {k : Nat} {s : State} (hs : P s)
    (exist : k + args.length ≤ s.nCores) :
    P (s.bootFrom k args) ∧ ∀ i, (s.bootFrom k args).cores[i]? =
      (s.cores[i]?).map (if k ≤ i then bootedBy args[i - k]? else id) := by
  induction args generalizing k s with
  | nil =>
    refine ⟨hs, fun i => ?_⟩
    have none_booted : (if k ≤ i then bootedBy ([] : List BootArgs)[i - k]? else id) = id := ite_self id
    rw [none_booted, Option.map_id]
    rfl
  | cons a args ih =>
    rw [List.length_cons] at exist
    have lt : k < s.nCores := by omega
    obtain ⟨cores_eq, id_eq, self_eq, _⟩ := State.focus_of_lt lt
    have replaced : (State.boot a (s.focus k)).cores = s.cores.set k (bootedBy (some a) s.cores[k]) := by
      rw [State.boot_eq_ite, State.cores_with_self, cores_eq, id_eq, self_eq]
      rfl
    have exist' : k + 1 + args.length ≤ (State.boot a (s.focus k)).nCores := by
      rw [State.nCores, replaced, List.length_set]
      exact (Nat.add_right_comm k 1 args.length).trans_le exist
    obtain ⟨last, each⟩ := ih (hop a _ (focus s k hs)) exist'
    refine ⟨last, fun i => (each i).trans ?_⟩
    rw [replaced]
    obtain below | rfl | above := Nat.lt_trichotomy i k
    · rw [List.getElem?_set_ne (Nat.ne_of_gt below), if_neg (by omega), if_neg (by omega)]
    · rw [List.getElem?_set_self lt, List.getElem?_eq_getElem lt, if_neg (by omega), if_pos (Nat.le_refl i), Nat.sub_self]
      rfl
    · rw [List.getElem?_set_ne (Nat.ne_of_lt above), if_pos (show k + 1 ≤ i from above), if_pos (Nat.le_of_lt above),
        show i - k = i - (k + 1) + 1 by omega, List.getElem?_cons_succ]

/-- Memory and everything but the cores is as in `s`: what `boot`, `suspend` and `wake_up` keep. -/
def State.onlyCoresDiffer (s t : State) : Prop := t.mem = s.mem ∧ sameRest s t

theorem State.onlyCoresDiffer.focus {s u : State} (h : s.onlyCoresDiffer u) (k : Nat) : s.onlyCoresDiffer (u.focus k) := by
  obtain ⟨mem, cfg, pages, inputs, tick⟩ := h
  obtain ⟨cfg_eq, mem_eq, pages_eq, inputs_eq, tick_eq⟩ := u.focus_rest k
  exact ⟨mem_eq.trans mem, cfg_eq.trans cfg, pages_eq.trans pages, inputs_eq.trans inputs, tick_eq.trans tick⟩

theorem State.onlyCoresDiffer.self {s u : State} (h : s.onlyCoresDiffer u) (c : Core) :
    s.onlyCoresDiffer { u with self := c } := h

/-- The machine is well formed, and its current bytes and everything else but its cores and backend are as in `s`: what
`halt` keeps. -/
def State.haltsKeep (s t : State) : Prop := t.Inv ∧ s.sameBytes t ∧ sameRest s t

theorem State.haltsKeep.focus {s u : State} (h : s.haltsKeep u) (k : Nat) : s.haltsKeep (u.focus k) := by
  obtain ⟨inv, bytes, cfg, pages, inputs, tick⟩ := h
  obtain ⟨cfg_eq, _, pages_eq, inputs_eq, tick_eq⟩ := u.focus_rest k
  exact ⟨State.focus_inv inv k, fun a => (u.focus_sameBytes k a).trans (bytes a), cfg_eq.trans cfg,
    pages_eq.trans pages, inputs_eq.trans inputs, tick_eq.trans tick⟩

theorem State.haltsKeep.halt {s u : State} (h : s.haltsKeep u) (code : Word) :
    s.haltsKeep (u.halt code)
      ∧ (u.halt code).cores = u.cores.set u.selfId (if u.self.life.isHalted then u.self else halted code u.self) := by
  obtain ⟨inv, bytes, same⟩ := h
  have keep : (u.halt code).Inv ∧ s.sameBytes (u.halt code) :=
    ⟨(State.halt_inv inv code).1, fun a => (State.halt_sameBytes inv code a).trans (bytes a)⟩
  by_cases stopped : u.self.life.isHalted = true
  · rw [State.halt_halted code stopped, if_pos stopped]
    exact ⟨⟨inv, bytes, same⟩, State.cores_with_self u u.self⟩
  · rw [State.halt_eq_halted inv code (Bool.eq_false_iff.mpr stopped)] at keep ⊢
    rw [if_neg stopped]
    exact ⟨⟨keep.1, keep.2, same⟩, State.cores_with_self (u.setMem u.flush.mem) _⟩

/-- Settles O14: each operation acts on the cores one after the other, and what it does to one core depends on that core
alone. -/
theorem cpuOperations : Obligations.CpuOperations := by
  intro s rest inv
  have start : State.onlyCoresDiffer { s with inputs := rest } { s with inputs := rest } := ⟨rfl, rfl, rfl, rfl, rfl⟩
  refine ⟨fun hi => ?_, fun hi => ?_, fun hi => ?_, fun args hi le => ?_⟩
  · obtain ⟨⟨mem, same⟩, cores⟩ := State.onCores_all (op := State.suspend)
      (g := fun c => if c.life = .booted then { c with life := .suspended } else c) (fun _ k h => h.focus k)
      (fun u h => by
        rw [State.suspend_eq_ite]
        exact ⟨h.self _, State.cores_with_self u _⟩) start
    exact ⟨_, State.step_host hi nofun, mem, same, cores⟩
  · obtain ⟨⟨mem, same⟩, cores⟩ := State.onCores_all (op := State.wakeUp)
      (g := fun c => if c.life = .suspended then { c with life := .booted } else c) (fun _ k h => h.focus k)
      (fun u h => by
        rw [State.wakeUp_eq_ite]
        exact ⟨h.self _, State.cores_with_self u _⟩) start
    exact ⟨_, State.step_host hi nofun, mem, same, cores⟩
  · have starts : State.haltsKeep { s with inputs := rest } { s with inputs := rest } :=
      ⟨inv, fun _ => rfl, rfl, rfl, rfl, rfl⟩
    obtain ⟨⟨_, bytes, same⟩, cores⟩ := State.onCores_all (op := State.halt 0)
      (g := fun c => if c.life.isHalted then c else halted 0 c) (fun _ k h => h.focus k)
      (fun u h => h.halt 0) starts
    exact ⟨_, State.step_host hi nofun, bytes, same, cores⟩
  · obtain ⟨⟨mem, same⟩, cores⟩ := State.bootFrom_each (args := args) (k := 0) (fun _ k h => h.focus k)
      (fun a u h => by
        rw [State.boot_eq_ite]
        exact h.self _) start ((Nat.zero_add _).trans_le le)
    refine ⟨_, (State.step_host hi nofun).trans (if_pos le), mem, same, fun i => (cores i).trans ?_⟩
    rw [if_pos (Nat.zero_le i), Nat.sub_zero]
    cases args[i]? <;> rfl

/-! ## Interrupt requests that are dropped -/

theorem State.acceptsIrq_iff (s : State) :
    s.acceptsIrq = true ↔ (s.self.life = .booted ∨ s.self.life = .suspended) ∧ s.flags.hwintEnabled = true := by
  unfold State.acceptsIrq
  cases s.self.life <;> simp

/-- Settles O41: the request is checked first (R296). -/
theorem irqIsDropped : Obligations.IrqIsDropped := by
  intro s k index rest c hi hc dropped
  obtain ⟨self_eq, cores_eq, mem_eq, same, _⟩ := State.focus_unchanged (rest := rest) hc rfl
  refine ⟨_, (State.step_host hi nofun).trans (State.onCore_at hc (State.irq index)), ?_⟩
  have rejected : ¬ (State.focus { s with inputs := rest } k).acceptsIrq = true := by
    rw [State.acceptsIrq_iff, State.flags, self_eq]
    rintro ⟨alive, enabled⟩
    obtain reset | stopped | masked := dropped
    · rw [reset] at alive
      exact alive.elim nofun nofun
    · obtain booted | suspended := alive
      · rw [booted] at stopped
        cases stopped
      · rw [suspended] at stopped
        cases stopped
    · exact Bool.false_ne_true (masked.symm.trans enabled)
  rw [State.irq, if_neg rejected]
  exact ⟨cores_eq, mem_eq, same⟩

/-! ## `release` by the host -/

/-- Settles O60. -/
theorem hostReleaseFlushes : Obligations.HostReleaseFlushes := by
  refine ⟨fun s k rest c inv hi hc alive => ?_, fun s u k sel writeback remove rest f hi hk raised => ?_⟩
  · obtain ⟨self_eq, _, _, _, bytes, keep⟩ := State.focus_unchanged (rest := rest) hc rfl
    have inv' := keep inv
    have registered : (State.focus { s with inputs := rest } k).self.registered = true := by
      obtain ⟨_, _, ⟨_, _, _, registered, _⟩, _⟩ := State.Inv_iff.mp inv'
      rw [registered, self_eq]
      obtain booted | suspended := alive
      · rw [booted]; rfl
      · rw [suspended]; rfl
    have swept := State.sweptOwn inv' registered .all true false
    refine ⟨_, (State.step_host hi nofun).trans (State.onCore_at hc fun u =>
      (u.releaseOwn .all true false).orDie), ?_⟩
    rw [State.releaseOwn_ok inv']
    rw [releasedEntries_all] at swept ⊢
    obtain ⟨replaced, same⟩ := State.replaced_at (rest := rest) hc rfl
      (State.focus { s with inputs := rest } k).flush.mem { c with dcache := allClean c.dcache }
    subst self_eq
    refine ⟨fun a => Eq.trans ?_ (bytes a), same, replaced, fun e he => State.flush_holds inv' registered he⟩
    exact State.sameBytes_of_granules (fun b even => swept.granuleNow inv' even nofun) a
  · have hc := List.getElem?_eq_getElem hk
    refine (State.step_host hi nofun).trans ((State.onCore_at hc fun u =>
      (u.releaseOwn sel writeback remove).orDie).trans ?_)
    rw [raised]
    rfl

/-! ## Memory-structure changes and page calls -/

theorem State.withCores_rest (s : State) (k : Nat) (cs : List Core) : sameRest s (s.withCores k cs) := by
  unfold State.withCores
  split <;> exact ⟨rfl, rfl, rfl, rfl⟩

/-- A memory-structure change releases the range in every registered core, and leaves all but caches and bytes (R92). -/
theorem State.onMemoryStructureChange_ok {s : State} (inv : s.Inv) (a size : Nat) (writeback : Bool) :
    ∃ t, s.onMemoryStructureChange a size writeback = .ok () t
      ∧ Swept.Of s t s.cores (.range a size) writeback true ∧ sameRest s t
      ∧ t.cores = s.cores.map (Core.swept s.cfg (.range a size) writeback true)
      ∧ (writeback = false → t.mem = s.mem) := by
  obtain ⟨t, ht, swept⟩ := State.onMemoryStructureChange_swept inv a size writeback
  have served : ∀ c ∈ s.cores, entriesServed s.cfg c.dcache := fun c hc =>
    (inv.dcacheWf c hc).served inv.reference
  obtain ⟨ended, cores_eq, pages_eq⟩ :=
    sweepCores_served s.cfg s.allocated (.range a size) writeback true s.cores s.mem served
  have lt : s.selfId < (s.cores.map (Core.swept s.cfg (.range a size) writeback true)).length := by
    rw [List.length_map]
    exact (State.focus_at (rest := []) (s := s) (k := s.selfId) (c := s.self) (by simp [State.cores, State.selfId])).1
  have unfolded := ht
  unfold State.onMemoryStructureChange at unfolded
  simp only [ended, cores_eq, pages_eq] at unfolded
  cases unfolded
  obtain ⟨cfg, _, inputs, tick⟩ := s.withCores_rest s.selfId
    (s.cores.map (Core.swept s.cfg (.range a size) writeback true))
  refine ⟨_, ht, swept, ⟨cfg, rfl, inputs, tick⟩, State.withCores_cores lt, fun drop => ?_⟩
  rw [drop, sweepCores_noWriteback]
  rfl

theorem range_hits {cfg : Config} {a size b : Nat} :
    (Selector.range a size).hits cfg b = true ↔ a ≤ b ∧ b < a + size := by
  rw [Selector.hits, Bool.and_eq_true, decide_eq_true_iff, decide_eq_true_iff]

/-- After a `release` that removes, a registered core holds nothing that the selector hits (R88). -/
theorem Core.swept_removed {cfg : Config} {sel : Selector} {writeback : Bool} {c : Core}
    (registered : (c.swept cfg sel writeback true).registered = true) {e : DEntry}
    (he : e ∈ (c.swept cfg sel writeback true).dcache) : sel.hits cfg e.addr = false := by
  rw [(Core.thinned_swept ..).registered] at registered
  rw [Core.swept, if_pos registered] at he
  obtain ⟨f, _, removed, rfl⟩ := releasedEntries_mem (show e ∈ releasedEntries cfg sel writeback true c.dcache from he)
  exact removed rfl

/-- What a memory-structure change that ends leaves (R92, R104). -/
theorem State.onMemoryStructureChange_leaves {s : State} (inv : s.Inv) (a size : Nat) (writeback : Bool) :
    ∃ t, s.onMemoryStructureChange a size writeback = .ok () t ∧ sameRest s t
      ∧ List.Forall₂ Core.onlyDcache s.cores t.cores
      ∧ (∀ c ∈ t.cores, c.registered = true → ∀ e ∈ c.dcache, ¬ (a ≤ e.addr ∧ e.addr < a + size))
      ∧ (∀ b, b % 2 = 0 → writeback = true ∨ ¬ (a ≤ b ∧ b < a + size) → t.granuleNow b = s.granuleNow b)
      ∧ ∀ b, b % 2 = 0 → writeback = false → a ≤ b ∧ b < a + size → t.granuleNow b = s.mem.half b := by
  obtain ⟨t, ht, swept, same, cores_eq, kept⟩ := State.onMemoryStructureChange_ok inv a size writeback
  have removed : ∀ c ∈ t.cores, c.registered = true → ∀ e ∈ c.dcache, ¬ (a ≤ e.addr ∧ e.addr < a + size) := by
    rw [cores_eq]
    intro c hc registered e he hit
    obtain ⟨d, _, rfl⟩ := List.mem_map.mp hc
    exact Bool.false_ne_true ((Core.swept_removed registered he).symm.trans (range_hits.mpr hit))
  refine ⟨t, ht, same, ?_, removed, fun b even safe => ?_, fun b even drop inside => ?_⟩
  · rw [cores_eq, List.forall₂_map_right_iff, List.forall₂_same]
    exact fun c _ => Core.onlyDcache_swept ..
  · refine swept.granuleNow inv even fun _ drop hit => ?_
    obtain wb | outside := safe
    · exact absurd (drop.symm.trans wb) Bool.false_ne_true
    · exact absurd (range_hits.mp hit) outside
  · rw [← kept drop]
    exact State.granuleNow_of_clean (swept.inv inv) fun c hc registered e he at_b =>
      absurd (at_b.symm ▸ inside) (removed c hc registered e he)

/-- An operation asked of no core that raised: one of the cores that are not Halted dies (log entry 12). -/
theorem State.dieFree_someCoreDies (f : CoreFault) (u : State) : someCoreDies f u (.next (u.dieFree f)) := by
  obtain ⟨stopped, e⟩ | ⟨k, n, c, hc, alive, e⟩ := State.dieFree_cases f u
  · refine ⟨fun ⟨c, hc, alive⟩ => ?_, fun _ => congrArg _ e⟩
    exact absurd (alive.symm.trans (stopped c hc)) Bool.false_ne_true
  · refine ⟨fun _ => ⟨k, n, c, hc, alive, congrArg _ e⟩, fun stopped => ?_⟩
    exact absurd (alive.symm.trans (stopped c (List.mem_of_getElem? hc))) Bool.false_ne_true

theorem State.pageCall_reference {s : State} (ref : s.cfg.backend = .reference) (pages : List Nat)
    (fault : Option Nat) : s.pageCall pages fault = .ok () (s.setPages (markPages pages)) := by
  unfold State.pageCall
  rw [ref]

theorem State.pageCall_other {s : State} {n : Nat} (other : s.cfg.backend = .other n) (pages : List Nat)
    (fault : Option Nat) : s.pageCall pages fault =
      fault.elim (.ok () (s.setPages pages)) fun x => .raise (.backendFault x) (s.setPages pages) := by
  unfold State.pageCall
  rw [other]
  cases fault <;> rfl

/-- Settles O59. -/
theorem memoryStructureChange : Obligations.MemoryStructureChange := by
  refine ⟨fun s a size writeback rest hi => ⟨fun f u raised => ?_, fun inv => ?_⟩,
    fun s pages fault rest hi => ⟨fun ref => ⟨markPages pages, ?_, pagesWfAbove_markPages pages, fun _ => mem_markPages⟩,
      fun n other => ⟨fun served => ?_, fun x faulted => ?_⟩⟩⟩
  · rw [State.step_host hi nofun, State.hostOp, raised]
    exact State.dieFree_someCoreDies f u
  · obtain ⟨t, ht, left⟩ := State.onMemoryStructureChange_leaves (s := { s with inputs := rest }) inv a size writeback
    refine ⟨t, ?_, left⟩
    rw [State.step_host hi nofun, State.hostOp, ht]
    rfl
  · rw [State.step_host hi nofun, State.hostOp, State.pageCall_reference (s := { s with inputs := rest }) ref]
    rfl
  · rw [State.step_host hi nofun, State.hostOp, State.pageCall_other (s := { s with inputs := rest }) other, served]
    rfl
  · rw [State.step_host hi nofun, State.hostOp, State.pageCall_other (s := { s with inputs := rest }) other, faulted]
    exact State.dieFree_someCoreDies _ _

end Sys2Proof.Machine
end

section
/-! PROOFS. The instructions that stay inside the executing core: register moves, arithmetic and logic, compares, the flag
instructions, `HLT`, `SIS`, and the check of a destination (R27, R180 to R185, R200 to R227, R262 to R266). -/

namespace Sys2Proof.Machine

open Sys2Proof.Spec

/-! ## The statements' words for a register write -/

theorem protectedReg_iff (r : Reg) : protectedReg r = true ↔ r ∈ protectedRegs := by
  cases r <;> decide

theorem State.checkDest_mayWrite {s : State} {ra : Reg} (may : mayWrite s ra) : s.checkDest ra = .ok () s :=
  State.checkDest_ok fun protect => may ((protectedReg_iff ra).mp protect)

theorem State.checkDest_bind {s : State} {ra : Reg} (may : mayWrite s ra) (k : Unit → State → Res Unit) :
    (s.checkDest ra).bind k = k () s := by
  rw [State.checkDest_mayWrite may, Res.bind_ok]

theorem onlyRegs.sameBytes {s t : State} (h : onlyRegs s t) : s.sameBytes t :=
  fun a => (congrArg (State.byteNow · a) h).trans (State.byteNow_setRegs s _ a)

theorem State.writtenFlags_eq (s : State) (ra : Reg) (v : Word) : (s.setReg ra v).flags = writtenFlags s ra v :=
  s.flags_setReg ra v

theorem Flags.setZS_eq (f : Flags) (v : Word) : f.setZS v = zeroSign v f := by
  rw [Flags.setZS, zeroSign, BitVec.msb_eq_getLsbD_last]
  rfl

theorem Flags.setResult_eq (f : Flags) (v : Word) (ov : Bool) :
    f.setResult v ov = { zeroSign v f with overflow := ov } := by
  rw [Flags.setResult, zeroSign, BitVec.msb_eq_getLsbD_last]
  rfl

/-- Retiring leaves every register but `CNT`. -/
theorem State.reg_retire_ne (s : State) {q : Reg} (ne : q ≠ .cnt) : s.retire.reg q = s.reg q :=
  s.reg_setReg_ne .cnt q _ ne

theorem State.reg_retire_cnt (s : State) : s.retire.reg .cnt = s.reg .cnt + 1 :=
  s.reg_setReg_same .cnt _ nofun

theorem State.flags_retire (s : State) : s.retire.flags = s.flags := rfl

/-- A register write, then the flags, then the count of the instruction (R28, R30). -/
theorem wrote_of_writes (s : State) (ra : Reg) (v : Word) (f : Flags) :
    wrote s ((s.setReg ra v).setFlags f).retire ra v f := by
  refine ⟨fun q hq => ?_, fun not_flags not_cnt => ?_, ?_, rfl⟩
  · obtain ⟨other, not_flags, not_cnt⟩ : q ≠ ra ∧ q ≠ .flags ∧ q ≠ .cnt := by simpa using hq
    rw [State.reg_retire_ne _ not_cnt, State.reg_setFlags_ne _ _ _ not_flags, State.reg_setReg_ne _ _ _ _ other]
  · rw [State.reg_retire_ne _ not_cnt, State.reg_setFlags_ne _ _ _ not_flags, State.reg_setReg_same _ _ _ not_flags]
  · rw [State.reg_retire_cnt, State.reg_setFlags_ne _ _ .cnt nofun]
    split
    · next cnt => rw [cnt, State.reg_setReg_same _ .cnt _ nofun]
    · next other => rw [State.reg_setReg_ne _ _ _ _ (Ne.symm other)]

/-- The write of an operand and of flags, as the statements about one instruction give it. -/
theorem exec_of_writes {i : Instr} {s : State} {ra : Reg} {v : Word} {f : Flags} (hp : isPrivileged i = false)
    (he : effectOf i s = .ok () ((s.setReg ra v).setFlags f)) :
    ∃ t, exec i s = .next t ∧ onlyRegs s t ∧ s.sameBytes t ∧ wrote s t ra v f :=
  ⟨_, exec_of_ok (exec_eq i s) (.inl hp) he, rfl, onlyRegs.sameBytes rfl, wrote_of_writes s ra v f⟩

/-! ## Register moves -/

/-- A load of a register from an immediate or from memory, in the statements' words (R182). -/
theorem State.loadReg_eq (s : State) (ra : Reg) (v : Word) :
    s.loadReg ra v = (s.setReg ra v).setFlags (zeroSign v (writtenFlags s ra v)) := by
  rw [State.loadReg, State.writtenFlags_eq, Flags.setZS_eq]

theorem exec_of_loadReg {i : Instr} {s : State} {ra : Reg} {v : Word} (hp : isPrivileged i = false)
    (he : effectOf i s = .ok () (s.loadReg ra v)) :
    ∃ t, exec i s = .next t ∧ onlyRegs s t ∧ s.sameBytes t ∧ wrote s t ra v (zeroSign v (writtenFlags s ra v)) := by
  rw [State.loadReg_eq] at he
  exact exec_of_writes hp he

/-- Settles O21: each writes one register; `MOV` keeps the flags that its write leaves, and `NOP` goes to where `IP`
stands. -/
theorem nopAndRegisterMoves : Obligations.NopAndRegisterMoves := by
  refine fun s ra rb imm => ⟨exec_of_jump rfl rfl, fun may => ⟨?_, ?_, ?_⟩⟩
  · exact exec_of_loadReg rfl (State.checkDest_bind may _)
  · exact exec_of_loadReg rfl (State.checkDest_bind may _)
  · refine exec_of_writes rfl ((State.checkDest_bind may _).trans ?_)
    rw [← State.writtenFlags_eq]
    rfl

/-! ## Arithmetic and logic -/

/-- The template of R200, in the statements' words: what an instruction that uses it needs is its operation's result. -/
theorem computes_of_alu {i : Instr} {divides : Bool} {op : AluOp} {ra : Reg} {b : Word} {value : Word → Word}
    {overflow : Word → Bool} {s : State} (hp : isPrivileged i = false) (he : effectOf i s = s.alu divides op ra b)
    (divisor : divides = true → b ≠ 0) (result : ∀ a, op.result a b = value a)
    (carry : ∀ a, op.overflow a b = overflow a) : computes i ra value overflow s := by
  intro may
  refine exec_of_writes hp ?_
  have defined : ¬ (divides && b == 0) = true := by simpa using divisor
  rw [he, State.alu, State.checkDest_mayWrite may, Res.bind_ok, if_neg defined, State.aluWrite, result, carry,
    State.writtenFlags_eq, Flags.setResult_eq]

/-- Settles O25. -/
theorem addSubMulResults : Obligations.AddSubMulResults := by
  refine fun s ra rb imm => ⟨?_, ?_, ?_, ?_, ?_, ?_⟩
  · exact computes_of_alu rfl rfl nofun (fun _ => aluAdd_result _ _) fun _ => rfl
  · exact computes_of_alu rfl rfl nofun (fun _ => aluAdd_result _ _) fun _ => rfl
  · exact computes_of_alu rfl rfl nofun (fun _ => aluSub_result _ _) fun _ => rfl
  · exact computes_of_alu rfl rfl nofun (fun _ => aluSub_result _ _) fun _ => rfl
  · exact computes_of_alu rfl rfl nofun (fun _ => aluMul_result _ _) fun _ => rfl
  · exact computes_of_alu rfl rfl nofun (fun _ => aluMul_result _ _) fun _ => rfl

/-- The sign extension of an immediate keeps its low bits, so it is 0 only for 0 (R9). -/
theorem sext32_ne_zero {imm : Half} (ne : imm ≠ 0) : sext32 imm ≠ 0 := by
  intro zero
  refine ne (BitVec.eq_of_getLsbD_eq fun i lt => ?_)
  have bit : (sext32 imm).getLsbD i = (0 : Word).getLsbD i := by rw [zero]
  rw [sext32, BitVec.getLsbD_signExtend, if_pos lt, decide_eq_true (by omega), Bool.true_and] at bit
  simpa using bit

/-- Settles O26. -/
theorem divModResults : Obligations.DivModResults := by
  refine fun s ra rb imm => ⟨fun divisor => ⟨?_, ?_⟩, fun divisor => ⟨?_, ?_⟩⟩
  · exact computes_of_alu rfl rfl (fun _ => divisor) (fun _ => aluDiv_result _ _) fun _ => rfl
  · exact computes_of_alu rfl rfl (fun _ => divisor) (fun _ => aluMod_result _ _) fun _ => rfl
  · exact computes_of_alu rfl rfl (fun _ => sext32_ne_zero divisor) (fun _ => aluDiv_result _ _) fun _ => rfl
  · exact computes_of_alu rfl rfl (fun _ => sext32_ne_zero divisor) (fun _ => aluMod_result _ _) fun _ => rfl

/-- Settles O27. -/
theorem logicResults : Obligations.LogicResults := by
  refine fun s ra rb imm => ⟨?_, ?_, ?_, ?_, ?_, ?_, ?_⟩
  · exact computes_of_alu rfl rfl nofun (fun _ => aluAnd_result _ _) fun _ => rfl
  · exact computes_of_alu rfl rfl nofun (fun _ => aluAnd_result _ _) fun _ => rfl
  · exact computes_of_alu rfl rfl nofun (fun _ => aluOr_result _ _) fun _ => rfl
  · exact computes_of_alu rfl rfl nofun (fun _ => aluOr_result _ _) fun _ => rfl
  · exact computes_of_alu rfl rfl nofun (fun _ => aluXor_result _ _) fun _ => rfl
  · exact computes_of_alu rfl rfl nofun (fun _ => aluXor_result _ _) fun _ => rfl
  · exact computes_of_alu rfl rfl nofun (fun _ => aluNot_result _ _) fun _ => rfl

/-- A left shift by an operand whose shift amount is known (R218). -/
theorem computes_shl {i : Instr} {ra : Reg} {b : Word} {n : Nat} {s : State} (hp : isPrivileged i = false)
    (he : effectOf i s = s.alu false aluShl ra b) (amount : shiftAmount b = n) :
    computes i ra (· <<< n) (fun a => decide (2 ^ 32 ≤ a.toNat * 2 ^ n)) s := by
  subst amount
  exact computes_of_alu hp he nofun (fun _ => aluShl_result _ _) fun _ => rfl

theorem computes_shr {i : Instr} {ra : Reg} {b : Word} {n : Nat} {s : State} (hp : isPrivileged i = false)
    (he : effectOf i s = s.alu false aluShr ra b) (amount : shiftAmount b = n) :
    computes i ra (· >>> n) (fun _ => false) s := by
  subst amount
  exact computes_of_alu hp he nofun (fun _ => aluShr_result _ _) fun _ => rfl

/-- Settles O28. -/
theorem shiftResults : Obligations.ShiftResults :=
  fun s _ rb imm => ⟨computes_shl rfl rfl (shiftAmount_eq (s.reg rb)), computes_shl rfl rfl (shiftAmount_sext32 imm),
    computes_shr rfl rfl (shiftAmount_eq (s.reg rb)), computes_shr rfl rfl (shiftAmount_sext32 imm)⟩

/-! ## Instructions that write flags alone -/

theorem keeps_of_flagWrite (s : State) (f : Flags) : keeps s (s.setFlags f).retire [.flags, .cnt] := by
  intro q hq
  obtain ⟨not_flags, not_cnt⟩ : q ≠ .flags ∧ q ≠ .cnt := by simpa using hq
  rw [State.reg_retire_ne _ not_cnt, State.reg_setFlags_ne _ _ _ not_flags]

theorem exec_of_flagWrite {i : Instr} {s : State} {f : Flags} (hp : isPrivileged i = false ∨ s.flags.privileged = true)
    (he : effectOf i s = .ok () (s.setFlags f)) :
    ∃ t, exec i s = .next t ∧ onlyRegs s t ∧ s.sameBytes t ∧ keeps s t [.flags, .cnt] ∧ retired s t ∧ t.flags = f := by
  refine ⟨_, exec_of_ok (exec_eq i s) hp he, rfl, onlyRegs.sameBytes rfl, keeps_of_flagWrite s f, ?_, rfl⟩
  rw [retired, State.reg_retire_cnt, State.reg_setFlags_ne _ _ .cnt nofun]

theorem Flags.setCompare_eq (f : Flags) (a b : Word) : f.setCompare a b = { f with
    equal := decide (a = b), zero := decide (a = b)
    sign := (a - b).getLsbD 31, overflow := decide (a.toNat < b.toNat) } := by
  have zero : (a - b == 0) = decide (a = b) := by
    rw [Bool.eq_iff_iff, beq_iff_eq, decide_eq_true_iff]
    exact sub_eq_zero
  rw [Flags.setCompare, zero, BitVec.msb_eq_getLsbD_last]
  rfl

/-- Settles O29. -/
theorem compareResults : Obligations.CompareResults := by
  intro s ra rb imm i b hi
  have he : isPrivileged i = false ∧ effectOf i s = .ok () (s.compare ra b) := by
    rw [List.mem_pair] at hi
    obtain ⟨rfl, rfl⟩ | ⟨rfl, rfl⟩ := hi.imp Prod.mk.inj Prod.mk.inj
    · exact ⟨rfl, rfl⟩
    · exact ⟨rfl, rfl⟩
  refine exec_of_flagWrite (.inl he.1) ?_
  rw [he.2, State.compare, Flags.setCompare_eq]

/-- Settles O42. -/
theorem flagInstructions : Obligations.FlagInstructions := by
  intro s i f privileged hi
  refine exec_of_flagWrite (.inr privileged) ?_
  simp only [List.mem_cons, Prod.mk.injEq, List.not_mem_nil, or_false] at hi
  obtain ⟨rfl, rfl⟩ | ⟨rfl, rfl⟩ | ⟨rfl, rfl⟩ := hi
  · rfl
  · rfl
  · rfl

/-! ## Faults before any effect -/

theorem exec_divideByZero {i : Instr} {op : AluOp} {ra : Reg} {b : Word} {s : State} (hp : isPrivileged i = false)
    (may : mayWrite s ra) (he : effectOf i s = s.alu true op ra b) (zero : b = 0) :
    exec i s = .next (s.die .divideByZero) := by
  refine exec_of_raise (exec_eq i s) (.inl hp) ?_
  rw [he, State.alu, State.checkDest_mayWrite may, Res.bind_ok, zero]
  rfl

/-- Settles O30. -/
theorem divideByZeroKills : Obligations.DivideByZeroKills := fun s _ _ may =>
  ⟨fun zero => ⟨exec_divideByZero rfl may rfl zero, exec_divideByZero rfl may rfl zero⟩,
    exec_divideByZero rfl may rfl rfl, exec_divideByZero rfl may rfl rfl, s.die_regs _⟩

/-- An instruction with a destination operand checks it before anything else (R27, R285), and needs no privilege. -/
theorem effectOf_checksDest {i : Instr} {ra : Reg} (dest : destination i = some ra) :
    isPrivileged i = false ∧ ∃ k : State → Unit → State → Res Unit,
      ∀ s, effectOf i s = (s.checkDest ra).bind (k s) := by
  cases i <;> cases dest <;> exact ⟨rfl, fun _ => _, fun _ => rfl⟩

/-- Settles O46. -/
theorem protectedDestinationKills : Obligations.ProtectedDestinationKills := by
  intro i ra s dest protect unprivileged
  obtain ⟨hp, k, he⟩ := effectOf_checksDest dest
  refine ⟨exec_of_raise (exec_eq i s) (.inl hp) ?_, s.die_regs _⟩
  rw [he, State.checkDest_raise ((protectedReg_iff ra).mpr protect) unprivileged, Res.bind_raise]

/-! ## `HLT` and `SIS` -/

theorem State.Inv.registered {s : State} (inv : s.Inv) : s.self.registered = s.self.life.isAlive := by
  obtain ⟨_, _, ⟨_, _, _, registered, _⟩, _⟩ := State.Inv_iff.mp inv
  exact registered

theorem Running.registered {s : State} (run : Running s) : s.self.registered = true := by
  rw [run.1.registered, run.2]
  rfl

theorem keeps_of_retire (s : State) : keeps s s.retire [.cnt] := fun _ hq =>
  s.reg_retire_ne fun cnt => hq (List.mem_singleton.mpr cnt)

/-- Settles O43. -/
theorem hltHalts : Obligations.HltHalts := by
  intro s ra run privileged
  obtain ⟨inv, booted⟩ := run
  have halts := State.halt_eq_halted inv (s.reg ra) (by rw [booted]; rfl)
  have same := State.halt_sameBytes inv (s.reg ra)
  refine ⟨_, exec_of_ok (exec_eq _ s) (.inr privileged) rfl, ?_⟩
  rw [halts] at same ⊢
  refine ⟨keeps_of_retire s, State.reg_retire_cnt s, rfl, rfl, rfl, ⟨rfl, rfl, rfl, rfl⟩, fun a => ?_, fun e he => ?_⟩
  · exact (State.byteNow_setReg ..).trans (same a)
  · exact State.flush_holds inv (Running.registered ⟨inv, booted⟩) he

/-- Settles O44. -/
theorem sisSwitchesTheSet : Obligations.SisSwitchesTheSet := by
  refine fun s imm => ⟨fun lt => ?_, fun le => ⟨?_, s.die_regs _⟩, fun dk0 => by rw [Config.nIsets, dk0]; rfl⟩
  · have switches : effectOf (.sis imm) s = .ok () (s.setIset imm.toNat).clearIcache := if_pos lt
    refine ⟨_, exec_of_ok (exec_eq _ s) (.inl rfl) switches, keeps_of_retire s, State.reg_retire_cnt s, fun a => ?_, rfl⟩
    refine State.byteNow_of_granule ?_
    exact State.granuleNow_self s (State.retire (s.setIset imm.toNat).clearIcache).self rfl rfl _
  · exact exec_of_raise (exec_eq _ s) (.inl rfl) (if_neg (Nat.not_lt.mpr le))

end Sys2Proof.Machine
end

section
/-! PROOFS. Loads and stores, `PUSH` and `POP` where the access is served, and what another load then sees (R70 to R75,
R102, R186 to R193). -/

namespace Sys2Proof.Machine

open Sys2Proof.Spec

/-! ## Register writes after a data-path operation -/

theorem onlyRegsAndData_setRegs {s u : State} (h : s.onlyDataPath u) (g : Regs) : onlyRegsAndData s (u.setRegs g) := by
  rw [onlyRegsAndData, State.setRegs_setRegs, ← h.regs, State.setRegs_self]
  exact h

theorem sameBytes_setRegs {s u : State} (h : s.sameBytes u) (g : Regs) : s.sameBytes (u.setRegs g) :=
  fun a => (State.byteNow_setRegs u g a).trans (h a)

theorem sameBytesBut_setRegs {s u : State} {pa n : Nat} (h : s.sameBytesBut u pa n) (g : Regs) :
    s.sameBytesBut (u.setRegs g) pa n :=
  fun a out => (State.byteNow_setRegs u g a).trans (h a out)

theorem State.valueNow_setRegs (s : State) (g : Regs) (width : Width) (pa : Nat) :
    (s.setRegs g).valueNow width pa = s.valueNow width pa := by
  cases width with
  | byte => exact congrArg (BitVec.zeroExtend 32) (State.byteNow_setRegs s g pa)
  | word => exact congrArg zext32 (State.granuleNow_setRegs s g pa)
  | dword => exact State.dwordNow_setRegs s g pa

/-- The data path writes no register, so what is said of the registers after it may be said of those before. -/
theorem State.onlyDataPath.wrote_iff {s u t : State} (h : s.onlyDataPath u) {ra : Reg} {v : Word} {f : Flags} :
    wrote u t ra v f ↔ wrote s t ra v f := by
  unfold wrote keeps State.reg
  rw [h.regs]

theorem State.onlyDataPath.keeps_iff {s u t : State} (h : s.onlyDataPath u) {written : List Reg} :
    keeps u t written ↔ keeps s t written := by
  unfold keeps State.reg
  rw [h.regs]

theorem State.onlyDataPath.writtenFlags {s u : State} (h : s.onlyDataPath u) (ra : Reg) (v : Word) :
    writtenFlags u ra v = Spec.writtenFlags s ra v := by
  unfold Spec.writtenFlags
  rw [h.flags]

/-- A well-formed machine stays so where only registers of a core out of Reset are written (R340). -/
theorem Running.setRegs {s : State} (run : Running s) (g : Regs) : Running (s.setRegs g) :=
  ⟨State.Inv_setRegs run.1 (by rw [run.2]; nofun) g, run.2⟩

theorem Running.of_dataPath {s u : State} (run : Running s) (h : s.onlyDataPath u) (inv : u.Inv) : Running u :=
  ⟨inv, h.life.trans run.2⟩

/-! ## Loads -/

theorem effectOf_load {ra rb : Reg} {imm : Half} {width : Width} {i : Instr}
    (hi : (width, i) ∈ [(Width.byte, Instr.lb ra rb imm), (Width.word, Instr.lw ra rb imm), (Width.dword, Instr.ld ra rb imm)]) :
    isPrivileged i = false ∧ ∀ s, effectOf i s = s.load width ra rb imm := by
  simp only [List.mem_cons, Prod.mk.injEq, List.not_mem_nil, or_false] at hi
  obtain ⟨rfl, rfl⟩ | ⟨rfl, rfl⟩ | ⟨rfl, rfl⟩ := hi <;> exact ⟨rfl, fun _ => rfl⟩

/-- Settles O22: the read answers the current value and changes no current byte, and the write is that of an operand. -/
theorem loadsReadCurrentMemory : Obligations.LoadsReadCurrentMemory := by
  intro s ra rb imm width i run may hi ok
  obtain ⟨hp, he⟩ := effectOf_load hi
  obtain ⟨u, read, reads⟩ := State.memRead_ok run.1 (Running.registered run) ok
  have loads : effectOf i s = .ok () (u.loadReg ra (s.valueNow width (s.dataAddr rb imm))) := by
    rw [he, State.load, State.checkDest_bind may, read, Res.bind_ok]
  rw [State.loadReg_eq, reads.frame.writtenFlags] at loads
  exact ⟨_, exec_of_ok (exec_eq i s) (.inl hp) loads, onlyRegsAndData_setRegs reads.frame _,
    sameBytes_setRegs reads.sameBytes _, reads.frame.wrote_iff.mp (wrote_of_writes u ra _ _)⟩

/-! ## Stores -/

theorem effectOf_store {ra rb : Reg} {imm : Half} {width : Width} {i : Instr}
    (hi : (width, i) ∈ [(Width.byte, Instr.stb ra rb imm), (Width.word, Instr.stw ra rb imm),
      (Width.dword, Instr.std ra rb imm)]) :
    isPrivileged i = false ∧ ∀ s, effectOf i s = s.store width ra rb imm := by
  simp only [List.mem_cons, Prod.mk.injEq, List.not_mem_nil, or_false] at hi
  obtain ⟨rfl, rfl⟩ | ⟨rfl, rfl⟩ | ⟨rfl, rfl⟩ := hi <;> exact ⟨rfl, fun _ => rfl⟩

/-- A store that is served ends in a machine that stored and retired. -/
theorem exec_store {s : State} (run : Running s) {ra rb : Reg} {imm : Half} {width : Width} {i : Instr}
    (hi : (width, i) ∈ [(Width.byte, Instr.stb ra rb imm), (Width.word, Instr.stw ra rb imm),
      (Width.dword, Instr.std ra rb imm)]) (ok : serves s.cfg width (s.dataAddr rb imm)) :
    ∃ u, exec i s = .next u.retire ∧ State.Stored s u width (s.dataAddr rb imm) (s.reg ra) := by
  obtain ⟨hp, he⟩ := effectOf_store hi
  obtain ⟨u, write, stored⟩ := State.memWrite_ok run.1 (Running.registered run) ok (s.reg ra)
  exact ⟨u, exec_of_ok (exec_eq i s) (.inl hp) ((he s).trans write), stored⟩

/-- Settles O23. -/
theorem storesWriteTheirBytes : Obligations.StoresWriteTheirBytes := by
  intro s ra rb imm width i run hi ok
  obtain ⟨u, ends, stored⟩ := exec_store run hi ok
  refine ⟨_, ends, onlyRegsAndData_setRegs stored.frame _, stored.frame.keeps_iff.mp (keeps_of_retire u), ?_, ?_,
    sameBytesBut_setRegs stored.rest _⟩
  · rw [retired, State.reg_retire_cnt, stored.frame.reg]
  · exact (State.valueNow_setRegs u _ width _).trans stored.now

/-! ## `PUSH` and `POP` -/

/-- Settles O24. -/
theorem pushAndPop : Obligations.PushAndPop := by
  refine fun s ra run => ⟨fun ok => ?_, fun may ok => ?_⟩
  · obtain ⟨u, push, stored⟩ := State.push_ok run.1 (Running.registered run) (s.reg ra) ok
    refine ⟨_, exec_of_ok (exec_eq _ s) (.inl rfl) push, onlyRegsAndData_setRegs stored.frame _,
      stored.frame.keeps_iff.mp fun q hq => ?_, ?_, ?_, ?_, sameBytesBut_setRegs stored.rest _⟩
    · obtain ⟨not_sp, not_cnt⟩ : q ≠ .sp ∧ q ≠ .cnt := by simpa using hq
      rw [State.reg_retire_ne _ not_cnt, State.reg_setReg_ne _ _ _ _ not_sp]
    · rw [retired, State.reg_retire_cnt, State.reg_setReg_ne _ .sp .cnt _ nofun, stored.frame.reg]
    · rw [State.reg_retire_ne (q := .sp) _ nofun, State.reg_setReg_same _ .sp _ nofun]
    · exact (State.dwordNow_setRegs u _ _).trans stored.now
  · obtain ⟨u, pop, reads⟩ := State.pop_ok run.1 (Running.registered run) ok
    have pops : effectOf (.pop ra) s
        = .ok () ((u.setReg .sp (s.reg .sp + 4)).setReg ra (s.dwordNow s.popAddr)) := by
      refine (State.checkDest_bind may _).trans ?_
      rw [pop, Res.bind_ok]
    refine ⟨_, exec_of_ok (exec_eq _ s) (.inl rfl) pops, onlyRegsAndData_setRegs reads.frame _,
      sameBytes_setRegs reads.sameBytes _, reads.frame.keeps_iff.mp fun q hq => ?_, fun not_sp => ?_,
      fun not_flags not_cnt => ?_, ?_, ?_⟩
    · obtain ⟨other, not_sp, _, not_cnt⟩ : q ≠ ra ∧ q ≠ .sp ∧ q ≠ .flags ∧ q ≠ .cnt := by simpa using hq
      rw [State.reg_retire_ne _ not_cnt, State.reg_setReg_ne _ _ _ _ other, State.reg_setReg_ne _ _ _ _ not_sp]
    · rw [State.reg_retire_ne (q := .sp) _ nofun, State.reg_setReg_ne _ _ .sp _ (Ne.symm not_sp),
        State.reg_setReg_same _ .sp _ nofun]
    · rw [State.reg_retire_ne _ not_cnt, State.reg_setReg_same _ _ _ not_flags]
    · rw [State.reg_retire_cnt]
      split
      · next cnt => rw [cnt, State.reg_setReg_same _ .cnt _ nofun]
      · next other =>
        rw [State.reg_setReg_ne _ _ _ _ (Ne.symm other), State.reg_setReg_ne _ .sp .cnt _ nofun, reads.frame.reg]
    · rw [State.flags_retire, State.writtenFlags_eq, ← reads.frame.writtenFlags]
      rfl

/-! ## What a load sees of a store -/

/-- A store leaves a machine in which the next instruction of the core can run. -/
theorem State.Stored.running {s u : State} {width : Width} {pa : Nat} {v : Word} (h : State.Stored s u width pa v)
    (run : Running s) : Running u.retire :=
  Running.setRegs (s := u) ⟨h.inv, h.frame.life.trans run.2⟩ _

theorem exec_local {i : Instr} {s t : State} (h : exec i s = .next t) : s.Local t :=
  local_stepClosed.execInsn (i := .dk0 i) h

/-- What runs on one core leaves of another core all but its data cache. -/
theorem State.Local.focus_onlyDcache {s t : State} (h : s.Local t) {k : Nat} (lt : k < s.nCores) (ne : k ≠ s.selfId) :
    (s.focus k).self.onlyDcache (t.focus k).self := by
  obtain ⟨_, _, self_eq, _⟩ := State.focus_of_lt lt
  obtain ⟨d, hd, only, _⟩ := h.other ne (List.getElem?_eq_getElem lt)
  obtain ⟨lt', rfl⟩ := List.getElem?_eq_some_iff.mp hd
  obtain ⟨_, _, self_eq', _⟩ := State.focus_of_lt lt'
  rw [self_eq, self_eq']
  exact only

/-- Settles O57: the other core is as it was but for its data cache, so its load addresses the same dword, and a load
reads what is current. -/
theorem storeIsSeenByOtherCores : Obligations.StoreIsSeenByOtherCores := by
  intro s k ra rb rc rd imm disp run ok lt ne booted may same
  obtain ⟨u, ends, stored⟩ := exec_store (width := .dword) (i := .std ra rb imm) run
    (List.mem_cons_of_mem _ (List.mem_cons_of_mem _ List.mem_cons_self)) ok
  have only := (exec_local ends).focus_onlyDcache lt ne
  obtain ⟨_, regs⟩ := Core.onlyDcache_fields only
  have run' : Running ((State.retire u).focus k) := by
    refine ⟨State.focus_inv (stored.running run).1 k, ?_⟩
    rw [only]
    exact booted
  have address : ((State.retire u).focus k).dataAddr rd disp = s.dataAddr rb imm := by
    rw [← same, State.dataAddr, State.dataAddr, State.reg, State.reg, State.reg, State.reg, regs]
  have may' : mayWrite ((State.retire u).focus k) rc := by
    unfold mayWrite State.flags
    rw [regs]
    exact may
  have cfg : ((State.retire u).focus k).cfg = s.cfg := (State.focus_rest _ k).1.trans stored.frame.cfg
  obtain ⟨t, loads, _, _, _, value, _⟩ := loadsReadCurrentMemory _ rc rd disp .dword _ run' may'
    (List.mem_cons_of_mem _ (List.mem_cons_of_mem _ List.mem_cons_self)) (by rw [cfg, address]; exact ok)
  refine ⟨_, t, ends, loads, fun not_flags not_cnt => (value not_flags not_cnt).trans ?_⟩
  rw [address]
  calc ((State.retire u).focus k).valueNow .dword (s.dataAddr rb imm)
      = (State.retire u).valueNow .dword (s.dataAddr rb imm) := by
        unfold State.valueNow State.dwordNow
        rw [State.focus_granuleNow, State.focus_granuleNow]
    _ = u.valueNow .dword (s.dataAddr rb imm) := State.valueNow_setRegs u _ _ _
    _ = s.reg ra := stored.now

theorem extractLsb'_append_low (hi lo : Half) {n : Nat} (h : n + 8 ≤ 16) :
    (hi ++ lo : Word).extractLsb' n 8 = lo.extractLsb' n 8 := by
  refine BitVec.eq_of_getLsbD_eq fun i lt => ?_
  rw [BitVec.getLsbD_extractLsb', BitVec.getLsbD_extractLsb', BitVec.getLsbD_append, if_pos (by omega)]

theorem extractLsb'_append_high (hi lo : Half) (n : Nat) :
    (hi ++ lo : Word).extractLsb' (16 + n) 8 = hi.extractLsb' n 8 := by
  refine BitVec.eq_of_getLsbD_eq fun i lt => ?_
  rw [BitVec.getLsbD_extractLsb', BitVec.getLsbD_extractLsb', BitVec.getLsbD_append, if_neg (by omega),
    show 16 + n + i - 16 = n + i by omega]

/-- Byte `j` of a dword that starts at a multiple of 4, little-endian (R65). -/
theorem State.byteNow_of_dwordNow {s : State} {a j : Nat} {v : Word} (al : a % 4 = 0) (hj : j < 4)
    (now : s.dwordNow a = v) : s.byteNow (a + j) = v.extractLsb' (8 * j) 8 := by
  subst now
  have even (n : Nat) (h : n % 2 = 0) : granule n = n ∧ granule (n + 1) = n := by
    unfold granule
    omega
  obtain ⟨g0, g1⟩ := even a (by omega)
  obtain ⟨g2, g3⟩ := even (a + 2) (by omega)
  unfold State.byteNow State.dwordNow
  match j with
  | 0 => rw [if_pos (by omega), Nat.add_zero, g0, extractLsb'_append_low _ _ (by omega)]
  | 1 => rw [if_neg (by omega), g1, extractLsb'_append_low _ _ (by omega)]
  | 2 => rw [if_pos (by omega), g2, show 8 * 2 = 16 + 0 from rfl, extractLsb'_append_high]
  | 3 => rw [if_neg (by omega), g3, show 8 * 3 = 16 + 8 from rfl, extractLsb'_append_high]

/-- Settles O58. -/
theorem bytesOfAStoredDword : Obligations.BytesOfAStoredDword := by
  intro s ra rb rc rd imm disp j run ok hj not_cnt may address
  obtain ⟨u, ends, stored⟩ := exec_store (width := .dword) (i := .std ra rb imm) run
    (List.mem_cons_of_mem _ (List.mem_cons_of_mem _ List.mem_cons_self)) ok
  obtain ⟨al, _, le⟩ := ok
  have regs (q : Reg) (ne : q ≠ .cnt) : (State.retire u).reg q = s.reg q :=
    (State.reg_retire_ne u ne).trans (stored.frame.reg q)
  have address' : (State.retire u).dataAddr rd disp = s.dataAddr rb imm + j := by
    rw [← address, State.dataAddr, State.dataAddr, regs .ds nofun, regs rd not_cnt]
  have may' : mayWrite (State.retire u) rc := by
    unfold mayWrite
    rw [State.flags_retire, stored.frame.flags]
    exact may
  have served : serves (State.retire u).cfg .byte ((State.retire u).dataAddr rd disp) := by
    rw [address', show (State.retire u).cfg = s.cfg from stored.frame.cfg]
    unfold accessBytes at al le
    unfold serves accessBytes granule
    dsimp only at al le ⊢
    omega
  obtain ⟨t, loads, _, _, _, value, _⟩ := loadsReadCurrentMemory _ rc rd disp .byte _ (stored.running run) may'
    List.mem_cons_self served
  refine ⟨_, t, ends, loads, fun not_flags not_cnt => (value not_flags not_cnt).trans ?_⟩
  rw [address', State.valueNow]
  refine congrArg (BitVec.zeroExtend 32) ?_
  refine State.byteNow_of_dwordNow al hj ?_
  exact (State.dwordNow_setRegs u _ _).trans stored.now

end Sys2Proof.Machine
end

section
/-! PROOFS. Stack frames: `CALL`, `CALLR` and `RET` where the slots are served, the return that undoes the call, and the
failed frame check (R75, R244 to R249). -/

namespace Sys2Proof.Machine

open Sys2Proof.Spec

/-! ## States that differ in registers, frames and what the data path changed -/

theorem onlyFramesAndData_of {s w : State} (h : s.onlyDataPath w) (fs : List StackFrame) (g : Regs) :
    onlyFramesAndData s ((w.setFrames fs).setRegs g) := by
  have same : (((w.setFrames fs).setRegs g).setRegs s.self.regs).setFrames s.self.frames = w := by
    rw [← h.regs, ← h.frames]
    rfl
  rw [onlyFramesAndData, same]
  exact h

theorem State.byteNow_setFrames_setRegs (w : State) (fs : List StackFrame) (g : Regs) (a : Nat) :
    ((w.setFrames fs).setRegs g).byteNow a = w.byteNow a :=
  (State.byteNow_setRegs ..).trans (State.byteNow_setFrames ..)

theorem State.dwordNow_setFrames_setRegs (w : State) (fs : List StackFrame) (g : Regs) (a : Nat) :
    ((w.setFrames fs).setRegs g).dwordNow a = w.dwordNow a :=
  (State.dwordNow_setRegs ..).trans (State.dwordNow_setFrames ..)

/-- The end of an instruction whose effect is known up to what the data path changed. -/
theorem exec_of_framed {i : Instr} {s w : State} {fs : List StackFrame} {g : Regs}
    (hp : isPrivileged i = false ∨ s.flags.privileged = true)
    (he : effectOf i s = .ok () ((w.setFrames fs).setRegs g)) :
    exec i s = .next ((w.setFrames fs).setRegs { g with cnt := g.cnt + 1 }) :=
  exec_of_ok (exec_eq i s) hp he

/-- The frame list with a record appended, where frames are kept (R245). -/
def State.framesWith (s : State) (r : StackFrame) : List StackFrame :=
  if s.cfg.checkFrames then s.self.frames ++ [r] else s.self.frames

/-- The record that `create_frame` appends is made of the registers it finds. -/
theorem State.recordFrame_setRegs {s w : State} (h : s.onlyDataPath w) (g : Regs) :
    (w.setRegs g).recordFrame = (w.setFrames (s.framesWith ⟨g.cs, g.ds, g.fp, g.ip⟩)).setRegs g := by
  rw [State.recordFrame, State.framesWith, ← h.frames, ← h.cfg]
  cases checked : w.cfg.checkFrames
  · rw [if_neg (by rw [State.setRegs_cfg, checked]; nofun), if_neg nofun]
    rfl
  · rw [if_pos (by rw [State.setRegs_cfg, checked]), if_pos rfl]
    rfl

theorem State.dropFrame_setRegs {s w : State} (h : s.onlyDataPath w) (g : Regs) :
    (w.setRegs g).dropFrame = (w.setFrames s.framesDropped).setRegs g := by
  have same : (w.setRegs g).framesDropped = s.framesDropped := by
    unfold State.framesDropped
    rw [← h.frames, ← h.cfg]
    rfl
  rw [State.dropFrame_eq, same]
  rfl

/-! ## Calls -/

/-- The registers after a call (R245, R247). -/
def Regs.called (g : Regs) (target : Word) : Regs := { g with ip := target, sp := g.sp - 8, fp := g.sp - 8 }

theorem State.callTo_ok {s : State} (run : Running s) (target : Word)
    (ok : slotsServed s.cfg (s.reg .ds) (s.reg .sp) 2) :
    ∃ w, State.Pushed s w [s.reg .ip, s.reg .fp]
      ∧ s.callTo target = .ok () ((w.setFrames (s.framesWith ⟨s.reg .cs, s.reg .ds, s.reg .sp - 8, s.reg .ip⟩)).setRegs
          (s.self.regs.called target)) := by
  obtain ⟨w, made, pushed⟩ := (State.Pushed.nil run.1).createFrame (Running.registered run) (by decide) ok
  refine ⟨w, pushed, ?_⟩
  have regs : (s.moved w 2).setReg .fp (s.reg .sp - 8)
      = w.setRegs { s.self.regs with sp := s.reg .sp - 8, fp := s.reg .sp - 8 } := by
    rw [← pushed.frame.regs]
    rfl
  have created : s.createFrame = .ok () (State.recordFrame ((s.moved w 2).setReg .fp (s.reg .sp - 8))) :=
    (congrArg State.createFrame (State.moved_zero s)).symm.trans made
  rw [State.callTo, created, Res.bind_ok, regs, State.recordFrame_setRegs pushed.frame]
  rfl

theorem effectOf_call {s : State} {ra : Reg} {imm : Half} {i : Instr} {target : Word}
    (hi : (i, target) ∈ [(Instr.call ra, s.reg ra), (Instr.callr imm, s.reg .ip + imm.signExtend 32)]) :
    isPrivileged i = false ∧ effectOf i s = s.callTo target := by
  simp only [List.mem_cons, Prod.mk.injEq, List.not_mem_nil, or_false] at hi
  obtain ⟨rfl, rfl⟩ | ⟨rfl, rfl⟩ := hi <;> exact ⟨rfl, rfl⟩

/-- Settles O32. -/
theorem callsMakeAFrame : Obligations.CallsMakeAFrame := by
  intro s ra imm i target run hi ok
  obtain ⟨hp, he⟩ := effectOf_call hi
  obtain ⟨w, pushed, called⟩ := State.callTo_ok run target ok
  refine ⟨_, exec_of_framed (.inl hp) (he.trans called), onlyFramesAndData_of pushed.frame _ _,
    fun q hq => ?_, rfl, rfl, rfl, rfl, rfl, ?_, ?_, fun a out => ?_⟩
  · cases q with
    | ip | sp | fp | cnt => exact (hq (by decide)).elim
    | _ => rfl
  · exact (State.dwordNow_setFrames_setRegs ..).trans (pushed.slots 0 Nat.two_pos)
  · exact (State.dwordNow_setFrames_setRegs ..).trans (pushed.slots 1 Nat.one_lt_two)
  · exact (State.byteNow_setFrames_setRegs ..).trans (pushed.rest a out)

/-! ## Returns -/

/-- Settles O33. -/
theorem retRestoresTheFrame : Obligations.RetRestoresTheFrame := by
  intro s run pass ok
  obtain ⟨w, reads, returned⟩ := State.destroyFrame_ok run.1 (Running.registered run) pass ok
  rw [State.dropFrame_setRegs reads.frame] at returned
  refine ⟨_, exec_of_framed (i := .ret) (.inl rfl) returned, onlyFramesAndData_of reads.frame _ _,
    fun a => (State.byteNow_setFrames_setRegs ..).trans (reads.sameBytes a), fun q hq => ?_, rfl, rfl, rfl, rfl, rfl⟩
  cases q with
  | ip | sp | fp | cnt => exact (hq (by decide)).elim
  | _ => rfl

/-- Pops from where a row of `n` pushes ended read its slots, the last first (R75). -/
theorem popSlot_of_pushed (ds sp : Word) {n k : Nat} (lt : k < n) :
    popSlot ds (sp - BitVec.ofNat 32 (4 * n)) k = slot ds sp (n - 1 - k) := by
  have split : BitVec.ofNat 32 (4 * n) = BitVec.ofNat 32 (4 * (n - 1 - k + 1)) + BitVec.ofNat 32 (4 * k) := by
    rw [← BitVec.ofNat_add]
    congr 1
    omega
  rw [popSlot, slot, split, sub_add_eq_sub_sub, sub_add_cancel]

/-- An instruction whose effect is safe leaves a well-formed machine, whether it ends or faults. -/
theorem inv_of_exec {i : Instr} {s t : State} (run : Running s) (safe : (effectOf i s).Safe)
    (ends : exec i s = .next t) : t.Inv := by
  obtain ⟨_, _, rfl⟩ | ⟨_, ⟨u, effect, rfl⟩ | ⟨f, u, effect, rfl⟩⟩ := exec_cases ends
  · exact (State.die_inv run.1 _).1
  · rw [effect] at safe
    exact State.Inv_setReg safe.1 (State.Inv.not_reset safe.1 safe.2) _ _
  · rw [effect] at safe
    exact (State.die_inv safe.1 f).1

theorem onlyFramesAndData.cfg {s t : State} (h : onlyFramesAndData s t) : t.cfg = s.cfg :=
  State.onlyDataPath.cfg (t := (t.setRegs s.self.regs).setFrames s.self.frames) h

theorem onlyFramesAndData.life {s t : State} (h : onlyFramesAndData s t) : t.self.life = s.self.life :=
  State.onlyDataPath.life (t := (t.setRegs s.self.regs).setFrames s.self.frames) h

/-- Settles O34: the return pops what the call pushed, from where the call left `SP`. -/
theorem returnUndoesCall : Obligations.ReturnUndoesCall := by
  intro s ra imm i run hi ok
  obtain ⟨target, hi⟩ : ∃ target,
      (i, target) ∈ [(Instr.call ra, s.reg ra), (Instr.callr imm, s.reg .ip + imm.signExtend 32)] := by
    rw [List.mem_pair] at hi
    obtain rfl | rfl := hi
    · exact ⟨_, List.mem_cons_self⟩
    · exact ⟨_, List.mem_cons_of_mem _ List.mem_cons_self⟩
  obtain ⟨t, calls, only, kept, counted, _, sp, fp, frames, slot0, slot1, bytes⟩ := callsMakeAFrame s ra imm i target run hi ok
  have safe : (effectOf i s).Safe := by
    rw [(effectOf_call hi).2]
    exact State.callTo_safe run.1 (Running.registered run) target
  have run' : Running t := ⟨inv_of_exec run safe calls, (onlyFramesAndData.life only).trans run.2⟩
  have cfg := onlyFramesAndData.cfg only
  have ds : t.reg .ds = s.reg .ds := kept .ds (by decide)
  have top : popSlot (t.reg .ds) (t.reg .sp) 0 = slot (s.reg .ds) (s.reg .sp) 1 := by
    rw [ds, sp]
    exact popSlot_of_pushed (n := 2) _ _ (by decide)
  have next : popSlot (t.reg .ds) (t.reg .sp) 1 = slot (s.reg .ds) (s.reg .sp) 0 := by
    rw [ds, sp]
    exact popSlot_of_pushed (n := 2) _ _ (by decide)
  have served : popSlotsServed t.cfg (t.reg .ds) (t.reg .sp) 2 := by
    intro k hk
    rw [cfg]
    match k with
    | 0 => rw [top]; exact ok 1 (by decide)
    | 1 => rw [next]; exact ok 0 (by decide)
  have pass : t.framePasses := by
    intro checked
    rw [cfg] at checked
    rw [if_pos checked] at frames
    rw [State.frameMatches, frames, List.getLast?_concat, sp]
    exact beq_self_eq_true _
  obtain ⟨u, returns, _, same, kept', counted', fp', ip', sp', frames'⟩ := retRestoresTheFrame t run' pass served
  refine ⟨t, u, calls, returns, fun q hq => ?_, ?_, ?_, fun a out => (same a).trans (bytes a out)⟩
  · cases q with
    | cnt => exact (hq (by decide)).elim
    | fp => rw [fp', top, slot1]
    | ip => rw [ip', next, slot0]
    | sp => rw [sp', sp, sub_add_cancel]
    | _ => exact (kept' _ (by decide)).trans (kept _ (by decide))
  · rw [counted', counted, add_assoc]
    rfl
  · rw [frames', State.framesDropped, cfg, frames]
    split
    · rw [List.dropLast_concat]
    · rfl

/-! ## The failed frame check -/

theorem State.destroyFrame_invalid {s : State} (checked : s.cfg.checkFrames = true)
    (other : ∀ f, s.self.frames.getLast? = some f → f.fp ≠ s.reg .sp) :
    s.destroyFrame = .raise (.invalidFrame (s.reg .sp)) s := by
  have fails : s.frameMatches = false := by
    unfold State.frameMatches
    split
    · next f newest => exact beq_eq_false_iff_ne.mpr (other f newest)
    · rfl
  rw [State.destroyFrame, checked, fails]
  rfl

/-- Settles O35: `RETINT` begins with the same check. -/
theorem invalidFrameKills : Obligations.InvalidFrameKills := by
  intro s checked other
  have raised := State.destroyFrame_invalid checked other
  refine ⟨exec_of_raise (exec_eq .ret s) (.inl rfl) raised, fun privileged => ?_, s.die_regs _⟩
  refine exec_of_raise (exec_eq .retint s) (.inr privileged) ?_
  rw [effectOf, State.exitInterrupt, raised, Res.bind_raise]

end Sys2Proof.Machine
end

section
/-! PROOFS. The accesses that fault: misaligned ones, which raise before any activity, and those past `MEM_SIZE`, which keep
what came before them (R12, R62 to R64, R75, R159, R245, R246, R290, R293). -/

namespace Sys2Proof.Machine

open Sys2Proof.Spec

theorem State.doInt_noHandler {s : State} {index : Half} (none : noHandler s index) :
    s.doInt index = s.enterInterrupt s.cfg.intTable index.toNat := by
  have absent : s.cfg.handler index = Option.none := by
    simpa [Config.handler, List.find?_eq_none] using none
  unfold State.doInt
  rw [absent]

theorem State.load_raise {s t : State} {width : Width} {ra rb : Reg} {imm : Half} {f : CoreFault} (may : mayWrite s ra)
    (raised : s.memRead width (s.dataAddr rb imm) = .raise f t) : s.load width ra rb imm = .raise f t := by
  rw [State.load, State.checkDest_bind may, raised, Res.bind_raise]

/-! ## Misaligned accesses -/

theorem State.memRead_unaligned {s : State} {width : Width} {pa : Nat} (al : pa % accessBytes width ≠ 0) :
    s.memRead width pa = .raise (.unalignedAccess pa) s := by
  cases width with
  | byte => exact absurd (Nat.mod_one pa) al
  | word => exact if_neg al
  | dword => exact if_neg al

theorem State.memWrite_unaligned {s : State} {width : Width} {pa : Nat} (al : pa % accessBytes width ≠ 0) (v : Word) :
    s.memWrite width pa v = .raise (.unalignedAccess pa) s := by
  cases width with
  | byte => exact absurd (Nat.mod_one pa) al
  | word => exact if_neg al
  | dword => exact if_neg al

/-- A slot is aligned as `SP` is (R60, R75). -/
theorem slot_zero_unaligned (ds : Word) {sp : Word} (al : sp % 4 ≠ 0) : slot ds sp 0 % 4 ≠ 0 := by
  rw [slot, physAddr_mod4]
  intro zero
  refine al (word_mod4.mpr ?_)
  bv_omega

theorem State.push_misaligned {s : State} (al : s.reg .sp % 4 ≠ 0) (v : Word) :
    s.push v = .raise (.unalignedAccess s.pushAddr) s :=
  State.push_unaligned v (slot_zero_unaligned (s.reg .ds) al)

theorem State.pop_misaligned {s : State} (al : s.reg .sp % 4 ≠ 0) : s.pop = .raise (.unalignedAccess s.popAddr) s := by
  refine State.pop_unaligned fun zero => al (word_mod4.mpr ?_)
  rwa [State.popAddr, physAddr_mod4] at zero

theorem State.callTo_misaligned {s : State} (al : s.reg .sp % 4 ≠ 0) (target : Word) :
    s.callTo target = .raise (.unalignedAccess s.pushAddr) s := by
  rw [State.callTo, State.createFrame, State.push_misaligned al, Res.bind_raise, Res.bind_raise]

theorem State.destroyFrame_misaligned {s : State} (pass : s.framePasses) (al : s.reg .sp % 4 ≠ 0) :
    s.destroyFrame = .raise (.unalignedAccess s.popAddr) s := by
  rw [State.destroyFrame_eq pass, State.popRegs, State.pop_misaligned al, Res.bind_raise, Res.bind_raise]

/-- Interrupt entry swaps the stack before its first push (R290). -/
theorem State.enterInterrupt_misaligned {s : State} {table : Word} {index : Nat} {v : Vec}
    (load : s.loadVector table index = .ok v s) (al : v.sp % 4 ≠ 0) :
    s.enterInterrupt table index = .raise (.unalignedAccess (slot v.ds v.sp 0)) (s.swapStack v) := by
  have push := State.push_misaligned (s := s.swapStack v) al (s.reg .ds)
  rw [State.enterInterrupt_eq load, State.context, State.pushAll, push, Res.bind_raise, Res.bind_raise]
  rfl

/-- Settles O47. -/
theorem misalignedAccessKills : Obligations.MisalignedAccessKills := by
  refine fun s ra rb imm => ⟨fun al => ⟨fun may => ?_, ?_⟩, fun al => ⟨fun may => ?_, ?_⟩, fun al i hi => ?_,
    fun al => ⟨fun may => ?_, fun pass => ?_, fun pass privileged => ?_⟩, fun none ref le al => ?_⟩
  · exact exec_of_raise (exec_eq _ s) (.inl rfl) (State.load_raise may (State.memRead_unaligned (width := .word) al))
  · exact exec_of_raise (exec_eq _ s) (.inl rfl) (State.memWrite_unaligned (width := .word) al _)
  · exact exec_of_raise (exec_eq _ s) (.inl rfl) (State.load_raise may (State.memRead_unaligned (width := .dword) al))
  · exact exec_of_raise (exec_eq _ s) (.inl rfl) (State.memWrite_unaligned (width := .dword) al _)
  · simp only [List.mem_cons, List.not_mem_nil, or_false] at hi
    obtain rfl | rfl | rfl := hi
    · exact exec_of_raise (exec_eq _ s) (.inl rfl) (State.push_misaligned al _)
    · exact exec_of_raise (exec_eq _ s) (.inl rfl) (State.callTo_misaligned al _)
    · exact exec_of_raise (exec_eq _ s) (.inl rfl) (State.callTo_misaligned al _)
  · refine exec_of_raise (exec_eq _ s) (.inl rfl) ((State.checkDest_bind may _).trans ?_)
    rw [State.pop_misaligned al, Res.bind_raise]
  · exact exec_of_raise (exec_eq _ s) (.inl rfl) (State.destroyFrame_misaligned pass al)
  · refine exec_of_raise (exec_eq _ s) (.inr privileged) ?_
    rw [effectOf, State.exitInterrupt, State.destroyFrame_misaligned pass al, Res.bind_raise]
  · refine exec_of_raise (exec_eq _ s) (.inl rfl) ((State.doInt_noHandler none).trans ?_)
    exact State.enterInterrupt_misaligned (State.loadVector_ok ref le) al

/-! ## Accesses past `MEM_SIZE` -/

theorem diesAt_of_raise {i : Instr} {s t : State} {x : Nat} {kept : State → Prop}
    (hp : isPrivileged i = false ∨ s.flags.privileged = true) (he : effectOf i s = .raise (.backendFault x) t)
    (left : kept t) : diesAt i s x kept :=
  ⟨t, exec_of_raise (exec_eq i s) hp he, left⟩

theorem State.Reads.untouched {s t : State} (h : State.Reads s t) : untouched s t := ⟨h.frame, h.sameBytes⟩

/-- What a row of pushes that is cut short leaves, in the statements' words. -/
theorem State.PushCut.halfPushed {s w : State} {vs : List Word} {k : Nat} (hk : k < vs.length)
    (h : State.PushCut s w (vs.take k) vs[k]) : halfPushed s vs k vs[k] (s.moved w k) := by
  have len : (vs.take k).length = k := List.length_take_of_le (Nat.le_of_lt hk)
  obtain ⟨frame, slots, first, rest⟩ := h
  rw [len] at first rest
  refine ⟨onlyRegsAndData_setRegs frame _, fun q hq => ?_, rfl, fun j hj lt => ?_, fun le => ?_, fun a out half => ?_⟩
  · exact State.pushed_reg frame k fun sp => hq (List.mem_singleton.mpr sp)
  · rw [State.moved, State.dwordNow_setReg, slots j (len.symm ▸ lt), List.getElem_take]
  · rw [State.moved, State.granuleNow_setReg, first le]
  · rw [State.moved, State.byteNow_setReg, rest a out half]

theorem State.pushAll_halfPushed {s : State} (inv : s.Inv) (registered : s.self.registered = true) {vs : List Word}
    {k : Nat} (hk : k < vs.length) (short : vs.length < 2 ^ 20) (past : firstPast s.cfg (s.reg .ds) (s.reg .sp) k) :
    ∃ t, State.pushAll vs s = .raise (.backendFault (firstFault s.cfg (slot (s.reg .ds) (s.reg .sp) k))) t
      ∧ halfPushed s vs k vs[k] t := by
  obtain ⟨w, raised, cut⟩ := State.pushAll_cut inv registered vs k hk short past
  exact ⟨_, raised, cut.halfPushed hk⟩

/-- `PUSH` and the calls are rows of pushes. -/
theorem effectOf_pushes {s : State} {ra : Reg} {imm : Half} {i : Instr} {vs : List Word}
    (hi : (i, vs) ∈ [(Instr.push ra, [s.reg ra]), (Instr.call ra, [s.reg .ip, s.reg .fp]),
      (Instr.callr imm, [s.reg .ip, s.reg .fp])]) :
    isPrivileged i = false ∧ vs.length < 2 ^ 20
      ∧ ∀ f t, State.pushAll vs s = .raise f t → effectOf i s = .raise f t := by
  have call (target : Word) (f : CoreFault) (t : State) (h : State.pushAll [s.reg .ip, s.reg .fp] s = .raise f t) :
      s.callTo target = .raise f t := by
    rw [State.callTo, State.createFrame_eq, h, Res.bind_raise, Res.bind_raise]
  simp only [List.mem_cons, Prod.mk.injEq, List.not_mem_nil, or_false] at hi
  obtain ⟨rfl, rfl⟩ | ⟨rfl, rfl⟩ | ⟨rfl, rfl⟩ := hi
  · refine ⟨rfl, by rw [List.length_singleton]; decide, fun f t h => ?_⟩
    obtain raised | ⟨_, _, _, ends⟩ := Res.bind_eq_raise.mp h
    · exact raised
    · cases ends
  · exact ⟨rfl, Nat.lt_of_le_of_lt (le_refl 2) (by decide), call _⟩
  · exact ⟨rfl, Nat.lt_of_le_of_lt (le_refl 2) (by decide), call _⟩

theorem State.onlyDataPath.setFrames {s w : State} (h : s.onlyDataPath w) (fs : List StackFrame) :
    (s.setFrames fs).onlyDataPath (w.setFrames fs) := by
  obtain ⟨frame, pages, own, before, after⟩ := h
  have own' : (s.setFrames fs).self.onlyDcache (w.setFrames fs).self := by
    unfold Core.onlyDcache at own ⊢
    exact congrArg (fun c : Core => { c with frames := fs }) own
  exact ⟨congrArg (State.setFrames · fs) frame, pages, own', before, after⟩

/-- What a row of pops that is cut short leaves, in the statements' words. -/
theorem halfPopped_of_reads {s w : State} {k : Nat}
    (reads : State.Reads (s.setFrames (if k < 2 then s.self.frames else s.framesDropped)) w) :
    halfPopped s k (w.setRegs (Regs.afterPops s.dwordNow k s.self.regs)) := by
  obtain ⟨sp, others, popped⟩ := Regs.afterPops_read s.dwordNow k s.self.regs
  refine ⟨?_, fun a => ?_, others, sp, popped, reads.frame.frames⟩
  · have same : (w.setRegs (Regs.afterPops s.dwordNow k s.self.regs)).setRegs s.self.regs = w := by
      rw [State.setRegs_setRegs, show s.self.regs = w.self.regs from reads.frame.regs.symm, State.setRegs_self]
    rw [onlyFramesAndData, same]
    exact reads.frame.setFrames s.self.frames
  · exact (State.byteNow_setRegs ..).trans ((reads.sameBytes a).trans (State.byteNow_setFrames ..))

theorem State.context_length (s : State) : s.context.length = 14 := rfl

/-- Interrupt entry whose stack runs past `MEM_SIZE` (R290). -/
theorem State.enterInterrupt_halfPushed {s : State} (inv : s.Inv) (registered : s.self.registered = true) {table : Word}
    {index k : Nat} {v : Vec} (load : s.loadVector table index = .ok v s) (hk : k < s.context.length)
    (past : firstPast s.cfg v.ds v.sp k) :
    ∃ t, s.enterInterrupt table index = .raise (.backendFault (firstFault s.cfg (slot v.ds v.sp k))) t
      ∧ halfPushed (s.swapStack v) s.context k s.context[k] t := by
  have nr := inv.not_reset registered
  have inv' : (s.swapStack v).Inv := State.Inv_setReg (State.Inv_setReg inv nr .ds v.ds) nr .sp v.sp
  obtain ⟨t, raised, half⟩ := State.pushAll_halfPushed inv' registered hk (s.context_length ▸ by decide) past
  refine ⟨t, ?_, half⟩
  rw [State.enterInterrupt_eq load, raised, Res.bind_raise]
  rfl

theorem State.enterInterrupt_vectorFault {s : State} (ref : s.cfg.backend = .reference) {table : Word} {index j : Nat}
    (hj : j < 4) (le : j = 0 ∨ vectorAddr table index + 4 * j ≤ s.cfg.memSize)
    (past : s.cfg.memSize < vectorAddr table index + 4 * j + 4) :
    s.enterInterrupt table index = .raise (.backendFault (vectorAddr table index + 4 * j)) s := by
  rw [State.enterInterrupt, State.loadVector_fault ref hj le past, Res.bind_raise]

/-- Settles O48: every access is one of the data path, a row of pushes, a row of pops, or a vector load. -/
theorem outOfRangeAccessKills : Obligations.OutOfRangeAccessKills := by
  intro s ra rb imm a run ha
  have registered := Running.registered run
  obtain ⟨inv, _⟩ := run
  subst ha
  refine ⟨fun past => ⟨fun may => ?_, ?_⟩, fun al past => ⟨fun may => ?_, ?_⟩, fun al past => ⟨fun may => ?_, ?_⟩,
    fun i vs k hk hi past => ?_, fun k past => ⟨fun first may => ?_, fun lt pass => ?_, fun lt pass privileged => ?_⟩,
    fun none => ⟨fun x j hx hj le past => ?_, fun v le hv k hk past => ?_⟩⟩
  · obtain ⟨t, raised, reads⟩ := State.memRead_byte_fault inv past
    exact diesAt_of_raise (.inl rfl) (State.load_raise may raised) reads.untouched
  · obtain ⟨t, raised, reads⟩ := State.memWrite_byte_fault inv past (s.reg ra)
    exact diesAt_of_raise (.inl rfl) raised reads.untouched
  · obtain ⟨t, raised, reads⟩ := State.memRead_word_fault inv al past
    exact diesAt_of_raise (.inl rfl) (State.load_raise may raised) reads.untouched
  · obtain ⟨t, raised, reads⟩ := State.memWrite_word_fault inv al past (s.reg ra)
    exact diesAt_of_raise (.inl rfl) raised reads.untouched
  · obtain ⟨t, raised, reads⟩ := State.memRead_dword_fault inv registered al past
    exact diesAt_of_raise (.inl rfl) (State.load_raise may raised) reads.untouched
  · obtain ⟨t, raised, frame, none, half⟩ := State.memWrite_dword_fault inv registered al past (s.reg ra)
    refine diesAt_of_raise (.inl rfl) raised ⟨frame, ?_⟩
    split
    · next first => exact none first
    · next second => exact half second
  · obtain ⟨hp, short, raises⟩ := effectOf_pushes hi
    obtain ⟨t, raised, half⟩ := State.pushAll_halfPushed inv registered hk short past
    exact diesAt_of_raise (.inl hp) (raises _ _ raised) half
  · subst first
    obtain ⟨al, _, past⟩ := past
    rw [popSlot_zero] at past ⊢
    obtain ⟨w, raised, reads⟩ := (State.Reads.refl inv).pop_fault registered s.self.regs
      (popSlot_zero (s.reg .ds) (s.reg .sp) ▸ popSlot_mod4 al 0) past
    rw [State.setRegs_self, ← reads.frame.regs, State.setRegs_self, reads.frame.regs] at raised
    refine diesAt_of_raise (.inl rfl) ((State.checkDest_bind may _).trans ?_) reads.untouched
    exact (congrArg (Res.bind · _) raised).trans (Res.bind_raise ..)
  · obtain ⟨w, raised, reads⟩ := State.destroyFrame_cut inv registered pass lt past
    refine diesAt_of_raise (.inl rfl) raised (halfPopped_of_reads ?_)
    rw [if_pos lt]
    exact reads
  · obtain ⟨w, raised, reads⟩ := State.exitInterrupt_cut inv registered pass lt past
    exact diesAt_of_raise (.inr privileged) raised (halfPopped_of_reads reads)
  · subst hx
    refine exec_of_raise (exec_eq _ s) (.inl rfl) ((State.doInt_noHandler none).trans ?_)
    exact State.enterInterrupt_vectorFault inv.reference hj le past
  · subst hv
    obtain ⟨t, raised, half⟩ := State.enterInterrupt_halfPushed inv registered (State.loadVector_ok inv.reference le) hk past
    exact diesAt_of_raise (.inl rfl) ((State.doInt_noHandler none).trans raised) half

end Sys2Proof.Machine
end

section
/-! PROOFS. Interrupts: entry from `INT` and from the hardware, the return, and the return that undoes an entry (R260, R261,
R288 to R296). -/

namespace Sys2Proof.Machine

open Sys2Proof.Spec

/-! ## Interrupt entry -/

/-- The registers after interrupt entry through a vector (R290). -/
def Regs.entered (g : Regs) (v : Vec) : Regs :=
  { g with
    cs := v.cs, ds := v.ds, ip := v.ip, sp := v.sp - 56, fp := v.sp - 56
    flags := { g.flags with privileged := true } }

/-- The record that interrupt entry appends (R245, R290). -/
def State.entryRecord (s : State) (v : Vec) : StackFrame := ⟨s.reg .cs, v.ds, v.sp - 56, s.reg .ip⟩

/-- The state after interrupt entry, `w` being what the pushes made of memory, with any value of `CNT`. -/
def State.enteredWith (s w : State) (v : Vec) (cnt : Word) : State :=
  (w.setFrames (s.framesWith (s.entryRecord v))).setRegs { s.self.regs.entered v with cnt := cnt }

theorem State.enterInterrupt_enteredWith {s : State} (inv : s.Inv) (registered : s.self.registered = true) {table : Word}
    {index : Nat} {v : Vec} (le : vectorAddr table index + 16 ≤ s.cfg.memSize) (hv : v = s.vectorIn table index)
    (ok : slotsServed s.cfg v.ds v.sp 14) :
    ∃ w, State.Pushed (s.swapStack v) w s.context
      ∧ s.enterInterrupt table index = .ok () (s.enteredWith w v (s.reg .cnt)) := by
  subst hv
  obtain ⟨w, pushed, entry⟩ := State.enterInterrupt_ok inv registered le ok
  refine ⟨w, pushed, entry.trans (congrArg (Res.ok ()) ?_)⟩
  generalize s.vectorIn table index = v at pushed
  have regs : ((s.swapStack v).moved w 14).setReg .fp (v.sp - BitVec.ofNat 32 56)
      = w.setRegs { s.self.regs with ds := v.ds, sp := v.sp - 56, fp := v.sp - 56 } := by
    refine (congrArg (fun g : Regs => w.setRegs ((g.write .sp (v.sp - 56)).write .fp (v.sp - 56))) pushed.frame.regs).trans ?_
    rfl
  rw [regs, State.recordFrame_setRegs pushed.frame]
  rfl

theorem State.onlyDataPath.setRegs {s w : State} (h : s.onlyDataPath w) (g : Regs) :
    (s.setRegs g).onlyDataPath (w.setRegs g) := by
  obtain ⟨frame, pages, own, before, after⟩ := h
  have own' : (s.setRegs g).self.onlyDcache (w.setRegs g).self := by
    unfold Core.onlyDcache at own ⊢
    exact congrArg (fun c : Core => { c with regs := g }) own
  exact ⟨congrArg (State.setRegs · g) frame, pages, own', before, after⟩

/-- What the state after interrupt entry is, in the statements' words. -/
theorem State.enteredWith_entered {s w : State} {v : Vec} (pushed : State.Pushed (s.swapStack v) w s.context)
    (cnt : Word) : onlyFramesAndData s (s.enteredWith w v cnt) ∧ entered s (s.enteredWith w v cnt) v := by
  refine ⟨?_, fun q hq => ?_, rfl, rfl, rfl, rfl, rfl, rfl, rfl, fun k hk => ?_, fun a out => ?_⟩
  · have only := (pushed.frame.setFrames s.self.frames).setRegs s.self.regs
    exact only
  · cases q with
    | cs | ds | ip | sp | fp | flags | cnt => exact (hq (by decide)).elim
    | _ => rfl
  · exact (State.dwordNow_setFrames_setRegs ..).trans (pushed.slots k hk)
  · refine (State.byteNow_setFrames_setRegs ..).trans ((pushed.rest a out).trans ?_)
    exact (State.byteNow_setReg ..).trans (State.byteNow_setReg ..)

/-- Settles O36. -/
theorem intEntersTheInterrupt : Obligations.IntEntersTheInterrupt := by
  intro s imm v run none le hv ok
  obtain ⟨w, pushed, entry⟩ := State.enterInterrupt_enteredWith run.1 (Running.registered run) le hv ok
  obtain ⟨only, enters⟩ := State.enteredWith_entered pushed (s.reg .cnt + 1)
  exact ⟨_, exec_of_ok (exec_eq _ s) (.inl rfl) ((State.doInt_noHandler none).trans entry), only, enters, rfl⟩

/-! ## Return from interrupt -/

/-- Both bytes of a granule are in one page, the page size being even (R7, R63). -/
theorem pageIndex_granule {cfg : Config} (wf : cfg.wf = true) (a : Nat) : pageIndex cfg (granule a) = pageIndex cfg a := by
  have even : cfg.pageSize % 2 = 0 := by
    have large := Config.wf_pageSize wf
    unfold Config.wf at wf
    simp only [Bool.and_eq_true, decide_eq_true_eq] at wf
    obtain ⟨⟨_, k, power⟩, _⟩ := wf
    cases k with
    | zero => omega
    | succ k => omega
  obtain ⟨q, half⟩ : ∃ q, cfg.pageSize = 2 * q := ⟨cfg.pageSize / 2, by omega⟩
  unfold pageIndex granule
  rw [half, ← Nat.div_div_eq_div_mul, ← Nat.div_div_eq_div_mul]
  congr 1
  omega

/-- Settles O37. -/
theorem retintRestoresTheContext : Obligations.RetintRestoresTheContext := by
  intro s m run privileged pass ok hm
  obtain rfl : m = fun k => s.dwordNow (popSlot (s.reg .ds) (s.reg .sp) k) := funext hm
  obtain ⟨t, exits, inv, pages, only, same, dropped⟩ :=
    State.exitInterrupt_ok run.1 (Running.registered run) pass ok
  refine ⟨_, exec_of_ok (exec_eq .retint s) (.inr privileged) exits, fun r => ?_, only.frames, pages, ?_,
    fun a other => ?_, fun c hc registered e he => ?_⟩
  · have restored (q : Reg) (ne : q ≠ .cnt) : t.retire.reg q = (s.self.regs.restored fun k =>
        s.dwordNow (popSlot (s.reg .ds) (s.reg .sp) k)).read q := (State.reg_retire_ne t ne).trans (only.reg q)
    cases r with
    | cnt => exact (State.reg_retire_cnt t).trans (congrArg (· + 1) (only.reg .cnt))
    | flags => exact (restored .flags nofun).trans (Flags.toWord_ofWord _)
    | _ => exact restored _ (by decide)
  · have back := (only.setFrames s.self.frames).setRegs s.self.regs
    rw [← pages] at back
    exact back
  · refine (State.byteNow_setReg ..).trans (State.byteNow_of_granule (same _ (granule_even a) ?_))
    rw [pageIndex_granule run.1.1]
    exact other
  · obtain rfl | others := State.mem_cores.mp hc
    · exact dropped t.self t.self_mem registered e he
    · exact dropped c (State.mem_cores.mpr (.inr others)) registered e he

/-- Settles O38: the exit pops the fourteen slots that the entry pushed, the last first. -/
theorem returnUndoesInterrupt : Obligations.ReturnUndoesInterrupt := by
  intro s imm v run none le hv ok
  obtain ⟨t, enters, only, entry, counted⟩ := intEntersTheInterrupt s imm v run none le hv ok
  obtain ⟨kept, _, ds, _, sp, _, flags, frames, slots, bytes⟩ := entry
  have cfg := onlyFramesAndData.cfg only
  have safe : (effectOf (.int imm) s).Safe := by
    rw [effectOf, State.doInt_noHandler none]
    exact State.enterInterrupt_safe run.1 (Running.registered run) _ _
  have run' : Running t := ⟨inv_of_exec run safe enters, (onlyFramesAndData.life only).trans run.2⟩
  have privileged : t.flags.privileged = true := by rw [flags]
  have top (k : Nat) (lt : k < 14) : popSlot (t.reg .ds) (t.reg .sp) k = slot v.ds v.sp (13 - k) := by
    rw [ds, sp]
    exact popSlot_of_pushed (n := 14) _ _ lt
  have served : popSlotsServed t.cfg (t.reg .ds) (t.reg .sp) 14 := by
    intro k lt
    rw [cfg, top k lt]
    exact ok _ (by omega)
  have pass : t.framePasses := by
    intro checked
    rw [cfg] at checked
    rw [if_pos checked] at frames
    rw [State.frameMatches, frames, List.getLast?_concat, sp]
    exact beq_self_eq_true _
  have page : t.interruptPage = pageIndex s.cfg (physAddr v.ds (v.sp - 1)) := by
    rw [State.interruptPage, cfg, ds, sp, show v.sp - 56 + 55 = v.sp - 1 by rw [sub_add]; rfl]
  obtain ⟨u, exits, regs, frames', _, _, same, _⟩ := retintRestoresTheContext t _ run' privileged pass served fun _ => rfl
  have inside (k : Nat) : 13 - k < s.context.length := by
    rw [State.context_length]
    omega
  have popped (k : Nat) (lt : k < 14) :
      t.dwordNow (popSlot (t.reg .ds) (t.reg .sp) k) = s.context[13 - k]'(inside k) := by
    rw [top k lt]
    exact slots _ _
  refine ⟨t, u, enters, exits, fun q hq => (regs q).trans ?_, (regs .cnt).trans ?_, ?_, fun a out other => ?_⟩
  · cases q with
    | cnt => exact (hq (by decide)).elim
    | fp => exact popped 0 (by decide)
    | ip => exact popped 1 (by decide)
    | r7 => exact popped 2 (by decide)
    | r6 => exact popped 3 (by decide)
    | r5 => exact popped 4 (by decide)
    | r4 => exact popped 5 (by decide)
    | r3 => exact popped 6 (by decide)
    | r2 => exact popped 7 (by decide)
    | r1 => exact popped 8 (by decide)
    | r0 => exact popped 9 (by decide)
    | flags =>
      refine (congrArg (· &&& 0x3F) (popped 10 (by decide))).trans ?_
      exact (Flags.toWord_ofWord s.flags.toWord).symm.trans (congrArg Flags.toWord (Flags.ofWord_toWord s.flags))
    | cs => exact popped 11 (by decide)
    | sp => exact popped 12 (by decide)
    | ds => exact popped 13 (by decide)
  · rw [counted, add_assoc]
    rfl
  · rw [frames', State.framesDropped, cfg, frames]
    split
    · rw [List.dropLast_concat]
    · rfl
  · rw [same a (by rw [cfg, page]; exact other), bytes a out]

/-! ## Hardware interrupts -/

theorem State.irq_ok {s t : State} {index : Nat} (accepts : s.acceptsIrq = true)
    (entry : (s.setLife .booted).enterInterrupt s.cfg.irqTable index = .ok () t) : s.irq index = t := by
  rw [State.irq, if_pos accepts, entry]

theorem State.irq_raise {s t : State} {index : Nat} {f : CoreFault} (accepts : s.acceptsIrq = true)
    (entry : (s.setLife .booted).enterInterrupt s.cfg.irqTable index = .raise f t) : s.irq index = t.die f := by
  rw [State.irq, if_pos accepts, entry]

theorem State.byteNow_setLife (s : State) (l : Lifecycle) (a : Nat) : (s.setLife l).byteNow a = s.byteNow a :=
  State.byteNow_of_granule (State.granuleNow_self s { s.self with life := l } rfl rfl _)

/-- Settles O40: the request is accepted, and the entry is that of `INT` but for the table and `CNT`. -/
theorem irqEntersTheInterrupt : Obligations.IrqEntersTheInterrupt := by
  intro s u w k index a rest inv hi lt hu hw alive enabled ha
  subst ha hw
  have hc := List.getElem?_eq_getElem lt
  have inv_u : u.Inv := (State.focus_unchanged hc hu).2.2.2.2.2 inv
  have accepts : u.acceptsIrq = true := u.acceptsIrq_iff.mpr ⟨alive, enabled⟩
  have requested : step s = .next (u.irq index) := by
    rw [hu]
    exact (State.step_host hi nofun).trans (State.onCore_at hc (State.irq index))
  have is_alive : u.self.life.isAlive = true := by
    obtain life | life := alive <;> rw [life] <;> rfl
  have inv_w : (u.setLife .booted).Inv := State.setLife_inv inv_u is_alive rfl
  have registered : (u.setLife .booted).self.registered = true := inv_u.registered.trans is_alive
  have raises {f : CoreFault} {t : State} (entry : (u.setLife .booted).enterInterrupt u.cfg.irqTable index = .raise f t) :
      step s = .next (t.die f) := requested.trans (congrArg _ (State.irq_raise accepts entry))
  refine ⟨fun v le hv => ⟨fun ok => ?_, fun al => ?_, fun n hn past => ?_⟩, fun j hj le past => ?_, fun f t => raises⟩
  · obtain ⟨t, pushed, entry⟩ := State.enterInterrupt_enteredWith inv_w registered le hv ok
    obtain ⟨only, kept, cs, ds, ip, sp, fp, flags, frames, slots, bytes⟩ :=
      State.enteredWith_entered pushed ((u.setLife .booted).reg .cnt)
    refine ⟨_, requested.trans (congrArg _ (State.irq_ok accepts entry)), only, ?_, rfl⟩
    exact ⟨kept, cs, ds, ip, sp, fp, flags, frames, slots, fun b out => (bytes b out).trans (u.byteNow_setLife _ b)⟩
  · subst hv
    exact raises (State.enterInterrupt_misaligned (State.loadVector_ok inv_w.reference le) al)
  · subst hv
    obtain ⟨t, raised, half⟩ :=
      State.enterInterrupt_halfPushed inv_w registered (State.loadVector_ok inv_w.reference le) hn past
    exact ⟨t, raises raised, half⟩
  · exact raises (State.enterInterrupt_vectorFault inv_w.reference hj le past)

end Sys2Proof.Machine
end

section
/-! PROOFS. Virtual interrupts: which handler runs, and what each action of a handler given as data does (R11, R295). -/

namespace Sys2Proof.Machine

open Sys2Proof.Spec

/-- Of two pairs of `VIRT` with one index the first counts (R295). -/
theorem Config.handler_of_first {cfg : Config} {index : Half} {earlier later : List (Half × Handler)} {h : Handler}
    (pairs : cfg.virt = earlier ++ (index, h) :: later) (first : ∀ p ∈ earlier, p.1 ≠ index) :
    cfg.handler index = some h := by
  have skipped : earlier.find? (·.1 == index) = none := by simpa [List.find?_eq_none] using first
  have found : List.find? (·.1 == index) ((index, h) :: later) = some (index, h) :=
    List.find?_cons_of_pos (beq_self_eq_true index)
  rw [Config.handler, pairs, List.find?_append, skipped, Option.none_or, found]
  rfl

theorem exec_virtual {s : State} {index : Half} {h : Handler} (found : s.cfg.handler index = some h) :
    exec (.int index) s = (runHandler h s).finish := by
  have runs : s.doInt index = runHandler h s := by
    unfold State.doInt
    rw [found]
  rw [← runs, exec_eq]
  rfl

/-- A handler that writes one register with a constant (R10). -/
theorem exec_virtual_setReg {s : State} {index : Half} {r : Reg} {v : Word}
    (found : s.cfg.handler index = some (.given [.setReg r (.const v)])) (not_cnt : r ≠ .cnt) :
    ∃ t, exec (.int index) s = .next t ∧ onlyRegs s t ∧ keeps s t [r, .cnt] ∧ retired s t
      ∧ (r ≠ .flags → t.reg r = v) ∧ t.flags = writtenFlags s r v := by
  refine ⟨(s.setReg r v).retire, exec_virtual found, rfl, fun q hq => ?_, ?_, fun not_flags => ?_,
    State.writtenFlags_eq s r v⟩
  · obtain ⟨other, q_not_cnt⟩ : q ≠ r ∧ q ≠ .cnt := by simpa using hq
    rw [State.reg_retire_ne _ q_not_cnt, State.reg_setReg_ne _ _ _ _ other]
  · rw [retired, State.reg_retire_cnt, State.reg_setReg_ne _ _ _ _ not_cnt.symm]
  · rw [State.reg_retire_ne _ not_cnt, State.reg_setReg_same _ _ _ not_flags]

/-! ## The actions of a handler given as data -/

theorem runActs_cons (got : List Word) (s : State) (act : HandlerAct) (rest : List HandlerAct) :
    runActs (act :: rest) got s = (performAct got s act).bind fun new t => runActs rest (got ++ new) t := rfl

theorem evalExpr_got {s : State} {got : List Word} {k : Nat} {v : Word} (h : got[k]? = some v) :
    evalExpr s got (.got k) = v := by
  rw [evalExpr, List.getD_eq_getElem?_getD, h, Option.getD_some]

theorem performAct_memory_unaligned (s : State) (got : List Word) (x y : HandlerExpr) {width : Width}
    (al : (evalExpr s got x).toNat % accessBytes width ≠ 0) :
    performAct got s (.memRead width x) = .raise (.unalignedAccess (evalExpr s got x).toNat) s
      ∧ performAct got s (.memWrite width x y) = .raise (.unalignedAccess (evalExpr s got x).toNat) s := by
  rw [performAct, performAct, State.memRead_unaligned al, State.memWrite_unaligned al]
  exact ⟨rfl, rfl⟩

theorem performAct_stack_unaligned (s : State) (got : List Word) (x : HandlerExpr) (al : s.reg .sp % 4 ≠ 0) :
    performAct got s (.push x) = .raise (.unalignedAccess s.pushAddr) s
      ∧ performAct got s .pop = .raise (.unalignedAccess s.popAddr) s := by
  rw [performAct, performAct, State.push_misaligned al, State.pop_misaligned al]
  exact ⟨rfl, rfl⟩

theorem keeps_of_setReg {s u : State} (h : s.onlyDataPath u) (r : Reg) (v : Word) : keeps s (u.setReg r v) [r] :=
  h.keeps_iff.mp fun _ hq => u.reg_setReg_ne _ _ _ fun e => hq (List.mem_singleton.mpr e)

section Served

variable {s : State} (run : Running s) (got : List Word) (x y : HandlerExpr)

include run

theorem performAct_memRead {width : Width} (ok : serves s.cfg width (evalExpr s got x).toNat) :
    ∃ t, performAct got s (.memRead width x) = .ok [s.valueNow width (evalExpr s got x).toNat] t
      ∧ s.onlyDataPath t ∧ s.sameBytes t := by
  obtain ⟨t, read, reads⟩ := State.memRead_ok run.1 (Running.registered run) ok
  refine ⟨t, ?_, reads.frame, reads.sameBytes⟩
  rw [performAct, read, Res.bind_ok]

theorem performAct_memWrite {width : Width} (ok : serves s.cfg width (evalExpr s got x).toNat) :
    ∃ t, performAct got s (.memWrite width x y) = .ok [] t ∧ s.onlyDataPath t
      ∧ t.valueNow width (evalExpr s got x).toNat = lowBits width (evalExpr s got y)
      ∧ s.sameBytesBut t (evalExpr s got x).toNat (accessBytes width) := by
  obtain ⟨t, write, stored⟩ := State.memWrite_ok run.1 (Running.registered run) ok (evalExpr s got y)
  refine ⟨t, ?_, stored.frame, stored.now, stored.rest⟩
  rw [performAct, write, Res.bind_ok]

theorem performAct_push (ok : serves s.cfg .dword s.pushAddr) :
    ∃ t, performAct got s (.push x) = .ok [] t ∧ onlyRegsAndData s t ∧ keeps s t [.sp]
      ∧ t.reg .sp = s.reg .sp - 4 ∧ t.dwordNow s.pushAddr = evalExpr s got x ∧ s.sameBytesBut t s.pushAddr 4 := by
  obtain ⟨u, push, stored⟩ := State.push_ok run.1 (Running.registered run) (evalExpr s got x) ok
  refine ⟨_, ?_, onlyRegsAndData_setRegs stored.frame _, keeps_of_setReg stored.frame _ _,
    State.reg_setReg_same _ .sp _ nofun, ?_, sameBytesBut_setRegs stored.rest _⟩
  · rw [performAct, push]
    rfl
  · exact (State.dwordNow_setReg ..).trans stored.now

theorem performAct_pop (ok : serves s.cfg .dword s.popAddr) :
    ∃ t, performAct got s .pop = .ok [s.dwordNow s.popAddr] t ∧ onlyRegsAndData s t ∧ keeps s t [.sp]
      ∧ t.reg .sp = s.reg .sp + 4 ∧ s.sameBytes t := by
  obtain ⟨u, pop, reads⟩ := State.pop_ok run.1 (Running.registered run) ok
  refine ⟨_, ?_, onlyRegsAndData_setRegs reads.frame _, keeps_of_setReg reads.frame _ _,
    State.reg_setReg_same _ .sp _ nofun, sameBytes_setRegs reads.sameBytes _⟩
  rw [performAct, pop]
  rfl

end Served

/-- Settles O39: the handler found runs in place of the entry; each of its actions is a primitive of R11. -/
theorem virtualInterruptRunsTheHandler : Obligations.VirtualInterruptRunsTheHandler := by
  refine ⟨fun s imm earlier later h pairs first => ?_, fun s got => ⟨rfl, fun act rest => ?_⟩,
    fun s got x y => ⟨fun _ => rfl, fun _ => rfl, fun _ _ => evalExpr_got, rfl, fun _ => rfl, fun _ => rfl,
      fun width pa hpa al => ?_, performAct_stack_unaligned s got x⟩,
    fun s got x y run => ⟨fun width pa hpa ok => ?_, performAct_push run got x, performAct_pop run got⟩⟩
  · have found := Config.handler_of_first pairs first
    refine ⟨?_, fun n free => free ▸ rfl, fun acts given => given ▸ rfl, fun r v given not_cnt => ?_⟩
    · rw [exec_virtual found]
      cases runHandler h s <;> rfl
    · exact exec_virtual_setReg (given ▸ found) not_cnt
  · rw [runActs_cons]
    cases performAct got s act <;> rfl
  · subst hpa
    exact performAct_memory_unaligned s got x y al
  · subst hpa
    exact ⟨performAct_memRead run got x ok, performAct_memWrite run got x y ok⟩

end Sys2Proof.Machine
end

section
/-! PROOFS. The data cache under a word load and a store: recency order, eviction, the fill snoop, and the writer as the only
holder (R84 to R87, R89, R91, R93). -/

namespace Sys2Proof.Machine

open Sys2Proof.Spec

/-! ## A read of a granule -/

theorem dcacheFind_of_miss {d : List DEntry} {a : Nat} (miss : ∀ e ∈ d, e.addr ≠ a) : dcacheFind d a = none := by
  simpa [dcacheFind, List.find?_eq_none] using miss

theorem State.dread16_miss {s : State} {a : Nat} (miss : ∀ e ∈ s.self.dcache, e.addr ≠ a) : s.dread16 a = s.fill a := by
  unfold State.dread16
  rw [dcacheFind_of_miss miss]

/-- What a data cache at or below capacity holds once there is room for one more entry (R85, R87). -/
def State.dcacheWithRoom (s : State) : List DEntry :=
  if s.self.dcache.length = s.cfg.dcacheSize then s.self.dcache.drop 1 else s.self.dcache

theorem State.mem_dcacheWithRoom {s : State} {e : DEntry} (he : e ∈ s.dcacheWithRoom) : e ∈ s.self.dcache := by
  unfold State.dcacheWithRoom at he
  split at he
  · exact List.mem_of_mem_drop he
  · exact he

theorem map_snooped (cfg : Config) (a : Nat) (cs : List Core) :
    cs.map (Core.swept cfg (.single a) true false) = cs.map (snooped a) :=
  List.map_congr_left fun c _ => Core.swept_snoop cfg a c

/-- What a fill leaves (R85, R87, R91). -/
structure State.Filled (s t : State) (a : Nat) : Prop where
  reads : State.Reads s t
  dcache : t.self.dcache = s.dcacheWithRoom ++ [⟨a, false, s.granuleNow a⟩]
  before : t.before = s.before.map (snooped a)
  after : t.after = s.after.map (snooped a)
  filled : t.mem.half a = s.granuleNow a
  evicted : ∀ b, b % 2 = 0 → b ≠ a → t.mem.half b = s.mem.half b ∨ evicts s b (t.mem.half b)

section Miss

variable {s : State} (inv : s.Inv) (registered : s.self.registered = true) {a : Nat} (even : a % 2 = 0)
  (le : a + 2 ≤ s.cfg.memSize) (miss : ∀ e ∈ s.self.dcache, e.addr ≠ a)

include inv registered even le miss

theorem State.fill_filled : ∃ t, s.fill a = .ok (s.granuleNow a) t ∧ State.Filled s t a := by
  obtain ⟨t, fills, reads, dcache⟩ := State.fill_ok inv registered even le miss
  obtain ⟨before, after, filled, evicted⟩ := State.fill_snoops inv registered even le miss fills
  rw [map_snooped] at before after
  exact ⟨t, fills, reads, dcache, before, after, filled, evicted⟩

end Miss

theorem snooped_addr {a : Nat} {c : Core} {e : DEntry} (he : e ∈ (snooped a c).dcache) : ∃ f ∈ c.dcache, f.addr = e.addr := by
  unfold snooped at he
  split at he
  · obtain ⟨f, hf, rfl⟩ := List.mem_map.mp he
    refine ⟨f, hf, ?_⟩
    split <;> rfl
  · exact ⟨e, he, rfl⟩

theorem snooped_registered (a : Nat) (c : Core) : (snooped a c).registered = c.registered := by
  unfold snooped
  split <;> rfl

/-- A dirty entry that a fill makes leave is in the backend: its value is still current, and no cache holds it dirty (R87,
R104). -/
theorem State.Filled.wroteBack {s t : State} {a : Nat} (h : State.Filled s t a) (inv : s.Inv)
    (registered : s.self.registered = true) {e : DEntry}
    (he : e ∈ s.self.dcache) (dirty : e.dirty = true) (left : e ∉ t.self.dcache) : t.mem.half e.addr = e.value := by
  obtain ⟨_, nodup, wf⟩ := inv.dcacheWf s.self s.self_mem
  have alone (c : Core) (hc : c ∈ s.others) (rc : c.registered = true) (f : DEntry) (hf : f ∈ c.dcache) :
      f.addr ≠ e.addr := fun same =>
    absurd ((inv.coherentSelf registered hc rc he hf same.symm).1.symm.trans dirty) Bool.false_ne_true
  have snooped_alone (l : List Core) (sub : ∀ c ∈ l, c ∈ s.others) (c : Core) (hc : c ∈ l.map (snooped a))
      (rc : c.registered = true) (f : DEntry) (hf : f ∈ c.dcache) : f.addr ≠ e.addr := by
    obtain ⟨d, hd, rfl⟩ := List.mem_map.mp hc
    obtain ⟨g, hg, same⟩ := snooped_addr hf
    rw [← same]
    exact alone d (sub d hd) (snooped_registered a d ▸ rc) g hg
  have clean : ∀ c ∈ t.cores, c.registered = true → ∀ f ∈ c.dcache, f.addr = e.addr → f.dirty = false := by
    intro c hc rc f hf same
    obtain rfl | before | after := State.mem_cores.mp hc
    · rw [h.dcache, List.mem_append, List.mem_singleton] at hf
      obtain kept | rfl := hf
      · refine absurd ?_ left
        rw [← entry_unique nodup (State.mem_dcacheWithRoom kept) he same, h.dcache]
        exact List.mem_append_left _ kept
      · rfl
    · rw [h.before] at before
      exact absurd same (snooped_alone _ (fun _ => List.mem_append_left _) c before rc f hf)
    · rw [h.after] at after
      exact absurd same (snooped_alone _ (fun _ => List.mem_append_right _) c after rc f hf)
  rw [← State.granuleNow_of_clean h.reads.inv clean, h.reads.now _ (wf e he).1]
  exact State.granuleNow_of_held inv s.self_mem registered he

/-- The end of a word load, the granule read. -/
theorem exec_lw {s u : State} {ra rb : Reg} {imm : Half} {v : Half} (may : mayWrite s ra)
    (even : s.dataAddr rb imm % 2 = 0) (read : s.dread16 (s.dataAddr rb imm) = .ok v u) :
    exec (.lw ra rb imm) s = .next (u.loadReg ra (zext32 v)).retire := by
  refine exec_of_ok (exec_eq _ s) (.inl rfl) ((State.checkDest_bind may _).trans ?_)
  rw [State.memRead, if_pos even, read]
  rfl

/-- Settles O56: a hit reorders the cache alone, and a miss is a fill. -/
theorem loadsKeepRecencyOrder : Obligations.LoadsKeepRecencyOrder := by
  intro s ra rb imm run may ok
  obtain ⟨even, _, le⟩ := ok
  have registered := Running.registered run
  obtain ⟨inv, _⟩ := run
  by_cases hit : ∃ e ∈ s.self.dcache, e.addr = s.dataAddr rb imm
  · obtain ⟨e, he, at_a, read⟩ := State.dread16_hit hit
    refine ⟨_, exec_lw may even read, fun f hf same => ?_, fun miss => absurd at_a (miss e he)⟩
    obtain ⟨_, nodup, _⟩ := inv.dcacheWf s.self s.self_mem
    obtain rfl := entry_unique nodup hf he (same.trans at_a.symm)
    rw [same]
    exact ⟨rfl, rfl, rfl, rfl⟩
  · have miss : ∀ e ∈ s.self.dcache, e.addr ≠ s.dataAddr rb imm := fun e he same => hit ⟨e, he, same⟩
    obtain ⟨t, fills, filled⟩ := State.fill_filled inv registered even le miss
    refine ⟨_, exec_lw may even ((State.dread16_miss miss).trans fills), fun e he same => absurd same (miss e he),
      fun _ => ⟨filled.dcache, fun e he dirty left => filled.wroteBack inv registered he dirty left, filled.before,
        filled.after, fun c hc rc e he same => ?_⟩⟩
    refine Eq.trans filled.filled ?_
    rw [← same]
    exact State.granuleNow_of_held inv (State.others_mem hc) rc he

/-! ## A write of a granule -/

/-- On a miss the granule is filled and then written as on a hit (R86). -/
theorem State.dwrite16_miss {s t : State} {a : Nat} {v w : Half} (miss : ∀ e ∈ s.self.dcache, e.addr ≠ a)
    (fills : s.fill a = .ok w t) (present : ∃ e ∈ t.self.dcache, e.addr = a) : s.dwrite16 a v = t.dwrite16 a v := by
  have ensured : t.ensure a = .ok () t := by
    unfold State.ensure
    split
    · rfl
    · next absent =>
      obtain ⟨e, he, at_a⟩ := present
      exact absurd at_a (dcacheFind_none absent e he)
  have fetched : s.ensure a = .ok () t := by
    unfold State.ensure
    rw [dcacheFind_of_miss miss, fills]
    rfl
  rw [State.dwrite16, State.dwrite16, ensured, fetched]

theorem dcacheWithout_of_miss {d : List DEntry} {a : Nat} (miss : ∀ e ∈ d, e.addr ≠ a) : dcacheWithout d a = d := by
  rw [dcacheWithout, List.filter_eq_self]
  exact fun e he => bne_iff_ne.mpr (miss e he)

/-- A store whose granules are all in the cache writes no byte of the backend (R86). -/
theorem State.memWrite_held {s : State} {width : Width} {pa : Nat} (al : pa % accessBytes width = 0)
    (held : ∀ b, b % 2 = 0 → granule pa ≤ b → b < pa + accessBytes width → ∃ e ∈ s.self.dcache, e.addr = b) (v : Word) :
    ∃ t, s.memWrite width pa v = .ok () t ∧ t.mem = s.mem := by
  have le : granule pa ≤ pa := Nat.sub_le _ _
  cases width with
  | byte =>
    obtain ⟨e, _, at_a, read⟩ := State.dread16_hit (held _ (granule_even pa) le_rfl (Nat.lt_succ_of_le le))
    obtain ⟨t, write, mem, _⟩ := State.dwrite16_hit
      (s := s.setDcache (dcacheWithout s.self.dcache (granule pa) ++ [e]))
      ⟨e, List.mem_append_right _ List.mem_cons_self, at_a⟩ (withByte pa e.value (v.extractLsb' 0 8))
    refine ⟨t, ?_, mem⟩
    rw [State.memWrite, read, Res.bind_ok, write]
  | word =>
    obtain ⟨t, write, mem, _⟩ := State.dwrite16_hit (held pa al le (Nat.lt_add_of_pos_right Nat.two_pos))
      (v.extractLsb' 0 16)
    exact ⟨t, (if_pos al).trans write, mem⟩
  | dword =>
    have even : pa % 2 = 0 := by
      unfold accessBytes at al
      dsimp only at al
      omega
    obtain ⟨t, first, mem, dcache⟩ := State.dwrite16_hit (held pa even le (Nat.lt_add_of_pos_right (by decide : 0 < 4)))
      (v.extractLsb' 0 16)
    obtain ⟨f, hf, at_next⟩ := held (pa + 2) (by omega) (Nat.le_add_right_of_le le) (Nat.add_lt_add_left (by decide) pa)
    have stays : ∃ e ∈ t.self.dcache, e.addr = pa + 2 := by
      refine ⟨f, ?_, at_next⟩
      rw [dcache]
      exact List.mem_append_left _ (mem_dcacheWithout.mpr ⟨hf, by omega⟩)
    obtain ⟨u, second, mem', _⟩ := State.dwrite16_hit stays (v.extractLsb' 16 16)
    refine ⟨u, (if_pos al).trans ?_, mem'.trans mem⟩
    rw [first, Res.bind_ok, second]

theorem exec_stw {s u : State} {ra rb : Reg} {imm : Half} (even : s.dataAddr rb imm % 2 = 0)
    (write : s.dwrite16 (s.dataAddr rb imm) ((s.reg ra).extractLsb' 0 16) = .ok () u) :
    exec (.stw ra rb imm) s = .next u.retire :=
  exec_of_ok (exec_eq _ s) (.inl rfl) ((if_pos even).trans write)

/-- Settles O55: a store is a write to a present granule, after a fill where it was absent. -/
theorem storeLeavesTheWriterAlone : Obligations.StoreLeavesTheWriterAlone := by
  intro s ra rb imm a run ha
  subst ha
  refine ⟨fun ok => ?_, fun width i hi ok held => ?_⟩
  · obtain ⟨even, _, le⟩ := ok
    have registered := Running.registered run
    obtain ⟨inv, _⟩ := run
    obtain ⟨t, write, writes⟩ := State.dwrite16_ok inv registered even le ((s.reg ra).extractLsb' 0 16)
    refine ⟨_, exec_stw even write, writes.sole, fun e he at_a => ?_, fun miss => ?_⟩
    · obtain ⟨u, write', mem, dcache⟩ := State.dwrite16_hit ⟨e, he, at_a⟩ ((s.reg ra).extractLsb' 0 16)
      cases write.symm.trans write'
      exact ⟨mem, dcache⟩
    · obtain ⟨u, fills, filled⟩ := State.fill_filled inv registered even le miss
      have present : ∃ e ∈ u.self.dcache, e.addr = s.dataAddr rb imm := by
        rw [filled.dcache]
        exact ⟨_, List.mem_append_right _ List.mem_cons_self, rfl⟩
      obtain ⟨x, write', mem, dcache⟩ := State.dwrite16_hit present ((s.reg ra).extractLsb' 0 16)
      rw [State.dwrite16_miss miss fills present] at write
      cases write.symm.trans write'
      have room : dcacheWithout u.self.dcache (s.dataAddr rb imm) = s.dcacheWithRoom := by
        have others := dcacheWithout_of_miss fun e he => miss e (State.mem_dcacheWithRoom he)
        rw [filled.dcache, dcacheWithout, List.filter_append, ← dcacheWithout, others]
        simp
      rw [room] at dcache
      refine ⟨?_, dcache, ?_⟩
      · exact (congrArg (Memory.half · (s.dataAddr rb imm)) mem).trans filled.filled
      · intro b b_even ne
        have evicted := filled.evicted b b_even ne
        rw [← mem] at evicted
        exact evicted
  · obtain ⟨hp, he⟩ := effectOf_store hi
    obtain ⟨t, write, mem⟩ := State.memWrite_held ok.1 held (s.reg ra)
    exact ⟨_, exec_of_ok (exec_eq i s) (.inl hp) ((he s).trans write), mem⟩

end Sys2Proof.Machine
end
